-- ==== Sys2Proof/Word.lean ====
section
/-! DEFINITION. The word types, the data types, registers, operands and fields of an instruction word (spec/01). -/

namespace Sys2Proof

/-- A 32-bit register word. -/
abbrev Word := BitVec 32
/-- A byte. -/
abbrev Byte := BitVec 8
/-- A 64-bit value or address. -/
abbrev DWord := BitVec 64
/-- One bit per lane of a fibre (32 lanes). -/
abbrev LaneMask := BitVec 32
/-- A 96-bit instruction word (R17). -/
abbrev IWord := BitVec 96

/-- The sixteen data types of the TY field (R34), in the order of their codes. -/
inductive Ty where
  | b32 | s32 | n32 | s64 | n64 | f32 | f64 | f16 | bf16 | s16 | n16 | s8 | n8 | b8 | b64 | pred
  deriving DecidableEq, Repr

/-- The registers of R22. -/
inductive Reg where
  | v (n : Fin 64)
  | x (n : Fin 32)
  | o (n : Fin 8)
  | l (n : Fin 2)
  | s (n : Fin 32)
  | a (n : Fin 16)
  | ob (n : Fin 16)
  | q (n : Fin 4)
  | p (n : Fin 7)
  | pt
  | zero
  deriving DecidableEq, Repr

/-- A source field: unused, a register with its modifiers (R21), or a code field (R243). -/
inductive Opnd where
  | none
  | reg (r : Reg) (neg abs : Bool)
  | code (c : BitVec 8)
  deriving DecidableEq, Repr

/-- The D field (R20): the register it names, or the code CCTL keeps there (R96), with clamp and scale. -/
structure Dst where
  opnd  : Opnd
  clamp : Bool
  scale : BitVec 3
  deriving DecidableEq, Repr

/-- A guard field (R18): negate and predicate number, 7 meaning pt. -/
structure Guard where
  neg  : Bool
  pred : Fin 8
  deriving DecidableEq, Repr

/-- The four formats (R19). -/
inductive Fmt where
  | R | I | M | X
  deriving DecidableEq, Repr

/-- The fields of one instruction word, under the names of R36. In format M the base is s0 and the data or index s1; in
format X the one source is s0. A field that the format does not have holds zero, or `Opnd.none`. -/
structure Args where
  ty    : Ty
  ga    : Guard
  gb    : Guard
  gc    : Bool
  sos   : Bool
  yld   : Bool
  hint  : BitVec 3
  ch    : BitVec 2
  fmt   : Fmt
  d     : Dst
  s0    : Opnd
  s1    : Opnd
  s2    : Opnd
  s3    : Opnd
  imm   : BitVec 32
  off   : BitVec 16
  ord   : BitVec 2
  scope : BitVec 3
  space : BitVec 3
  aux   : BitVec 14
  boff  : BitVec 32
  bh    : BitVec 2
  sub   : BitVec 2
  deriving DecidableEq, Repr

/-! ## What other agents bring to an event -/

/-- What one rank of a collective brings (R182): its operation word, its count and root, and its input elements. -/
structure RankInput where
  op    : Nat
  red   : Nat
  ety   : Nat
  count : Nat
  root  : Nat
  elems : List Nat
  deriving DecidableEq, Repr

/-- The SPDM requests the model distinguishes (R382): the measurement blocks asked for, or a request answered by the
standard alone. -/
inductive SpdmRequest where
  | measurements (index : Nat)
  | signedMeasurements (index slot nonce : Nat)
  | certificate (slot : Nat)
  | setCertificate (slot : Nat) (chain : List (BitVec 8))
  | challenge (slot nonce : Nat)
  | keyExchange (slot : Nat) (share : List (BitVec 8))
  | heartbeat
  | endSession
  | other (code : Nat)
  deriving DecidableEq, Repr

/-- A change of one partition setting by the partition monitor (R380, R344, R51). -/
inductive SettingChange where
  | build
  | qmask (die : Nat) (mask : BitVec 16)
  | keys (kb kn : Nat)
  | skey (slot : Nat)
  | ktvec (v : BitVec 64)
  | tdeleg (v : BitVec 64)
  | tenmax (v : BitVec 64)
  | kq (n : Nat)
  | weight (w : Nat)
  | spoolShare (n : Nat)
  | batchLimit (n : Nat)
  | wsh (n : Nat)
  | gondolaShare (resource n : Nat)
  | ring (die : Nat) (value : Option (Nat × Nat))
  | lctx (vf : Nat) (root : BitVec 64)
  | cdom (pkgs : List Nat)
  | bindVf (vf : Nat) (on : Bool)
  | stage2Root (pa : Nat)
  | stage2Entry (pa : Nat) (value : BitVec 64)
  | cxlWindow (port base size : Nat)
  deriving DecidableEq, Repr

/-- Where a targeted self-test acts (R374): a DRAM row by its address, an L2 bank, or a bank of a core. -/
inductive TestPlace where
  | dramRow (pa : Nat)
  | l2Bank (die ways : Nat)
  | coreBank (core : Nat)
  deriving DecidableEq, Repr

end Sys2Proof
end

