-- ==== Sys2Proof/Config.lean ====
section
/-! DEFINITION. Constants of the implementation and the free values: opaque functions whose values nothing can know. -/

namespace Sys2Proof.Config

/-- DESIGN CHOICE (log 3): how many core clocks the step with this free-value number takes; R2 counts %tick in them and
the spec gives no number per instruction. -/
opaque clocks : Nat → Nat

/-- DESIGN CHOICE (log 9): the encryption of a 16-byte block under a key at its place (R60, R61): a permutation of the blocks that
nothing else is known of. -/
opaque cipher : Nat → Nat → Equiv.Perm (BitVec 128)

/-- DESIGN CHOICE (log 10): the tag of AES-GMAC of R367, a function of the key, the address and the
bytes; the standard's algorithm is not part of the spec. -/
opaque gmacTag : Nat → Nat → List (BitVec 8) → BitVec 128

/-- DESIGN CHOICE (log 13): how many payload blocks a save area of a workgroup with this descriptor has (R366 leaves the layout to
the generation). -/
opaque saveSize : Nat → Nat

/-- DESIGN CHOICE (log 13): a payload byte of a save: free-value number, block, byte. -/
opaque saveByte : Nat → Nat → Nat → BitVec 8

/-- DESIGN CHOICE (log 13): whether an incremental save writes a block: free-value number and block (R367). -/
opaque saveDirty : Nat → Nat → Bool

/-- DESIGN CHOICE (log 10): whether an ECDSA P-384 signature over SHA-384 verifies (R13, R15, R16, R40). -/
opaque signatureOk : List (BitVec 8) → Bool

/-- DESIGN CHOICE (log 10): the SHA-384 digest of a byte string (R383). -/
opaque sha384 : List (BitVec 8) → BitVec 384

/-- DESIGN CHOICE (log 14): whether a dirty line had been written back when a warm reset came: free-value number and line
address (R15, R82). -/
opaque lineEvicted : Nat → Nat → Bool

/-- DESIGN CHOICE (log 12): what a read of a device register or SRAM byte gives where the spec states no value. -/
opaque deviceByte : Nat → Nat → BitVec 8

/-- DESIGN CHOICE (log 10): what the device's SPDM identity signs over a message (R382). -/
opaque spdmSign : List (BitVec 8) → List (BitVec 8)

/-- DESIGN CHOICE (log 10): the identity certificate chain of slot 0 (R382). -/
opaque identityChain : List (BitVec 8)

/-- DESIGN CHOICE (log 10): the device's share of a key exchange: the number of the draw (R382). -/
opaque keyShare : Nat → List (BitVec 8)

/-- DESIGN CHOICE (log 56): the further 32 KiB frames that hold the DRAM row of an address (R374). -/
opaque rowFrames : Nat → List Nat

/-- DESIGN CHOICE (log 2): a free value: the number of the draw. -/
opaque freeValue : Nat → BitVec 64

end Sys2Proof.Config
end

