-- ==== Sys2Proof/Machine/Numbers.lean ====
section
/-! DEFINITION. Number formats and the arithmetic rules of spec/11: exact values, decoding, rounding, sums. -/

namespace Sys2Proof.Machine

/-! ## Integer types -/

/-- The width of a type in bits (R34, R267); pred counts as one bit. -/
def tyWidth : Ty → Nat
  | .b32 | .s32 | .n32 | .f32 => 32
  | .s64 | .n64 | .f64 | .b64 => 64
  | .f16 | .bf16 | .s16 | .n16 => 16
  | .s8 | .n8 | .b8 => 8
  | .pred => 1

/-- The types whose operands are 64 bits wide (R23). -/
def tyIs64 : Ty → Bool
  | .s64 | .n64 | .f64 | .b64 => true
  | _ => false

/-- The floating types; b8 is the narrow family. -/
def tyIsFloat : Ty → Bool
  | .f32 | .f64 | .f16 | .bf16 | .b8 => true
  | _ => false

/-- The signed integer types. -/
def tySigned : Ty → Bool
  | .s32 | .s64 | .s16 | .s8 => true
  | _ => false

/-- The unsigned integer types. -/
def tyUnsigned : Ty → Bool
  | .n32 | .n64 | .n16 | .n8 => true
  | _ => false

/-- The integer types, signed or unsigned. -/
def tyIsInt (t : Ty) : Bool := tySigned t || tyUnsigned t

/-- The logical types of R25. -/
def tyIsLogical : Ty → Bool
  | .b32 | .b64 | .pred => true
  | _ => false

/-- Two's-complement value of the low `w` bits of `n`. -/
def toSigned (w n : Nat) : Int :=
  let m := n % 2 ^ w
  if 2 * m < 2 ^ w then (m : Int) else (m : Int) - (2 ^ w : Nat)

/-- The low `w` bits of an integer, as a natural number. -/
def wrap (w : Nat) (x : Int) : Nat := (x % ((2 ^ w : Nat) : Int)).toNat

/-- The integer a bit pattern holds under a type: signed for s types, unsigned otherwise (R267). -/
def intOf (t : Ty) (n : Nat) : Int :=
  if tySigned t then toSigned (tyWidth t) n else ((n % 2 ^ tyWidth t : Nat) : Int)

/-- Least value of an integer type (R267). -/
def minValue (t : Ty) : Int := if tySigned t then -((2 ^ (tyWidth t - 1) : Nat) : Int) else 0

/-- Greatest value of an integer type (R267). -/
def maxValue (t : Ty) : Int :=
  if tySigned t then ((2 ^ (tyWidth t - 1) : Nat) : Int) - 1 else ((2 ^ tyWidth t : Nat) : Int) - 1

/-- The integer clamp of R26. -/
def clampInt (t : Ty) (x : Int) : Int :=
  if x < minValue t then minValue t else if maxValue t < x then maxValue t else x

/-- An exact integer result through the clamp to the bits of its type (R26, R37). -/
def intResult (t : Ty) (clamp : Bool) (x : Int) : Nat :=
  wrap (tyWidth t) (if clamp then clampInt t x else x)

/-! ## Exact values -/

/-- An exact value: NaN, an infinity, or (−1)^neg · m · 2^e, where m = 0 is a signed zero. -/
inductive Num where
  | nan
  | inf (neg : Bool)
  | fin (neg : Bool) (m : Nat) (e : Int)
  deriving DecidableEq, Repr

/-- Positive zero. -/
def Num.zero : Num := .fin false 0 0

/-- The exact value of an integer. -/
def Num.ofInt (x : Int) : Num := .fin (decide (x < 0)) x.natAbs 0

/-- The sign-inverted value. -/
def Num.negate : Num → Num
  | .nan => .nan
  | .inf s => .inf (!s)
  | .fin s m e => .fin (!s) m e

/-- Multiplication by 2^k, exactly. -/
def Num.scaleBy (k : Int) : Num → Num
  | .fin s m e => .fin s m (e + k)
  | x => x

/-- The exact product; 0 · Inf is NaN (R291). -/
def Num.mul : Num → Num → Num
  | .nan, _ => .nan
  | _, .nan => .nan
  | .inf s, .inf t => .inf (s != t)
  | .inf s, .fin t m _ => if m = 0 then .nan else .inf (s != t)
  | .fin s m _, .inf t => if m = 0 then .nan else .inf (s != t)
  | .fin s m e, .fin t n f => .fin (s != t) (m * n) (e + f)

/-- The rounding modes of %fmode (R275). -/
inductive RMode where
  | rne | rtz | rup | rdn
  deriving DecidableEq, Repr

/-- The rounding mode of code RM (R275). -/
def RMode.ofCode (n : Nat) : RMode :=
  match n % 4 with
  | 0 => .rne
  | 1 => .rtz
  | 2 => .rup
  | _ => .rdn

/-- Some term is NaN, or both infinities occur. -/
def anyNan (l : List Num) : Bool :=
  l.any (· == .nan) || (l.any (· == .inf false) && l.any (· == .inf true))

/-- The least exponent of the finite terms. -/
def minExp : List Num → Int → Int
  | [], acc => acc
  | .fin _ _ e :: l, acc => minExp l (min e acc)
  | _ :: l, acc => minExp l acc

/-- The integer sum of the finite terms in units of 2^base. -/
def alignedSum (base : Int) : List Num → Int
  | [] => 0
  | .fin s m e :: l =>
    let v : Int := ((m * 2 ^ (e - base).toNat : Nat) : Int)
    (if s then -v else v) + alignedSum base l
  | _ :: l => alignedSum base l

/-- The sign test of a zero sum: every term is a zero of this sign (R270). -/
def allZeros (neg : Bool) (l : List Num) : Bool :=
  l.all fun t => match t with
    | .fin s m _ => (s == neg) && m == 0
    | _ => false

/-- The exact sum of several terms with the sign of an exact zero (R270, R283, R291). -/
def sumNum (mode : RMode) (l : List Num) : Num :=
  if anyNan l then .nan
  else if l.any (· == .inf false) then .inf false
  else if l.any (· == .inf true) then .inf true
  else
    let base := match l with
      | .fin _ _ e :: _ => minExp l e
      | _ => minExp l 0
    let v := alignedSum base l
    if v = 0 then
      if allZeros true l then .fin true 0 0
      else if allZeros false l then .fin false 0 0
      else .fin (mode == .rdn) 0 0
    else .fin (decide (v < 0)) v.natAbs base

/-! ## Formats -/

/-- A floating format: precision, exponent of the last place of the least binade, largest finite magnitude code, the
codes of +Inf and NaN, the place of the sign bit (none for an unsigned format), and whether −0 exists (R268, R271, R272). -/
structure FloatFmt where
  prec    : Nat
  qmin    : Int
  maxCode : Nat
  inf     : Option Nat
  nan     : Nat
  sign    : Option Nat
  negZero : Bool
  deriving DecidableEq, Repr

/-- f64 (R268). -/
def fmtF64 : FloatFmt := ⟨53, -1074, 0x7FEFFFFFFFFFFFFF, some 0x7FF0000000000000, 0x7FF8000000000000, some 63, true⟩
/-- f32 (R268). -/
def fmtF32 : FloatFmt := ⟨24, -149, 0x7F7FFFFF, some 0x7F800000, 0x7FC00000, some 31, true⟩
/-- f16 (R268). -/
def fmtF16 : FloatFmt := ⟨11, -24, 0x7BFF, some 0x7C00, 0x7E00, some 15, true⟩
/-- bf16 (R268). -/
def fmtBF16 : FloatFmt := ⟨8, -133, 0x7F7F, some 0x7F80, 0x7FC0, some 15, true⟩

/-- The narrow format of a narrow format code (R271, R272, R273). -/
def fmtNarrow (code : Nat) : FloatFmt :=
  let p := code % 8
  let inf := code / 16 % 2 == 1
  if code / 8 % 2 == 0 then
    let bias : Nat := 2 ^ (8 - p - 1)
    ⟨p, 1 - (bias : Int) - ((p : Int) - 1), if inf then 0x7E else 0x7F, if inf then some 0x7F else none, 0x80, some 7, false⟩
  else
    let bias : Nat := 2 ^ (9 - p - 1)
    ⟨p, 1 - (bias : Int) - ((p : Int) - 1), if inf then 0xFD else 0xFE, if inf then some 0xFE else none, 0xFF, none, false⟩

/-- The format of a floating type; `nc` is the narrow format code where TY is b8. -/
def fmtOf (t : Ty) (nc : Nat) : FloatFmt :=
  match t with
  | .f64 => fmtF64
  | .f16 => fmtF16
  | .bf16 => fmtBF16
  | .b8 => fmtNarrow nc
  | _ => fmtF32

/-- The finite value of a magnitude code in a format (R268, R272). -/
def codeValue (f : FloatFmt) (neg : Bool) (m : Nat) : Num :=
  let h := 2 ^ (f.prec - 1)
  let e := m / h
  if e = 0 then .fin neg m f.qmin
  else .fin neg (h + m % h) (f.qmin + ((e - 1 : Nat) : Int))

/-- A wide code's value (R268): the all-ones exponent is Inf or NaN. -/
def decodeWide (f : FloatFmt) (c : Nat) : Num :=
  let sb := f.sign.getD 0
  let neg := c.testBit sb
  let m := c % 2 ^ sb
  match f.inf with
  | some i => if m < i then codeValue f neg m else if m = i then .inf neg else .nan
  | none => codeValue f neg m

/-- A narrow code's value (R272). -/
def decodeNarrow (f : FloatFmt) (c : Nat) : Num :=
  match f.sign with
  | some _ =>
    if c = 0x80 then .nan
    else if f.inf = some 0x7F ∧ c % 128 = 0x7F then .inf (decide (128 ≤ c))
    else codeValue f (decide (128 ≤ c)) (c % 128)
  | none =>
    if c = 0xFF then .nan
    else if f.inf = some c then .inf false
    else codeValue f false c

/-- The exact value of a code of a floating type (R268, R272). -/
def decodeFloat (t : Ty) (nc : Nat) (c : Nat) : Num :=
  if t = .b8 then decodeNarrow (fmtNarrow nc) (c % 256)
  else decodeWide (fmtOf t 0) (c % 2 ^ tyWidth t)

/-- The code of a NaN of a format (R269). -/
def nanCode (f : FloatFmt) : Nat := f.nan

/-- A magnitude code with its sign. -/
def withSign (f : FloatFmt) (neg : Bool) (m : Nat) : Nat :=
  match f.sign with
  | some b => if neg then m + 2 ^ b else m
  | none => m

/-- The result for a value outside the finite range, `exact` telling an exact infinity (R277). -/
def overflowCode (f : FloatFmt) (mode : RMode) (clamp exact neg : Bool) : Nat :=
  if f.sign = none ∧ neg = true then (if clamp then 0 else f.nan)
  else if clamp then withSign f neg f.maxCode
  else
    let toMax := !exact && (match mode, neg with
      | .rtz, _ => true
      | .rup, true => true
      | .rdn, false => true
      | _, _ => false)
    if toMax then withSign f neg f.maxCode
    else match f.inf with
      | some i => withSign f neg i
      | none => f.nan

/-- The rounding decision: a mode, or stochastic with hash `h` (R277, R278). -/
inductive Rounding where
  | mode (m : RMode)
  | stoch (h : Nat)
  deriving DecidableEq, Repr

/-- Whether the magnitude goes to the next code: `r` of `2^k` parts of a place remain above the lower code (R277, R278). -/
def roundUp (rd : Rounding) (neg : Bool) (low r k : Nat) : Bool :=
  match rd with
  | .mode .rne => decide (2 ^ k < 2 * r) || (decide (2 * r = 2 ^ k) && low % 2 == 1)
  | .mode .rtz => false
  | .mode .rup => !neg && decide (0 < r)
  | .mode .rdn => neg && decide (0 < r)
  | .stoch h => decide (h * 2 ^ k < r * 2 ^ 32)

/-- The unbounded magnitude code of m · 2^e on a format's grid (R277). A value below 2^-64 places rounds as one at 2^-64. -/
def magCode (f : FloatFmt) (rd : Rounding) (neg : Bool) (m : Nat) (e : Int) : Nat :=
  let top : Int := e + (Nat.log2 m : Int)
  let q : Int := max (top - ((f.prec : Int) - 1)) f.qmin
  let base := (q - f.qmin).toNat * 2 ^ (f.prec - 1)
  if q ≤ e then base + m * 2 ^ (e - q).toNat
  else
    let k := min (q - e).toNat (Nat.log2 m + 64)
    let low := base + m / 2 ^ k
    if roundUp rd neg low (m % 2 ^ k) k then low + 1 else low

/-- The mode of the overflow table: stochastic rounding overflows as RNE does (R277). -/
def Rounding.table : Rounding → RMode
  | .mode m => m
  | .stoch _ => .rne

/-- RoundTo(F, mode) with the clamp of R26 and R277. -/
def roundTo (f : FloatFmt) (rd : Rounding) (clamp : Bool) : Num → Nat
  | .nan => f.nan
  | .inf neg => overflowCode f rd.table clamp true neg
  | .fin neg m e =>
    let c := if m = 0 then 0 else magCode f rd neg m e
    if f.maxCode < c then overflowCode f rd.table clamp false neg
    else if f.sign = none then
      (if neg = true ∧ c ≠ 0 then (if clamp then 0 else f.nan) else c)
    else if c = 0 ∧ f.negZero = false then 0
    else withSign f neg c

/-- RoundTo(f32, RNE), the rounding of the matrix unit, the fast weights and float atomics (R276). -/
def roundF32 (x : Num) : Nat := roundTo fmtF32 (.mode .rne) false x

/-- The value of an f32 code. -/
def numF32 (c : Nat) : Num := decodeFloat .f32 0 c

/-- SRHash of R278. -/
def srHash (seed : BitVec 64) (lane elem : Nat) : Nat :=
  let z0 := seed ^^^ (BitVec.ofNat 64 (4 * lane + elem) * 0x9E3779B97F4A7C15#64)
  let z1 := (z0 ^^^ (z0 >>> 30)) * 0xBF58476D1CE4E5B9#64
  let z2 := (z1 ^^^ (z1 >>> 27)) * 0x94D049BB133111EB#64
  let z3 := z2 ^^^ (z2 >>> 31)
  (z3 >>> 32).toNat

/-! ## Integral values -/

/-- The magnitude of m · 2^e rounded to an integer (R295, R296). -/
def roundMag (rd : Rounding) (neg : Bool) (m : Nat) (e : Int) : Nat :=
  if 0 ≤ e then m * 2 ^ e.toNat
  else
    let k := (-e).toNat
    let low := m / 2 ^ k
    if roundUp rd neg low (m % 2 ^ k) k then low + 1 else low

/-- A value converted to an integer type, held to range; NaN gives 0 (R295). -/
def toIntType (t : Ty) (rd : Rounding) : Num → Int
  | .nan => 0
  | .inf neg => if neg then minValue t else maxValue t
  | .fin neg m e =>
    let v : Int := (roundMag rd neg m e : Nat)
    clampInt t (if neg then -v else v)

/-- A value rounded to an integral value, keeping the sign of zero (R296). -/
def roundIntegral (mode : RMode) : Num → Num
  | .fin neg m e => if 0 ≤ e ∨ m = 0 then .fin neg m e else .fin neg (roundMag (.mode mode) neg m e) 0
  | x => x

/-! ## Order of values (R279, R293) -/

/-- Compare the magnitudes of two finite values. -/
def cmpMag (m : Nat) (e : Int) (n : Nat) (f : Int) : Ordering :=
  let b := min e f
  compare (m * 2 ^ (e - b).toNat) (n * 2 ^ (f - b).toNat)

/-- The order of R279 on numbers that are no NaN; −0 lies below +0. -/
def numLt : Num → Num → Bool
  | .nan, _ => false
  | _, .nan => false
  | .inf s, .inf t => s && !t
  | .inf s, .fin _ _ _ => s
  | .fin _ _ _, .inf t => !t
  | .fin s m e, .fin t n f =>
    match s, t with
    | true, false => true
    | false, true => false
    | false, false => cmpMag m e n f == .lt
    | true, true => cmpMag m e n f == .gt

/-- Equality of values: −0 equals +0 (R293). -/
def numEq : Num → Num → Bool
  | .inf s, .inf t => s == t
  | .fin s m e, .fin t n f => (m == 0 && n == 0) || (s == t && cmpMag m e n f == .eq)
  | _, _ => false

/-- A value less than another as numbers: −0 is not less than +0 (R293). -/
def numLess (a b : Num) : Bool := numLt a b && !numEq a b

/-- Minimum or maximum of two codes of a floating type under R279: the result is an operand, or the canonical NaN. -/
def floatMinMax (t : Ty) (nc : Nat) (isMax : Bool) (x y : Nat) : Nat :=
  let a := decodeFloat t nc x
  let b := decodeFloat t nc y
  match a, b with
  | .nan, .nan => (fmtOf t nc).nan
  | .nan, _ => y
  | _, .nan => x
  | _, _ => if isMax then (if numLt a b then y else x) else (if numLt b a then y else x)

/-! ## Source modifiers (R25, R274) -/

/-- The absolute-value modifier on a code of a type. -/
def absCode (t : Ty) (nc : Nat) (n : Nat) : Nat :=
  if t = .b8 then
    (if nc / 8 % 2 == 0 then (if n % 256 = 0x80 then 0x80 else n % 128) else n % 256)
  else if tyIsFloat t then n % 2 ^ (tyWidth t - 1)
  else if tySigned t then wrap (tyWidth t) (((toSigned (tyWidth t) n).natAbs : Nat) : Int)
  else n % 2 ^ tyWidth t

/-- The negate modifier on a code of a type. -/
def negCode (t : Ty) (nc : Nat) (n : Nat) : Nat :=
  if t = .b8 then
    let c := n % 256
    if nc / 8 % 2 == 0 then (if c = 0 ∨ c = 0x80 then c else c ^^^ 0x80)
    else (if c = 0 ∨ c = 0xFF then c else 0xFF)
  else
    let c := n % 2 ^ tyWidth t
    if tyIsFloat t then c ^^^ 2 ^ (tyWidth t - 1)
    else if tyIsLogical t then 2 ^ tyWidth t - 1 - c
    else wrap (tyWidth t) (-(c : Int))

/-- Both modifiers, abs before neg (R21). -/
def applyMods (t : Ty) (nc : Nat) (neg abs : Bool) (n : Nat) : Nat :=
  let m := if abs then absCode t nc n else n % 2 ^ tyWidth t
  if neg then negCode t nc m else m

/-! ## Block scales (R280 to R282) -/

/-- The E8 scale applied to a value (R280). -/
def applyE8 (e : Nat) (x : Num) : Num := if e = 255 then .nan else x.scaleBy ((e : Int) - 127)

/-- Nibble `n` of a byte stream, low nibble first (R281). -/
def nibble (s : List Byte) (n : Nat) : Option Nat :=
  match s[n / 2]? with
  | some b => some (if n % 2 = 0 then b.toNat % 16 else b.toNat / 16)
  | none => none

/-- The scales of a stream after the first: `fuel` more blocks, the running scale and the next nibble (R281, R282). A
malformed stream answers the offending nibble. -/
def decodeScalesFrom (s : List Byte) : Nat → Nat → Nat → List Nat → Except Nat (List Nat)
  | 0, _, _, acc => .ok acc.reverse
  | fuel + 1, e, n, acc =>
    match nibble s n with
    | none => .error n
    | some 8 =>
      match nibble s (n + 1) with
      | none => .error (n + 1)
      | some lo =>
        match nibble s (n + 2) with
        | none => .error (n + 2)
        | some hi => decodeScalesFrom s fuel (lo + 16 * hi) (n + 3) ((lo + 16 * hi) :: acc)
    | some d =>
      let v : Int := (e : Int) + toSigned 4 d
      if v < 0 ∨ 255 < v then .error n
      else decodeScalesFrom s fuel v.toNat (n + 1) (v.toNat :: acc)

/-- The `nblocks` scales of a row's stream (R281). -/
def decodeScales (s : List Byte) (nblocks : Nat) : Except Nat (List Nat) :=
  match nblocks with
  | 0 => .ok []
  | k + 1 =>
    match nibble s 0, nibble s 1 with
    | some lo, some hi => decodeScalesFrom s k (lo + 16 * hi) 2 [lo + 16 * hi]
    | none, _ => .error 0
    | _, none => .error 1

/-! ## Fast-weight sums (R286) -/

/-- One level of the pairwise sum: neighbours added in f32 under RNE. -/
def pairLevel : List Nat → List Nat
  | a :: b :: l => roundF32 (sumNum .rne [numF32 a, numF32 b]) :: pairLevel l
  | l => l

/-- PairwiseSum over 64 f32 codes, in six levels (R286). -/
def pairwiseSum (l : List Nat) : Nat :=
  (pairLevel (pairLevel (pairLevel (pairLevel (pairLevel (pairLevel l)))))).headD 0

/-- f32 product under RNE. -/
def mulF32 (a b : Nat) : Nat := roundF32 ((numF32 a).mul (numF32 b))

/-- RoundTo(f32, RNE) of a · b + c with the product exact. -/
def fmaF32 (a b c : Nat) : Nat := roundF32 (sumNum .rne [(numF32 a).mul (numF32 b), numF32 c])

end Sys2Proof.Machine
end

