-- ==== Sys2Proof/Syntax.lean ====
section
/-! DEFINITION. The one inductive of the instructions and events: a constructor for every row of spec/opcode_table.json.

An instruction with an encoding (R38) carries the fields of its word. A row without an encoding is a step of another agent
(an engine, a scheduler, the firmware, a host); it carries what that agent brings: the place it acts on, and data from outside. -/

namespace Sys2Proof

/-- One constructor per row of the opcode table, in the table's order. A fibre place f is ((core·4 + sub-core)·16 + slot)·4
+ fibre; u is a sub-core, core·4 + sub-core; core is die·64 + quad·4 + core. -/
inductive Instr where
  /-- NOP (R246) -/
  | nop (a : Args)
  /-- BRA (R247) -/
  | bra (a : Args)
  /-- BRX (R247) -/
  | brx (a : Args)
  /-- CALL (R240) -/
  | call (a : Args)
  /-- CALLX (R240) -/
  | callx (a : Args)
  /-- RET (R241) -/
  | ret (a : Args)
  /-- EXIT (R211) -/
  | exit (a : Args)
  /-- YIELD (R212) -/
  | yield (a : Args)
  /-- REGANG (R213) -/
  | regang (a : Args)
  /-- TRAP (R248) -/
  | trap (a : Args)
  /-- BKPT (R248) -/
  | bkpt (a : Args)
  /-- IPREF (R409) -/
  | ipref (a : Args)
  /-- IFENCE (R410) -/
  | ifence (a : Args)
  /-- IADD (R249) -/
  | iadd (a : Args)
  /-- ISUB (R249) -/
  | isub (a : Args)
  /-- IMUL (R249) -/
  | imul (a : Args)
  /-- IMAD (R249) -/
  | imad (a : Args)
  /-- IMULHI (R249) -/
  | imulhi (a : Args)
  /-- IDIV (R250) -/
  | idiv (a : Args)
  /-- IMIN (R249) -/
  | imin (a : Args)
  /-- IMAX (R249) -/
  | imax (a : Args)
  /-- IABS (R249) -/
  | iabs (a : Args)
  /-- AND (R251) -/
  | and (a : Args)
  /-- OR (R251) -/
  | or (a : Args)
  /-- XOR (R251) -/
  | xor (a : Args)
  /-- LOP3 (R251) -/
  | lop3 (a : Args)
  /-- SHL (R252) -/
  | shl (a : Args)
  /-- SHR (R252) -/
  | shr (a : Args)
  /-- SAR (R252) -/
  | sar (a : Args)
  /-- SHF (R253) -/
  | shf (a : Args)
  /-- BFE (R254) -/
  | bfe (a : Args)
  /-- BFI (R254) -/
  | bfi (a : Args)
  /-- POPC (R255) -/
  | popc (a : Args)
  /-- CLZ (R255) -/
  | clz (a : Args)
  /-- BREV (R255) -/
  | brev (a : Args)
  /-- ISETP (R256) -/
  | isetp (a : Args)
  /-- SEL (R257) -/
  | sel (a : Args)
  /-- MOV (R258) -/
  | mov (a : Args)
  /-- MOVI (R258) -/
  | movi (a : Args)
  /-- LEA (R259) -/
  | lea (a : Args)
  /-- PLOP (R260) -/
  | plop (a : Args)
  /-- P2S (R261) -/
  | p2s (a : Args)
  /-- S2P (R261) -/
  | s2p (a : Args)
  /-- SHFL (R263) -/
  | shfl (a : Args)
  /-- LANEWR (R264) -/
  | lanewr (a : Args)
  /-- VOTE (R265) -/
  | vote (a : Args)
  /-- REDUX (R266) -/
  | redux (a : Args)
  /-- FADD (R291) -/
  | fadd (a : Args)
  /-- FMUL (R291) -/
  | fmul (a : Args)
  /-- FFMA (R291) -/
  | ffma (a : Args)
  /-- FMIN (R292) -/
  | fmin (a : Args)
  /-- FMAX (R292) -/
  | fmax (a : Args)
  /-- FADD_PK (R39) -/
  | faddPk (a : Args)
  /-- FMUL_PK (R39) -/
  | fmulPk (a : Args)
  /-- FFMA_PK (R39) -/
  | ffmaPk (a : Args)
  /-- FMIN_PK (R39) -/
  | fminPk (a : Args)
  /-- FMAX_PK (R39) -/
  | fmaxPk (a : Args)
  /-- FSETP (R293) -/
  | fsetp (a : Args)
  /-- FCVT (R295) -/
  | fcvt (a : Args)
  /-- FRND (R296) -/
  | frnd (a : Args)
  /-- FCLASS (R297) -/
  | fclass (a : Args)
  /-- RCP (R298) -/
  | rcp (a : Args)
  /-- RSQ (R298) -/
  | rsq (a : Args)
  /-- SQRT (R298) -/
  | sqrt (a : Args)
  /-- EX2 (R298) -/
  | ex2 (a : Args)
  /-- LG2 (R298) -/
  | lg2 (a : Args)
  /-- SIN (R298) -/
  | sin (a : Args)
  /-- COS (R298) -/
  | cos (a : Args)
  /-- TANH (R298) -/
  | tanh (a : Args)
  /-- LD (R89) -/
  | ld (a : Args)
  /-- ST (R89) -/
  | st (a : Args)
  /-- LDX (R90) -/
  | ldx (a : Args)
  /-- STX (R90) -/
  | stx (a : Args)
  /-- ATOM_ADD (R92) -/
  | atomAdd (a : Args)
  /-- ATOM_MIN (R92) -/
  | atomMin (a : Args)
  /-- ATOM_MAX (R92) -/
  | atomMax (a : Args)
  /-- ATOM_AND (R92) -/
  | atomAnd (a : Args)
  /-- ATOM_OR (R92) -/
  | atomOr (a : Args)
  /-- ATOM_XOR (R92) -/
  | atomXor (a : Args)
  /-- ATOM_EXCH (R92) -/
  | atomExch (a : Args)
  /-- ACAS (R92) -/
  | acas (a : Args)
  /-- RED_ADD (R94) -/
  | redAdd (a : Args)
  /-- RED_MIN (R94) -/
  | redMin (a : Args)
  /-- RED_MAX (R94) -/
  | redMax (a : Args)
  /-- RED_AND (R94) -/
  | redAnd (a : Args)
  /-- RED_OR (R94) -/
  | redOr (a : Args)
  /-- RED_XOR (R94) -/
  | redXor (a : Args)
  /-- STORE_QUEUE_DRAIN (R132): The oldest queued write or reduction of a fibre is performed in memory, in FIFO order. -/
  | storeQueueDrain (f : Nat)
  /-- FENCE (R140) -/
  | fence (a : Args)
  /-- FENCE_COMPLETE (R140): The fence's wait ends; for .sc it takes its place in the .sc order, and later accesses may proceed. -/
  | fenceComplete (f : Nat)
  /-- WAITA (R143) -/
  | waita (a : Args)
  /-- WAITA_WAKE (R143): A write to a monitored word wakes the lane, which re-reads the word and is done if it differs. -/
  | waitaWake (f lane : Nat)
  /-- WAITA_TIMEOUT (R143): %tick reaches a lane's deadline, and the lane is done with result 0. -/
  | waitaTimeout (f lane : Nat)
  /-- PREF (R95) -/
  | pref (a : Args)
  /-- CCTL_WB (R96) -/
  | cctlWb (a : Args)
  /-- CCTL_WBI (R96) -/
  | cctlWbi (a : Args)
  /-- CCTL_IVC (R96) -/
  | cctlIvc (a : Args)
  /-- CCTL_UNCLASS (R96) -/
  | cctlUnclass (a : Args)
  /-- TOPEN (R119) -/
  | topen (a : Args)
  /-- TACQ (R120) -/
  | tacq (a : Args)
  /-- TACQ_GRANT (R120): A waiting tenure request is granted in arrival order: lines are translated and marked, a holder entry is linked,
  and the acquire is made. -/
  | tacqGrant (f : Nat)
  /-- TREL (R121) -/
  | trel (a : Args)
  /-- TSPLIT (R122) -/
  | tsplit (a : Args)
  /-- TMERGE (R123) -/
  | tmerge (a : Args)
  /-- TCLOSE (R124) -/
  | tclose (a : Args)
  /-- TQUERY (R125) -/
  | tquery (a : Args)
  /-- HOLDER_SURRENDER (R114): A holder that receives a recall forwards it, stops its engine work, writes back dirty lines, revokes its
  entry, unlinks and acknowledges. -/
  | holderSurrender (core entry : Nat)
  /-- PINNED_DEADLINE (R117): %tick reaches a pinned tenure's deadline: the recall is forced, BRK is set, and TENURE_BROKEN is raised. -/
  | pinnedDeadline (core entry : Nat)
  /-- XCOPY (R180) -/
  | xcopy (a : Args)
  /-- XGATH (R180) -/
  | xgath (a : Args)
  /-- XSCAT (R180) -/
  | xscat (a : Args)
  /-- XCOLL (R181) -/
  | xcoll (a : Args)
  /-- XFLAG (R183) -/
  | xflag (a : Args)
  /-- QFENCE (R184) -/
  | qfence (a : Args)
  /-- QFENCE_JOIN_COMPLETE (R184): The joins complete and the waiting fibre makes its acquire and continues. -/
  | qfenceJoinComplete (f : Nat)
  /-- XRESUME (R185) -/
  | xresume (a : Args)
  /-- WINCH_CHUNK (R172): The winch performs one chunk of a transfer entry, counts it on the barrier object and advances prog, completing
  the entry after the last chunk. -/
  | winchChunk (f q : Nat)
  /-- FLAG_ENTRY_WRITE (R178): A flag entry at the head of its queue writes its value as a release at its scope. -/
  | flagEntryWrite (f q : Nat)
  /-- COLLECTIVE_CHUNK (R182): The collective engine performs and counts one 128-byte block of a rank's collective output. -/
  | collectiveChunk (f q : Nat) (ranks : List RankInput)
  /-- LINK_ACCESS (R157): A link-carried read or write arrives at a package and is performed at its home by the collective engine;
  `who` is the package that asks, and the partition. -/
  | linkAccess (who : Nat × Nat) (root : BitVec 64) (klvl : Bool) (va : BitVec 64) (len : Nat) (data : Option (List Byte)) (release : Bool)
  /-- BARINIT (R186) -/
  | barinit (a : Args)
  /-- BAREXP (R186) -/
  | barexp (a : Args)
  /-- BARARR (R186) -/
  | bararr (a : Args)
  /-- BARWAIT (R186) -/
  | barwait (a : Args)
  /-- BARWAIT_WAKE (R176): A waiter whose parity differs from PHASE wakes and departs, making its acquire. -/
  | barwaitWake (f : Nat)
  /-- ORSV (R310) -/
  | orsv (a : Args)
  /-- ORFREE (R310) -/
  | orfree (a : Args)
  /-- OBLD (R311) -/
  | obld (a : Args)
  /-- OBST (R311) -/
  | obst (a : Args)
  /-- MMA (R312) -/
  | mma (a : Args)
  /-- MMA_RESC (R284) -/
  | mmaResc (a : Args)
  /-- MSMX (R313) -/
  | msmx (a : Args)
  /-- MZERO (R314) -/
  | mzero (a : Args)
  /-- MLD (R315) -/
  | mld (a : Args)
  /-- MST (R315) -/
  | mst (a : Args)
  /-- MREAD (R316) -/
  | mread (a : Args)
  /-- MPIN (R327) -/
  | mpin (a : Args)
  /-- MUNPIN (R328) -/
  | munpin (a : Args)
  /-- MUNPIN_DROP (R328) -/
  | munpinDrop (a : Args)
  /-- MDELTA (R329) -/
  | mdelta (a : Args)
  /-- MDELTA_C (R330) -/
  | mdeltaC (a : Args)
  /-- MQUERY (R331) -/
  | mquery (a : Args)
  /-- MEVICT (R332) -/
  | mevict (a : Args)
  /-- MEVICT_DET (R332) -/
  | mevictDet (a : Args)
  /-- PINNED_TILE_EVICT (R324): The scheduler evicts a parked, resident state to free a tile for placement, with EF set on failure. -/
  | pinnedTileEvict (u entry : Nat)
  /-- BAR (R214) -/
  | bar (a : Args)
  /-- BARS (R214) -/
  | bars (a : Args)
  /-- BAR_PHASE_COMPLETE (R207): All participants have arrived; after the scope's fixed latency the waiters depart with an acquire. -/
  | barPhaseComplete (f : Nat)
  /-- FBAR (R215) -/
  | fbar (a : Args)
  /-- FBAR_PHASE_COMPLETE (R215): Every non-exited fibre of the slot has arrived, and the fibres depart. -/
  | fbarPhaseComplete (slot : Nat)
  /-- SPAWN (R216) -/
  | spawn (a : Args)
  /-- SPOOL_DISPATCH (R202): A spool group of 32 records, or one whose oldest record has waited 4,096 clk, is dispatched as a warp once a
  spawn slot is free. -/
  | spoolDispatch (die : Nat) (entry : BitVec 64) (lid core : Nat)
  /-- LAUNCH (R217) -/
  | launch (a : Args)
  /-- WORKGROUP_PLACE (R336): The scheduler places the next eligible workgroup, spool group or restored context on a core that fits it, and
  starts its fibres. -/
  | workgroupPlace (part : Nat) (cores : List Nat)
  /-- LAUNCH_COMPLETE (R200): When a launch is complete, the scheduler writes its ID to DONE as a release at .sys. -/
  | launchComplete (part lid : Nat)
  /-- SLOT_EXCHANGE (R340): The sub-core exchanges an eligible active slot with the longest-ready pending slot. -/
  | slotExchange (u : Nat)
  /-- WATCHDOG (R205): %wdog.COUNT reaches LIMIT; WATCHDOG is queued for the fibre and COUNT is cleared. -/
  | watchdog (f : Nat)
  /-- BALLAST_BACKGROUND_SPILL (R224): The ballast engine writes a lane's oldest resident frame and its record to memory, setting SBLK on failure. -/
  | ballastBackgroundSpill (f lane : Nat)
  /-- BALLAST_BACKGROUND_REFILL (R224): The ballast engine refills a lane's youngest spilled frame when room allows, abandoning it on failure. -/
  | ballastBackgroundRefill (f lane : Nat)
  /-- BALLAST_DEMAND_SPILL (R224): A spill made for a waiting CALL or trap delivery completes and the lane proceeds. -/
  | ballastDemandSpill (f lane : Nat)
  /-- BALLAST_DEMAND_REFILL (R230): A refill for a waiting RET or ERET completes, or traps REFILL_FAULT or RESERVED_FIELD. -/
  | ballastDemandRefill (f lane : Nat)
  /-- INSTRUCTION_FETCH (R405): A slice fetches the instruction at its selected PC, raising FETCH_FAULT if a demand fetch fails. -/
  | instructionFetch (f slice : Nat)
  /-- INSTRUCTION_PREFETCH (R407): A slice fetches lines ahead, dropping without fault any whose checks fail. -/
  | instructionPrefetch (f slice : Nat) (va : BitVec 64)
  /-- TRAP_DELIVERY_K (R353): At an instruction boundary the head trap entry is delivered to %ktvec with a handler frame and a handler-stack push. -/
  | trapDeliveryK (f : Nat)
  /-- TRAP_DELIVERY_U (R359): A delegated head entry is delivered as a CALL.adv16 to %utvec. -/
  | trapDeliveryU (f : Nat)
  /-- ERET (R360) -/
  | eret (a : Args)
  /-- MOVSR (R363) -/
  | movsr (a : Args)
  /-- MOVSW (R363) -/
  | movsw (a : Args)
  /-- TLBINV (R70) -/
  | tlbinv (a : Args)
  /-- TLBSYNC (R71) -/
  | tlbsync (a : Args)
  /-- TLBSYNC_COMPLETE (R71): Every earlier invalidation and every affected access has completed, and TLBSYNC completes as a release. -/
  | tlbsyncComplete (f : Nat)
  /-- STAGE2_FAULT_SERVICE (R66): The partition monitor repairs a stage-2 fault and releases the lanes, or converts it into a K-level PAGE_FAULT. -/
  | stage2FaultService (index : Nat) (repaired : Bool)
  /-- STAGE2_INVALIDATE (R70): The partition monitor removes the stage-2 translations of a partition, with the effect of TLBINV and TLBSYNC. -/
  | stage2Invalidate (part : Nat)
  /-- CTXSAVE (R371) -/
  | ctxsave (a : Args)
  /-- CTXLOAD (R371) -/
  | ctxload (a : Args)
  /-- HALT (R372) -/
  | halt (a : Args)
  /-- HALT_WAKE (R372): A trap entry, a service batch or the %tick deadline ends the HALT. -/
  | haltWake (f : Nat)
  /-- WWAIT (R391) -/
  | wwait (a : Args)
  /-- WWAIT_WAKE (R389): A served wake ends an enrolled WWAIT with result 1 and its acquire. -/
  | wwaitWake (f : Nat)
  /-- WWAIT_TIMEOUT (R391): %tick passes a WWAIT's deadline, and the entry is removed with result 0. -/
  | wwaitTimeout (f : Nat)
  /-- WWAKE (R391) -/
  | wwake (a : Args)
  /-- SVC (R395) -/
  | svc (a : Args)
  /-- SVC_F (R395) -/
  | svcF (a : Args)
  /-- SVC_TAKE (R395) -/
  | svcTake (a : Args)
  /-- SVC_REPLY (R395): STATUS becomes non-zero; the SVC acquires, reads the results and frees the slot. -/
  | svcReply (f : Nat)
  /-- SERVICE_DISPATCH (R345): The gondola gives the oldest batch of the partition with the least virtual time to a waiting SVC.take. -/
  | serviceDispatch (die : Nat)
  /-- LAUNCH_DOORBELL (R379): A host write to LDB reads, checks and enqueues a launch record and writes the result word. -/
  | launchDoorbell (vf : Nat) (record result : BitVec 64)
  /-- WREQ_ENROL (R388): A host request enrols a waiter on a key, or writes ¬NVAL when refused. -/
  | wreqEnrol (vf : Nat) (req : BitVec 256)
  /-- WREQ_WAKE (R388): A host request wakes up to COUNT waiters and writes the number woken. -/
  | wreqWake (vf : Nat) (req : BitVec 256)
  /-- WREQ_CANCEL (R388): A host request removes its waiting enrolment. -/
  | wreqCancel (vf : Nat) (req : BitVec 256)
  /-- SDONE (R393): A host write signals completion of service of a ring slot. -/
  | sdone (vf : Nat) (value : BitVec 64)
  /-- VF_REGISTER_WRITE (R379): A host access to another function register, or of an unsupported size, is handled as the BAR0 map gives. -/
  | vfRegisterWrite (vf offset size : Nat) (write : Bool) (value : BitVec 128)
  /-- HOST_WRITE (R161): A host write arriving on a port is performed at its home in the order its Relaxed Ordering attribute allows. -/
  | hostWrite (port pa : Nat) (data : List Byte) (relaxed : Bool)
  /-- HOST_READ (R161): A host read is answered with values performed no earlier than the writes that preceded it on the port. -/
  | hostRead (port pa len : Nat)
  /-- CXL_SNOOP (R376): A host CXL.cache snoop of a line the device holds is answered. -/
  | cxlSnoop (port pa : Nat) (exclusive : Bool)
  /-- FLUSH_COMPLETION (R160): The completion of a zero-length flush read makes the port's earlier relaxed writes performed at .sys. -/
  | flushCompletion (port : Nat)
  /-- FLUSH_TIMEOUT (R160): A flush read times out; the release completes and the port fails. -/
  | flushTimeout (port : Nat)
  /-- HOST_PORT_FAIL (R378): A port enters the failed state on link loss or an uncorrectable AER error. -/
  | hostPortFail (port : Nat) (aer : Bool)
  /-- HOST_PORT_RESET (R378): A host reset and retraining end a port's failed state. -/
  | hostPortReset (port : Nat)
  /-- SPDM_REQUEST (R382): An SPDM request over DOE or MCTP is answered. -/
  | spdmRequest (vf : Option Nat) (request : SpdmRequest)
  /-- IMSIC_SETEIPNUM (R384): A 4-byte store of an identity to an interrupt file sets that identity pending. -/
  | imsicSeteipnum (core file offset : Nat) (value : BitVec 32)
  /-- HOST_NOTIFY (R386): A store to a function's host-notify page raises MSI-X vector n as a release at .sys. -/
  | hostNotify (vf vector : Nat)
  /-- PARTITION_SETTING_CHANGE (R380): The partition monitor changes a partition's settings, applying to work that begins afterwards. -/
  | partitionSettingChange (part : Nat) (change : SettingChange)
  /-- KEY_SLOT_LOAD (R381): The monitor loads a key slot with a generated or unwrapped key. -/
  | keySlotLoad (slot key : Nat)
  /-- PARTITION_TEARDOWN (R381): The monitor writes back and discards the partition's lines, clears its key slots and frees its entries and rings. -/
  | partitionTeardown (part : Nat)
  /-- WARM_RESET (R82): A partition's warm reset discards its cached lines and pin entries and repeats step 6 of boot for its quads. -/
  | warmReset (part : Nat)
  /-- COLD_BOOT (R13): Cold reset runs the boot steps: firmware verification, acceptance of the configuration record, memory and link
  training, and the partition monitor start. -/
  | coldBoot (dieIdentity : BitVec 64) (image : List Byte)
  /-- CONFIG_RECORD_REPLACE (R13): With no accepted record, the management complex accepts a replacement record over I3C or JTAG. -/
  | configRecordReplace (record : List Byte)
  /-- CORE_RETIRE (R16): Error handling retires a core: a new record is built and a signing request is issued, and the core is excluded. -/
  | coreRetire (die quad core : Nat)
  /-- CONFIG_SIGNATURE_RETURN (R16): A returned signature is checked, and the signed record is written over the unused copy. -/
  | configSignatureReturn (signature : List Byte)
  /-- SELF_TEST (R374): After a memory or register error, a targeted self-test completes and keeps, remaps or retires the location. -/
  | selfTest (place : TestPlace) (pass spare : Bool)
  /-- POWER_LIMIT_SET (R10): The package power limit is set over I3C or by the partition monitor. -/
  | powerLimitSet (watts : Nat)
  /-- THROTTLE_STEP (R10): The firmware lowers or raises the core clock or issue duty to meet the power limit and 105 °C. -/
  | throttleStep (overPower overTemp : Bool)
  /-- POWER_LIMIT_UNMET (R10): The 100 ms average power still exceeds the limit at the lowest point; a power record is logged and the host
  signalled. -/
  | powerLimitUnmet (watts : Nat)
  /-- THERMAL_STOP (R10): At 115 °C on any die, issue stops, a thermal record is logged and the host signalled. -/
  | thermalStop (die celsius : Nat)
  /-- CONFIGURATION_REQUEST (R14): A host PCIe configuration request to the physical function is answered, with Configuration Request Retry
  Status until the partition monitor runs at boot step 6. -/
  | configurationRequest (port : Nat)
  deriving DecidableEq, Repr

end Sys2Proof
end

