-- ==== Sys2Proof/Machine/Encoding.lean ====
section
/-! DEFINITION. The opcode map (R38) and the operand table of every instruction: what each field may hold. -/

namespace Sys2Proof.Machine

/-! ## Type codes -/

/-- The code of a type (R34). -/
def tyCode : Ty → Nat
  | .b32 => 0 | .s32 => 1 | .n32 => 2 | .s64 => 3 | .n64 => 4 | .f32 => 5 | .f64 => 6 | .f16 => 7
  | .bf16 => 8 | .s16 => 9 | .n16 => 10 | .s8 => 11 | .n8 => 12 | .b8 => 13 | .b64 => 14 | .pred => 15

/-- The type of a code (R34). -/
def tyOf : Nat → Ty
  | 0 => .b32 | 1 => .s32 | 2 => .n32 | 3 => .s64 | 4 => .n64 | 5 => .f32 | 6 => .f64 | 7 => .f16
  | 8 => .bf16 | 9 => .s16 | 10 => .n16 | 11 => .s8 | 12 => .n8 | 13 => .b8 | 14 => .b64 | _ => .pred

/-! ## Registers (R22) -/

/-- Level and number of a register, as the low ten bits of an operand field. -/
def regCode : Reg → Nat
  | .v n => 4 * n.val
  | .x n => 4 * (64 + n.val)
  | .o n => 4 * n.val + 1
  | .l n => 4 * n.val + 2
  | .s n => 4 * n.val + 3
  | .a n => 4 * (128 + n.val) + 3
  | .ob n => 4 * (144 + n.val) + 3
  | .q n => 4 * (160 + n.val) + 3
  | .p n => 4 * (192 + n.val) + 3
  | .pt => 4 * 199 + 3
  | .zero => 4 * 255 + 3

/-- The register of a level and number; none where reserved. -/
def regOf (level num : Nat) : Option Reg :=
  match level with
  | 0 => if h : num < 64 then some (.v ⟨num, h⟩) else if h : num - 64 < 32 then some (.x ⟨num - 64, h⟩) else none
  | 1 => if h : num < 8 then some (.o ⟨num, h⟩) else none
  | 2 => if h : num < 2 then some (.l ⟨num, h⟩) else none
  | _ =>
    if h : num < 32 then some (.s ⟨num, h⟩)
    else if num < 128 then none
    else if h : num - 128 < 16 then some (.a ⟨num - 128, h⟩)
    else if h : num - 144 < 16 then some (.ob ⟨num - 144, h⟩)
    else if h : num - 160 < 4 then some (.q ⟨num - 160, h⟩)
    else if num < 192 then none
    else if h : num - 192 < 7 then some (.p ⟨num - 192, h⟩)
    else if num = 199 then some .pt
    else if num = 255 then some .zero
    else none

/-- A register that holds one value for all lanes (R22). -/
def regUniform : Reg → Bool
  | .s _ | .a _ | .ob _ | .q _ | .pt | .zero => true
  | _ => false

/-- The number a register has within its bank. -/
def regNum : Reg → Nat
  | .v n => n.val
  | .x n => n.val
  | .o n => n.val
  | .l n => n.val
  | .s n => n.val
  | .a n => n.val
  | .ob n => n.val
  | .q n => n.val
  | .p n => n.val
  | .pt => 7
  | .zero => 255

/-! ## What an operand position accepts -/

/-- The registers a position accepts: by bank, the alignment its number needs, the registers it spans, and the
modifiers (R23, R427). -/
structure Allow where
  v : Bool := false
  x : Bool := false
  o : Bool := false
  l : Bool := false
  s : Bool := false
  a : Bool := false
  ob : Bool := false
  q : Bool := false
  p : Bool := false
  pt : Bool := false
  zero : Bool := false
  align : Nat := 1
  span : Nat := 1
  neg : Bool := false
  abs : Bool := false

/-- Whether a register stands in an accepted bank. -/
def Allow.bank (al : Allow) : Reg → Bool
  | .v _ => al.v
  | .x _ => al.x
  | .o _ => al.o
  | .l _ => al.l
  | .s _ => al.s
  | .a _ => al.a
  | .ob _ => al.ob
  | .q _ => al.q
  | .p _ => al.p
  | .pt => al.pt
  | .zero => al.zero

/-- Alignment and room for a block of registers, in the banks that hold pairs and blocks. -/
def Allow.fits (al : Allow) : Reg → Bool
  | .v n => n.val % al.align == 0 && decide (n.val + al.span ≤ 64)
  | .x n => n.val % al.align == 0 && decide (n.val + al.span ≤ 32)
  | .o n => n.val % al.align == 0 && decide (n.val + al.span ≤ 8)
  | .s n => n.val % al.align == 0 && decide (n.val + al.span ≤ 32)
  | .l _ => al.align == 1
  | _ => true

/-- A register is accepted. -/
def Allow.ok (al : Allow) (r : Reg) : Bool := al.bank r && al.fits r

/-- A modifier that this register may carry: none on a, ob and Q registers (R23). -/
def modReg : Reg → Bool
  | .a _ | .ob _ | .q _ => false
  | _ => true

/-- The kinds of an operand position: unused, a register, a code field of R243, a register that 0 leaves out, or one that a
reserved form leaves unread, which may hold no reserved register number all the same (R23). -/
inductive Kind where
  | none
  | unread
  | reg (al : Allow)
  | code (ok : Nat → Bool)
  | optPred

/-- The word bits at which an operand field's checks fail; `low` is the field's lowest bit (R23, R33, R243). -/
def kindFails (low : Nat) (k : Kind) (raw : Nat) : List Nat :=
  match k with
  | .none => if raw = 0 then [] else [low]
  | .unread => if (regOf (raw % 4) (raw / 4 % 256)).isSome then [] else [low]
  | .code ok =>
    (if raw % 4 = 0 then [] else [low]) ++ (if ok (raw / 4 % 256) then [] else [low + 2])
      ++ (if raw.testBit 10 then [low + 10] else []) ++ (if raw.testBit 11 then [low + 11] else [])
  | .optPred =>
    if raw = 0 then [] else
      match regOf (raw % 4) (raw / 4 % 256) with
      | some (.p _) => if raw / 1024 = 0 then [] else [if raw.testBit 10 then low + 10 else low + 11]
      | _ => [low]
  | .reg al =>
    match regOf (raw % 4) (raw / 4 % 256) with
    | some r =>
      (if al.ok r then [] else [low])
        ++ (if raw.testBit 10 && !(al.neg && modReg r) then [low + 10] else [])
        ++ (if raw.testBit 11 && !(al.abs && modReg r) then [low + 11] else [])
    | none => [low]

/-- The operand a field holds under its kind. -/
def readOpnd (k : Kind) (raw : Nat) : Opnd :=
  match k with
  | .none => .none
  | .unread => .none
  | .code _ => .code (BitVec.ofNat 8 (raw / 4))
  | .optPred =>
    if raw = 0 then .none else
      match regOf (raw % 4) (raw / 4 % 256) with
      | some r => .reg r false false
      | none => .none
  | .reg _ =>
    match regOf (raw % 4) (raw / 4 % 256) with
    | some r => .reg r (raw.testBit 10) (raw.testBit 11)
    | none => .none

/-- The field that writes an operand. -/
def opndRaw : Opnd → Nat
  | .none => 0
  | .code c => 4 * c.toNat
  | .reg r neg abs => regCode r + (if neg then 1024 else 0) + (if abs then 2048 else 0)

/-- The operand's register is uniform, or it is a code field (R30, R243). -/
def opndUniform : Opnd → Bool
  | .none => true
  | .code _ => true
  | .reg r _ _ => regUniform r

/-- The operand names a per-lane register. -/
def opndPerLane (o : Opnd) : Bool := !opndUniform o

/-- The operand names a register. -/
def opndIsReg : Opnd → Bool
  | .reg _ _ _ => true
  | _ => false

/-! ## Common positions -/

/-- A value of a type: any register of R22 that R23 allows, modifiers by type (R25, R427). -/
def valAllow (t : Ty) (al : Allow := {}) : Allow :=
  { al with v := true, x := true, o := true, l := true, s := true, zero := true,
            align := if tyIs64 t then 2 else 1, span := if tyIs64 t then 2 else 1, neg := true, abs := tyIsFloat t || tySigned t }

/-- A source value of a type. -/
def kVal (t : Ty) : Kind := .reg (valAllow t)
/-- A source value that may name a0–a15 where the type is 64 bits wide (R245). -/
def kValA (t : Ty) : Kind := .reg (valAllow t { a := tyIs64 t })
/-- A destination of a type (no latch, R23). -/
def dstAllow (wide : Bool) : Allow :=
  { v := true, x := true, o := true, s := true, zero := true, align := if wide then 2 else 1, span := if wide then 2 else 1 }
/-- A destination of a type. -/
def kDst (t : Ty) : Kind := .reg (dstAllow (tyIs64 t))
/-- A destination that may name a0–a15 (R245). -/
def kDstA (t : Ty) : Kind := .reg { dstAllow (tyIs64 t) with a := tyIs64 t }
/-- A predicate source, neg allowed (R244). -/
def kPred : Kind := .reg { p := true, pt := true, neg := true }
/-- A predicate destination or zero. -/
def kPredDst : Kind := .reg { p := true, zero := true }
/-- A per-lane register of level 00 or 01 as destination. -/
def kLaneDst (wide zero : Bool) : Kind :=
  .reg { v := true, x := true, o := true, zero := zero, align := if wide then 2 else 1, span := if wide then 2 else 1 }
/-- An s register. -/
def kS : Kind := .reg { s := true }
/-- An s register or zero. -/
def kSZ : Kind := .reg { s := true, zero := true }
/-- An even s register. -/
def kSE : Kind := .reg { s := true, align := 2, span := 2 }
/-- An even s register or zero. -/
def kSEZ : Kind := .reg { s := true, zero := true, align := 2, span := 2 }
/-- A branch, call or prefetch target register (R239, R247). -/
def kTarget : Kind := .reg { v := true, x := true, o := true, s := true, a := true, align := 2, span := 2 }
/-- An engine queue. -/
def kQ : Kind := .reg { q := true }
/-- A reservation name. -/
def kOb : Kind := .reg { ob := true }
/-- A block of eight registers (R316, R326). -/
def kBlock8 : Kind := .reg { v := true, x := true, align := 8, span := 8 }
/-- A code up to a bound. -/
def kCode (hi : Nat) : Kind := .code fun c => decide (c ≤ hi)
/-- A narrow format code (R271). -/
def kNarrow : Kind := .code fun c => decide (c < 32) && c % 8 != 0
/-- A memory base: 64-bit in the generic, global and constant spaces, 32-bit elsewhere (R86). DESIGN CHOICE (log 53): where SPACE is 7, which is
reserved, the base is checked in the 64-bit form. -/
def kBase (space : Nat) : Kind :=
  if space = 0 ∨ space = 1 ∨ space = 6 ∨ space = 7 then
    .reg { v := true, x := true, o := true, s := true, a := true, zero := true, align := 2, span := 2 }
  else .reg { v := true, x := true, o := true, l := true, s := true, zero := true }

/-! ## The rows -/

/-- The fields of a word that a row's checks read. -/
structure Raw where
  opc : Nat
  ty : Ty
  ga : Nat
  gb : Nat
  gc : Bool
  ch : Nat
  fmt : Fmt
  d : Nat
  s0 : Nat
  s1 : Nat
  s2 : Nat
  s3 : Nat
  imm : Nat
  off : Nat
  ord : Nat
  scope : Nat
  space : Nat
  aux : Nat
  boff : Nat
  bh : Nat
  sub : Nat
  res : Nat
  deriving DecidableEq, Repr

/-- The code a raw source field holds (R243). -/
def rawCode (raw : Nat) : Nat := raw / 4 % 256

/-- The five operand kinds of an instruction. -/
structure Kinds where
  d  : Kind := .none
  s0 : Kind := .none
  s1 : Kind := .none
  s2 : Kind := .none
  s3 : Kind := .none

/-- A row of the opcode map (R38) with what its entry accepts. -/
structure Row where
  ctor : Args → Instr
  kOnly : Bool := false
  fmts : List Fmt
  tys : List Ty := [.b32]
  kinds : Raw → Kinds
  clamp : Raw → Bool := fun _ => false
  scale : Bool := false
  ch : Bool := false
  pt : Bool := false
  tile : Bool := false
  uniformDst : Bool := false
  ords : List Nat := [0]
  scopes : List Nat := [0, 1, 2, 3, 4, 5, 6]
  spaces : List Nat := [0]
  extra : Raw → List Nat := fun _ => []

/-- The four 32- and 64-bit integer types. -/
def ty4 : List Ty := [.s32, .n32, .s64, .n64]
/-- The two logical types. -/
def tyB : List Ty := [.b32, .b64]
/-- The wide floating types. -/
def tyF : List Ty := [.f64, .f32, .f16, .bf16]
/-- The memory types of LD and ST: every TY but pred (R85). -/
def tyM : List Ty := [.b32, .s32, .n32, .s64, .n64, .f32, .f64, .f16, .bf16, .s16, .n16, .s8, .n8, .b8, .b64]

/-- A row of a two-operand ALU instruction with an immediate form. -/
def rowAB (mk : Args → Instr) (tys : List Ty) (clamp : Raw → Bool := fun _ => false) (kb : Ty → Kind := kVal) : Row :=
  { ctor := mk, fmts := [.R, .I], tys := tys, clamp := clamp,
    kinds := fun r => { d := kDst r.ty, s0 := kVal r.ty, s1 := kb r.ty } }

/-- A row of a one-operand ALU instruction. -/
def rowA (mk : Args → Instr) (tys : List Ty) (clamp : Bool := false) (scale : Bool := false) : Row :=
  { ctor := mk, fmts := [.R], tys := tys, clamp := fun _ => clamp, scale := scale,
    kinds := fun r => { d := kDst r.ty, s0 := kVal r.ty } }

/-- A 32-bit count, position, length or lane operand, read as n32 (R244). -/
def kN32 (_ : Ty) : Kind := kVal .n32

/-- A memory row that loads. DESIGN CHOICE (log 53): the entry states GC = 0 and no trap for GC = 1, which joins the guards with OR (R28). -/
def rowLoad (mk : Args → Instr) (tys : List Ty) (kd : Ty → Kind) : Row :=
  { ctor := mk, fmts := [.M], tys := tys, ch := true, ords := [0, 1, 3], spaces := [0, 1, 2, 3, 4, 5, 6],
    kinds := fun r => { d := kd r.ty, s0 := kBase r.space } }

/-- A memory row that stores; GC = 1 as for a load (log 53). -/
def rowStore (mk : Args → Instr) (tys : List Ty) (kv : Ty → Kind) : Row :=
  { ctor := mk, fmts := [.M], tys := tys, ch := true, ords := [0, 1, 3], spaces := [0, 1, 2, 3, 4, 5],
    kinds := fun r => { s0 := kBase r.space, s1 := kv r.ty } }

/-- An atomic row (R91, R92). -/
def rowAtom (mk : Args → Instr) (tys : List Ty) (clamp : Bool := false) (zero : Bool := true) : Row :=
  { ctor := mk, fmts := [.M], tys := tys, ch := true, ords := [0, 1, 2, 3], spaces := [0, 1, 2, 3, 5], clamp := fun _ => clamp,
    kinds := fun r => { d := kLaneDst (tyIs64 r.ty) zero, s0 := kBase r.space, s1 := kVal r.ty } }

/-- A reduction row (R94): its clamp stands in D, which names no register. -/
def rowRed (mk : Args → Instr) (tys : List Ty) (clamp : Bool := false) : Row :=
  { ctor := mk, fmts := [.M], tys := tys, ch := true, ords := [0, 1, 3], spaces := [0, 1, 2, 3, 5], clamp := fun _ => clamp,
    kinds := fun r => { s0 := kBase r.space, s1 := kVal r.ty } }

/-- A special-function row. -/
def rowSpec (mk : Args → Instr) (tys : List Ty) : Row := rowA mk tys true true

/-- A cache-control row's D field is its operation (R96). -/
def rowCctl (r : Raw) : List Nat :=
  let op := rawCode r.d
  (if op = 0 ∨ op = 1 then (if r.scope = 1 ∨ r.scope = 3 ∨ r.scope = 6 then [] else [88])
   else if op = 2 then
     (if r.scope = 1 then [] else [88]) ++ (if r.s0 = 1023 then [] else [46]) ++ (if r.off = 0 then [] else [70])
   else if op = 3 then (if r.scope = 3 then [] else [88])
   else [])

/-- A row of the engine chapter: R format, pt guards. -/
def rowX (mk : Args → Instr) (k : Kinds) (ch : Bool := false) : Row :=
  { ctor := mk, fmts := [.R], pt := true, ch := ch, kinds := fun _ => k }

/-- A row of the barrier-object instructions (R186). -/
def rowBar (mk : Args → Instr) (ords : List Nat) (d s1 : Kind) : Row :=
  { ctor := mk, fmts := [.M], pt := true, ords := ords, spaces := [0, 2, 5], kinds := fun r => { d := d, s0 := kBase r.space, s1 := s1 } }

/-- A row of OBLD, OBST (R309, R311). DEDUCED (log 53): the offset in the reservation is of type n32 and so takes neg and abs, though R427's list does
not name it. -/
def rowOb (mk : Args → Instr) : Row :=
  { ctor := mk, fmts := [.M], tys := tyB, ch := true, ords := [0, 1, 3], spaces := [0, 1, 2, 3, 5],
    kinds := fun r => { d := kOb, s0 := kBase r.space, s1 := kVal .n32 } }

/-- A row of MLD, MST (R309, R315). -/
def rowTileMem (mk : Args → Instr) (tys : List Ty) : Row :=
  { ctor := mk, fmts := [.M], tys := tys, ch := true, tile := true, ords := [0, 1, 3], spaces := [0, 1, 2, 3, 5],
    kinds := fun r => { s0 := kBase r.space, s1 := kCode 15 } }

/-- The advance of a CALL: 4 to 60, a multiple of 4 (R239). -/
def advFails (r : Raw) : List Nat :=
  if 4 ≤ r.aux ∧ r.aux ≤ 60 ∧ r.aux % 4 = 0 then [] else [32]

/-- A field of format X that must be zero. -/
def zeroFails (bit v : Nat) : List Nat := if v = 0 then [] else [bit]

/-- The register numbers of R361. -/
def specialNumbers : List Nat :=
  [0, 1, 2, 3, 4, 5, 6, 7, 8, 9, 10, 11, 0x10, 0x11, 0x12, 0x13, 0x18, 0x19, 0x1A, 0x1B, 0x20, 0x21, 0x22, 0x23, 0x24, 0x25,
   0x26, 0x27, 0x30, 0x31, 0x32, 0x33, 0x34, 0x35, 0x36]

/-- The special registers held per lane (R361). -/
def perLaneSpecial (n : Nat) : Bool := n == 0 || n == 1 || n == 0x10 || n == 0x11 || n == 0x12

/-- The checks on the register number in imm (R361, R362). -/
def specialFails (r : Raw) : List Nat :=
  (if r.imm / 4096 = 0 then [] else [70]) ++ (if specialNumbers.contains (r.imm % 4096) then [] else [58])

/-- The IDIV remainder: a per-lane register or zero, or, in the scalar form, an s register (R30, R250). -/
def idivFails (r : Raw) : List Nat :=
  let uni (raw : Nat) : Bool := match regOf (raw % 4) (raw / 4 % 256) with
    | some g => regUniform g
    | none => true
  let scalar := uni r.d && uni r.s0 && uni r.s1
  match regOf (r.s3 % 4) (r.s3 / 4 % 256) with
  | some (.s _) => if scalar then [] else [82]
  | _ => []

/-- The checks of SHFL's control (R263). -/
def shflFails (r : Raw) : List Nat :=
  if r.fmt = .I then
    (if r.imm / 2048 = 0 then [] else [69]) ++ (if 5 < r.imm / 256 % 8 then [66] else [])
      ++ (if r.imm / 64 % 4 ≠ 2 ∧ r.imm / 32 % 2 = 1 then [63] else [])
  else (if 5 < rawCode r.s2 / 4 % 8 then [74] else [])

/-- The pairing of REDUX's operation and type, its clamp (R266, R244). -/
def reduxFails (r : Raw) : List Nat :=
  let op := rawCode r.s1 % 8
  (if 5 < op then [60] else if decide (op < 3) == (ty4.contains r.ty) then [] else [10])

/-- The checks of FCVT's options (R294). -/
def fcvtFails (r : Raw) : List Nat :=
  let c := rawCode r.s1
  let sty := tyOf (c % 16)
  (if c / 32 = 0 ∧ sty ≠ .b32 ∧ sty ≠ .b64 ∧ sty ≠ .pred then [] else [60])
    ++ (if c / 16 % 2 = 1 ∧ sty = .b8 then [64] else []) ++ (if tyIsInt sty && tyIsInt r.ty then [10] else [])

/-- The operand kinds of FCVT (R288, R294). -/
def fcvtKinds (r : Raw) : Kinds :=
  let c := rawCode r.s1
  let sty := tyOf (c % 16)
  { d := kDst r.ty, s0 := kVal sty, s1 := .code fun _ => true,
    s2 := if r.ty = .b8 then kNarrow else .none,
    s3 := if sty = .b8 then kNarrow
      else if c / 16 % 2 = 1 then .reg { v := true, x := true, o := true, s := true, zero := true, align := 2, span := 2 }
      else .none }

/-- The checks of MDELTA: its gates must lie within s0 to s31 (R329). -/
def mdeltaFails (r : Raw) : List Nat :=
  let t := rawCode r.s2 / 16 % 8 + 1
  if r.s3 / 4 % 256 + 2 * t - 1 ≤ 31 then [] else [82]

/-- The checks of SVC's immediate (R394). -/
def svcFails (r : Raw) : List Nat :=
  (if r.imm / 2 ^ 30 = 3 then [88] else []) ++ (if r.imm / 2 ^ 24 % 64 = 0 then [] else [82])
    ++ (if (r.imm / 2 ^ 30 = 1 ∨ r.imm / 2 ^ 30 = 2) ∧ r.imm % 2 ^ 24 ≠ 0 then [58] else [])
    ++ (if (r.imm / 2 ^ 30 = 1 ∨ r.imm / 2 ^ 30 = 2) then
          (if r.ga = 7 then [] else [14]) ++ (if r.gb = 7 then [] else [18]) ++ (if r.gc then [22] else []) else [])

/-- The operand kinds of SVC by its form (R394). -/
def svcKinds (r : Raw) : Kinds :=
  match r.imm / 2 ^ 30 with
  | 1 => { d := kSZ }
  | 2 => { d := kSE }
  | 3 => { d := .unread, s0 := .unread }
  | _ => { d := .reg { v := true, align := 8, span := 8 }, s0 := .reg { v := true, align := 8, span := 8 } }

/-- Group 0 of R38. -/
def row0 : Nat → Option Row
  | 0x000 => some { ctor := .nop, fmts := [.R], kinds := fun _ => {} }
  | 0x001 => some { ctor := .bra, fmts := [.X], tile := true, kinds := fun _ => {},
                    extra := fun r => zeroFails 32 r.aux ++ zeroFails 92 r.sub }
  | 0x002 => some { ctor := .brx, fmts := [.X], tile := true, kinds := fun _ => { s0 := kTarget },
                    extra := fun r => zeroFails 32 r.aux ++ zeroFails 58 r.boff ++ zeroFails 92 r.sub }
  | 0x003 => some { ctor := .call, fmts := [.X], tile := true, kinds := fun _ => {},
                    extra := fun r => advFails r ++ zeroFails 92 r.sub }
  | 0x004 => some { ctor := .callx, fmts := [.X], tile := true, kinds := fun _ => { s0 := kTarget },
                    extra := fun r => advFails r ++ zeroFails 58 r.boff ++ zeroFails 92 r.sub }
  | 0x005 => some { ctor := .ret, fmts := [.X], tile := true, kinds := fun _ => {},
                    extra := fun r => zeroFails 32 r.aux ++ zeroFails 58 r.boff ++ zeroFails 92 r.sub }
  | 0x006 => some { ctor := .exit, fmts := [.R], kinds := fun _ => {} }
  | 0x007 => some { ctor := .yield, fmts := [.R], pt := true, kinds := fun _ => {} }
  | 0x008 => some { ctor := .regang, fmts := [.R], kinds := fun _ => {} }
  | 0x009 => some { ctor := .trap, fmts := [.I], kinds := fun _ => {}, extra := fun r => zeroFails 82 (r.imm / 2 ^ 24) }
  | 0x00A => some { ctor := .bkpt, fmts := [.I], kinds := fun _ => {}, extra := fun r => zeroFails 82 (r.imm / 2 ^ 24) }
  | 0x00B => some { ctor := .ipref, fmts := [.X], tile := true,
                    kinds := fun r => { s0 := if r.sub = 0 then .none else if r.sub = 1 then kTarget else .unread },
                    extra := fun r => zeroFails 35 (r.aux / 8) ++ zeroFails 90 r.bh ++ (if 1 < r.sub then [92] else [])
                      ++ (if r.sub = 1 then zeroFails 58 r.boff else []) }
  | 0x00C => some { ctor := .ifence, fmts := [.R], pt := true, kinds := fun _ => {} }
  | _ => none

/-- Group 1 of R38 (R244). -/
def row1 : Nat → Option Row
  | 0x080 => some { rowAB .iadd ty4 (fun _ => true) with kinds := fun r => { d := kDstA r.ty, s0 := kValA r.ty, s1 := kValA r.ty } }
  | 0x081 => some { rowAB .isub ty4 (fun _ => true) with kinds := fun r => { d := kDstA r.ty, s0 := kValA r.ty, s1 := kValA r.ty } }
  | 0x082 => some (rowAB .imul ty4 (fun _ => true))
  | 0x083 => some { rowAB .imad ty4 (fun _ => true) with
                    fmts := [.R], kinds := fun r => { d := kDst r.ty, s0 := kVal r.ty, s1 := kVal r.ty, s2 := kVal r.ty } }
  | 0x084 => some (rowAB .imulhi ty4)
  | 0x085 => some { rowAB .idiv ty4 (fun _ => true) with
                    fmts := [.R], kinds := fun r => { d := kDst r.ty, s0 := kVal r.ty, s1 := kVal r.ty, s3 := kDst r.ty },
                    extra := idivFails }
  | 0x086 => some (rowAB .imin ty4)
  | 0x087 => some (rowAB .imax ty4)
  | 0x088 => some (rowA .iabs [.s32, .s64] true)
  | 0x089 => some (rowAB .and tyB)
  | 0x08A => some (rowAB .or tyB)
  | 0x08B => some (rowAB .xor tyB)
  | 0x08C => some { rowAB .lop3 tyB with
                    fmts := [.R], kinds := fun r => { d := kDst r.ty, s0 := kVal r.ty, s1 := kVal r.ty, s2 := kVal r.ty, s3 := kCode 255 } }
  | 0x08D => some (rowAB .shl [.b32, .s32, .n32, .b64, .s64, .n64] (fun r => tyIsInt r.ty) kN32)
  | 0x08E => some (rowAB .shr tyB (fun _ => false) kN32)
  | 0x08F => some (rowAB .sar [.s32, .s64] (fun _ => false) kN32)
  | 0x090 => some { rowA .shf [.b32] with
                    kinds := fun _ => { d := kDst .b32, s0 := kVal .b32, s1 := kVal .b32, s2 := kVal .n32, s3 := kCode 1 } }
  | 0x091 => some { rowA .bfe ty4 with kinds := fun r => { d := kDst r.ty, s0 := kVal r.ty, s1 := kVal .n32, s2 := kVal .n32 } }
  | 0x092 => some { rowA .bfi tyB with
                    kinds := fun r => { d := kDst r.ty, s0 := kVal r.ty, s1 := kVal r.ty, s2 := kVal .n32, s3 := kVal .n32 } }
  | 0x093 => some { rowA .popc tyB with kinds := fun r => { d := kDst .b32, s0 := kVal r.ty } }
  | 0x094 => some { rowA .clz tyB with kinds := fun r => { d := kDst .b32, s0 := kVal r.ty } }
  | 0x095 => some (rowA .brev tyB)
  | 0x096 => some { rowAB .isetp [.b32, .b64, .s32, .n32, .s64, .n64] with
                    kinds := fun r => { d := kPredDst, s0 := kVal r.ty, s1 := kVal r.ty } }
  | 0x097 => some { rowA .sel tyB with kinds := fun r => { d := kDst r.ty, s0 := kVal r.ty, s1 := kVal r.ty, s2 := kPred } }
  | 0x098 => some { rowA .mov tyB with uniformDst := true, kinds := fun r => { d := kDstA r.ty, s0 := kValA r.ty } }
  | 0x099 => some { rowAB .movi [.b32, .s32, .n32, .b64, .s64, .n64] with fmts := [.I], kinds := fun r => { d := kDstA r.ty } }
  | 0x09A => some { rowA .lea [.s32, .n32] with
                    kinds := fun r =>
                      let t64 : Ty := if r.ty = .s32 then .s64 else .n64
                      { d := kDstA t64, s0 := kValA t64, s1 := kVal r.ty, s2 := kCode 31 } }
  | 0x09B => some { rowA .plop [.pred] with
                    kinds := fun _ => { d := kPredDst, s0 := kPred, s1 := kPred, s2 := kPred, s3 := kCode 255 } }
  | 0x09C => some { rowA .p2s [.b32] with kinds := fun _ => { d := kLaneDst false false } }
  | 0x09D => some { rowA .s2p [.b32] with kinds := fun _ => { s0 := kVal .b32, s1 := kCode 127 } }
  | 0x09E => some { rowAB .shfl tyB with
                    kinds := fun r =>
                      { d := kLaneDst (tyIs64 r.ty) false, s0 := kVal r.ty,
                        s1 := kVal (if rawCode r.s2 % 4 = 2 then .s32 else .n32), s2 := kCode 31, s3 := .optPred },
                    extra := shflFails }
  | 0x09F => some { rowA .lanewr tyB with
                    kinds := fun r => { d := kLaneDst (tyIs64 r.ty) false, s0 := kVal r.ty, s1 := kVal .n32 } }
  | 0x0A0 => some { rowA .vote [.b32] with
                    uniformDst := true,
                    kinds := fun r =>
                      let m := rawCode r.s1
                      { d := if m = 2 ∨ m = 3 then kDst .b32 else if 4 < m then .unread else kPredDst, s0 := kPred, s1 := kCode 4 } }
  | 0x0A1 => some { rowA .redux [.s32, .n32, .s64, .n64, .b32, .b64] with
                    uniformDst := true, clamp := fun r => rawCode r.s1 % 8 == 0,
                    kinds := fun r =>
                      { d := if rawCode r.s1 / 8 % 2 = 1 then kLaneDst (tyIs64 r.ty) true else kDst r.ty,
                        s0 := kVal r.ty, s1 := kCode 15 },
                    extra := reduxFails }
  | _ => none

/-- A row of a two-source float instruction. -/
def rowF (mk : Args → Instr) (tys : List Ty) (fmts : List Fmt) (scale : Bool) (three : Bool := false) : Row :=
  { ctor := mk, fmts := fmts, tys := tys, clamp := fun _ => true, scale := scale,
    kinds := fun r => { d := kDst r.ty, s0 := kVal r.ty, s1 := kVal r.ty, s2 := if three then kVal r.ty else .none } }

/-- Group 2 of R38 (R288). -/
def row2 : Nat → Option Row
  | 0x100 => some (rowF .fadd tyF [.R, .I] true)
  | 0x101 => some (rowF .fmul tyF [.R, .I] true)
  | 0x102 => some (rowF .ffma tyF [.R] true true)
  | 0x103 => some (rowF .fmin tyF [.R] false)
  | 0x104 => some (rowF .fmax tyF [.R] false)
  | 0x120 => some (rowF .faddPk [.f16, .bf16] [.R] true)
  | 0x121 => some (rowF .fmulPk [.f16, .bf16] [.R] true)
  | 0x122 => some (rowF .ffmaPk [.f16, .bf16] [.R] true true)
  | 0x123 => some (rowF .fminPk [.f16, .bf16] [.R] false)
  | 0x124 => some (rowF .fmaxPk [.f16, .bf16] [.R] false)
  | 0x105 => some { rowF .fsetp tyF [.R] false with
                    clamp := fun _ => false, kinds := fun r => { d := kPredDst, s0 := kVal r.ty, s1 := kVal r.ty, s2 := kCode 7 } }
  | 0x106 => some { ctor := .fcvt, fmts := [.R], tys := [.s32, .n32, .s64, .n64, .f32, .f64, .f16, .bf16, .s16, .n16, .s8, .n8, .b8],
                    clamp := fun _ => true, scale := true, kinds := fcvtKinds, extra := fcvtFails }
  | 0x107 => some { rowA .frnd tyF with kinds := fun r => { d := kDst r.ty, s0 := kVal r.ty, s1 := kCode 4 } }
  | 0x108 => some { rowA .fclass [.f64, .f32, .f16, .bf16, .b8] with
                    kinds := fun r => { d := kDst .b32, s0 := kVal r.ty, s2 := if r.ty = .b8 then kNarrow else .none } }
  | 0x109 => some (rowSpec .rcp [.f32, .f64])
  | 0x10A => some (rowSpec .rsq [.f32, .f64])
  | 0x10B => some (rowSpec .sqrt [.f32, .f64])
  | 0x10C => some (rowSpec .ex2 [.f32])
  | 0x10D => some (rowSpec .lg2 [.f32])
  | 0x10E => some (rowSpec .sin [.f32])
  | 0x10F => some (rowSpec .cos [.f32])
  | 0x110 => some (rowSpec .tanh [.f32])
  | _ => none

/-- The types of atomic minimum and maximum (R91). -/
def tyMinMax : List Ty := [.s32, .n32, .s64, .n64, .f32]
/-- The types of atomic addition (R91). -/
def tyAdd : List Ty := [.s32, .n32, .s64, .n64, .f32, .f64]

/-- The block destination or data of LDX and STX (R90). -/
def kBlockX (t : Ty) : Kind :=
  if t = .b64 then .reg { v := true, x := true, align := 8, span := 8 }
  else .reg { v := true, x := true, o := true, align := 4, span := 4 }

/-- Group 3 of R38. CCTL's four operations share opcode 0x195. -/
def row3 : Nat → Option Row
  | 0x180 => some (rowLoad .ld tyM kDst)
  | 0x181 => some (rowStore .st tyM kVal)
  | 0x182 => some (rowLoad .ldx tyB kBlockX)
  | 0x183 => some (rowStore .stx tyB kBlockX)
  | 0x184 => some (rowAtom .atomAdd tyAdd true)
  | 0x185 => some (rowAtom .atomMin tyMinMax)
  | 0x186 => some (rowAtom .atomMax tyMinMax)
  | 0x187 => some (rowAtom .atomAnd tyB)
  | 0x188 => some (rowAtom .atomOr tyB)
  | 0x189 => some (rowAtom .atomXor tyB)
  | 0x18A => some (rowAtom .atomExch tyB)
  | 0x18B => some (rowAtom .acas tyB false false)
  | 0x18C => some (rowRed .redAdd tyAdd true)
  | 0x18D => some (rowRed .redMin tyMinMax)
  | 0x18E => some (rowRed .redMax tyMinMax)
  | 0x18F => some (rowRed .redAnd tyB)
  | 0x190 => some (rowRed .redOr tyB)
  | 0x191 => some (rowRed .redXor tyB)
  | 0x192 => some { ctor := .fence, fmts := [.M], ch := false, pt := true, ords := [2, 3], kinds := fun _ => {}, extra := fun r => zeroFails 70 r.off }
  | 0x193 => some { ctor := .waita, fmts := [.M], ch := true, ords := [0, 1], spaces := [0, 1, 2, 5],
                    kinds := fun r =>
                      { d := kPredDst, s0 := kBase r.space,
                        s1 := .reg { v := true, x := true, o := true, s := true, zero := true, align := 2, span := 2 } } }
  | 0x194 => some { ctor := .pref, fmts := [.M], ch := true, scopes := [1, 3], spaces := [0, 1, 3, 6], kinds := fun r => { s0 := kBase r.space } }
  | 0x195 => some { ctor := fun a => match a.d.opnd with
                      | .code 1#8 => .cctlWbi a
                      | .code 2#8 => .cctlIvc a
                      | .code 3#8 => .cctlUnclass a
                      | _ => .cctlWb a,
                    fmts := [.M], ch := true, spaces := [0, 1, 3],
                    kinds := fun r => { d := kCode 3, s0 := kBase r.space }, extra := rowCctl }
  | _ => none

/-- Group 4 of R38. -/
def row4 : Nat → Option Row
  | 0x200 => some { ctor := .topen, fmts := [.M], pt := true, spaces := [0, 1, 2, 6],
                    kinds := fun r =>
                      { d := kS,
                        s0 := if r.space = 2 then kSZ else .reg { s := true, a := true, zero := true, align := 2, span := 2 } } }
  | 0x201 => some (rowX .tacq { d := kPredDst, s0 := kSZ, s1 := kSZ })
  | 0x202 => some (rowX .trel { d := kPredDst, s0 := kSZ })
  | 0x203 => some (rowX .tsplit { d := kS, s0 := kSZ, s1 := kSZ, s3 := kS })
  | 0x204 => some (rowX .tmerge { d := kPredDst, s0 := kSZ })
  | 0x205 => some (rowX .tclose { s0 := kSZ })
  | 0x206 => some (rowX .tquery { d := kS, s0 := kSZ })
  | 0x210 => some (rowX .xcopy { s0 := kQ, s1 := kS } true)
  | 0x211 => some (rowX .xgath { s0 := kQ, s1 := kS } true)
  | 0x212 => some (rowX .xscat { s0 := kQ, s1 := kS } true)
  | 0x213 => some (rowX .xcoll { s0 := kQ, s1 := kS } true)
  | 0x214 => some (rowX .xflag { s0 := kQ, s1 := kSE, s2 := .reg { s := true, zero := true, neg := true }, s3 := kS })
  | 0x215 => some (rowX .qfence { s0 := kS })
  | 0x216 => some (rowX .xresume { d := kSZ, s0 := kQ, s1 := kSZ })
  | 0x218 => some (rowBar .barinit [0, 1] .none (.reg { s := true, zero := true, neg := true }))
  | 0x219 => some (rowBar .barexp [0] .none (.reg { s := true, zero := true, neg := true, abs := true }))
  | 0x21A => some (rowBar .bararr [0, 1] kPredDst (.reg { s := true, zero := true, neg := true }))
  | 0x21B => some (rowBar .barwait [0, 1] .none (.reg { p := true, pt := true, zero := true, neg := true }))
  | _ => none

/-- Group 5 of R38 (R309, R326). -/
def row5 : Nat → Option Row
  | 0x280 => some (rowX .orsv { d := kOb, s0 := kS })
  | 0x281 => some (rowX .orfree { s0 := kOb })
  | 0x282 => some (rowOb .obld)
  | 0x283 => some (rowOb .obst)
  | 0x284 => some { ctor := fun a => match a.s2 with
                      | .code c => if c.getLsbD 4 then .mmaResc a else .mma a
                      | _ => .mma a,
                    fmts := [.R], tile := true, kinds := fun _ => { s0 := kOb, s1 := kOb, s2 := kCode 31 } }
  | 0x285 => some { ctor := .msmx, fmts := [.R], tile := true,
                    kinds := fun _ => { s0 := kOb, s1 := .reg { s := true, neg := true, abs := true }, s2 := kCode 255, s3 := kCode 15 } }
  | 0x286 => some { ctor := .mzero, fmts := [.R], tile := true, kinds := fun _ => { s0 := kCode 15 } }
  | 0x287 => some (rowTileMem .mld [.f32])
  | 0x288 => some (rowTileMem .mst [.f32, .bf16])
  | 0x289 => some { ctor := .mread, fmts := [.R], tys := [.f32, .bf16], tile := true, kinds := fun _ => { d := kBlock8, s0 := .code fun _ => true },
                    extra := fun r => if rawCode r.s0 / 16 ≤ (if r.ty = .f32 then 8 else 3) then [] else [52] }
  | 0x290 => some { rowX .mpin {} with
                    kinds := fun r =>
                      { d := kPredDst, s0 := kSE,
                        s1 := .reg { s := true, a := true, align := 2, span := 2, zero := rawCode r.s2 / 16 == 1 }, s2 := kCode 63 },
                    extra := fun r => if rawCode r.s2 / 16 % 4 = 3 then [76] else [] }
  | 0x291 => some { rowX .munpin { s0 := kCode 31 } with
                    ctor := fun a => match a.s0 with
                      | .code c => if c.getLsbD 4 then .munpinDrop a else .munpin a
                      | _ => .munpin a }
  | 0x292 => some { ctor := fun a => match a.s2 with
                      | .code c => if c.toNat / 16 % 8 = 0 then .mdelta a else .mdeltaC a
                      | _ => .mdelta a,
                    fmts := [.R], tile := true,
                    kinds := fun r =>
                      { d := if rawCode r.s2 / 128 = 1 then kBlock8 else .none, s0 := kOb, s1 := kBlock8, s2 := .code fun _ => true,
                        s3 := kSE },
                    extra := mdeltaFails }
  | 0x293 => some { ctor := .mquery, fmts := [.R], tile := true,
                    kinds := fun _ => { d := kLaneDst false false, s0 := kOb, s1 := kCode 63, s2 := kCode 15 } }
  | 0x294 => some { rowX .mevict { s0 := kCode 31 } with
                    ctor := fun a => match a.s0 with
                      | .code c => if c.getLsbD 4 then .mevictDet a else .mevict a
                      | _ => .mevict a }
  | _ => none

/-- Group 6 of R38 (R210). -/
def row6 : Nat → Option Row
  | 0x300 => some (rowX .bar { s0 := kSZ })
  | 0x301 => some (rowX .bars { s0 := kSZ })
  | 0x302 => some (rowX .fbar {})
  | 0x303 => some { ctor := .spawn, fmts := [.R],
                    kinds := fun _ =>
                      { d := kPredDst, s0 := .reg { v := true, x := true, o := true, s := true, align := 2, span := 2 },
                        s1 := .reg { v := true, align := 4, span := 12 } } }
  | 0x304 => some (rowX .launch { d := kS, s0 := kSE })
  | _ => none

/-- Group 7 of R38. -/
def row7 : Nat → Option Row
  | 0x380 => some { ctor := .movsr, fmts := [.I], tys := tyB, kinds := fun r => { d := kDst r.ty },
                    extra := fun r => specialFails r ++
                      (match regOf (r.d % 4) (r.d / 4 % 256) with
                       | some d => if regUniform d && perLaneSpecial (r.imm % 4096) then [32] else []
                       | none => []) }
  | 0x381 => some { ctor := .movsw, fmts := [.I], tys := tyB,
                    kinds := fun r => { s0 := .reg { dstAllow (tyIs64 r.ty) with neg := true } }, extra := specialFails }
  | 0x382 => some { rowX .eret {} with kOnly := true }
  | 0x383 => some { ctor := fun a => if a.imm.toNat / 2 ^ 30 = 1 then .svcF a else if a.imm.toNat / 2 ^ 30 = 2 then .svcTake a else .svc a,
                    fmts := [.I], kinds := svcKinds, extra := svcFails }
  | 0x384 => some { ctor := .wwait, fmts := [.M], pt := true, ords := [0, 1], spaces := [0, 1],
                    kinds := fun _ => { d := kPredDst, s0 := .reg { s := true, a := true, zero := true, align := 2, span := 2 }, s1 := kSEZ } }
  | 0x385 => some { ctor := .wwake, fmts := [.M], pt := true, ords := [0, 1], spaces := [0, 1],
                    kinds := fun _ => { d := kSZ, s0 := .reg { s := true, a := true, zero := true, align := 2, span := 2 },
                                        s1 := .reg { s := true, zero := true, neg := true } } }
  | 0x386 => some { rowX .tlbinv { s0 := kSE, s1 := kS } with kOnly := true, tys := [.b64] }
  | 0x387 => some { rowX .tlbsync {} with kOnly := true }
  | 0x388 => some { ctor := .ctxsave, kOnly := true, fmts := [.M], pt := true, ords := [0, 1], spaces := [0, 1],
                    kinds := fun _ => { d := kPredDst, s0 := .reg { s := true, a := true, zero := true, align := 2, span := 2 }, s1 := kSE } }
  | 0x389 => some { ctor := .ctxload, kOnly := true, fmts := [.M], pt := true, ords := [0], spaces := [0, 1],
                    kinds := fun _ => { d := kPredDst, s0 := .reg { s := true, a := true, zero := true, align := 2, span := 2 } } }
  | 0x38A => some { rowX .halt { s0 := kSEZ } with kOnly := true }
  | _ => none

/-- The row of an opcode; none where R38 assigns nothing. -/
def rowOf (opc : Nat) : Option Row :=
  match opc / 128 with
  | 0 => row0 opc
  | 1 => row1 opc
  | 2 => row2 opc
  | 3 => row3 opc
  | 4 => row4 opc
  | 5 => row5 opc
  | 6 => row6 opc
  | _ => row7 opc

/-! ## The checks of R33, point 5 -/

/-- The immediate's unused bits (R27); SHFL and the control instructions use their immediate whole. DESIGN CHOICE (log 53): the field whose
low bit R33 reports is the part of the immediate that must be 0. -/
def immFails (r : Raw) : List Nat :=
  if r.fmt ≠ .I ∨ r.opc < 128 ∨ r.opc = 0x09E ∨ 0x380 ≤ r.opc then []
  else
    let w := tyWidth r.ty
    if r.ty = .pred then zeroFails 59 (r.imm / 2)
    else if w < 32 then zeroFails (58 + w) (r.imm / 2 ^ w)
    else []

/-- The guards must be pt where the row or R30 asks for it. -/
def ptFails (r : Raw) : List Nat :=
  (if r.ga = 7 then [] else [14]) ++ (if r.gb = 7 then [] else [18]) ++ (if r.gc then [22] else [])

/-- The operands of a word under the kinds of its row. -/
structure Operands where
  d  : Opnd
  s0 : Opnd
  s1 : Opnd
  s2 : Opnd
  s3 : Opnd

/-- The kinds with the fields that the format does not have left out (R19). -/
def formatKinds (f : Fmt) (k : Kinds) : Kinds :=
  match f with
  | .R => k
  | .I => { k with s1 := .none, s2 := .none, s3 := .none }
  | .M => { k with s2 := .none, s3 := .none }
  | .X => { s0 := k.s0 }

/-- The operands read under the kinds. -/
def operandsOf (k : Kinds) (r : Raw) : Operands :=
  { d := readOpnd k.d (r.d % 1024), s0 := readOpnd k.s0 r.s0, s1 := readOpnd k.s1 r.s1, s2 := readOpnd k.s2 r.s2, s3 := readOpnd k.s3 r.s3 }

/-- The field names a register of R22 where its position holds one: only then is its bank known. -/
def regKnown (k : Kind) (raw : Nat) : Bool :=
  match k with
  | .reg _ => (regOf (raw % 4) (raw / 4 % 256)).isSome
  | .optPred => raw == 0 || (regOf (raw % 4) (raw / 4 % 256)).isSome
  | _ => true

/-- Every operand field is known. -/
def regsKnown (k : Kinds) (r : Raw) : Bool :=
  regKnown k.d r.d && regKnown k.s0 r.s0 && regKnown k.s1 r.s1 && regKnown k.s2 r.s2 && regKnown k.s3 r.s3

/-- A scalar instruction of R30: it has register operands, and all of them are uniform. -/
def isScalar (row : Row) (o : Operands) : Bool :=
  !row.tile && (opndIsReg o.d || opndIsReg o.s0 || opndIsReg o.s1 || opndIsReg o.s2 || opndIsReg o.s3)
    && opndUniform o.d && opndUniform o.s0 && opndUniform o.s1 && opndUniform o.s2 && opndUniform o.s3

/-- A uniform destination with a per-lane source (R23); S3 of IDIV is a destination. -/
def uniformDstFails (row : Row) (r : Raw) (o : Operands) : List Nat :=
  match o.d with
  | .reg g _ _ =>
    if !row.uniformDst && regUniform g && g != .zero
        && (opndPerLane o.s0 || opndPerLane o.s1 || opndPerLane o.s2 || (opndPerLane o.s3 && r.opc != 0x085)) && r.opc / 128 != 5
    then [32] else []
  | _ => []

/-- The fixed fields of format M and X, and the operand fields a format leaves unused. -/
def formatFails (row : Row) (r : Raw) : List Nat :=
  match r.fmt with
  | .R => []
  | .I => zeroFails 90 (r.res % 2) ++ zeroFails 91 (r.res / 2 % 2) ++ zeroFails 92 (r.res / 4)
  | .M => (if row.ords.contains r.ord then [] else [86]) ++ (if row.scopes.contains r.scope then [] else [88])
      ++ (if row.spaces.contains r.space then [] else [91])
  | .X => []

/-- Clamp and scale (R23, R26). -/
def dstFails (row : Row) (r : Raw) : List Nat :=
  if r.fmt = .X then []
  else (if r.d.testBit 10 && !row.clamp r then [42] else []) ++ (if r.d / 2048 ≠ 0 ∧ !(row.scale && tyIsFloat r.ty) then [43] else [])

/-- The D field as its kind reads it: clamp and scale stand apart unless the instruction does not use the field (R20, R23). -/
def dstField (row : Row) (r : Raw) (k : Kind) : Nat :=
  match k with
  | .none => if row.clamp r then r.d % 1024 else r.d
  | _ => r.d % 1024

/-- Every word bit at which a check of R33 point 5 fails. `top` is bits [95:94]. -/
def fieldFails (row : Row) (top : Nat) (r : Raw) : List Nat :=
  let k := formatKinds r.fmt (row.kinds r)
  let o := operandsOf k r
  zeroFails 94 top ++ (if row.tys.contains r.ty then [] else [10]) ++ (if r.ch = 0 ∨ row.ch then [] else [28])
    ++ formatFails row r ++ immFails r
    ++ (if r.fmt = .X then [] else kindFails 32 k.d (dstField row r k.d))
    ++ kindFails 46 k.s0 r.s0 ++ kindFails 58 k.s1 r.s1 ++ kindFails 70 k.s2 r.s2 ++ kindFails 82 k.s3 r.s3
    ++ dstFails row r ++ row.extra r ++ (if row.pt || (regsKnown k r && isScalar row o) then ptFails r else []) ++ uniformDstFails row r o

end Sys2Proof.Machine
end

