-- ==== Sys2Proof/Machine/FMap.lean ====
section
/-! DEFINITION. Sparse maps as sorted lists of (key, value): `FMap` lists present keys; `SMap` reads a default elsewhere
and never lists it. -/

namespace Sys2Proof.Machine

/-- A partial map: strictly rising keys. -/
abbrev FMap (α : Type) := List (Nat × α)

/-- The value at a key. -/
def FMap.find {α : Type} : FMap α → Nat → Option α
  | [], _ => none
  | (k, v) :: m, i => if i = k then some v else FMap.find m i

/-- Set the value at a key, keeping the keys rising. -/
def FMap.put {α : Type} : FMap α → Nat → α → FMap α
  | [], i, x => [(i, x)]
  | (k, v) :: m, i, x =>
    if i < k then (i, x) :: (k, v) :: m
    else if i = k then (i, x) :: m
    else (k, v) :: FMap.put m i x

/-- Remove a key. -/
def FMap.del {α : Type} (m : FMap α) (i : Nat) : FMap α := m.filter fun e => !decide (e.1 = i)

/-- The keys rise strictly, from `lo` on. -/
def FMap.sortedFrom {α : Type} : Nat → FMap α → Bool
  | _, [] => true
  | lo, (k, _) :: m => decide (lo ≤ k) && FMap.sortedFrom (k + 1) m

/-- A total map with a default: the listed keys rise strictly and no listed value is the default. -/
abbrev SMap (α : Type) := List (Nat × α)

/-- The value at a key, the default where none is listed. -/
def SMap.get {α : Type} (d : α) (m : SMap α) (i : Nat) : α := (FMap.find m i).getD d

/-- Set a value; setting the default removes the entry. -/
def SMap.set {α : Type} [DecidableEq α] (d : α) (m : SMap α) (i : Nat) (x : α) : SMap α :=
  if x = d then FMap.del m i else FMap.put m i x

/-- The canonical form: rising keys, no entry equal to the default. -/
def SMap.wf {α : Type} [DecidableEq α] (d : α) (m : SMap α) : Bool :=
  FMap.sortedFrom 0 m && m.all fun e => decide (e.2 ≠ d)

/-- A finite set of numbers, rising. -/
abbrev NSet := List Nat

/-- Insert a number. -/
def NSet.add : NSet → Nat → NSet
  | [], i => [i]
  | k :: m, i => if i < k then i :: k :: m else if i = k then k :: m else k :: NSet.add m i

/-- Remove a number. -/
def NSet.del (m : NSet) (i : Nat) : NSet := m.filter (· ≠ i)

end Sys2Proof.Machine
end

