-- ==== Sys2Proof/Machine/State.lean ====
section
/-! DEFINITION. The state of the machine as plain data, and the state after reset. INVENTORY.md lists every field with its
rule. Indices: core C = die·64 + quad·4 + core, sub-core U = 4C + sub, slot S = 16U + slot, fibre place F = 4S + fibre. -/

namespace Sys2Proof.Machine

/-- A fault would stop the machine. No meaning raises one: every trap of R348 is taken as a next state. The one constructor
is there for a State no instruction can reach and is never used: safe. -/
inductive Fault where
  | none
  deriving DecidableEq, Repr

/-- A refusal. `notModelled` stands in an arm of exec whose instruction has no meaning yet (safe: nothing runs). -/
inductive Refusal where
  | notModelled (mnemonic : String)
  deriving DecidableEq, Repr

/-- A view: by location, the time of the latest write that an access must not precede (R149; log 5). -/
abbrev View := FMap Nat

/-- A release (R147, R148, R150): the releasing core, its scope, and the writes it makes visible (log 5). -/
structure Rel where
  core  : Nat
  scope : Nat
  view  : View
  deriving DecidableEq, Repr

/-- A fence's place in the .sc order (R155): its core and scope, and by location the latest write of each core that its fibre had made
or read before it. -/
structure ScFence where
  core  : Nat
  scope : Nat
  seen  : FMap View
  deriving DecidableEq, Repr

/-- Who makes a write: a fibre; a unit of a core, the hub or a host, with the writes that happen before its write; or an engine queue that
writes payload, which orders nothing before its entry is complete (R138). A unit acts for a partition and launch (R126, R146, R161, R164, R168). -/
inductive Writer where
  | fibre (f : Nat)
  | unit (view : View) (owner : Option (Nat × Nat))
  | payload (who : Nat) (owner : Option (Nat × Nat))
  deriving DecidableEq, Repr

/-- A write of the past, as it changed one byte: the byte before it, the key that byte stood under, its time, and the core of its agent
(log 5). -/
structure PastWrite where
  loc  : Nat
  old  : Byte
  time : Nat
  core : Nat
  key  : Nat
  deriving DecidableEq, Repr

/-! ## Fibres -/

/-- A link record (R221). -/
structure Link where
  rpc : BitVec 64
  adv : Nat
  hnd : Bool
  cfp : Nat
  deriving DecidableEq, Repr

/-- A frame transfer a lane waits for: a CALL's demand spill, with the state before its push and its target; a RET's
demand refill; a trap delivery's demand spill, and the delivery once its own frame, of `adv` words, has gone ahead to memory too; an ERET's
refill (R240, R241, R353, R360). -/
inductive LaneWait where
  | none
  | callSpill (target : BitVec 64) (oldFp : Nat)
  | retRefill
  | trapSpill (adv : Nat)
  | trapSpilled (adv : Nat)
  | eretRefill
  deriving DecidableEq, Repr

/-- What one lane holds: PC (R188), FP and depth (R220), RB (R222), the resident link records newest first (R221), SBLK
with the address and info of the failing access and whether a parity error set it (R229), and the latches (R232). -/
structure Lane where
  pc       : BitVec 64
  fp       : Nat
  depth    : Nat
  rb       : Nat
  links    : List Link
  sblk     : Bool
  sblkAddr : Nat
  sblkInfo : Nat
  sblkReg  : Bool
  l0       : Word
  l1       : Word
  wait     : LaneWait
  deriving DecidableEq, Repr

/-- A trap-queue entry (R350); `level` counts the handlers that ran when it was raised (R353). -/
structure TrapEntry where
  lmask : LaneMask
  cause : Nat
  async : Bool
  klvl  : Bool
  pc    : BitVec 64
  addr  : BitVec 64
  info  : BitVec 32
  laneAddr : List (BitVec 64)
  level : Nat := 0
  deriving DecidableEq, Repr

/-- One level of the handler stack (R356): what was in force before the delivery, and the delivered entry. -/
structure HandlerLevel where
  amask  : LaneMask
  klvl   : Bool
  ganged : Bool
  tcause : BitVec 64
  tpc    : BitVec 64
  taddr  : BitVec 64
  tinfo  : BitVec 32
  entry  : TrapEntry
  deriving DecidableEq, Repr

/-- A binding of a reservation name (R303, R310). -/
structure Reservation where
  off   : Nat
  rows  : Nat
  klen  : Nat
  ety   : Nat
  nfc   : Nat
  blk   : Nat
  rstr  : Nat
  soff  : Nat
  sstr  : Nat
  rmt   : Bool
  rcore : Nat
  roff  : Nat
  deriving DecidableEq, Repr

/-- What an engine entry does (R165, R169, R181, R183, R184); a collective carries its place among its package's collectives and the ranks of its
domain at the enqueue (R182). -/
inductive EntryKind where
  | copy (desc : BitVec 512) (kind : Nat)
  | coll (desc : BitVec 512) (count : Nat) (ranks : List Nat)
  | flag (addr : BitVec 64) (value : Word) (scope space : Nat)
  | join (id : Nat)
  deriving DecidableEq, Repr

/-- An outstanding entry of an engine queue, with the translation root and level of its enqueue, its cache hint, its
progress, the descriptor of the tile it names, if any, whether the chunk at hand is written and awaits its performance at
CSC before it is counted (R67, R116, R168, R172, R177), the writes its enqueue and its own chunks order (R168, R178), and what the
host ports had accepted when its release at .sys began (R160). -/
structure QEntry where
  kind  : EntryKind
  prog  : Nat
  root  : BitVec 64
  klvl  : Bool
  ch    : Nat
  tile  : BitVec 512
  sent  : Bool
  view  : View
  marks : List Nat
  deriving DecidableEq, Repr

/-- An engine queue: its entries, oldest first, whether a fault has stopped it (R165, R179), and the writes that its completed entries have made or
covered (R178, R184). -/
structure Queue where
  entries : List QEntry
  stopped : Bool
  view    : View
  deriving DecidableEq, Repr

/-- A queued write or reduction (R132): one access of R127. `loc` is the location of its first byte (see Ops.lean); `more` gives the
location, length and key of the parts that lie apart (R46); a reduction carries its operation, type and clamp;
`sh` tells that the frame's stage-2 leaf has SH = 1 (R59). -/
structure SqEntry where
  loc    : Nat
  bytes  : List Byte
  red    : Option (Nat × Ty × Bool)
  more   : List (Nat × Nat × Nat)
  ord    : Nat
  scope  : Nat
  key    : Nat
  mt     : Nat
  ch     : Nat
  sh     : Bool
  lane   : Nat
  va     : BitVec 64
  deriving DecidableEq, Repr

/-- What a group of lanes or a fibre waits for. `svcKept` keeps the slot of an SVC whose lanes a trap handler has taken; they wait on it
again when they execute the SVC again (R395); `reads` of WAITA are the times that each lane's last read answers (R145); `svcFull` are the
lanes of an SVC that found no free slot (R346). -/
inductive WaitKind where
  | fence (scope : Nat) (sc store : Bool)
  | waita (addr : List (Option (Nat × Nat))) (expect : List Word) (deadline : List (Option Nat)) (reads : List Nat)
    (done : List (Option Bool)) (dst : Option Nat) (acq : Bool) (scope : Nat)
  | tacq (handle : Nat) (wr pin : Bool) (dst : Option Nat)
  | qfence (id : Nat) (mask : Nat)
  | barwait (loc addr : Nat) (parity acq : Bool) (scope : Nat) (woken : Bool)
  | bar (key tag : Nat)
  | barNext (key tag : Nat) (wait : Bool)
  | fbar
  | wwait (key : Nat) (deadline : Option Nat) (woken : Bool) (dst : Option Nat) (acq : Bool) (scope : Nat)
  | svc (slot : Nat) (form : Nat) (dst : Nat)
  | svcKept (slot : Nat) (form : Nat) (dst : Nat)
  | svcTake (dst : Nat) (given : Option Nat)
  | svcFull (die : Nat)
  | tlbsync
  | halt (deadline : Option Nat)
  deriving DecidableEq, Repr

/-- A wait in progress (R144): its lanes, what it waits for, and the PC at which it goes on and re-executes. -/
structure Wait where
  lanes : LaneMask
  kind  : WaitKind
  pc    : BitVec 64
  since : Nat
  deriving DecidableEq, Repr

/-- An arrival of a fibre's slices at a barrier phase (R207): the scope instance and tag, the slices arrived, the phase,
the slices whose BAR will wait again (R214), and the writes that the arrival releases (R208). -/
structure Arrival where
  key    : Nat
  slices : BitVec 8
  phase  : Nat
  kept   : BitVec 8
  view   : View
  deriving DecidableEq, Repr

/-- An invalidation a fibre has posted and no TLBSYNC has completed (R70). -/
structure Inval where
  part : Nat
  kind : Nat
  asid : Nat
  va   : Nat
  leafOnly : Bool
  deriving DecidableEq, Repr

/-- Lanes whose next instruction the scoreboard holds for an operand (R192, R340): since when, whether the wait keeps the slot (no SOS), whether
its HINT makes it long, and whether the operand has returned. -/
structure OpWait where
  lanes : LaneMask
  since : Nat
  keeps : Bool
  long  : Bool
  back  : Bool
  deriving DecidableEq, Repr

/-- One fibre (R191). `held` are the lane groups that found no place in the trap queue, `again` those that execute again next (R352). What
orders its accesses: `view` the writes that happen before what it does next, `seen` by location the latest write of each core that it has
made or read, `low` the writes its reads must not precede besides (R153, R155), `relPend` the releases it has read and not acquired,
`relFence` those of its FENCEs (R147 to R150; log 5); `marks` what the ports had accepted when its release at .sys began (R160); `late` the
window writes of loads whose data have yet to return: lane, register, value (R136); `heldLong` that its last attempt to issue ended in a
long wait, `opWaits` its lanes that wait for an operand (R192); `keys` the key window KB and KN of its partition when it began, none where
that is the partition's own (R380). -/
structure Fibre where
  part    : Nat
  lid     : Nat
  wg      : Nat
  warp    : Nat
  fibre   : Nat
  spawned : Bool
  klvl    : Bool
  lanes   : Vector Lane 32
  exited  : LaneMask
  parked  : LaneMask
  stopped : LaneMask
  held    : List LaneMask
  again   : List LaneMask
  amask   : LaneMask
  ganged  : Bool
  lastSlice : Nat
  waits   : List Wait
  arrivals : List Arrival
  fbar    : BitVec 8
  fbarKept : BitVec 8
  fbarPass : BitVec 8
  preds   : SMap LaneMask
  sregs   : SMap Word
  aregs   : SMap (BitVec 64)
  oregs   : SMap Word
  obs     : FMap Reservation
  queues  : Vector Queue 4
  sq      : List SqEntry
  trapq   : List TrapEntry
  pendingAsync : List TrapEntry
  hstack  : List HandlerLevel
  fmode   : BitVec 64
  prog    : BitVec 64
  wdLimit : Nat
  wdCount : Nat
  tenmax  : BitVec 64
  lwm     : Nat
  spb     : BitVec 64
  lkb     : BitVec 64
  spw     : Nat
  lkn     : Nat
  lpb     : BitVec 64
  lpl     : BitVec 64
  scratchbase : BitVec 64
  pgroot  : BitVec 64
  tcause  : BitVec 64
  tpc     : BitVec 64
  taddr   : BitVec 64
  tinfo   : BitVec 32
  ktvec   : BitVec 64
  utvec   : BitVec 64
  tdeleg  : BitVec 64
  frozen  : Bool
  exiting : Bool
  poison  : NSet
  dirty   : BitVec 3
  fetched : FMap (List (BitVec 64 × IWord))
  opWaits : List OpWait
  keys    : Option (Nat × Nat)
  invals  : List Inval
  view    : View
  relPend : List Rel
  relFence : List Rel
  seen    : FMap View
  low     : View
  marks   : List Nat
  late    : List (Nat × Nat × Word)
  heldLong : Bool
  deriving DecidableEq, Repr

/-! ## Workgroups, launches, cores -/

/-- A resident workgroup: its launch's descriptor (R194), its place, its allocations on each sub-core (R336), its barrier
route tags (R206) and its save areas (R367). -/
structure Wg where
  part    : Nat
  lid     : Nat
  wg      : Nat
  core    : Nat
  klvl    : Bool
  kdesc   : BitVec 512
  nwarp   : Nat
  fibs    : Nat
  ring    : Nat
  win     : Nat
  acc     : Nat
  ntag    : Nat
  cor     : Bool
  fuse    : Bool
  scrBase : Nat
  scrSize : Nat
  obBase  : List Nat
  obSize  : Nat
  tiles   : FMap (Nat × Nat)
  fibres  : List Nat
  slots   : List Nat
  spawnSlot : Option Nat
  saveArea : Nat
  saveSeq  : Nat
  dirtyUnits : NSet
  deriving DecidableEq, Repr

/-- A slot (R192, R218, R339): the fibre that is current, its window size, ring base and sub-ring length, whether active,
and since when it has been ready or eligible. -/
structure Slot where
  cur      : Nat
  nfib     : Nat
  win      : Nat
  ringBase : Nat
  ringLen  : Nat
  quads    : Nat
  active   : Bool
  readySince : Option Nat
  eligibleSince : Option Nat
  wgKey    : Nat
  deriving DecidableEq, Repr

/-- Z, the words of a sub-ring: a multiple of 4 (R218). -/
def Slot.z (sl : Slot) : Nat := 4 * sl.quads

/-- An entry of an accumulator ownership table (R317); `tile` is the physical tile that holds a resident state, `klvl` the
level of the pinning fibre (log 22), `lastUse` the time of the last use (R324). -/
structure OwnEntry where
  res   : Bool
  ef    : Bool
  owned : Bool
  ltile : Nat
  part  : Nat
  olid  : Nat
  owg   : Nat
  key   : Nat
  spa   : Nat
  pgr   : BitVec 64
  klvl  : Bool
  dmask : LaneMask
  epoch : Nat
  tile  : Nat
  lastUse : Nat
  deriving DecidableEq, Repr

/-- A tile home entry in use (R107) with its descriptor (R103); `parent` is 65,536 where the entry is no child; GEN stands apart, since it
outlives the entry. -/
structure Home where
  kind    : Nat
  part    : Nat
  held    : Nat
  exact   : Bool
  pinned  : Bool
  parent  : Nat
  child0  : Nat
  child1  : Nat
  axis    : Nat
  at_     : Nat
  desc    : BitVec 512
  holders : List (Nat × Nat)
  deriving DecidableEq, Repr

/-- A request for tenure that waits at a home, by its place in the order of arrival (R116, R120): a fibre, or 2^20 + 4 · fibre + queue for
an engine queue; the handle and the mode. -/
structure TileWait where
  who : Nat
  h   : Nat
  wr  : Bool
  deriving DecidableEq, Repr

/-- An entry of a core's holder table (R109); the links of R110 are the home's list of holders, head first. `granted` and `freed` are the
times R111 and R114 speak of, `since` the time of the grant in the order of writes (R115), `lines` the tile's lines with their translation
(R113). ENG is the number of the fibre's outstanding entries that name the handle, which its queues tell. -/
structure Holder where
  wr     : Bool
  pin    : Bool
  cont   : Bool
  rvk    : Bool
  brk    : Bool
  handle : Nat
  fib    : Nat
  dl     : Nat
  granted : Nat
  since  : Nat
  freed  : Nat
  lines  : FMap Nat
  deriving DecidableEq, Repr

/-- A warp of a workgroup that CTXSAVE has taken off its core: its live slices and its arrivals (R207, R364). -/
structure SavedWarp where
  slices   : BitVec 8
  arrivals : List Arrival
  deriving DecidableEq, Repr

/-- A workgroup that CTXSAVE has taken off its core, and the core it had (R366, R371). -/
structure SavedWg where
  core  : Nat
  warps : List SavedWarp
  deriving DecidableEq, Repr

/-- A launch record accepted into a queue (R196, R217): its context, whether its workgroups start at K and at which level its
DONE word is translated, the workgroups started of each consumer tile, the tiles whose flag has been seen ready (R163, R197),
the spawn slots in use (R198), the writes its enqueue orders (R334), those its flags release for each tile (R164), and those its
fibres have made or seen when they ended (R200); what the release of its DONE word waits for (R160); the key window it began under, as a
fibre's (R380); the die whose gondola the partition monitor starts it on, for a service of the device kernel (R422). -/
structure Launch where
  part   : Nat
  lid    : Nat
  queue  : Nat
  prio   : Nat
  record : BitVec 1024
  kdesc  : BitVec 512
  va     : BitVec 64
  root   : BitVec 64
  klvl   : Bool
  doneK  : Bool
  started : FMap Nat
  ready   : NSet
  spawnUsed : NSet
  view    : View
  flagViews : FMap View
  ended   : View
  marks   : List Nat
  keys    : Option (Nat × Nat)
  gondola : Option Nat
  deriving DecidableEq, Repr

/-- A workgroup's context off its core (R366, R371): its record, the core it had, its fibres by their index, and the contents of its
slots, scratchpad, operand buffer and tiles, each by places within the workgroup; its barrier objects; its pinned entries with
their sub-cores; its holder entries with their fibres. -/
structure Restore where
  wgRec  : Wg
  place  : Nat
  fibres : FMap Fibre
  ring   : SMap Word
  ringPoison : NSet
  scr    : SMap Byte
  objs   : NSet
  obuf   : SMap Byte
  acc    : SMap Word
  side   : SMap (Word × Word × Word × Bool)
  pins   : List (Nat × OwnEntry)
  held   : List (Nat × Holder)
  deriving DecidableEq, Repr

/-- A save area as it stood after a save, and the context it describes; the layout of its payload is not in the spec (log 13). -/
structure Save where
  blocks : List (BitVec 8192)
  ctx    : Restore
  deriving DecidableEq, Repr

/-- A spool record (R201) with its arrival time and the writes its SPAWN orders (R216). -/
structure SpoolRec where
  die   : Nat
  part  : Nat
  lid   : Nat
  entry : BitVec 64
  args  : List Word
  time  : Nat
  view  : View
  deriving DecidableEq, Repr

/-! ## Memory -/

/-- A write of a 4-byte word as the launch scheduler sees it (R163, R164): the word, its value after the write as the writer knows it, its
block of 16 bytes and the key value that stands under, the partition and launch of the writing agent where it belongs to one, its core, its
place in the order of writes, and the writes that happen before it. -/
structure WordWrite where
  loc   : Nat
  value : Nat
  block : BitVec 128
  under : Nat
  owner : Option (Nat × Nat)
  core  : Nat
  time  : Nat
  view  : View
  deriving DecidableEq, Repr

/-- The memory behind the caches and what the caches hold. `cells` are plaintext under `lineKey`, the key of each line (R60); `tag` is 1 +
the key ID under which a line is cached (R61), `dirty` its dirty bytes; `dir` the sharer vectors by region (R100). `tileRels` are the
releases of tile holders: whether of write tenure, the lines of the tile, what they order (R114, R120, R121); `words` are writes the launch
scheduler has yet to look at, `flagWords` gives by word the write that made it non-zero (R163, R164). `hist` are the past writes, `fenced`
by die the writes that a FENCE there has performed at .die (R153), `payload` the times of the payload writes of entries that are not
complete, with their queues (R138). -/
structure Store where
  cells    : List Host.Cell
  dirty    : FMap Byte
  tag      : SMap Nat
  lineKey  : SMap Nat
  poison   : NSet
  poisonBy : SMap Nat
  granules : SMap Nat
  copies   : FMap (Bool × NSet)
  dir      : SMap (BitVec 64)
  ccache   : FMap (List Byte)
  held     : FMap (List (Nat × Bool))
  hist     : List PastWrite
  relSeq   : FMap (List (Nat × List Rel))
  dieSeen  : FMap Nat
  fenced   : FMap Nat
  payload  : List (Nat × Nat)
  clock    : Nat
  scLog    : List ScFence
  tileRels : List (Bool × List Nat × View)
  words    : List WordWrite
  flagWords : FMap WordWrite
  deriving DecidableEq, Repr

/-- A TLB entry (R59, R62): the core that holds it (256 the hub's), partition, ASID (none for global), VA page and level, the stage-1 leaf
with its address, the stage-2 leaf and its level. -/
structure TlbEntry where
  core  : Nat
  part  : Nat
  asid  : Option Nat
  page  : Nat
  level : Nat
  leaf  : Nat
  leafPa : Nat
  leaf2 : Nat
  level2 : Nat
  deriving DecidableEq, Repr

/-- An entry of a walk cache (R62), a table entry or a leaf: the core that holds it, partition, stage, ASID (stage 1 only), level, the page
number of the address it was read for, its physical address and its value. -/
structure WalkEntry where
  core   : Nat
  part   : Nat
  stage2 : Bool
  asid   : Nat
  level  : Nat
  page   : Nat
  at_    : Nat
  entry  : Nat
  deriving DecidableEq, Repr

/-! ## Partitions, hub, hosts -/

/-- The settings of a partition (R380, R344) and what the hub keeps for it. -/
structure Part where
  qmask  : List (BitVec 16)
  kb     : Nat
  kn     : Nat
  skey   : Nat
  ktvec  : BitVec 64
  tdeleg : BitVec 64
  tenmax : BitVec 64
  kq     : Nat
  weight : Nat
  spoolShare : Option Nat
  batchLimit : Nat
  wsh    : Option Nat
  gondola : FMap Nat
  ring   : FMap (Nat × Nat)
  lctx   : SMap (BitVec 64)
  cdom   : List Nat
  stage2 : Nat
  nextLid : Nat
  rrServed : SMap Nat
  collCount : Nat
  measure : BitVec 384
  kMeasured : Bool
  deriving DecidableEq, Repr

/-- A filled slot of a service ring (R392), with the address and key ID of its ring when it was filled (R380): its state is 0 queued, 1
handed to a server, 2 taken by the host; `view` holds the writes that its filling, then its STATUS word, order (R392, R394). -/
structure Batch where
  part  : Nat
  die   : Nat
  slot  : Nat
  kind  : Nat
  owner : Nat
  state : Nat
  header : BitVec 512
  view  : View
  ring  : Nat × Nat
  deriving DecidableEq, Repr

/-- A waiter of the wait-and-wake table (R387, R388): a fibre, or a host enrolment. -/
inductive Waiter where
  | fibre (f : Nat)
  | host (port token npa : Nat) (nval : BitVec 64)
  deriving DecidableEq, Repr

/-- An entry of the wait-and-wake table, with its place in the order of enrolment (R389). -/
structure WaitEntry where
  seq  : Nat
  part : Nat
  key  : Nat
  who  : Waiter
  deriving DecidableEq, Repr

/-- A relaxed write that a port has accepted and the host has not made visible (R158): its number, its place, its bytes, and whether it has left
the port. -/
structure RelaxedWrite where
  num  : Nat
  pa   : Nat
  data : List Byte
  sent : Bool
  deriving DecidableEq, Repr

/-- A memory port (R377): the size of the device attached to it, 0 where there is none, whether that is a single logical device that was
there at training, and whether the port is up. -/
structure MemPort where
  size  : Nat
  plain : Bool
  up    : Bool
  deriving DecidableEq, Repr

/-- What an access carried to another package is translated under there (R157, R169): partition, root and level. -/
structure LinkCtx where
  part : Nat
  root : BitVec 64
  klvl : Bool
  deriving DecidableEq, Repr

/-- A host port (R158 to R162, R378). `relaxed` are the accepted relaxed writes the host has not made visible, each with its number;
`accepted` and `flushed` count those accepted and those a completed flush covers, `flights` tells for each flush read under way how
many it covers (R160). `arrived` are the host writes performed (R161), `lines` the lines of its windows that the host holds copies of (R376). -/
structure Port where
  failed  : Bool
  cxl     : Bool
  relaxed : List RelaxedWrite
  accepted : Nat
  flushed : Nat
  flights : List Nat
  inbound : List (Nat × List Byte)
  arrived : View
  windows : List (Nat × Nat × Nat)
  lines   : NSet
  deriving DecidableEq, Repr

/-- What leaves the package: posted writes to the host with their Relaxed Ordering attribute and AtomicOps (R158), answers to the
host, back-invalidations (R376), interrupt messages, completions, SPDM answers (R382); and to other packages the writes, with the scope of a
release, the read requests, the answers and the barrier arrivals of the collective engine (R157). -/
inductive Output where
  | hostWrite (port pa : Nat) (data : List Byte) (relaxed : Bool)
  | atomicOp (port pa op : Nat) (data : List Byte)
  | msix (vf vector : Nat)
  | readData (port pa : Nat) (data : List Byte)
  | completion (code : Nat)
  | snoopAnswer (port pa : Nat) (data : List Byte)
  | backInvalidate (port pa : Nat)
  | spdm (blocks : List (Nat × BitVec 384))
  | spdmAnswer (code : Nat) (data : List Byte)
  | flushRead (port : Nat)
  | signal (port code : Nat)
  | linkWrite (pkg : Nat) (ctx : LinkCtx) (addr : Nat) (data : List Byte) (release : Option Nat)
  | linkRead (pkg : Nat) (ctx : LinkCtx) (addr n : Nat)
  | linkData (pkg : Nat) (data : List Byte)
  | linkBarrier (pkg part lid phase tag : Nat)
  | linkFault (pkg cause info : Nat)
  deriving DecidableEq, Repr

/-- Records of the management complex's error log (R10, R16, R235, R373, R378, R393). -/
inductive ErrorRecord where
  | power (watts : Nat)
  | thermal (die : Nat)
  | correctable (place : Nat)
  | uncorrected (place : Nat)
  | hostPort (port : Nat) (recovered : Bool)
  | signing (bytes : BitVec 512)
  | service (header : BitVec 512)
  | dropped (code : Nat)
  | doneFault (lid : Nat)
  deriving DecidableEq, Repr

/-- A word that the hub owes a host, while a pinned tenure of its line keeps it (R117, R379, R388): port, place, value, and the writes it
follows. -/
structure HubWord where
  port  : Nat
  pa    : Nat
  value : BitVec 64
  view  : View
  deriving DecidableEq, Repr

/-- A configured device kernel (R14, R343, R422): its partition, its bytes with their physical addresses and key IDs, and the launches that the
partition monitor enqueues when it loads it: the records with their descriptors, and the translation root they run under. -/
structure Kernel where
  part     : Nat
  image    : List (Nat × Nat × List Byte)
  root     : BitVec 64
  launches : List (BitVec 1024 × BitVec 512)
  deriving DecidableEq, Repr

/-- The hub's own state. `identity` is the die identity of R13, `plan` and `kernel` the stored partition plan and device kernel of R14,
`units` the record in use less the cores that the firmware excludes (`retired`, as SVCL numbers, R16), which gives the logical numbers; `faults` the
fault entries that wait to enter a ring: die, what the ports had accepted, header (R160, R346); `notices` the interrupt messages that wait for
their release at .sys: function, vector, what the ports had accepted (R160, R386); `irqIds` by source of R385 the core, file and identity that
the firmware set; `tests` the places whose self-test is under way, `retiring` the cores that leave service once their workgroups are saved
(R374); `unreached` the packages of the pod that the links do not reach, `refused` what the next accesses carried to other packages meet there
(R157, R180); `certs` the owner's certificate chains, `sessions` who has an SPDM session: 0 the physical function, 1 + a virtual one (R382). -/
structure Hub where
  boot     : Nat
  identity : BitVec 64
  records  : List (BitVec 1280)
  inUse    : Option (BitVec 1280)
  units    : BitVec 1280
  retired  : NSet
  plan     : Option (FMap Part)
  kernel   : Option Kernel
  firmware : List Byte
  pendingSign : Option (BitVec 512)
  excluded : NSet
  limit    : Nat
  clock    : Nat
  duty     : Nat
  stopped  : Bool
  errors   : List ErrorRecord
  parts    : FMap Part
  keySlots : SMap Nat
  launches : List Launch
  waiters  : List WaitEntry
  batches  : List Batch
  vtime    : FMap Nat
  faults   : List (Nat × List Nat × BitVec 512)
  ports    : List Port
  vfPart   : FMap Nat
  msix     : SMap (BitVec 32)
  msixTable : SMap Byte
  imsic    : NSet
  irqs     : List (Nat × Nat)
  irqIds   : FMap (Nat × Nat × Nat)
  notices  : List (Nat × Nat × List Nat)
  owed     : List HubWord
  hostMem  : SMap Byte
  outputs  : List Output
  measures : SMap (BitVec 384)
  colour   : List (BitVec 64)
  l2ways   : List Nat
  pkgid    : BitVec 16
  pod      : List Nat
  wreq     : FMap (List (BitVec 64))
  memPorts : List MemPort
  tests    : List TestPlace
  retiring : NSet
  unreached : NSet
  refused  : List Nat
  certs    : FMap (List Byte)
  sessions : NSet
  deriving DecidableEq, Repr

/-- Which agent moves next (log 1): an event of another agent, the issue of a sub-core, the making visible of a relaxed write, the dropping
of an entry of a TLB, a walk cache or a constant cache, a spontaneous parity or memory error, one that is corrected, the repair of a
register-file word from its duplicate (R235, R237), the return of a load's data (R136), the negotiation of CXL.cache (R162), the pod
configuration (R146), the storing of a partition plan or a device kernel (R14), the passing of time; an AtomicOp of the host (R375), the
attaching of a device to a memory port (R377), a link that comes up or goes down, the answer of another package that refuses an access
(R157, R180), an identity that the firmware sets for a source of interrupts (R385), a host port that does not train (R385), the return of
the operand that a lane waits for (R192). -/
inductive Move where
  | event (i : Instr)
  | issue (u : Nat)
  | hostVisible (port index : Nat)
  | tlbDrop (index : Nat)
  | walkDrop (index : Nat)
  | constDrop (core : Nat)
  | upsetRing (key : Nat)
  | upsetReg (f code : Nat)
  | upsetMem (loc : Nat)
  | upsetCache (loc : Nat) (l1 : Bool)
  | windowReturn (f : Nat)
  | cxlTrain (port : Nat) (on : Bool)
  | joinPod (pkgid : BitVec 16) (pod : List Nat)
  | storePlan (plan : Option (FMap Part))
  | storeKernel (kernel : Option Kernel)
  | corrected (die place : Nat)
  | repaired (key : Nat)
  | tick (n : Nat)
  | hostAtomic (port pa n op : Nat) (operand compare : Nat)
  | attachMem (port size : Nat) (plain : Bool)
  | linkUp (pkg : Nat) (up : Bool)
  | linkRefuse (info : Nat)
  | irqIdentity (source core file identity : Nat)
  | trainFail (port : Nat)
  | operandBack (f lane : Nat)
  deriving DecidableEq, Repr

/-- A stage-2 fault held for the partition monitor (R66). -/
structure Held2 where
  fib   : Nat
  entry : TrapEntry
  deriving DecidableEq, Repr

/-- The machine. `agenda`, `readPts`, `stopPts`, `latePts`, `free`, `turn` and `beat` are the model's own (log 1, 2, 5, 23, 49): the moves and
read points still to come, where MMA stops, which waits for operands and late window writes occur, the number of free values drawn, whose turn
it is, the steps taken. `cur`, `grp` and `ipc` are the fibre, lanes and PC of the issue at hand (log 4), `stall` whether its instruction could
not issue yet: 1, or 2 where that is a long wait of R340; `tried` the lanes of each fibre whose last attempt to issue was held, since their
sub-core issued (log 32); `dropped` by core the lines whose prefetch it dropped (R407). -/
structure State where
  tick     : Nat
  free     : Nat
  agenda   : List Move
  readPts  : List Nat
  stopPts  : List Nat
  latePts  : List Bool
  turn     : Nat
  beat     : Nat
  cur      : Nat
  grp      : LaneMask
  ipc      : BitVec 64
  stall    : Nat
  mem      : Store
  tlb      : List TlbEntry
  walks    : List WalkEntry
  scr      : SMap Byte
  obuf     : SMap Byte
  objs     : NSet
  acc      : SMap Word
  side     : SMap (Word × Word × Word × Bool)
  ring     : SMap Word
  ringDirty : NSet
  ringPoison : NSet
  fibres   : FMap Fibre
  wgs      : FMap Wg
  slots    : FMap Slot
  lastSlot : FMap Nat
  tried    : FMap LaneMask
  dropped  : FMap NSet
  own      : FMap (List (Option OwnEntry))
  holders  : FMap (FMap Holder)
  homes    : FMap Home
  homeGen  : SMap Nat
  tacqs    : List TileWait
  phases   : FMap Nat
  saved    : FMap SavedWg
  spool    : List SpoolRec
  restores : List Restore
  saves    : List Save
  fused    : FMap Nat
  s2held   : List Held2
  joinId   : Nat
  hub      : Hub
  deriving DecidableEq, Repr

/-! ## Reset -/

/-- A host port after power-on: up, PCIe only, nothing pending. -/
def Port.reset : Port :=
  { failed := false, cxl := false, relaxed := [], accepted := 0, flushed := 0, flights := [], inbound := [], arrived := [], windows := [], lines := [] }

/-- The value of %colourhash at reset: SSB 22, CLO 15, CHI 21, WAYS 16 (R68). -/
def colourReset : BitVec 64 := BitVec.ofNat 64 (22 + 64 * 15 + 4096 * 21 + 262144 * 16)

/-- A configuration record as the reset column of R12 gives it: magic and version; no SVCL entry in use. The other fields are per
package and stand at 0 (log 7). -/
def recordReset : BitVec 1280 := BitVec.ofNat 1280 (0x15A4B4352 + (2 ^ 90 - 1) * 2 ^ 416)

/-- The hub at power-on: no boot step done (R14), limit 4,800 W (R10), clock 2,500 MHz (R2), full duty. -/
def Hub.reset : Hub :=
  { boot := 0, identity := 0, records := [recordReset, recordReset], inUse := none, units := 0, retired := [], plan := none, kernel := none,
    firmware := [], pendingSign := none, excluded := [], limit := 4800, clock := 2500, duty := 16, stopped := false,
    errors := [], parts := [], keySlots := [], launches := [], waiters := [], batches := [],
    vtime := [], faults := [], ports := [Port.reset, Port.reset], vfPart := [], msix := [], msixTable := [], imsic := [],
    irqs := [], irqIds := [], notices := [], owed := [], hostMem := [], outputs := [], measures := [],
    colour := [colourReset, colourReset, colourReset, colourReset],
    l2ways := [16, 16, 16, 16], pkgid := 0, pod := [0], wreq := [],
    memPorts := List.replicate 6 { size := 0, plain := true, up := false }, tests := [], retiring := [], unreached := [], refused := [], certs := [],
    sessions := [] }

/-- Memory with nothing listed. -/
def Store.reset : Store :=
  { cells := [], dirty := [], tag := [], lineKey := [], poison := [], poisonBy := [], granules := [], copies := [], dir := [], ccache := [],
    held := [], hist := [], relSeq := [], dieSeen := [], fenced := [], payload := [], clock := 0, scLog := [], tileRels := [], words := [], flagWords := [] }

/-- The machine right after reset: no boot step has run, no fibre exists, every table is empty. -/
def State.reset : State :=
  { tick := 0, free := 0, agenda := [], readPts := [], stopPts := [], latePts := [], turn := 0, beat := 0, cur := 0, grp := 0, ipc := 0, stall := 0,
    mem := Store.reset, tlb := [], walks := [], scr := [], obuf := [], objs := [], acc := [], side := [], ring := [],
    ringDirty := [], ringPoison := [], fibres := [], wgs := [],
    slots := [], lastSlot := [], tried := [], dropped := [], own := [], holders := [], homes := [],
    homeGen := [], tacqs := [], phases := [], saved := [], spool := [],
    restores := [], saves := [], fused := [], s2held := [], joinId := 0, hub := Hub.reset }

/-- A lane at a fibre's start (R199). -/
def Lane.start (entry : BitVec 64) : Lane :=
  { pc := entry, fp := 0, depth := 0, rb := 0, links := [], sblk := false, sblkAddr := 0, sblkInfo := 0, sblkReg := false,
    l0 := 0, l1 := 0, wait := .none }

/-- An empty engine queue. -/
def Queue.empty : Queue := { entries := [], stopped := false, view := [] }

/-- A fibre in the state of R199, before its launch's registers are written. -/
def Fibre.start (entry : BitVec 64) : Fibre :=
  { part := 0, lid := 0, wg := 0, warp := 0, fibre := 0, spawned := false, klvl := false, lanes := Vector.ofFn fun _ => Lane.start entry,
    exited := 0, parked := 0, stopped := 0, held := [], again := [], amask := BitVec.allOnes 32, ganged := true, lastSlice := 7,
    waits := [], arrivals := [], fbar := 0, fbarKept := 0, fbarPass := 0, preds := [], sregs := [], aregs := [], oregs := [], obs := [],
    queues := Vector.ofFn fun _ => Queue.empty, sq := [], trapq := [], pendingAsync := [], hstack := [],
    fmode := 0, prog := 0, wdLimit := 0x1000000, wdCount := 0, tenmax := 4096, lwm := 32, spb := 0, lkb := 0, spw := 0, lkn := 0,
    lpb := 0, lpl := 0, scratchbase := 0, pgroot := 0, tcause := 0, tpc := 0, taddr := 0, tinfo := 0, ktvec := 0, utvec := 0,
    tdeleg := 0, frozen := false, exiting := false, poison := [], dirty := 0, fetched := [], opWaits := [], keys := none, invals := [],
    view := [], relPend := [], relFence := [], seen := [], low := [], marks := [], late := [], heldLong := false }

end Sys2Proof.Machine
end

