-- ==== Sys2Proof/Machine/Ops.lean ====
section
/-! DEFINITION. The named operations over fibres, lanes, registers and storage; raising a trap, delivering it to a handler and
returning from the handler (spec/09, spec/16). -/

namespace Sys2Proof.Machine

/-- What a meaning answers. -/
abbrev Result := Host.Outcome State Fault Refusal

/-! ## Lists, masks and bit fields -/

/-- Change element `i` of a list. -/
def modAt {α : Type} (g : α → α) : Nat → List α → List α
  | _, [] => []
  | 0, x :: l => g x :: l
  | n + 1, x :: l => x :: modAt g n l

/-- Every element of a vector changed. -/
def vmap {α : Type} {n : Nat} (g : α → α) (v : Vector α n) : Vector α n := Vector.ofFn fun i => g v[i]

/-- Element `i` of a vector changed. -/
def vmod {α : Type} {n : Nat} (g : α → α) (i : Nat) (v : Vector α n) : Vector α n :=
  Vector.ofFn fun j => if j.val = i then g v[j] else v[j]

/-- The mask of the lanes below 32 that satisfy a test. -/
def maskOf (p : Nat → Bool) : LaneMask :=
  BitVec.ofNat 32 ((List.range 32).foldl (fun acc i => if p i then acc + 2 ^ i else acc) 0)

/-- The lanes of a mask, ascending. -/
def lanesOf (m : LaneMask) : List Nat := (List.range 32).filter fun i => m.getLsbD i

/-- The lowest lane of a mask. -/
def lowest (m : LaneMask) : Option Nat := (lanesOf m).head?

/-- Bits [lo + len − 1 : lo] of a number. -/
def bits (n lo len : Nat) : Nat := n / 2 ^ lo % 2 ^ len

/-- Replace bits [lo + len − 1 : lo]. -/
def setBits (n lo len v : Nat) : Nat :=
  n % 2 ^ lo + 2 ^ lo * (v % 2 ^ len) + 2 ^ (lo + len) * (n / 2 ^ (lo + len))

/-- The number of little-endian bytes. -/
def ofBytes (l : List Byte) : Nat := l.foldr (fun b acc => b.toNat + 256 * acc) 0

/-- The `n` little-endian bytes of a number (R9). -/
def toBytes (n v : Nat) : List Byte := (List.range n).map fun i => BitVec.ofNat 8 (v / 256 ^ i)

/-- Sign extension of a 16-bit offset to an integer. -/
def sext (w n : Nat) : Int := toSigned w n

/-! ## Places -/

/-- The core of a fibre place. -/
def coreOf (f : Nat) : Nat := f / 256
/-- The sub-core of a fibre place. -/
def subOf (f : Nat) : Nat := f / 64
/-- The slot of a fibre place. -/
def slotOf (f : Nat) : Nat := f / 4
/-- The die of a core. -/
def dieOf (core : Nat) : Nat := core / 64
/-- The quad of a core within the package. -/
def quadOf (core : Nat) : Nat := core / 4
/-- The number of the hub's agents, which form a die of their own (R146, R153). -/
def hubCore : Nat := 256
/-- The number of the host agents, a die of their own too (R162). -/
def hostCore : Nat := 320

/-! ## Fibres and lanes -/

/-- The fibre at a place; a fresh one, never resident, where there is none. -/
def fib (s : State) (f : Nat) : Fibre := (FMap.find s.fibres f).getD (Fibre.start 0)

/-- Whether a fibre is resident at a place. -/
def hasFib (s : State) (f : Nat) : Bool := (FMap.find s.fibres f).isSome

/-- Change the fibre at a place; nothing where there is none. -/
def modFib (s : State) (f : Nat) (g : Fibre → Fibre) : State :=
  match FMap.find s.fibres f with
  | some x => { s with fibres := FMap.put s.fibres f (g x) }
  | none => s

/-- The fibre whose issue group is executing. -/
def me (s : State) : Fibre := fib s s.cur

/-- A lane of a fibre. -/
def laneAt (x : Fibre) (i : Nat) : Lane := if h : i < 32 then x.lanes[i] else Lane.start 0

/-- Change a lane of a fibre. -/
def modLane (x : Fibre) (i : Nat) (g : Lane → Lane) : Fibre := { x with lanes := vmod g i x.lanes }

/-- Change the lanes of a mask. -/
def modLanes (x : Fibre) (m : LaneMask) (g : Nat → Lane → Lane) : Fibre :=
  { x with lanes := Vector.ofFn fun i => if m.getLsbD i.val then g i.val x.lanes[i] else x.lanes[i] }

/-- Set the PC of the lanes of a mask. -/
def setPc (s : State) (f : Nat) (m : LaneMask) (pc : BitVec 64) : State :=
  modFib s f fun x => modLanes x m fun _ l => { l with pc := pc }

/-- The lanes of the issue group go on to the next instruction. -/
def advance (s : State) (m : LaneMask) : State := setPc s s.cur m (s.ipc + 12)

/-- The whole issue group goes on: the end of an instruction that moves no PC itself. -/
def goOn (s : State) : State := advance s s.grp

/-! ## Waiting and stopping (R188) -/

/-- A wait that keeps its whole fibre from issuing (R144, R371, R372); the others keep only their lanes. -/
def waitBlocks : WaitKind → Bool
  | .bar _ _ | .barNext _ _ _ | .fbar | .svc _ _ _ | .svcKept _ _ _ | .svcFull _ => false
  | _ => true

/-- Every lane of the slices that hold lanes of a mask. -/
def wholeSlices (m : LaneMask) : LaneMask := maskOf fun i => decide (bits m.toNat (i / 4 * 4) 4 ≠ 0)

/-- The lanes a wait keeps; at a barrier every lane of an arrived slice waits (R207). -/
def waitLanes (w : Wait) : LaneMask :=
  match w.kind with
  | .bar _ _ | .barNext _ _ _ | .fbar => wholeSlices w.lanes
  | .svcKept _ _ _ => 0
  | _ => w.lanes

/-- The lanes that wait. -/
def waitingMask (x : Fibre) : LaneMask :=
  x.waits.foldl (fun m w => m ||| waitLanes w) (maskOf fun i => decide ((laneAt x i).wait ≠ .none))

/-- The lanes held by trap-queue entries; an asynchronous entry stops no lane while a handler runs (R188, R356). -/
def stoppedMask (x : Fibre) : LaneMask :=
  x.trapq.foldl (fun m e => if e.async && !x.hstack.isEmpty then m else m ||| e.lmask) (x.held.foldl (· ||| ·) x.stopped)

/-- A delivery waits for a demand spill, or for its turn after it: no further instruction issues before it (R353). -/
def deliveryWaits (x : Fibre) : Bool :=
  x.lanes.toList.any fun l => match l.wait with
    | .trapSpill _ | .trapSpilled _ => true
    | _ => false

/-- The selectable lanes (R188). -/
def selectable (x : Fibre) : LaneMask :=
  if x.frozen || x.exiting || deliveryWaits x || x.waits.any (fun w => waitBlocks w.kind) then 0
  else x.amask &&& ~~~ x.exited &&& ~~~ x.parked &&& ~~~ stoppedMask x &&& ~~~ waitingMask x

/-- A delivery has a demand spill to make yet (R353). -/
def spillsPending (x : Fibre) : Bool :=
  x.lanes.toList.any fun l => match l.wait with
    | .trapSpill _ => true
    | _ => false

/-- The lanes that have not exited. -/
def liveMask (x : Fibre) : LaneMask := ~~~ x.exited

/-- Add a wait. -/
def addWait (s : State) (f : Nat) (w : Wait) : State := modFib s f fun x => { x with waits := x.waits ++ [w] }

/-! ## Slots and the register file (R218, R219) -/

/-- The slot record of a place. -/
def slotRec (s : State) (slot : Nat) : Slot :=
  (FMap.find s.slots slot).getD
    { cur := 0, nfib := 1, win := 0, ringBase := 0, ringLen := 64, quads := 16, active := true, readySince := none,
      eligibleSince := none, wgKey := 0 }

/-- The register-file word of frame word `w` of a fibre (R218, R219). -/
def frameWord (s : State) (f w : Nat) : Nat :=
  let sl := slotRec s (slotOf f)
  sl.ringBase + sl.win + (f % 4) * sl.z + w % sl.z

/-- The register-file word of window register x_j (R218). -/
def windowWord (s : State) (f j : Nat) : Nat := (slotRec s (slotOf f)).ringBase + j

/-- The key of a lane's register-file word. The place of a slot's space is not visible (R218): each slot has 512 numbers of its
own. -/
def ringKey (f lane word : Nat) : Nat := (subOf f * 32 + lane) * 8192 + word % 8192

/-- Read a register-file word. -/
def ringGet (s : State) (f lane word : Nat) : Word := SMap.get 0 s.ring (ringKey f lane word)

/-- Write a register-file word: its dirty bit is set and its poison ends (R235, R237). -/
def ringSet (s : State) (f lane word : Nat) (v : Word) : State :=
  { s with ring := SMap.set 0 s.ring (ringKey f lane word) v,
           ringDirty := NSet.add s.ringDirty (subOf f * 8192 + word),
           ringPoison := NSet.del s.ringPoison (ringKey f lane word) }

/-- The window writes of loads whose data have yet to return are made (R136). -/
def settleLate (s : State) (f : Nat) : State :=
  if (fib s f).late.isEmpty then s
  else (fib s f).late.foldl (fun t e => ringSet t f e.1 (windowWord t f e.2.1) e.2.2) (modFib s f fun x => { x with late := [] })

/-- Read frame word `w` of a lane. -/
def frameGet (s : State) (f lane w : Nat) : Word := ringGet s f lane (frameWord s f w)

/-- Write frame word `w` of a lane. -/
def frameSet (s : State) (f lane w : Nat) (v : Word) : State := ringSet s f lane (frameWord s f w) v

/-! ## Registers -/

/-- Codes of the registers outside the ring in a fibre's poison set: the operand field's ten bits, with the lane for a
per-lane register. -/
def poisonCode (r : Reg) (lane : Nat) : Nat := regCode r * 32 + (if regUniform r then 0 else lane)

/-- Read a 32-bit register of a lane; `off` selects a later register of the pair or block. -/
def regGet32 (s : State) (f lane : Nat) (r : Reg) (off : Nat) : Word :=
  match r with
  | .v n => frameGet s f lane ((laneAt (fib s f) lane).fp + n.val + off)
  | .x n => ringGet s f lane (windowWord s f (n.val + off))
  | .o n => SMap.get 0 (fib s f).oregs (lane * 8 + n.val + off)
  | .l n => if n = 0 then (laneAt (fib s f) lane).l0 else (laneAt (fib s f) lane).l1
  | .s n => SMap.get 0 (fib s f).sregs (n.val + off)
  | .a n => BitVec.ofNat 32 ((SMap.get 0 (fib s f).aregs n.val).toNat / 2 ^ (32 * off))
  | .p n => if (SMap.get 0 (fib s f).preds n.val).getLsbD lane then 1 else 0
  | .pt => 1
  | _ => 0

/-- Read a register as a 32-bit or 64-bit value (R267). -/
def regGet (s : State) (f lane : Nat) (wide : Bool) (r : Reg) : Nat :=
  match r with
  | .a n => (SMap.get 0 (fib s f).aregs n.val).toNat
  | .zero => 0
  | r => (regGet32 s f lane r 0).toNat + (if wide then 2 ^ 32 * (regGet32 s f lane r 1).toNat else 0)

/-- Write a 32-bit register of a lane; writes to zero and pt are discarded (R23). -/
def regSet32 (s : State) (f lane : Nat) (r : Reg) (off : Nat) (v : Word) : State :=
  match r with
  | .v n => frameSet s f lane ((laneAt (fib s f) lane).fp + n.val + off) v
  | .x n => ringSet s f lane (windowWord s f (n.val + off)) v
  | .o n => modFib s f fun x => { x with oregs := SMap.set 0 x.oregs (lane * 8 + n.val + off) v,
                                         poison := NSet.del x.poison (poisonCode (.o n) lane + 128 * off), dirty := x.dirty ||| 1 }
  | .s n => modFib s f fun x => { x with sregs := SMap.set 0 x.sregs (n.val + off) v,
                                         poison := NSet.del x.poison (poisonCode (.s n) 0 + 128 * off), dirty := x.dirty ||| 2 }
  | _ => s

/-- Write an a register. -/
def aregSet (s : State) (f n : Nat) (v : BitVec 64) : State :=
  modFib s f fun x => { x with aregs := SMap.set 0 x.aregs n v, poison := NSet.del x.poison ((4 * (128 + n) + 3) * 32), dirty := x.dirty ||| 2 }

/-- Write a register as a 32-bit or 64-bit value (R267). -/
def regSet (s : State) (f lane : Nat) (wide : Bool) (r : Reg) (v : Nat) : State :=
  match r with
  | .a n => aregSet s f n.val (BitVec.ofNat 64 v)
  | r =>
    let s1 := regSet32 s f lane r 0 (BitVec.ofNat 32 v)
    if wide then regSet32 s1 f lane r 1 (BitVec.ofNat 32 (v / 2 ^ 32)) else s1

/-- Write one lane's bit of a predicate. -/
def predSet (s : State) (f lane : Nat) (r : Reg) (b : Bool) : State :=
  match r with
  | .p n => modFib s f fun x =>
      let old := SMap.get 0 x.preds n.val
      { x with preds := SMap.set 0 x.preds n.val (if b then old ||| BitVec.ofNat 32 (2 ^ lane) else old &&& ~~~ (BitVec.ofNat 32 (2 ^ lane))),
               poison := NSet.del x.poison (poisonCode r lane), dirty := x.dirty ||| 4 }
  | _ => s

/-- The poison of a lane's latches when a write pushes them on: l1 takes l0's, l0 has none (R232, R235). -/
def latchPoison (lane : Nat) (p : NSet) : NSet :=
  let old := NSet.del (NSet.del p (poisonCode (.l 0) lane)) (poisonCode (.l 1) lane)
  if p.contains (poisonCode (.l 0) lane) then NSet.add old (poisonCode (.l 1) lane) else old

/-- Note a write that counts for the latches (R232): one 32-bit register of level 00 or 01, through D. -/
def latch (s : State) (f lane : Nat) (r : Reg) (v : Word) : State :=
  match r with
  | .v _ | .x _ | .o _ => modFib s f fun x =>
      modLane { x with dirty := x.dirty ||| 4, poison := latchPoison lane x.poison } lane fun l => { l with l0 := v, l1 := l.l0 }
  | _ => s

/-- The code of a lane's link record of a depth in a fibre's poison set (R234). -/
def linkCode (lane depth : Nat) : Nat := 2 ^ 20 + lane * 2 ^ 17 + depth

/-- A link record is pushed in a lane: its dirty bit is set, and its place holds no parity error (R235, R237). -/
def pushedLink (x : Fibre) (lane : Nat) : Fibre :=
  { x with dirty := x.dirty ||| 4, poison := NSet.del x.poison (linkCode lane (laneAt x lane).depth) }

/-- Write a result through D in one lane, counting for the latches where it is 32 bits wide. -/
def dstSet (s : State) (f lane : Nat) (wide : Bool) (r : Reg) (v : Nat) : State :=
  let s1 := regSet s f lane wide r v
  if wide then s1 else latch s1 f lane r (BitVec.ofNat 32 v)

/-- Bind or free a reservation name. -/
def obSet (s : State) (f n : Nat) (r : Option Reservation) : State :=
  modFib s f fun x => { x with obs := match r with
    | some v => FMap.put x.obs n v
    | none => FMap.del x.obs n }

/-! ## Trap causes (R348) -/

def cILLEGAL : Nat := 1
def cRESERVED : Nat := 2
def cFORMAT : Nat := 3
def cPRIVILEGE : Nat := 4
def cMISALIGN : Nat := 5
def cPAGE : Nat := 6
def cFETCH : Nat := 7
def cSPILL : Nat := 8
def cREFILL : Nat := 9
def cSTACK : Nat := 10
def cSTALE : Nat := 11
def cFOREIGN : Nat := 12
def cTENURE : Nat := 13
def cBARENC : Nat := 14
def cCOUNT : Nat := 15
def cACC : Nat := 16
def cOBRANGE : Nat := 17
def cENGINE : Nat := 18
def cWATCHDOG : Nat := 19
def cREGFILE : Nat := 20
def cECC : Nat := 21
def cRESTINT : Nat := 22
def cRESTSHAPE : Nat := 23
def cBREAK : Nat := 24
def cSERVICE : Nat := 25

/-- The causes R348 marks delegable. -/
def delegable (c : Nat) : Bool := [1, 2, 3, 5, 10, 11, 12, 13, 14, 15, 16, 17, 18, 24, 25].contains c

/-- The bits of %tdeleg that may be set (R349). -/
def delegableBits : Nat := (List.range 32).foldl (fun acc c => if delegable c then acc + 2 ^ c else acc) 0

/-- The res bits a MOVSW to a register writes (R8): those of a register of Access RW or KRW. -/
def specialRes (n : Nat) : Nat :=
  match n with
  | 0x013 | 0x01B => 0xFFFFFFFF00000000
  | 0x018 => 0xFFFFFFFFFFFFFFFC
  | 0x019 => 0xF8000000
  | 0x020 | 0x021 => 0x7F
  | 0x022 => 0xFFFFFF0000000000
  | 0x026 => 0xFFF0000000001000
  | 0x034 | 0x035 => 3
  | 0x036 => 0xFFFFFFFFFFFFFFFF - delegableBits
  | _ => 0

/-- A failed check: its cause, address and info, and whether stage 2 refused (R66). -/
structure Flt where
  cause : Nat
  addr  : Nat
  info  : Nat
  s2    : Bool := false
  deriving DecidableEq, Repr

/-! ## Raising traps (R350 to R352) -/

/-- An entry that the running K handler itself has raised (R353). -/
def raisedHere (x : Fibre) (e : TrapEntry) : Bool := e.klvl && !e.async && e.level == x.hstack.length

/-- Queue the entries of one instruction, in order: they need a place among 7, and the lanes of one without it are held; those that a
running K handler raised go to the head (R352, R356). -/
def queueSync (x : Fibre) (es : List TrapEntry) : Fibre :=
  let room := 7 - x.trapq.length
  let y := { x with held := x.held ++ (es.drop room).map TrapEntry.lmask }
  if !x.hstack.isEmpty && es.all (raisedHere x) then { y with trapq := es.take room ++ x.trapq } else { y with trapq := x.trapq ++ es.take room }

/-- Queue an asynchronous entry: it needs a place among 8 and waits at its source without one (R352). -/
def queueAsync (x : Fibre) (e : TrapEntry) : Fibre :=
  if x.trapq.length < 8 then { x with trapq := x.trapq ++ [e] } else { x with pendingAsync := x.pendingAsync ++ [e] }

/-- Queue an entry. -/
def queueTrap (x : Fibre) (e : TrapEntry) : Fibre := if e.async then queueAsync x e else queueSync x [e]

/-- The causes whose entries keep each lane's own address (R354). -/
def ownAddress (c : Nat) : Bool := c == cPAGE || c == cMISALIGN || c == cECC

/-- The causes whose entries are grouped by the 32 KiB granule of the address too (R65). -/
def byGranule (c : Nat) : Bool := c == cPAGE || c == cFETCH

/-- A group of faulting lanes in the making. -/
structure FaultGroup where
  mask  : LaneMask
  flt   : Flt
  addrs : List (Nat × Nat)

/-- Add a lane's failure to its group (R65). -/
def addFault (l : List FaultGroup) (lane : Nat) (t : Flt) : List FaultGroup :=
  match l with
  | [] => [{ mask := BitVec.ofNat 32 (2 ^ lane), flt := t, addrs := [(lane, t.addr)] }]
  | g :: r =>
    if g.flt.cause = t.cause ∧ g.flt.info = t.info ∧ g.flt.s2 = t.s2
        ∧ (byGranule t.cause = false ∨ g.flt.addr / 32768 = t.addr / 32768) then
      { g with mask := g.mask ||| BitVec.ofNat 32 (2 ^ lane), addrs := g.addrs ++ [(lane, t.addr)] } :: r
    else g :: addFault r lane t

/-- The addresses of the lanes of a group, by lane. -/
def laneAddrs (g : FaultGroup) : List (BitVec 64) :=
  (List.range 32).map fun i => BitVec.ofNat 64 ((FMap.find g.addrs i).getD 0)

/-- The entry of a group for the executing instruction. -/
def groupEntry (s : State) (g : FaultGroup) : TrapEntry :=
  { lmask := g.mask, cause := g.flt.cause, async := false, klvl := (me s).klvl, pc := s.ipc, addr := BitVec.ofNat 64 g.flt.addr,
    info := BitVec.ofNat 32 g.flt.info, laneAddr := if ownAddress g.flt.cause then laneAddrs g else [], level := (me s).hstack.length }

/-- Stop the lanes of groups: by trap-queue entries, or, where stage 2 refused, held for the partition monitor (R66). -/
def raiseGroups (s : State) (gs : List FaultGroup) : State :=
  let away := gs.filter fun g => g.flt.s2
  let s1 := modFib s s.cur fun x =>
    queueSync { x with stopped := away.foldl (fun m g => m ||| g.mask) x.stopped } ((gs.filter fun g => !g.flt.s2).map (groupEntry s))
  { s1 with s2held := s1.s2held ++ away.map fun g => { fib := s.cur, entry := groupEntry s g } }

/-- The failures in ascending order of their lanes. -/
def byLane (faults : List (Nat × Flt)) : List (Nat × Flt) := (List.range 32).flatMap fun i => faults.filter fun p => p.1 == i

/-- Take the traps of one instruction: the failing lanes are grouped, each group queues one entry in ascending order of its
lowest lane, and its lanes stop at the instruction (R65, R351). -/
def raise (s : State) (faults : List (Nat × Flt)) : State :=
  if faults.isEmpty then s else raiseGroups s ((byLane faults).foldl (fun l p => addFault l p.1 p.2) [])

/-- A trap of every lane of a mask with one address and info. -/
def trapLanes (s : State) (m : LaneMask) (cause addr info : Nat) : State :=
  if m = 0 then s
  else raiseGroups s [{ mask := m, flt := { cause := cause, addr := addr, info := info }, addrs := (lanesOf m).map fun i => (i, addr) }]

/-- A trap of every lane of the issue group. -/
def trapAll (s : State) (t : Flt) : State :=
  if s.grp = 0 then s
  else raiseGroups s [{ mask := s.grp, flt := t, addrs := (lanesOf s.grp).map fun i => (i, t.addr) }]

/-- The lanes of a fault list. -/
def faultMask (l : List (Nat × Flt)) : LaneMask := maskOf fun i => l.any fun p => p.1 == i

/-- Queue an asynchronous entry for every non-exited lane of a fibre (R179, R205, R117): its PC is that of the lowest lane. -/
def raiseAsync (s : State) (f cause addr info : Nat) (m : LaneMask) : State :=
  modFib s f fun x =>
    let pc := match lowest m with
      | some i => (laneAt x i).pc
      | none => 0
    if m = 0 then x
    else queueTrap x { lmask := m, cause := cause, async := true, klvl := false, pc := pc, addr := BitVec.ofNat 64 addr,
                       info := BitVec.ofNat 32 info, laneAddr := [] }

/-- Lane groups in ascending order of their lowest lanes. -/
def byLowest (gs : List LaneMask) : List LaneMask := (List.range 32).flatMap fun i => gs.filter fun m => lowest m == some i

/-- A place in the queue has come free: a waiting asynchronous entry enters, and the held lane groups execute again, in ascending order
of their lowest lanes (R352). -/
def afterPop (x : Fibre) : Fibre :=
  let y := { x with held := [], again := byLowest (x.again ++ x.held) }
  match x.pendingAsync with
  | e :: r => if x.trapq.length < 8 then { y with trapq := x.trapq ++ [e], pendingAsync := r } else y
  | [] => y

/-! ## Taking an exception (R353 to R359) -/

/-- The %tcause value of a delivery (R355). -/
def tcauseOf (x : Fibre) (e : TrapEntry) (nest : Nat) : BitVec 64 :=
  BitVec.ofNat 64 (e.cause + (if x.klvl then 256 else 0) + (if e.async then 512 else 0) + 2048 * (nest % 4))

/-- The address a lane's handler sees (R354). -/
def handlerAddr (e : TrapEntry) (lane : Nat) : BitVec 64 :=
  if ownAddress e.cause then e.laneAddr.getD lane e.addr else e.addr

/-- A lane's frames would not fit with a frame of `adv` words more, nor has its own gone ahead: a demand spill comes first (R240, R353,
R359). -/
def spillFirst (z adv : Nat) (l : Lane) : Bool :=
  l.wait != .trapSpilled adv && (decide (z < l.fp + adv + 64 - l.rb) || decide (32 < l.links.length + 1))

/-- Some condition of R358 keeps the entry from K: no vector, no free handler level, a lane at its stack limits, or a lane
spill-blocked where a demand spill is needed. -/
def undeliverable (z : Nat) (x : Fibre) (e : TrapEntry) : Bool :=
  x.ktvec == 0 || decide (4 ≤ x.hstack.length)
    || (lanesOf (e.lmask &&& liveMask x)).any fun i =>
        let l := laneAt x i
        decide (x.spw < l.fp + 128) || decide (x.lkn < l.depth + 1) || (l.sblk && spillFirst z 64 l)

/-- The head entry is due to go to K: no K handler runs, or the running handler raised it (R353). -/
def dueK (x : Fibre) (e : TrapEntry) : Bool := x.hstack.isEmpty || raisedHere x e

/-- The head entry is due to go to U: delegated, a vector set, not raised at K, no K handler running (R359). -/
def dueU (x : Fibre) (e : TrapEntry) : Bool :=
  x.tdeleg.getLsbD e.cause && delegable e.cause && x.utvec != 0 && !e.klvl && x.hstack.isEmpty

/-- Discard the fetched, unissued instructions of every slice (R406). -/
def dropFetched (x : Fibre) : Fibre := { x with fetched := [] }

/-- Write the trap block of R354 into a lane's new v0 to v15. -/
def trapBlock (s : State) (f : Nat) (e : TrapEntry) (tcause : BitVec 64) (lane : Nat) (resume : BitVec 64) : State :=
  let a := (handlerAddr e lane).toNat
  let w (n : Nat) : Word := BitVec.ofNat 32 n
  let vals : List Word := [w a, w (a / 2 ^ 32), e.info, w tcause.toNat, w resume.toNat, w (resume.toNat / 2 ^ 32), e.lmask,
    0, 0, 0, 0, 0, 0, 0, 0, 0]
  let fp := (laneAt (fib s f) lane).fp
  (vals.zipIdx).foldl (fun t p => frameSet t f lane (fp + p.2) p.1) s

/-- Push the record of a delivery whose frame advances by `n`; where the interrupted frame has been spilled ahead of it, the record
lies in memory already, and RB stands where the new frame begins (R222, R240, R353). -/
def pushDelivery (n : Nat) (hnd : Bool) (l : Lane) : Lane :=
  let ahead := l.wait == .trapSpilled n
  { l with links := if ahead then l.links else { rpc := l.pc, adv := 16, hnd := hnd, cfp := l.fp } :: l.links,
           rb := if ahead then l.fp + n else l.rb, fp := l.fp + n, depth := l.depth + 1, wait := .none }

/-- Enter the K handler frame in one lane (R353): push the HND record, move FP by 64, write the trap block, go to %ktvec. -/
def enterK (e : TrapEntry) (f : Nat) (tcause : BitVec 64) (s : State) (lane : Nat) : State :=
  let l := laneAt (fib s f) lane
  let s1 := modFib s f fun x => modLane (pushedLink x lane) lane (pushDelivery 64 true)
  let s2 := trapBlock s1 f e tcause lane l.pc
  modFib s2 f fun x => modLane x lane fun l =>
    { l with pc := BitVec.ofNat 64 (x.ktvec.toNat / 4 * 4) }

/-- A lane that waits for a frame transfer is undone: a CALL's push and FP change go, a RET stays (R240, R241). A caller's frame that
the CALL's spill has taken already is resident again: its words still stand in the ring, since the lane has written none (R222). -/
def undoTransfer (l : Lane) : Lane :=
  match l.wait with
  | .callSpill _ fp => { l with links := if fp < l.rb then l.links else l.links.drop 1, rb := min l.rb fp, fp := fp, depth := l.depth - 1, wait := .none }
  | _ => { l with wait := .none }

/-- A lane of an entry that is being delivered, undone; what its delivery has spilled ahead stays (R240, R241, R353). -/
def readyLane (l : Lane) : Lane :=
  match l.wait with
  | .trapSpilled _ => l
  | _ => undoTransfer l

/-- The lanes of an entry, undone. -/
def readyLanes (x : Fibre) (m : LaneMask) : Fibre := modLanes x m fun _ l => readyLane l

/-- Waits for operands of lanes that go elsewhere, or whose instruction issues, are over (R192). -/
def dropOpWaits (x : Fibre) (m : LaneMask) : Fibre := { x with opWaits := x.opWaits.filter fun w => w.lanes &&& m == 0 }

/-- The slices that hold lanes of a mask. -/
def slicesOf (m : LaneMask) : BitVec 8 :=
  BitVec.ofNat 8 ((List.range 8).foldl (fun n k => if bits m.toNat (4 * k) 4 = 0 then n else n + 2 ^ k) 0)

/-- Mark slices as kept in the first arrival of a list at a key. -/
def keepLast (key : Nat) (g : BitVec 8) : List Arrival → List Arrival
  | [] => []
  | r :: l => if r.key = key then { r with kept := r.kept ||| g } :: l else r :: keepLast key g l

/-- A BAR or FBAR whose wait is withdrawn keeps its arrival and will wait again (R214, R364); the entry whose delivery withdraws a
HALT has ended it (R372). -/
def keepArrival (x : Fibre) (w : Wait) : Fibre :=
  match w.kind with
  | .bar key _ => { x with arrivals := (keepLast key (slicesOf w.lanes) x.arrivals.reverse).reverse }
  | .fbar => { x with fbarKept := x.fbarKept ||| slicesOf w.lanes }
  | .halt _ => modLanes x w.lanes fun _ l => { l with pc := w.pc }
  | _ => x

/-- The slot of an SVC whose lanes a handler takes is kept for them (R395). -/
def keepSlot (m : LaneMask) (w : Wait) : Option Wait :=
  match w.kind with
  | .svc slot form dst => if (w.lanes &&& m) = 0 then none else some { w with lanes := w.lanes &&& m, kind := .svcKept slot form dst }
  | _ => none

/-- Before a handler's lanes issue, the waits that would keep them are withdrawn: those of the whole fibre, and those of the
lanes of the entry; the instructions execute again afterwards (R141, R144, R240, R241, R364). A parked lane that the handler takes
parks again (R213, R351). -/
def withdraw (x : Fibre) (m : LaneMask) : Fibre :=
  let gone (w : Wait) : Bool := waitBlocks w.kind || (w.lanes &&& m) != 0
  let y := (x.waits.filter gone).foldl keepArrival x
  let rest := y.waits.filterMap fun w => match w.kind with
    | .svcKept _ _ _ => some w
    | k => if waitBlocks k then none
      else if (w.lanes &&& ~~~ m) = 0 then none else some { w with lanes := w.lanes &&& ~~~ m }
  modLanes { y with waits := rest ++ x.waits.filterMap (keepSlot m), parked := y.parked &&& ~~~ m, marks := [],
                      opWaits := (dropOpWaits y m).opWaits } m fun _ l => readyLane l

/-- A fibre whose waits are withdrawn leaves the queue for tenures and the wait-and-wake table (R120, R391). -/
def leaveQueues (s : State) (f : Nat) : State :=
  { s with tacqs := s.tacqs.filter fun w => w.who != f,
           hub := { s.hub with waiters := s.hub.waiters.filter fun w => w.who != .fibre f } }

/-- An asynchronous entry's PC is the resume PC of its lowest lane (R350). -/
def settleEntry (x : Fibre) (e : TrapEntry) : TrapEntry :=
  if e.async then
    match lowest (e.lmask &&& liveMask x) with
    | some i => { e with pc := (laneAt x i).pc }
    | none => e
  else e

/-- SBLK ends at delivery of the entry that reports it (R229). -/
def clearSblk (x : Fibre) (e : TrapEntry) : Fibre :=
  if e.cause = cSPILL ∨ (e.cause = cREGFILE ∧ e.info.getLsbD 10) then modLanes x e.lmask fun _ l => { l with sblk := false, sblkReg := false }
  else x

/-- Take the head entry of the trap queue at K (R353 to R356): the registers it saves into, the level, %amask and the
handler stack, the frame, and the vector. -/
def takeK (s0 : State) (f : Nat) (e0 : TrapEntry) : State :=
  let s := modFib (leaveQueues s0 f) f fun x => withdraw x e0.lmask
  let x := fib s f
  let e := settleEntry x e0
  let m := e.lmask &&& liveMask x
  let tc := tcauseOf x e x.hstack.length
  let level : HandlerLevel :=
    { amask := x.amask, klvl := x.klvl, ganged := x.ganged, tcause := x.tcause, tpc := x.tpc, taddr := x.taddr, tinfo := x.tinfo, entry := e }
  let s1 := modFib s f fun x =>
    let y := afterPop { x with trapq := x.trapq.drop 1 }
    dropFetched (clearSblk { y with hstack := level :: y.hstack, dirty := y.dirty ||| 4 } e)
  let s2 := (lanesOf m).foldl (enterK e f tc) s1
  modFib s2 f fun x =>
    { x with amask := m, klvl := true, ganged := true, lastSlice := 7, tcause := tc, tpc := e.pc, taddr := e.addr, tinfo := e.info }

/-- Enter the U handler in one lane, as a CALL.adv16 at the resume PC (R359). -/
def enterU (e : TrapEntry) (f : Nat) (tcause : BitVec 64) (s : State) (lane : Nat) : State :=
  let s1 := modFib s f fun x => modLane (pushedLink x lane) lane fun l =>
    { pushDelivery 16 false l with pc := BitVec.ofNat 64 (x.utvec.toNat / 4 * 4) }
  let a := (handlerAddr e lane).toNat
  let fp := (laneAt (fib s1 f) lane).fp
  let vals : List Word := [BitVec.ofNat 32 tcause.toNat, e.info, BitVec.ofNat 32 a, BitVec.ofNat 32 (a / 2 ^ 32)]
  (vals.zipIdx).foldl (fun t p => frameSet t f lane (fp + p.2) p.1) s1

/-- A lane within the limits of R228 and R229 for a delegated delivery (R359). -/
def fitsU (s : State) (f : Nat) (x : Fibre) (lane : Nat) : Bool :=
  let l := laneAt x lane
  decide (l.fp + 16 + 64 ≤ x.spw) && decide (l.depth + 1 ≤ x.lkn)
    && !(l.sblk && spillFirst (slotRec s (slotOf f)).z 16 l)

/-- Take the head entry at U (R359): the level, %amask and the handler stack stay. -/
def takeU (s0 : State) (f : Nat) (e0 : TrapEntry) : State :=
  let s := modFib (leaveQueues s0 f) f fun x => withdraw x e0.lmask
  let x := fib s f
  let e := settleEntry x e0
  let tc := tcauseOf x e 0
  let s1 := modFib s f fun x => dropFetched (clearSblk (afterPop { x with trapq := x.trapq.drop 1 }) e)
  (lanesOf (e.lmask &&& liveMask x)).foldl (enterU e f tc) s1

/-- Return from the handler at the top of the handler stack: %amask, level, gang state and the trap registers come back
(R357, R360). -/
def popHandler (x : Fibre) : Fibre :=
  match x.hstack with
  | l :: r => dropFetched { x with hstack := r, amask := l.amask, klvl := l.klvl, ganged := l.ganged, tcause := l.tcause, tpc := l.tpc,
                                   taddr := l.taddr, tinfo := l.tinfo }
  | [] => x

/-- Up to `n` handler levels whose lanes have all exited end. -/
def endEmptyLevels : Nat → Fibre → Fibre
  | 0, x => x
  | n + 1, x => if !x.hstack.isEmpty && (x.amask &&& liveMask x) == 0 then endEmptyLevels n (popHandler x) else x

/-- When every lane of a running handler's %amask has exited, the handler level ends; so does each outer one that has no lane left
(R357). -/
def endEmptyHandler (x : Fibre) : Fibre := endEmptyLevels x.hstack.length x

/-! ## Time, free values, views -/

/-- Draw the next free value (log 2). -/
def draw (s : State) : BitVec 64 × State := (Config.freeValue s.free, { s with free := s.free + 1 })

/-- A field that a rule gives, or else a free value (log 17). -/
def fieldOr (s : State) (v : Option Nat) : Nat × State :=
  match v with
  | some n => (n, s)
  | none => ((draw s).1.toNat, (draw s).2)

/-- A trap of every lane of the issue group, whose address or info field no rule gives where it is none (log 17). -/
def trapOpen (s : State) (cause : Nat) (addr info : Option Nat) : State :=
  let a := fieldOr s addr
  let i := fieldOr a.2 info
  trapAll i.2 { cause := cause, addr := a.1, info := i.1 % 2 ^ 32 }

/-- The coherence clock moves: the next write takes the next place in the order. -/
def bumpClock (s : State) : State := { s with mem := { s.mem with clock := s.mem.clock + 1 } }

/-- Two agents lie in one instance of a scope, by their cores' numbers; a host agent lies in .sys only (R135, R146). -/
def scopeCovers (scope a b : Nat) : Bool :=
  match scope with
  | 0 | 1 => a == b
  | 2 => quadOf a == quadOf b
  | 3 => dieOf a == dieOf b
  | 4 | 5 => a != hostCore && b != hostCore
  | _ => true

/-- An output leaves the package. -/
def output (s : State) (o : Output) : State := { s with hub := { s.hub with outputs := s.hub.outputs ++ [o] } }

/-- A record goes to the management complex's error log. -/
def logError (s : State) (e : ErrorRecord) : State := { s with hub := { s.hub with errors := s.hub.errors ++ [e] } }

/-- The key of an interrupt identity: management core, file, identity. -/
def imsicKey (core file i : Nat) : Nat := (core * 256 + file) * 2048 + i

/-- The name of an engine that is a source of R385: the launch scheduler is one for all partitions. -/
def irqSource (source what : Nat) : Nat := source * 65536 + (if source = 1 then 0 else what)

/-- A message-signalled source writes the identity that the firmware has set for it: the pending bit is set (R384, R385). -/
def irq (s : State) (source what : Nat) : State :=
  { s with hub := { s.hub with
      irqs := s.hub.irqs ++ [(source, what)],
      imsic := match FMap.find s.hub.irqIds (irqSource source what) with
        | some i => NSet.add s.hub.imsic (imsicKey i.1 i.2.1 i.2.2)
        | none => s.hub.imsic } }

/-- The firmware sets a source's identity in a machine-level file (R384, R385). -/
def setIrqId (s : State) (source core file i : Nat) : State :=
  if core < 8 ∧ file = 0 ∧ 1 ≤ i ∧ i ≤ 2047 then { s with hub := { s.hub with irqIds := FMap.put s.hub.irqIds source (core, file, i) } } else s

/-- A self-test of a place is due; of an L2 bank and of a core's storage there is one at a time (R236, R374). -/
def dueTest (s : State) (p : TestPlace) : State :=
  { s with hub := { s.hub with tests := if s.hub.tests.contains p then s.hub.tests else s.hub.tests ++ [p] } }

/-- The partition record of a partition number. -/
def partOf (s : State) (p : Nat) : Part :=
  (FMap.find s.hub.parts p).getD
    { qmask := [0, 0, 0, 0], kb := 1, kn := 0, skey := 1, ktvec := 0, tdeleg := 0, tenmax := 4096, kq := 0, weight := 1,
      spoolShare := none, batchLimit := 1024, wsh := none, gondola := [], ring := [], lctx := [], cdom := [], stage2 := 0,
      nextLid := 1, rrServed := [], collCount := 0, measure := 0, kMeasured := false }

/-- Change a partition record. -/
def modPart (s : State) (p : Nat) (g : Part → Part) : State :=
  { s with hub := { s.hub with parts := FMap.put s.hub.parts p (g (partOf s p)) } }

/-- The key of a workgroup: partition, launch, number. -/
def wgKey (part lid wg : Nat) : Nat := (part * 2 ^ 32 + lid) * 2 ^ 32 + wg

/-- The key of a spawned warp's workgroup: its launch and spawn slot (R198, R203). -/
def spawnKey (part lid m : Nat) : Nat := 2 ^ 80 + wgKey part lid m

/-- The workgroup record of a fibre; a spawned warp's is that of its slot. -/
def wgOf (s : State) (f : Nat) : Wg :=
  (FMap.find s.wgs (slotRec s (slotOf f)).wgKey).getD
    { part := 0, lid := 0, wg := 0, core := 0, klvl := false, kdesc := 0, nwarp := 1, fibs := 1, ring := 2, win := 0, acc := 0,
      ntag := 1, cor := false, fuse := false, scrBase := 0, scrSize := 0, obBase := [0, 0, 0, 0], obSize := 0, tiles := [],
      fibres := [], slots := [], spawnSlot := none, saveArea := 0, saveSeq := 0, dirtyUnits := [] }

/-- Change the workgroup record of a fibre. -/
def modWg (s : State) (f : Nat) (g : Wg → Wg) : State :=
  match FMap.find s.wgs (slotRec s (slotOf f)).wgKey with
  | some w => { s with wgs := FMap.put s.wgs (slotRec s (slotOf f)).wgKey (g w) }
  | none => s

end Sys2Proof.Machine
end

