-- ==== Sys2Proof/Machine/Flags.lean ====
section
/-! DEFINITION. Guards, predicates and the relations that write them (R28, R256, R293, R297). This machine has no flags
register: its condition bits are the predicates p0 to p6. -/

namespace Sys2Proof.Machine

/-- The lanes in which a guard field's predicate holds (R28). -/
def guardMask (x : Fibre) (g : Guard) : LaneMask :=
  let m := if g.pred.val = 7 then BitVec.allOnes 32 else SMap.get 0 x.preds g.pred.val
  if g.neg then ~~~ m else m

/-- ActiveLanes() (R29): the issue lanes whose guard is true. -/
def active (s : State) (a : Args) : LaneMask :=
  let x := me s
  s.grp &&& (if a.gc then guardMask x a.ga ||| guardMask x a.gb else guardMask x a.ga &&& guardMask x a.gb)

/-- The relation of ISETP, fixed by the type (R256). -/
def isetpRel (t : Ty) (a b : Nat) : Bool :=
  match t with
  | .b32 | .b64 => a == b
  | _ => decide (intOf t a < intOf t b)

/-- The relation of FSETP: code 0 to 7 (R293). -/
def fsetpRel (code : Nat) (a b : Num) : Bool :=
  let un := a == .nan || b == .nan
  match code with
  | 0 => !un && numEq a b
  | 1 => !un && numLess a b
  | 2 => !un && (numLess a b || numEq a b)
  | 3 => !un && numLess b a
  | 4 => !un && (numLess b a || numEq a b)
  | 5 => un || !numEq a b
  | 6 => !un
  | _ => un

/-- The class mask of FCLASS for a value of a format (R297). -/
def classMask (f : FloatFmt) (x : Num) : Nat :=
  match x with
  | .nan => 256
  | .inf neg => if neg then 1 else 128
  | .fin neg m e =>
    if m = 0 then (if neg then 8 else 16)
    else if e = f.qmin ∧ m < 2 ^ (f.prec - 1) then (if neg then 4 else 32)
    else (if neg then 2 else 64)

/-- Write one predicate in the lanes of a mask. -/
def writePred (s : State) (m : LaneMask) (o : Opnd) (val : Nat → Bool) : State :=
  match o with
  | .reg r _ _ => (lanesOf m).foldl (fun t i => predSet t t.cur i r (val i)) s
  | _ => s

end Sys2Proof.Machine
end

