-- ==== Sys2Proof/Machine/Operands.lean ====
section
/-! DEFINITION. The operand forms: sources with their modifiers, immediates, code fields, destinations, effective addresses. -/

namespace Sys2Proof.Machine

/-- The value of a source field of a lane, read as a type; `nc` is the narrow format code for b8 (R21, R25, R274). -/
def srcVal (s : State) (t : Ty) (nc : Nat) (o : Opnd) (lane : Nat) : Nat :=
  match o with
  | .reg r neg abs => applyMods t nc neg abs (regGet s s.cur lane (tyIs64 t) r)
  | .code c => c.toNat
  | .none => 0

/-- The code of a code field (R243). -/
def codeOf (o : Opnd) : Nat :=
  match o with
  | .code c => c.toNat
  | _ => 0

/-- The immediate as source 1 (R27). -/
def immVal (a : Args) : Nat :=
  match a.ty with
  | .s64 => wrap 64 (toSigned 32 a.imm.toNat)
  | .f64 => roundTo fmtF64 (.mode .rne) false (decodeFloat .f32 0 a.imm.toNat)
  | _ => a.imm.toNat

/-- Source 1: S1 in format R, the immediate in format I (R27). -/
def src1 (s : State) (a : Args) (t : Ty) (lane : Nat) : Nat :=
  if a.fmt = .I then immVal a else srcVal s t 0 a.s1 lane

/-- A count, position, length or lane operand in S1 or the immediate: n32 whatever TY says (R244, R252). -/
def count1 (s : State) (a : Args) (lane : Nat) : Nat :=
  if a.fmt = .I then immVal a else srcVal s .n32 0 a.s1 lane

/-- A 64-bit address or target a register supplies; no modifiers (R427). -/
def addrVal (s : State) (o : Opnd) (lane : Nat) : Nat :=
  match o with
  | .reg r _ _ => regGet s s.cur lane true r
  | _ => 0

/-- A 32-bit operand that takes no modifiers (R427). -/
def wordVal (s : State) (o : Opnd) (lane : Nat) : Nat :=
  match o with
  | .reg r _ _ => regGet s s.cur lane false r
  | _ => 0

/-- The second register of a pair that supplies two separate values (R142). -/
def pairHigh (s : State) (o : Opnd) (lane : Nat) : Nat :=
  match o with
  | .reg (.a n) _ _ => (SMap.get 0 (me s).aregs n.val).toNat / 2 ^ 32
  | .reg r _ _ => (regGet32 s s.cur lane r 1).toNat
  | _ => 0

/-- The register a field names. -/
def opndReg (o : Opnd) : Option Reg :=
  match o with
  | .reg r _ _ => some r
  | _ => none

/-- The number of the register a field names, 0 where it names none. -/
def opndNum (o : Opnd) : Nat :=
  match o with
  | .reg r _ _ => regNum r
  | _ => 0

/-- The field names a uniform register. -/
def uniformOpnd (o : Opnd) : Bool :=
  match o with
  | .reg r _ _ => regUniform r
  | _ => true

/-- A lane that reads a scalar operand: the lowest issue lane. -/
def lane0 (s : State) : Nat := (lowest s.grp).getD 0

/-- The lanes in which a result is written: the active lanes, or for a uniform destination once, with the lowest active
lane's value (R23, R30, R258). -/
def dstLanes (m : LaneMask) (r : Reg) : List Nat := if regUniform r then (lanesOf m).take 1 else lanesOf m

/-- Write one result per lane through a destination field, from values computed before any write (R24). -/
def writeOpnd (s : State) (m : LaneMask) (o : Opnd) (wide : Bool) (val : Nat → Nat) : State :=
  match o with
  | .reg r _ _ => (dstLanes m r).foldl (fun t i => dstSet t t.cur i wide r (val i)) s
  | _ => s

/-- As `writeOpnd`, leaving the latches (loads through S3, LANEWR: R232, R264). -/
def writeQuiet (s : State) (m : LaneMask) (o : Opnd) (wide : Bool) (val : Nat → Nat) : State :=
  match o with
  | .reg r _ _ => (dstLanes m r).foldl (fun t i => regSet t t.cur i wide r (val i)) s
  | _ => s

/-- An instruction that writes one result per active lane through D and goes on. -/
def execMap (a : Args) (wide : Bool) (val : Nat → Nat) (s : State) : Result :=
  .next (goOn (writeOpnd s (active s a) a.d.opnd wide val))

/-- An instruction that writes one predicate bit per active lane and goes on. -/
def execPred (a : Args) (val : Nat → Bool) (s : State) : Result :=
  .next (goOn (writePred s (active s a) a.d.opnd val))

/-- The effective address of a lane (R86). -/
def effAddr (s : State) (a : Args) (lane : Nat) : Nat :=
  let off := toSigned 16 a.off.toNat
  let sp := a.space.toNat
  if sp = 0 ∨ sp = 1 ∨ sp = 6 ∨ sp = 7 then wrap 64 ((addrVal s a.s0 lane : Int) + off)
  else wrap 32 ((wordVal s a.s0 lane : Int) + off)

/-- The lanes in which a memory instruction makes an access: once per issue where its registers are all uniform (R30, R88). -/
def accessLanes (s : State) (a : Args) : List Nat :=
  let l := lanesOf (active s a)
  if uniformOpnd a.d.opnd && uniformOpnd a.s0 && uniformOpnd a.s1 then l.take 1 else l

end Sys2Proof.Machine
end

