-- ==== Sys2Proof/Machine/Memory.lean ====
section
/-! DEFINITION. Bytes of storage: memory with its caches and keys, the scratchpads, the operand buffers; and the order of
writes that lets a relaxed read answer an earlier value (spec/02, spec/03, spec/05, spec/06; log 5). -/

namespace Sys2Proof.Machine

/-! ## Locations (R127, R129): a physical address, or a place in a core's storage -/

/-- The location of a scratchpad byte. -/
def scrLoc (core off : Nat) : Nat := 2 ^ 52 + core * 2 ^ 20 + off
/-- The location of an operand-buffer byte. -/
def obLoc (u off : Nat) : Nat := 2 ^ 53 + u * 2 ^ 18 + off
/-- The location of an accumulator element, for the poison of R373 only. -/
def accLoc (key : Nat) : Nat := 2 ^ 54 + 4 * key
/-- The location is in memory, not in a core's own storage. -/
def inMem (loc : Nat) : Bool := decide (loc < 2 ^ 52)

/-! ## The physical map (R51, R78) -/

/-- Bonded DRAM. -/
def isDram (pa : Nat) : Bool := decide (pa < 0x8000000000) && decide (pa % 0x2000000000 < 0x1800000000)
/-- CXL Type-3 memory. -/
def isCxl (pa : Nat) : Bool := decide (0x10000000000 ≤ pa) && decide (pa ≤ 0xCFFFFFFFFFF)
/-- Device registers and IMSIC pages. -/
def isDevice (pa : Nat) : Bool := decide (0x1000000000000 ≤ pa) && decide (pa ≤ 0x1FFFFFFFFFFFF)
/-- Host memory. -/
def isHost (pa : Nat) : Bool := decide (0x8000000000000 ≤ pa) && decide (pa ≤ 0xFFFFFFFFFFFFF)
/-- The memory port of an address of CXL memory: one after another, 2 TiB each (log 57). -/
def memPortOf (pa : Nat) : Nat := (pa - 0x10000000000) / 2 ^ 41
/-- A device answers at an address of CXL memory: its port is up and the device large enough (R377). -/
def cxlAnswers (s : State) (pa : Nat) : Bool :=
  match s.hub.memPorts[memPortOf pa]? with
  | some m => m.up && decide ((pa - 0x10000000000) % 2 ^ 41 < m.size)
  | none => false
/-- Some memory or register answers at the address. -/
def populated (s : State) (pa : Nat) : Bool := isDram pa || (isCxl pa && cxlAnswers s pa) || isDevice pa || isHost pa
/-- The home die of a line; 4 for the hub (R78). -/
def homeDie (pa : Nat) : Nat :=
  if isDram pa then pa / 0x2000000000
  else if isDevice pa then 4
  else (bits pa 21 2) ^^^ (bits pa 23 2)
/-- The L2 slice of a line (R68). -/
def homeSlice (pa : Nat) : Nat := (bits pa 7 5) ^^^ (bits pa 22 5)
/-- The host port of a host address: the two ports split the region in halves (log 21). -/
def portOf (pa : Nat) : Nat := if pa < 0xC000000000000 then 0 else 1
/-- A host port that caches host memory (R79, R162). -/
def portCxl (s : State) (pa : Nat) : Bool := (s.hub.ports.getD (portOf pa) Port.reset).cxl

/-! ## Reading and writing bytes -/

/-- The byte of memory as the caches and the memory behind them hold it. -/
def rawByte (st : Store) (loc : Nat) : Byte := (FMap.find st.dirty loc).getD (SMap.get 0 st.cells loc)

/-- A key as an access carries it is the key's value and its ID (R60): value · 4096 + ID. Value 0 stands for no encryption. -/
def keyCode (value id : Nat) : Nat := value * 4096 + id
/-- The value of a key. -/
def keyValue (key : Nat) : Nat := key / 4096
/-- The ID of a key. -/
def keyId (key : Nat) : Nat := key % 4096

/-- The value of the key that what memory holds of a line is encrypted under; 0 where nothing was written there under a key. -/
def lineKeyAt (st : Store) (loc : Nat) : Nat := SMap.get 0 st.lineKey (loc / 128)

/-- The 16 bytes from an address on as one block. -/
def blockAt (st : Store) (pa : Nat) : BitVec 128 := BitVec.ofNat 128 (ofBytes ((List.range 16).map fun i => rawByte st (pa + i)))

/-- A block that stands under key `w`, read under key `v`: the decryption under `v` of its ciphertext (R61). -/
def crossBlock (v w i : Nat) (b : BitVec 128) : BitVec 128 := (Config.cipher v i).symm (Config.cipher w i b)

/-- The byte at a location of a line that stands under key `w`, read under key `v` (R61). -/
def crossByte (st : Store) (v w loc : Nat) : Byte :=
  let i := loc / 16
  BitVec.ofNat 8 ((crossBlock v w i (blockAt st (16 * i))).toNat / 256 ^ (loc % 16))

/-- The byte a location reads as under a key; a key of value 0 reads what stands there (R60, R61). -/
def readByte (s : State) (key loc : Nat) : Byte :=
  if 2 ^ 53 ≤ loc then SMap.get 0 s.obuf (loc - 2 ^ 53)
  else if 2 ^ 52 ≤ loc then SMap.get 0 s.scr (loc - 2 ^ 52)
  else
    let v := keyValue key
    let w := lineKeyAt s.mem loc
    if v = 0 ∨ w = 0 ∨ w = v then rawByte s.mem loc else crossByte s.mem v w loc

/-- The `n` bytes from a location on. -/
def readBytes (s : State) (key loc n : Nat) : List Byte := (List.range n).map fun i => readByte s key (loc + i)

/-- Put one byte of memory: into the caches, or past them (R79). -/
def putByte (st : Store) (cached : Bool) (loc : Nat) (b : Byte) : Store :=
  if cached then { st with dirty := FMap.put st.dirty loc b }
  else { st with dirty := FMap.del st.dirty loc, cells := SMap.set 0 st.cells loc b }

/-- Put bytes of memory from a location on. -/
def putBytes (st : Store) (cached : Bool) : Nat → List Byte → Store
  | _, [] => st
  | loc, b :: l => putBytes (putByte st cached loc b) cached (loc + 1) l

/-- The dirty bytes of a line go to memory (R61, R84, R96, R114). -/
def cleanLine (st : Store) (line : Nat) : Store :=
  (List.range 128).foldl (fun t i =>
    match FMap.find t.dirty (line * 128 + i) with
    | some b => putByte t false (line * 128 + i) b
    | none => t) st

/-- An access under a key finds its line cached under another key ID: the line is written back first; a cached access then leaves the
line cached under its own (R61). An access without a key of its own takes the line as it stands. -/
def openLine (st : Store) (cached : Bool) (key line : Nat) : Store :=
  if keyValue key = 0 ∧ (isDram (128 * line) ∨ isCxl (128 * line)) then st
  else
    let tag := SMap.get 0 st.tag line
    if tag = key + 1 then st
    else
      let st1 := if tag = 0 then st else cleanLine st line
      { st1 with tag := SMap.set 0 st1.tag line (if cached then key + 1 else 0) }

/-- A line about to be written under another key is read under it first: written back and decrypted anew (R61). -/
def rekeyLine (s : State) (key loc : Nat) : State :=
  let k := lineKeyAt s.mem loc
  let v := keyValue key
  if v = 0 ∨ k = v then s
  else
    let line := loc / 128
    let st := cleanLine s.mem line
    let st1 := if k = 0 then st else putBytes st false (line * 128) (readBytes s key (line * 128) 128)
    { s with mem := { st1 with lineKey := SMap.set 0 st1.lineKey line v } }

/-- The lines that a block of bytes meets. -/
def linesOf (loc n : Nat) : List Nat := if n = 0 then [] else (List.range ((loc % 128 + n + 127) / 128)).map (loc / 128 + ·)

/-- Every line an access meets is found under its key, or behaves as a miss (R61). -/
def openLines (s : State) (cached : Bool) (key loc n : Nat) : State :=
  { s with mem := (linesOf loc n).foldl (fun st l => openLine st cached key l) s.mem }

/-- Every line a write meets is read under its key (R61). -/
def rekeyLines (s : State) (key loc n : Nat) : State := (linesOf loc n).foldl (fun t l => rekeyLine t key (128 * l)) s

/-- The poison of the words that a test picks ends. -/
def dropPoison (st : Store) (p : Nat → Bool) : Store :=
  if st.poison.isEmpty then st
  else { st with poison := st.poison.filter fun w => !p w, poisonBy := st.poisonBy.filter fun e => !p e.1 }

/-- Poison ends where a whole 8-byte word is written (R373). -/
def unpoison (st : Store) (loc n : Nat) : Store := dropPoison st fun w => decide (loc ≤ 8 * w) && decide (8 * w + 8 ≤ loc + n)

/-- The first poisoned word that a block of bytes meets. -/
def poisonedWord (st : Store) (loc n : Nat) : Option Nat :=
  st.poison.find? fun w => decide (loc < 8 * w + 8) && decide (8 * w < loc + n)

/-- Some byte of a block lies in a poisoned word. -/
def poisoned (st : Store) (loc n : Nat) : Bool := (poisonedWord st loc n).isSome

/-- The source code of an uncorrectable error in a block (R373): that of the cache where the word was lost in one, else that of the
place. -/
def poisonSource (st : Store) (loc n : Nat) : Nat :=
  let by_ := match poisonedWord st loc n with
    | some w => SMap.get 0 st.poisonBy w
    | none => 0
  if by_ ≠ 0 then by_
  else if 2 ^ 54 ≤ loc then 6 else if 2 ^ 53 ≤ loc then 5 else if 2 ^ 52 ≤ loc then 4 else if isCxl loc then 1 else 0

/-- Put bytes at a location, whatever holds it; `cached` matters in memory only. -/
def rawPut (s : State) (cached : Bool) (loc : Nat) (l : List Byte) : State :=
  let s1 := { s with mem := unpoison s.mem loc l.length }
  if 2 ^ 53 ≤ loc then
    { s1 with obuf := (l.zipIdx).foldl (fun m p => SMap.set 0 m (loc - 2 ^ 53 + p.2) p.1) s1.obuf }
  else if 2 ^ 52 ≤ loc then
    { s1 with scr := (l.zipIdx).foldl (fun m p => SMap.set 0 m (loc - 2 ^ 52 + p.2) p.1) s1.scr }
  else { s1 with mem := putBytes s1.mem cached loc l }

/-- A location lies in the scratchpad or operand buffer of a workgroup. -/
def storageOf (w : Wg) (loc : Nat) : Bool :=
  if 2 ^ 53 ≤ loc then
    let k := loc - 2 ^ 53
    let lo := w.obBase.getD (k / 2 ^ 18 % 4) 0
    k / 2 ^ 20 == w.core && decide (lo ≤ k % 2 ^ 18) && decide (k % 2 ^ 18 < lo + w.obSize)
  else
    let k := loc - 2 ^ 52
    k / 2 ^ 20 == w.core && decide (w.scrBase ≤ k % 2 ^ 20) && decide (k % 2 ^ 20 < w.scrBase + w.scrSize)

/-- Mark the save units of the owning workgroup's storage that a write of `n` bytes touches (R367); units are numbered from the location. -/
def markUnit (s : State) (loc n : Nat) : State :=
  if inMem loc then s
  else { s with wgs := s.wgs.map fun p => if storageOf p.2 loc then
      (p.1, { p.2 with dirtyUnits := NSet.add (NSet.add p.2.dirtyUnits (loc / 1008)) ((loc + (n - 1)) / 1008) }) else p }

/-! ## The order of writes and what an agent has seen (R128, R134, R147 to R155; log 5) -/

/-- The history of writes matters: relaxed reads may still answer earlier values. -/
def tracked (s : State) : Bool := !s.readPts.isEmpty

/-- Raise the write time held for a location. -/
def viewAdd (v : View) (loc t : Nat) : View := FMap.put v loc (max t ((FMap.find v loc).getD 0))

/-- Everything either view holds. -/
def viewJoin (a b : View) : View := b.foldl (fun v p => viewAdd v p.1 p.2) a

/-- Note a write of a location: its time and its core. -/
def seenAdd (m : FMap View) (loc : Nat) (p : Nat × Nat) : FMap View := FMap.put m loc (viewAdd ((FMap.find m loc).getD []) p.2 p.1)

/-- The time of the newest noted write of a location. -/
def seenTop (m : FMap View) (loc : Nat) : Nat := ((FMap.find m loc).getD []).foldl (fun t p => max t p.2) 0

/-- The noted writes whose agents lie in the instance of a scope: by location the time of the latest (R150, R155). -/
def seenIn (m : FMap View) (scope core : Nat) : View :=
  m.foldl (fun v p => p.2.foldl (fun u q => if scopeCovers scope core q.1 then viewAdd u p.1 q.2 else u) v) []

/-- The block of scratchpad of 16 bytes that a location lies in. -/
def objIndex (loc : Nat) : Nat := (loc - 2 ^ 52) / 16

/-- A location as the ordering rules know it: every byte of a barrier object is one location with the others (R173, R176). -/
def ordLoc (s : State) (loc : Nat) : Nat :=
  if 2 ^ 52 ≤ loc ∧ loc < 2 ^ 53 ∧ s.objs.contains (objIndex loc) then 2 ^ 52 + 16 * objIndex loc else loc

/-- The bytes of a block, all written at a time. -/
def viewBlock (s : State) (v : View) (loc n t : Nat) : View := (List.range n).foldl (fun u i => viewAdd u (ordLoc s (loc + i)) t) v

/-- A past write of some byte of the same location. -/
def sameLoc (s : State) (loc : Nat) (e : PastWrite) : Bool := ordLoc s e.loc == ordLoc s loc

/-- The write is payload of an entry that is not complete: it takes no place in the core's order of writes yet (R134, R138). -/
def unplaced (st : Store) (e : PastWrite) : Bool := st.payload.any fun p => p.1 == e.time

/-- The time of the newest write to a location by a core's agents, payload in flight apart. -/
def ownWrite (s : State) (core loc : Nat) : Nat :=
  match s.mem.hist.find? fun e => sameLoc s loc e && e.core == core && !unplaced s.mem e with
  | some e => e.time
  | none => 0

/-- The value of a byte at a time: what stood there before the oldest later write. -/
def valueAt (st : Store) (loc t : Nat) (now : Byte) : Byte :=
  st.hist.foldl (fun b e => if e.loc = loc ∧ t < e.time then e.old else b) now

/-- Every byte of a block that has been written since a time stood, and stands, under a key: earlier values are plaintext of that key (R61). -/
def sameKey (s : State) (key t loc n : Nat) : Bool :=
  let fits (k : Nat) : Bool := k == 0 || keyValue key == 0 || k == keyValue key
  !inMem loc || ((List.range n).all fun i => fits (lineKeyAt s.mem (loc + i)))
    && s.mem.hist.all fun e => !(decide (loc ≤ e.loc) && decide (e.loc < loc + n) && decide (t < e.time)) || fits e.key

/-- The write whose value a location has at a time; none where it has its first value. -/
def versionAt (s : State) (loc t : Nat) : Option PastWrite := s.mem.hist.find? fun e => sameLoc s loc e && decide (e.time ≤ t)

/-- The time a view holds for a location. -/
def viewTime (s : State) (v : View) (loc : Nat) : Nat := max ((FMap.find v loc).getD 0) ((FMap.find v (ordLoc s loc)).getD 0)

/-- The least time at which a fibre may read a location (R128, R134, R149, R153, R155). -/
def floorAt (s : State) (f loc : Nat) : Nat :=
  let x := fib s f
  max (max (viewTime s x.view loc) (viewTime s x.low loc))
    (max (max (seenTop x.seen loc) (seenTop x.seen (ordLoc s loc))) (ownWrite s (coreOf f) loc))

/-- What a die has seen of a location. -/
def dieKey (core loc : Nat) : Nat := loc * 8 + dieOf core

/-- The write times that reads of a die have seen (R153): the floor of its agents' reads after an acquire. -/
def dieView (st : Store) (core : Nat) : View :=
  (st.dieSeen.filter fun p => p.1 % 8 == dieOf core).map fun p => (p.1 / 8, p.2)

/-- The writes of a view happen before what a fibre does next. -/
def joinView (s : State) (f : Nat) (v : View) : State := if v.isEmpty then s else modFib s f fun x => { x with view := viewJoin x.view v }

/-- The writes that a release of a fibre at a scope makes visible: those that happen before it, and those its reads returned whose
agents lie in the scope's instance (R150). -/
def releaseView (s : State) (f scope : Nat) : View := viewJoin (fib s f).view (seenIn (fib s f).seen scope (coreOf f))

/-- A release reaches a reader at a scope (R148, point 2). -/
def relCovers (r : Rel) (core scope : Nat) : Bool := scopeCovers r.scope r.core core && scopeCovers scope r.core core

/-- The releases of the write that a location's value comes from at a time. -/
def relsAt (s : State) (loc t : Nat) : List Rel :=
  match ((FMap.find s.mem.relSeq (ordLoc s loc)).getD []).find? fun e => decide (e.1 ≤ t) with
  | some e => e.2
  | none => []

/-- A fibre takes a release it has read: at once where the scopes cover it, else at a later FENCE that does (R131, R148). -/
def takeRel (f scope : Nat) (s : State) (r : Rel) : State :=
  if relCovers r (coreOf f) scope then joinView s f r.view
  else modFib s f fun x => if x.relPend.contains r then x else { x with relPend := r :: x.relPend }

/-- A die has seen a write: every byte that the access wrote is written for it, of payload 32 bytes (R127, R138, R153). -/
def dieSees (s : State) (core : Nat) (w : PastWrite) : State :=
  let same := s.mem.hist.filter fun e => e.time == w.time && (!unplaced s.mem w || e.loc / 32 == w.loc / 32)
  { s with mem := { s.mem with dieSeen := same.foldl (fun v e => viewAdd v (dieKey core (ordLoc s e.loc)) w.time) s.mem.dieSeen } }

/-- A fibre read the value that a location had at a time: the write is noted for the fibre and its die, and its releases are taken
(R128, R148, R153). -/
def noteRead (s : State) (f loc t scope : Nat) : State :=
  match versionAt s loc t with
  | some w =>
    let s1 := modFib s f fun x => { x with seen := seenAdd x.seen (ordLoc s loc) (w.time, w.core) }
    (relsAt s loc t).foldl (takeRel f scope) (dieSees s1 (coreOf f) w)
  | none => s

/-- A unit of a core read the bytes of a block as they stand: its die has seen their writes (R153). -/
def noteUnitRead (s : State) (core loc n : Nat) : State :=
  if tracked s then (List.range n).foldl (fun t i => match versionAt t (loc + i) t.mem.clock with
    | some w => dieSees t core w
    | none => t) s
  else s

/-- The writes that happen before a write, or that it passes on at a scope. -/
def writerView (s : State) (w : Writer) (scope : Nat) : View :=
  match w with
  | .fibre f => releaseView s f scope
  | .unit v _ => v
  | .payload _ _ => []

/-- The releases of a write: its own, at .core where it names none (R131), and those of its fibre's earlier FENCEs (R147). Payload is no
release (R138). -/
def ownRels (s : State) (w : Writer) (core loc n t : Nat) (rel : Option Nat) : List Rel :=
  let own : Rel := { core := core, scope := rel.getD 1, view := viewBlock s (writerView s w (rel.getD 1)) loc n t }
  match w with
  | .fibre f => own :: (fib s f).relFence
  | .unit _ _ => [own]
  | .payload _ _ => []

/-- Record a write: the old bytes, its releases, with those of the release sequence that an RMW write continues (R147), and that the
writing fibre's own writes happen before what it does next. -/
def noteWrite (s : State) (w : Writer) (core loc : Nat) (old : List Byte) (rmw : Bool) (rel : Option Nat) : State :=
  if tracked s then
    let t := s.mem.clock + 1
    let rels := ownRels s w core loc old.length t rel
    let seq (r : FMap (List (Nat × List Rel))) (l : Nat) : FMap (List (Nat × List Rel)) :=
      let e := (FMap.find r l).getD []
      if (e.head?.map (·.1)) = some t then r
      else FMap.put r l ((t, if rmw then rels ++ (e.head?.map (·.2)).getD [] else rels) :: e)
    let mem := (old.zipIdx).foldl (fun (m : Store) p =>
      { m with hist := { loc := loc + p.2, old := p.1, time := t, core := core, key := if inMem loc then lineKeyAt s.mem (loc + p.2) else 0 } :: m.hist,
               relSeq := seq m.relSeq (ordLoc s (loc + p.2)) }) { s.mem with clock := t }
    match w with
    | .fibre f => modFib { s with mem := mem } f fun x =>
        { x with view := viewBlock s x.view loc old.length t,
                 seen := (List.range old.length).foldl (fun m i => seenAdd m (ordLoc s (loc + i)) (t, core)) x.seen }
    | .unit _ _ => { s with mem := mem }
    | .payload q _ => { s with mem := { mem with payload := (t, q) :: mem.payload } }
  else s

/-- The entry at a queue's head is complete: its payload stands in its core's order of writes (R138). -/
def placePayload (s : State) (who : Nat) : State := { s with mem := { s.mem with payload := s.mem.payload.filter fun p => p.2 != who } }

/-- An acquire by a fibre: its later reads see what reads of its die have seen (R153). -/
def noteAcquire (s : State) (f : Nat) : State :=
  if tracked s then modFib s f fun x => { x with low := viewJoin x.low (dieView s.mem (coreOf f)) } else s

/-- What an earlier fence of the .sc order forces on the reads after a later one of a core: the writes that precede it, where both fences
and the writer lie in one instance of both scopes (R155). -/
def scView (core scope : Nat) (r : ScFence) : View :=
  if scopeCovers r.scope r.core core && scopeCovers scope r.core core then
    seenIn (r.seen.map fun p => (p.1, p.2.filter fun q => scopeCovers r.scope r.core q.1)) scope core
  else []

/-- A fence takes its place in the .sc order (R155). -/
def noteSc (s : State) (f scope : Nat) : State :=
  let s1 := modFib s f fun x => { x with low := s.mem.scLog.foldl (fun v r => viewJoin v (scView (coreOf f) scope r)) x.low }
  { s1 with mem := { s1.mem with scLog := { core := coreOf f, scope := scope, seen := (fib s f).seen } :: s1.mem.scLog } }

/-- An acquire fence of a fibre at a scope: it takes the releases read before it that the scopes cover (R147, R148, R153). -/
def acquireFence (s : State) (f scope : Nat) : State :=
  if tracked s then
    let core := coreOf f
    let s1 := ((fib s f).relPend.filter fun r => relCovers r core scope).foldl (fun u r => joinView u f r.view) (noteAcquire s f)
    modFib s1 f fun x => { x with relPend := x.relPend.filter fun o => !relCovers o core scope }
  else s

/-- A release fence of a fibre at a scope: a release for the writes that follow; it covers an earlier one of no wider scope (R147). -/
def releaseFence (s : State) (f scope : Nat) : State :=
  if tracked s then
    let r : Rel := { core := coreOf f, scope := scope, view := releaseView s f scope }
    modFib s f fun x => { x with relFence := r :: x.relFence.filter (fun o => decide (scope < o.scope)) }
  else s

/-- What a die's FENCEs have performed at .die. -/
def fencedView (st : Store) (core : Nat) : View :=
  (st.fenced.filter fun p => p.1 % 8 == dieOf core).map fun p => (p.1 / 8, p.2)

/-- A FENCE at .die or wider: what happens before it is performed at .die, and the reads after it are performed after what earlier such
FENCEs of its die have performed (R140, R153). -/
def fenceDie (s : State) (f scope : Nat) : State :=
  if scope < 3 then s
  else
    let core := coreOf f
    let s1 := modFib s f fun x => { x with low := viewJoin x.low (fencedView s.mem core) }
    { s1 with mem := { s1.mem with fenced := (fib s f).view.foldl (fun v p => viewAdd v (dieKey core p.1) p.2) s1.mem.fenced } }

/-- FENCE at a scope (R147, R153, R155): the acquire, for .sc the place in the .sc order, and the release. -/
def noteFence (s : State) (f scope : Nat) (sc : Bool) : State :=
  if tracked s then
    let s1 := acquireFence (fenceDie s f scope) f scope
    releaseFence (if sc then noteSc s1 f scope else s1) f scope
  else s

/-- The writes of a byte that a continuous write tenure made since a time appear at once, at `t`, the time of the first write under it; a
reader that does not see them sees the value before the grant, and of what the tenure did not write the value it has (R115). -/
def collapseLoc (st : Store) (since t loc : Nat) : List PastWrite :=
  let es := st.hist.filter fun e => e.loc == loc
  match (es.filter fun e => decide (since < e.time)).getLast?, es.find? fun e => decide (e.time ≤ since) with
  | none, none => []
  | none, some p => [{ p with old := rawByte st loc }]
  | some g, none => [{ g with time := t }]
  | some g, some p => [{ g with time := t }, { p with old := g.old }]

/-- The releases of a location's writes since a time become those of one write at `t`, the newest's. -/
def collapseRels (since t : Nat) (l : List (Nat × List Rel)) : List (Nat × List Rel) :=
  match l.head? with
  | some e => if since < e.1 then (t, e.2) :: l.filter (fun o => decide (o.1 ≤ since)) else l
  | none => l

/-- When a continuous write tenure ends, what was written under it since its grant appears at once (R115). -/
def collapse (s : State) (since : Nat) (lines : List Nat) : State :=
  if tracked s then
    let mine (loc : Nat) : Bool := inMem loc && lines.contains (loc / 128)
    match ((s.mem.hist.filter fun e => mine e.loc && decide (since < e.time)).map (·.time)).min? with
    | some t =>
      let locs := ((s.mem.hist.map (·.loc)).filter mine).eraseDups
      { s with mem := { s.mem with hist := locs.flatMap (collapseLoc s.mem since t) ++ s.mem.hist.filter fun e => !mine e.loc,
                                   relSeq := s.mem.relSeq.map fun p => if mine p.1 then (p.1, collapseRels since t p.2) else p } }
    | none => s
  else s

/-- The writes by a core's agents. -/
def agentWrites (s : State) (core : Nat) : View :=
  s.mem.hist.foldl (fun v e => if e.core = core then viewAdd v (ordLoc s e.loc) e.time else v) []

/-- The writes to some lines by a core's agents. -/
def coreWrites (s : State) (core : Nat) (lines : List Nat) : View :=
  s.mem.hist.foldl (fun v e => if e.core = core ∧ inMem e.loc ∧ lines.contains (e.loc / 128) then viewAdd v e.loc e.time else v) []

/-! ## Barrier objects (R173, R174, R176) -/

/-- The 128 bits of an object. -/
def objBits (s : State) (loc : Nat) : Nat := ofBytes (readBytes s 0 loc 16)

/-- The word of the lowest set res bit, if any. -/
def objRes (v : Nat) : Option Nat :=
  if bits v 48 14 ≠ 0 then some 1 else if bits v 80 16 ≠ 0 then some 2 else if bits v 96 32 ≠ 0 then some 3 else none

/-- PHASE. -/
def objPhase (v : Nat) : Bool := v.testBit 63

/-- The object after Evaluate (R174). -/
def objEval (v : Nat) : Nat :=
  if (objRes v).isNone ∧ v.testBit 62 ∧ bits v 32 16 = 0 ∧ bits v 0 32 = 0 then
    let reload := bits v 64 16
    let v1 := setBits (setBits v 63 1 (if objPhase v then 0 else 1)) 32 16 reload
    if reload = 0 then setBits v1 62 1 0 else v1
  else v

/-- What a write leaves for the fibres that wait on the object: BAR_ENCODING at their BARWAIT, or the wake (R174, R176). -/
def wakeWaiters (s : State) (loc v : Nat) : State :=
  let here (w : Wait) : Bool := match w.kind with
    | .barwait l _ _ _ _ _ => l == loc
    | _ => false
  { s with fibres := s.fibres.map fun p => (p.1,
      match p.2.waits.find? here, objRes v with
      | none, _ => p.2
      | some w, some word =>
        let addr := match w.kind with
          | .barwait _ a _ _ _ _ => a
          | _ => 0
        queueTrap { p.2 with waits := p.2.waits.filter fun u => u != w }
          { lmask := w.lanes, cause := cBARENC, async := false, klvl := p.2.klvl, pc := w.pc - 12, addr := BitVec.ofNat 64 addr,
            info := BitVec.ofNat 32 word, laneAddr := [], level := p.2.hstack.length }
      | some _, none => { p.2 with waits := p.2.waits.map fun w => match w.kind with
          | .barwait l a par acq sc woken => { w with kind := .barwait l a par acq sc (woken || decide (l = loc ∧ par ≠ objPhase v)) }
          | _ => w }) }

/-- The evaluation that ends a write to an object; `with_` where it is performed with a write just noted, at the same time (R174). -/
def evaluate (s : State) (w : Writer) (core loc : Nat) (rel : Option Nat) (with_ : Bool) : State :=
  let v := objBits s loc
  let n := objEval v
  let s0 : State := if with_ && tracked s then { s with mem := { s.mem with clock := s.mem.clock - 1 } } else s
  let s1 := if n = v then s
    else rawPut (noteWrite s0 w core loc (if tracked s then readBytes s 0 loc 16 else []) true rel) false loc (toBytes 16 n)
  wakeWaiters s1 loc n

/-- Evaluate every known object that a write to scratchpad touched (log 18). -/
def evaluateAll (s : State) (w : Writer) (core loc n : Nat) (rel : Option Nat) : State :=
  if 2 ^ 52 ≤ loc ∧ loc < 2 ^ 53 ∧ n ≠ 0 ∧ !s.objs.isEmpty then
    (s.objs.filter fun o => decide (objIndex loc ≤ o) && decide (o ≤ objIndex (loc + n - 1))).foldl
      (fun t o => evaluate t w core (2 ^ 52 + 16 * o) rel true) s
  else s

/-! ## Performing a write, performing a read -/

/-- The launch that a writer acts for. -/
def writerOwner (s : State) (w : Writer) : Option (Nat × Nat) :=
  match w with
  | .fibre f => some ((fib s f).part, (fib s f).lid)
  | .unit _ o => o
  | .payload _ o => o

/-- The write that made a word non-zero is kept until the word is zero again (R163). -/
def noteFlag (m : FMap WordWrite) (w : WordWrite) : FMap WordWrite :=
  if w.value = 0 then FMap.del m w.loc else if (FMap.find m w.loc).isSome then m else FMap.put m w.loc w

/-- A written word as a reader under a key finds it (R61, R163). -/
def wordUnder (key : Nat) (w : WordWrite) : Nat :=
  let v := keyValue key
  let b := if v = 0 ∨ w.under = 0 ∨ w.under = v then w.block else crossBlock v w.under (w.loc / 16) w.block
  bits b.toNat (8 * (w.loc % 16)) 32

/-- While a launch waits in a queue, the launch scheduler sees each write of a word of memory as it is performed; what the write orders
stays with its word (R163, R164). -/
def noteWords (s : State) (w : Writer) (core key loc n : Nat) : State :=
  if (s.hub.launches.isEmpty && !tracked s) || n = 0 || !inMem loc then s
  else
    let word (i : Nat) : WordWrite :=
      let at_ := loc / 4 * 4 + 4 * i
      { loc := at_, value := ofBytes (readBytes s key at_ 4), block := blockAt s.mem (at_ / 16 * 16), under := lineKeyAt s.mem at_,
        owner := writerOwner s w, core := core, time := s.mem.clock, view := writerView s w 4 }
    let ws := (List.range ((loc % 4 + n + 3) / 4)).map word
    { s with mem := { s.mem with
        words := if s.hub.launches.isEmpty then [] else s.mem.words ++ ws,
        flagWords := if tracked s then ws.foldl noteFlag s.mem.flagWords else [] } }

/-- Perform a write of bytes at a location under a key and memory type (0 normal, 1 write-combining, 2 uncached, 3 device,
4 a core's own storage). -/
def performWrite (s : State) (w : Writer) (core key mt loc : Nat) (l : List Byte) (rmw : Bool) (rel : Option Nat) : State :=
  let s0 := if inMem loc then rekeyLines (openLines s (decide (mt = 0)) key loc l.length) key loc l.length else markUnit s loc l.length
  let s1 := noteWrite s0 w core loc (if tracked s then readBytes s0 0 loc l.length else []) rmw rel
  noteWords (evaluateAll (rawPut s1 (decide (mt = 0)) loc l) w core loc l.length rel) w core key loc l.length

/-- A block that an instruction or a descriptor names as a barrier object is one from then on, evaluated as it stands (log 18). -/
def nameObj (s : State) (core loc : Nat) : State :=
  if s.objs.contains (objIndex loc) then s else evaluate { s with objs := NSet.add s.objs (objIndex loc) } (.unit [] none) core loc none false

/-- A relaxed read of the location may answer an earlier value: normal memory, the scratchpad of another core, and where payload of an entry
that is not complete stands (R128, R138, R149). -/
def mayLag (s : State) (f mt loc : Nat) : Bool :=
  mt == 0 || (decide (2 ^ 52 ≤ loc) && decide (loc < 2 ^ 53) && (loc - 2 ^ 52) / 2 ^ 20 != coreOf f)
    || (!s.mem.payload.isEmpty && s.mem.hist.any fun e => e.loc == loc && unplaced s.mem e)

/-- Some byte of a block may answer an earlier value. -/
def blockLags (s : State) (f mt loc n : Nat) : Bool := (List.range n).any fun i => mayLag s f mt (loc + i)

/-- The time whose bytes a fibre's read of a block answers, as the next read point tells (log 5): no earlier than its floors, and the newest
where an earlier value stood under another key. -/
def readTime (s : State) (f key mt loc n : Nat) (fresh : Bool) : Nat :=
  match s.readPts with
  | k :: _ =>
    if !fresh && blockLags s f mt loc n then
      let t := max ((List.range n).foldl (fun m i => max m (floorAt s f (loc + i))) 0) (s.mem.clock - k)
      if sameKey s key t loc n then t else s.mem.clock
    else s.mem.clock
  | [] => s.mem.clock

/-- Perform a read of `n` bytes by a fibre. A relaxed or acquiring read may answer the bytes of an earlier time, as the next read point
tells (log 5). -/
def performRead (s : State) (f key mt loc n : Nat) (scope : Nat) (fresh : Bool) : List Byte × State :=
  let now := readBytes s key loc n
  match s.readPts with
  | [] => (now, s)
  | _ :: r =>
    let s0 := if !fresh && blockLags s f mt loc n then { s with readPts := r } else s
    let t := readTime s f key mt loc n fresh
    let old := (now.zipIdx).map fun p => valueAt s.mem (loc + p.2) t p.1
    (old, (List.range n).foldl (fun u i => noteRead u f (loc + i) t scope) s0)

/-- The bytes of a block as a read by a unit for a fibre answers them: an access of the fibre (R305). -/
def readValue (s : State) (f loc n : Nat) : List Byte := (performRead s f 0 4 loc n 1 false).1

/-- What the reads of such a unit at once leave: each is noted for the fibre, and the read point they share is taken (R128, R131, R305). -/
def noteReads (s : State) (f : Nat) (l : List (Nat × Nat)) : State :=
  match s.readPts with
  | [] => s
  | _ :: r =>
    let note (u : State) (p : Nat × Nat) : State :=
      (List.range p.2).foldl (fun v i => noteRead v f (p.1 + i) (readTime s f 0 4 p.1 p.2 false) 1) u
    let t := l.foldl note s
    if l.any fun p => blockLags s f 4 p.1 p.2 then { t with readPts := r } else t

end Sys2Proof.Machine
end

