-- ==== Sys2Proof/Machine/Translate.lean ====
section
/-! DEFINITION. Two-stage translation, permissions, keys, the TLB (spec/02), and the spaces an access is formed in. -/

namespace Sys2Proof.Machine

/-- The KIND codes of R64. -/
def kRead : Nat := 0
def kWrite : Nat := 1
def kExec : Nat := 2
def kRmw : Nat := 3

/-- On whose behalf a translation is made: partition, %pgroot, level (R67), the core whose TLBs serve it (R62), and the key window that it began
under, none where that is the partition's own (R380). -/
structure Ctx where
  part : Nat
  root : BitVec 64
  klvl : Bool
  core : Nat := hubCore
  keys : Option (Nat × Nat) := none
  deriving DecidableEq, Repr

/-- The context of a fibre. -/
def fibCtx (s : State) (f : Nat) : Ctx := { part := (fib s f).part, root := (fib s f).pgroot, klvl := (fib s f).klvl, core := coreOf f, keys := (fib s f).keys }

/-- The context of the fibre at hand. -/
def myCtx (s : State) : Ctx := fibCtx s s.cur

/-- The info field of a PAGE_FAULT (R64). -/
def pageInfo (sub kind stg lvl : Nat) (mal win : Bool) : Nat :=
  sub + 4 * kind + 16 * stg + 32 * lvl + (if mal then 128 else 0) + (if win then 256 else 0)

/-- A PAGE_FAULT; `s2` where it goes to the partition monitor first (R66). -/
def pageFault (va info : Nat) (s2 : Bool := false) : Flt := { cause := cPAGE, addr := va, info := info, s2 := s2 }

/-- A window or canonical failure (R43, R50). -/
def windowFault (va kind : Nat) : Flt := pageFault va (pageInfo 0 kind 0 0 false true)

/-- The info field of MISALIGN (R85). -/
def alignInfo (kind lsz : Nat) (unsup : Bool) : Nat := 4 * kind + 16 * lsz + (if unsup then 256 else 0)

/-- A MISALIGN failure. -/
def alignFault (va kind lsz : Nat) (unsup : Bool) : Flt := { cause := cMISALIGN, addr := va, info := alignInfo kind lsz unsup }

/-- Bits [63:55] all equal bit 54 (R50). -/
def canonical (va : Nat) : Bool :=
  let t := va / 2 ^ 54 % 1024
  t == 0 || t == 1023

/-! ## Entries (R54, R55) -/

/-- An 8-byte table entry, read coherently as it stands (R63). DESIGN CHOICE (log 50): poison in the entry stops no walk, and a table
where no memory is populated reads 0, so that its entries are not present. -/
def pteAt (st : Store) (pa : Nat) : Nat := ofBytes ((List.range 8).map fun i => rawByte st (pa + i))

/-- The ADDR field as an address. -/
def pteAddr (e : Nat) : Nat := bits e 13 39 * 2 ^ 13
/-- The KEY field. -/
def pteKey (e : Nat) : Nat := bits e 52 12
/-- The page size of a level: 2^15, 2^25, 2^35. -/
def pageBits (lvl : Nat) : Nat := 15 + 10 * lvl

/-- An entry with V = 1 that is malformed (R55); the reserved bits differ between the stages. -/
def malformed (stage2 : Bool) (lvl e : Nat) : Bool :=
  let leaf := e.testBit 1
  e.testBit 12 || (if stage2 then bits e 5 4 != 0 else e.testBit 9) || bits e 10 2 == 3
    || (e.testBit 3 && !e.testBit 2)
    || (!leaf && (bits e 2 10 != 0 || pteKey e != 0))
    || (leaf && lvl == 3) || (!leaf && lvl == 0)
    || (leaf && pteAddr e % 2 ^ pageBits lvl != 0)

/-- How a walk ends without a leaf: the level and whether the entry was malformed. -/
structure WalkEnd where
  lvl : Nat
  mal : Bool
  deriving DecidableEq, Repr

/-- The ASID of a context. -/
def asidOf (c : Ctx) : Nat := c.root.toNat % 4096

/-- An entry of a walk cache as a walk of an address in a context makes it, of one stage at a level. -/
def walkEntryOf (c : Ctx) (stage2 : Bool) (lvl a at_ e : Nat) : WalkEntry :=
  { core := c.core, part := c.part, stage2 := stage2, asid := if stage2 then 0 else asidOf c, level := lvl, page := a / 2 ^ pageBits lvl, at_ := at_, entry := e }

/-- Two entries hold the same place of a walk cache. -/
def sameWalk (a b : WalkEntry) : Bool :=
  a.core == b.core && a.part == b.part && a.stage2 == b.stage2 && a.asid == b.asid && a.level == b.level && a.page == b.page

/-- The entry of a table that a walk uses for an address at a level: the one that the core's walk cache holds, or memory's (R62). -/
def walkEntry (s : State) (c : Ctx) (stage2 : Bool) (lvl a at_ : Nat) : Nat :=
  ((s.walks.find? (sameWalk (walkEntryOf c stage2 lvl a at_ 0))).map (·.entry)).getD (pteAt s.mem at_)

/-- The stage-2 walk of an IPA from a table at a level (R53): the leaf, its level and the entries it used, last first. -/
def walk2 (s : State) (c : Ctx) (ipa : Nat) : Nat → Nat → List WalkEntry → Except WalkEnd (Nat × Nat × List WalkEntry)
  | lvl, table, path =>
    let at_ := table + 8 * (ipa / 2 ^ pageBits lvl % 1024)
    let e := walkEntry s c true lvl ipa at_
    let path1 := walkEntryOf c true lvl ipa at_ e :: path
    if !e.testBit 0 then .error { lvl := lvl, mal := false }
    else if malformed true lvl e then .error { lvl := lvl, mal := true }
    else if e.testBit 1 then .ok (e, lvl, path1)
    else match lvl with
      | 0 => .error { lvl := 0, mal := true }
      | l + 1 => walk2 s c ipa l (pteAddr e) path1

/-- The permissions of a leaf for a kind of access (R56). -/
def permits (e kind : Nat) : Bool :=
  match kind with
  | 0 => e.testBit 2
  | 1 => e.testBit 3
  | 2 => e.testBit 4
  | _ => e.testBit 2 && e.testBit 3

/-- Stage 1 also asks for U at U level and refuses K fetch from a U page (R56). -/
def permits1 (klvl : Bool) (e kind : Nat) : Bool :=
  permits e kind && (if klvl then !(kind == kExec && e.testBit 5) else e.testBit 5)

/-- The physical address a leaf gives. -/
def leafPaddr (leaf lvl a : Nat) : Nat := pteAddr leaf / 2 ^ pageBits lvl * 2 ^ pageBits lvl + a % 2 ^ pageBits lvl

/-- Stage 2 for an IPA with the permission asked for (R52, R56, R66). -/
def stage2 (s : State) (c : Ctx) (ipa va kind need : Nat) (path : List WalkEntry) : Except Flt (Nat × Nat × List WalkEntry) :=
  match walk2 s c ipa 3 (partOf s c.part).stage2 path with
  | .error w => .error (pageFault va (pageInfo 0 kind 1 w.lvl w.mal false) true)
  | .ok r => if permits r.1 need then .ok r else .error (pageFault va (pageInfo 1 kind 1 r.2.1 false false) true)

/-- The stage-1 walk of a VA from a table (an IPA) at a level (R52, R53): leaf, level, physical address of the leaf, entries used, the leaf
among them. -/
def walk1 (s : State) (c : Ctx) (va kind : Nat) : Nat → Nat → List WalkEntry → Except Flt (Nat × Nat × Nat × List WalkEntry)
  | lvl, table, path =>
    let ipa := table + 8 * (va / 2 ^ pageBits lvl % 1024)
    match stage2 s c ipa va kind kRead path with
    | .error f => .error f
    | .ok (e2, l2, path1) =>
      let pa := leafPaddr e2 l2 ipa
      let e := walkEntry s c false lvl va pa
      let path2 := walkEntryOf c false lvl va pa e :: path1
      if !e.testBit 0 then .error (pageFault va (pageInfo 0 kind 0 lvl false false))
      else if malformed false lvl e then .error (pageFault va (pageInfo 0 kind 0 lvl true false))
      else if e.testBit 1 then .ok (e, lvl, pa, path2)
      else match lvl with
        | 0 => .error (pageFault va (pageInfo 0 kind 0 0 true false))
        | l + 1 => walk1 s c va kind l (pteAddr e) path2

/-! ## The TLB (R59, R62) -/

/-- The smaller page of the two stages, which one entry maps. -/
def tlbBits (e : TlbEntry) : Nat := pageBits (min e.level e.level2)

/-- An entry answers for a VA of a context. -/
def tlbMatches (c : Ctx) (va : Nat) (e : TlbEntry) : Bool :=
  e.core == c.core && e.part == c.part && (e.asid == none || e.asid == some (asidOf c)) && e.page == va / 2 ^ tlbBits e

/-- An entry that TLBINV removes (R70). -/
def tlbInvalidates (i : Inval) (e : TlbEntry) : Bool :=
  e.part == i.part &&
    (match i.kind with
     | 0 => (e.asid == none || e.asid == some i.asid) && canonical i.va && e.page * 2 ^ tlbBits e / 2 ^ pageBits e.level == i.va / 2 ^ pageBits e.level
     | 1 => e.asid == some i.asid
     | _ => true)

/-- A walk-cache entry is a leaf. -/
def leafEntry (e : WalkEntry) : Bool := e.entry.testBit 1

/-- A walk-cache entry that TLBINV removes (R70): of stage 1 only; where only leaf entries changed, the table entries for VA remain. A global
leaf is of every ASID. -/
def walkInvalidates (i : Inval) (e : WalkEntry) : Bool :=
  let here := canonical i.va && e.page == i.va / 2 ^ pageBits e.level
  let global := leafEntry e && e.entry.testBit 6
  e.part == i.part && !e.stage2 && !(i.leafOnly && here && !leafEntry e) &&
    (match i.kind with
     | 0 => (e.asid == i.asid || global) && here
     | 1 => e.asid == i.asid && !global
     | _ => true)

/-- A translation: both leaves, their levels, where the stage-1 leaf stands, the final address, key and memory type, and the entries that
a walk used for it. -/
structure Leaf where
  leaf : Nat
  lvl  : Nat
  at_  : Nat
  leaf2 : Nat
  lvl2 : Nat
  pa   : Nat
  key  : Nat
  mt   : Nat
  path : List WalkEntry := []
  deriving DecidableEq, Repr

/-- The A and D bits an access of a kind leaves set in a stage-1 leaf (R57). -/
def withAD (e kind : Nat) : Nat :=
  let a := if e.testBit 7 then e else e + 128
  if (kind = kWrite ∨ kind = kRmw) ∧ !a.testBit 8 then a + 256 else a

/-- The memory type of an access (R58, R79). -/
def memType (s : State) (leaf leaf2 pa : Nat) : Nat :=
  if isDevice pa then 3
  else
    let mt := max (bits leaf 10 2) (bits leaf2 10 2)
    if mt = 0 ∧ isHost pa ∧ portCxl s pa = false then 1 else mt

/-- The key under which an address is read and written, by the value in the slot of a key ID: only bonded DRAM and CXL memory are
encrypted (R60). -/
def dataKey (pa value id : Nat) : Nat := keyCode (if isDram pa || isCxl pa then value else 0) id

/-- Host memory behind a failed port behaves as unpopulated (R378). -/
def portFailed (s : State) (pa : Nat) : Bool := isHost pa && (s.hub.ports.getD (portOf pa) Port.reset).failed

/-- Permission, stage 2, the address and the key checks, for a stage-1 leaf (R51, R56, R58, R60). -/
def finish (s : State) (c : Ctx) (va kind leaf lvl at_ : Nat) (cached : Option (Nat × Nat)) (path : List WalkEntry) : Except Flt Leaf :=
  if !permits1 c.klvl leaf kind then .error (pageFault va (pageInfo 1 kind 0 lvl false false))
  else
    let ipa := leafPaddr leaf lvl va
    let second : Except Flt (Nat × Nat × List WalkEntry) := match cached with
      | some (e, l) => if permits e kind then .ok (e, l, path) else .error (pageFault va (pageInfo 1 kind 1 l false false) true)
      | none => stage2 s c ipa va kind kind path
    match second with
    | .error f => .error f
    | .ok (e2, l2, path1) =>
      let pa := leafPaddr e2 l2 ipa
      let key := pteKey leaf
      let k := c.keys.getD ((partOf s c.part).kb, (partOf s c.part).kn)
      let loaded := SMap.get 0 s.hub.keySlots key
      if !populated s pa || portFailed s pa then .error (pageFault va (pageInfo 0 kind 1 l2 false false))
      else if key < k.1 ∨ k.1 + k.2 ≤ key ∨ loaded = 0 then .error (pageFault va (pageInfo 2 kind 0 lvl false false))
      else if pteKey e2 ≠ 0 ∧ pteKey e2 ≠ key then .error (pageFault va (pageInfo 2 kind 1 l2 false false) true)
      else .ok { leaf := leaf, lvl := lvl, at_ := at_, leaf2 := e2, lvl2 := l2, pa := pa, key := dataKey pa loaded key, mt := memType s leaf e2 pa,
                  path := path1 }

/-- A walk (R53). -/
def walk (s : State) (c : Ctx) (va kind : Nat) : Except Flt Leaf :=
  match walk1 s c va kind 3 (pteAddr c.root.toNat) [] with
  | .error f => .error f
  | .ok (e, l, at_, path) => finish s c va kind e l at_ none path

/-- A walk that reads the entry at an address anew. -/
def walkPast (s : State) (c : Ctx) (va kind at_ : Nat) : Except Flt Leaf :=
  walk { s with walks := s.walks.filter fun e => e.stage2 || e.at_ != at_ } c va kind

/-- A leaf that an access must mark has changed since it was read: the walker walks again (R57). -/
def staleLeaf (st : Store) (kind leaf at_ : Nat) : Bool := withAD leaf kind != leaf && pteAt st at_ != leaf

/-- Translate a VA for an access of a kind. A TLB entry answers where one is held, unless the access must set A or D in a
leaf that has changed (R57, R62). -/
def lookup (s : State) (c : Ctx) (va kind : Nat) (spec : Bool) : Except Flt Leaf :=
  let again (at_ leaf : Nat) (r : Except Flt Leaf) : Except Flt Leaf := if !spec && staleLeaf s.mem kind leaf at_ then walkPast s c va kind at_ else r
  if !canonical va then .error (windowFault va kind)
  else
    match s.tlb.find? (tlbMatches c va) with
    | some e => again e.leafPa e.leaf (finish s c va kind e.leaf e.level e.leafPa (some (e.leaf2, e.level2)) [])
    | none => match walk s c va kind with
      | .ok l => again l.at_ l.leaf (.ok l)
      | .error f => .error f

/-- The TLB entry of a translation. -/
def tlbEntry (c : Ctx) (va : Nat) (l : Leaf) (leaf : Nat) : TlbEntry :=
  { core := c.core, part := c.part, asid := if leaf.testBit 6 then none else some (asidOf c), page := va / 2 ^ pageBits (min l.lvl l.lvl2),
    level := l.lvl, leaf := leaf, leafPa := l.at_, leaf2 := l.leaf2, level2 := l.lvl2 }

/-- The entries a walk used enter its core's walk cache (R62), the leaf as it now stands; they replace older ones of their places. -/
def holdWalk (s : State) (path : List WalkEntry) (at_ leaf : Nat) : State :=
  let new := path.map fun e => if !e.stage2 && e.at_ == at_ then { e with entry := leaf } else e
  if new.all s.walks.contains then s
  else { s with walks := new ++ s.walks.filter fun e => !new.any (sameWalk e) }

/-- A permitted translation enters its core's TLB, in place of an older entry for its page (R62). -/
def holdLeaf (s : State) (e : TlbEntry) : State :=
  if s.tlb.contains e then s
  else { s with tlb := e :: s.tlb.filter fun o => !(o.core == e.core && o.part == e.part && o.asid == e.asid && o.page == e.page && tlbBits o == tlbBits e) }

/-! ## Spaces (R43 to R49) -/

/-- One contiguous part of an access: its location, length, key, memory type, the VA it was translated from and the
translation. -/
structure Piece where
  loc  : Nat
  n    : Nat
  key  : Nat
  mt   : Nat
  va   : Nat
  leaf : Option Leaf
  deriving DecidableEq, Repr

/-- A piece in global memory. -/
def globalPiece (s : State) (c : Ctx) (va n kind : Nat) (spec : Bool) : Except Flt Piece :=
  match lookup s c va kind spec with
  | .error f => .error f
  | .ok l => .ok { loc := l.pa, n := n, key := l.key, mt := l.mt, va := va, leaf := some l }

/-- A piece in a core's own storage. -/
def ownPiece (loc n : Nat) : Piece := { loc := loc, n := n, key := 0, mt := 4, va := 0, leaf := none }

/-- The pieces of a lane-private or spill access: one per word, each at its mapped VA (R46, R47). -/
def mappedPieces (s : State) (c : Ctx) (base lane q n kind : Nat) (spec : Bool) : Except Flt (List Piece) :=
  (List.range ((n + 3) / 4)).mapM fun j =>
    globalPiece s c ((base + (q / 4 + j) * 128 + lane * 4 + q % 4) % 2 ^ 64) (min n 4) kind spec

/-- The workgroup of the launch with the lowest number on a core (R48). -/
def peerWg (s : State) (w : Wg) (core : Nat) : Option Wg :=
  ((s.wgs.map (·.2)).filter fun v => v.core == core && v.part == w.part && v.lid == w.lid).foldl (fun b v =>
    match b with
    | some u => if v.wg < u.wg then some v else some u
    | none => some v) none

/-- The space and address a generic address decodes to: 0 for none (R45). -/
def genericSpace (x : Fibre) (w : Wg) (va : Nat) : Nat × Nat :=
  let rel := (va + 2 ^ 64 - x.scratchbase.toNat / 2 ^ 25 * 2 ^ 25) % 2 ^ 64
  if rel < w.scrSize then (2, rel)
  else if rel < 2 ^ 24 then (0, va)
  else if rel < 2 ^ 25 then (3, rel - 2 ^ 24)
  else (1, va)

/-- The pieces of an access of `n` bytes at an address of a space, for a lane of a fibre (R43 to R50); `addr` is also the
address a failure reports. -/
def locateIn (s : State) (f lane space addr q n kind : Nat) (spec : Bool) : Except Flt (List Piece) :=
  let x := fib s f
  let c := fibCtx s f
  let w := wgOf s f
  match space with
  | 1 => match globalPiece s c q n kind spec with
    | .error e => .error e
    | .ok p => .ok [p]
  | 6 => match globalPiece s c q n kRead spec with
    | .error e => .error e
    | .ok p => .ok [p]
  | 2 => if q + n ≤ w.scrSize then .ok [ownPiece (scrLoc (coreOf f) (w.scrBase + q)) n] else .error (windowFault addr kind)
  | 3 => if q + n ≤ 4 * bits x.lpl.toNat 2 23 then mappedPieces s c x.lpb.toNat lane q n kind spec else .error (windowFault addr kind)
  | 4 => if q + n ≤ 4 * x.spw then mappedPieces s c x.spb.toNat lane q n kind spec else .error (windowFault addr kind)
  | 5 =>
    let core := quadOf (coreOf f) * 4 + q / 2 ^ 20 % 4
    let peer := if core = coreOf f then some w else peerWg s w core
    match peer with
    | some p => if q / 2 ^ 22 = 0 ∧ q % 2 ^ 20 + n ≤ p.scrSize then .ok [ownPiece (scrLoc core (p.scrBase + q % 2 ^ 20)) n]
                else .error (windowFault addr kind)
    | none => .error (windowFault addr kind)
  | _ => .error (windowFault addr kind)

/-- As `locateIn`, decoding a generic address first (R45). -/
def locate (s : State) (f lane space addr n kind : Nat) (spec : Bool) : Except Flt (List Piece) :=
  if space = 0 then
    let g := genericSpace (fib s f) (wgOf s f) addr
    locateIn s f lane g.1 addr g.2 n kind spec
  else locateIn s f lane space addr addr n kind spec

end Sys2Proof.Machine
end

