-- ==== Sys2Proof/Machine/Tenure.lean ====
section
/-! DEFINITION. Tile handles, the home table, holder tables, recalls; the page classification and the copies of a line
(spec/04, R83 to R84, R99). -/

namespace Sys2Proof.Machine

/-! ## Handles (R106 to R108) -/

/-- The number of a home entry: die, slice, index. -/
def homeNum (die slice index : Nat) : Nat := die * 16384 + slice * 512 + index
/-- The generation of a home entry (R107). -/
def homeGenOf (s : State) (n : Nat) : Nat := SMap.get 1 s.homeGen n
/-- The handle of a home entry (R106). -/
def handleOf (s : State) (n : Nat) : Nat :=
  homeGenOf s n * 2 ^ 24 + n / 16384 * 2 ^ 21 + n / 512 % 32 * 2 ^ 16 + n % 512
/-- The home entry a handle names. -/
def homeOfHandle (h : Nat) : Nat := homeNum (bits h 21 3) (bits h 16 5) (bits h 0 16)

/-- The handle is current: check 1 of R108. -/
def handleLive (s : State) (h : Nat) : Bool :=
  decide (bits h 21 3 ≤ 3) && decide (bits h 0 16 ≤ 511) && bits h 24 8 != 0
    && (FMap.find s.homes (homeOfHandle h)).isSome && homeGenOf s (homeOfHandle h) == bits h 24 8

/-- The checks of a non-zero handle (R108). -/
def checkHandle (s : State) (part h : Nat) : Option Flt :=
  if h = 0 then none
  else if !handleLive s h then some { cause := cSTALE, addr := 0, info := h }
  else match FMap.find s.homes (homeOfHandle h) with
    | some e => if e.part = part then none else some { cause := cFOREIGN, addr := 0, info := h }
    | none => none

/-- Free a home entry: its generation advances, 255 wrapping to 1 (R107). -/
def freeHome (s : State) (n : Nat) : State :=
  let g := homeGenOf s n
  { s with homes := FMap.del s.homes n, homeGen := SMap.set 1 s.homeGen n (if g = 255 then 1 else g + 1) }

/-- The first free entry of a die, from a slice upwards (R119). -/
def freeEntry (s : State) (die slice : Nat) : Option Nat :=
  ((List.range 32).flatMap fun k => (List.range 512).map fun i => homeNum die ((slice + k) % 32) i).find?
    fun n => (FMap.find s.homes n).isNone

/-! ## Holder tables (R109, R110) -/

/-- A core's holder table. -/
def holderTable (s : State) (core : Nat) : FMap Holder := (FMap.find s.holders core).getD []

/-- An entry of a holder table. -/
def holderAt (s : State) (core e : Nat) : Option Holder := FMap.find (holderTable s core) e

/-- Write or free an entry of a holder table. -/
def setHolder (s : State) (core e : Nat) (h : Option Holder) : State :=
  { s with holders := FMap.put s.holders core (match h with
      | some v => FMap.put (holderTable s core) e v
      | none => FMap.del (holderTable s core) e) }

/-- The fibre's own entry for a handle. -/
def myHolder (s : State) (f h : Nat) : Option (Nat × Holder) :=
  (holderTable s (coreOf f)).find? fun p => p.2.handle == h && p.2.fib == f % 256

/-- A holder entry is live: not revoked. -/
def liveHolder (h : Holder) : Bool := !h.rvk

/-- Change a home entry. -/
def modHome (s : State) (n : Nat) (g : Home → Home) : State :=
  match FMap.find s.homes n with
  | some e => { s with homes := FMap.put s.homes n (g e) }
  | none => s

/-- Remove a handle's marks from every line (R113). -/
def unmark (s : State) (h : Nat) : State :=
  { s with mem := { s.mem with held := (s.mem.held.map fun p => (p.1, p.2.filter fun m => m.1 != h)).filter fun p => !p.2.isEmpty } }

/-- The lines marked for a handle. -/
def markedLines (s : State) (h : Nat) : List Nat := (s.mem.held.filter fun p => p.2.any fun m => m.1 == h).map (·.1)

/-- HELD and PINNED of a home entry follow its holders (R107). -/
def refreshHome (s : State) (n : Nat) : State :=
  modHome s n fun e =>
    let hs := e.holders.filterMap fun p => holderAt s p.1 p.2
    { e with held := if hs.any (·.wr) then 2 else if hs.isEmpty then 0 else 1, pinned := hs.any (·.pin) }

/-- A holder unlinks: the marks go with the last one (R110, R121). -/
def unlink (s : State) (core e : Nat) (h : Nat) : State :=
  let n := homeOfHandle h
  let s1 := modHome s n fun x => { x with holders := x.holders.filter fun p => p != (core, e) }
  let s2 := match FMap.find s1.homes n with
    | some x => if x.holders.isEmpty then unmark s1 h else s1
    | none => s1
  refreshHome s2 n

/-- A holder's release at .pkg is noted for the acquires of tenures that conflict with it (R114, R120, R121). -/
def releaseTile (s : State) (x : Holder) (v : View) : State :=
  if tracked s then { s with mem := { s.mem with tileRels := (x.wr, x.lines.map (·.2), v) :: s.mem.tileRels } } else s

/-- A holder surrenders its tenure (R114): the entry is revoked, CONT ends, it unlinks, and what its core has done to the tile is released
at .pkg. A pinned one notes that it was broken (R117). Its dirty lines need no step of their own: the model keeps one set of dirty bytes for
L1 and L2. -/
def surrender (s : State) (core e : Nat) : State :=
  match holderAt s core e with
  | some h =>
    if h.rvk then s
    else
      let s1 := releaseTile s h (coreWrites s core (h.lines.map (·.2)))
      unlink (setHolder s1 core e (some { h with rvk := true, cont := false, brk := h.brk || h.pin, freed := s.tick })) core e h.handle
  | none => s

/-- The fibre place a holder entry belongs to. -/
def holderFib (core : Nat) (h : Holder) : Nat := core * 256 + h.fib

/-- TENURE_BROKEN for a fibre: at its next boundary, or at its next restore where it is not resident (R117). -/
def tenureBroken (s : State) (f h : Nat) : State := raiseAsync s f cTENURE 0 h (liveMask (fib s f))

/-- Every holder of a handle, head first. -/
def holdersOf (s : State) (h : Nat) : List (Nat × Nat) :=
  match FMap.find s.homes (homeOfHandle h) with
  | some e => e.holders
  | none => []

/-! ## Conflicts with ordinary accesses (R112, R114, R117) -/

/-- The handles whose tenure an access of a core to a line conflicts with. -/
def conflicts (s : State) (core line : Nat) (write : Bool) : List Nat :=
  ((FMap.find s.mem.held line).getD []).filterMap fun m =>
    if m.2 then (if (holdersOf s m.1).any fun p => p.1 != core then some m.1 else none)
    else if write then some m.1 else none

/-- A conflicting tenure is pinned by another fibre: the access waits (R117). -/
def pinnedConflict (s : State) (f : Option Nat) (core line : Nat) (write : Bool) : Bool :=
  (conflicts s core line write).any fun h => (holdersOf s h).any fun p =>
    match holderAt s p.1 p.2 with
    | some x => x.pin && some (holderFib p.1 x) != f
    | none => false

/-! ## Classification and copies (R76, R83, R84, R99) -/

/-- The core whose L1 holds a line for a core: its own, or the slice of a fused quad (R76). -/
def l1Core (s : State) (core line : Nat) : Nat :=
  if (FMap.find s.fused (quadOf core)).isSome then quadOf core * 4 + ((bits line 0 2) ^^^ (bits line 4 2)) else core

/-- An access as the home sees it: the core, its partition, whether it comes through an SH = 1 frame (R59), and its cache hint (R81). -/
structure Req where
  core : Nat
  part : Nat
  sh   : Bool
  ch   : Nat
  deriving DecidableEq, Repr

/-- The state of a granule that is private to a core, for its partition; 0 is untouched, 1000 shared (R83). -/
def privateTo (q : Req) : Nat := q.core + 1 + 4096 * q.part

/-- An access counts as the private core's own (R83): of the same core, and of the same partition where it comes through an SH = 1 frame. -/
def ownGranule (c : Nat) (q : Req) : Bool := c % 4096 == q.core + 1 && (!q.sh || c / 4096 == q.part)

/-- Lines of a granule are recalled: dirty bytes are written back and all copies invalidated (R84). -/
def recallGranule (st : Store) (g : Nat) : Store :=
  let s1 := (List.range 256).foldl (fun t i => if (FMap.find t.copies (g * 256 + i)).isSome then cleanLine t (g * 256 + i) else t) st
  { s1 with copies := s1.copies.filter fun p => p.1 / 256 != g }

/-- A core's access reaches the home: the granule becomes private to the first core and shared with another requester, which recalls
the first core's copies (R83, R84). The hub and the host are other requesters and own no granule. -/
def classify (st : Store) (q : Req) (line : Nat) : Store :=
  let g := line / 256
  let c := SMap.get 0 st.granules g
  if c = 1000 then st
  else if c = 0 then (if q.core < hubCore then { st with granules := SMap.set 0 st.granules g (privateTo q) } else st)
  else if ownGranule c q then st
  else let s1 := recallGranule st g
    { s1 with granules := SMap.set 0 s1.granules g 1000 }

/-- The home directory's vector of a 512-byte region of a shared granule names the quad of a core that takes a copy: bit 16d + q (R100,
R102). -/
def trackSharer (st : Store) (core line : Nat) : Store :=
  if SMap.get 0 st.granules (line / 256) = 1000 then
    { st with dir := SMap.set 0 st.dir (line / 4) (SMap.get 0 st.dir (line / 4) ||| BitVec.ofNat 64 (2 ^ quadOf core)) }
  else st

/-- A core takes a copy of a line beside those it may stand with (R99). -/
def takeCopy (st : Store) (l1 line : Nat) (write : Bool) (cs : NSet) : Store :=
  trackSharer { st with copies := FMap.put st.copies line (write, NSet.add cs l1) } l1 line

/-- The quads that the home counts as a partition's: its own, and quad 15 of each die where it has a RING (R101, R343). -/
def quadMask (s : State) (part : Nat) : BitVec 64 :=
  let p := partOf s part
  BitVec.ofNat 64 ((List.range 4).foldl (fun n d => n ||| ((p.qmask.getD d 0).toNat ||| (if (FMap.find p.ring d).isSome then 2 ^ 15 else 0)) * 2 ^ (16 * d)) 0)

/-- An invalidation of a request for a line reaches a core: its quad is in the region's vector and, but for an SH = 1 frame, counts as the
partition's; quad 15 forwards one for a partition that does not own it to the gondola core alone (R100, R101, R343). -/
def probed (s : State) (st : Store) (q : Req) (line c : Nat) : Bool :=
  let p := partOf s q.part
  (SMap.get 0 st.dir (line / 4)).getLsbD (quadOf c) && (q.sh || ((quadMask s q.part).getLsbD (quadOf c)
    && (quadOf c % 16 != 15 || (p.qmask.getD (dieOf c) 0).getLsbD 15 || c % 64 == 63)))

/-- The copies of a line after an access: one writable, or any number of read-only ones (R99); a write leaves the copies that its
invalidations do not reach, which are its own core's or, where the masks name every quad that holds one, none (R100). -/
def copyLine (s : State) (q : Req) (st : Store) (l1 line : Nat) (write alloc : Bool) : Store :=
  match FMap.find st.copies line, write with
  | e, true =>
    let left := ((e.map (·.2)).getD []).filter fun c => !probed s st q line c
    if alloc then takeCopy st l1 line true left
    else if left.isEmpty then { st with copies := FMap.del st.copies line }
    else { st with copies := FMap.put st.copies line (false, left) }
  | some (true, cs), false => if cs = [l1] ∨ alloc = false then st else takeCopy st l1 line false cs
  | some (false, cs), false => if alloc then takeCopy st l1 line false cs else st
  | none, false => if alloc then takeCopy st l1 line false [] else st

/-- The device holds at most 2 MiB of host lines per port (R376): where a further one is held, another is written back and given up. DESIGN
CHOICE (log 57): the lowest other one. -/
def boundHost (st : Store) (line : Nat) : Store :=
  let held := (st.copies.map (·.1)).filter fun l => isHost (128 * l) && portOf (128 * l) == portOf (128 * line)
  if isHost (128 * line) ∧ 16384 < held.length then
    match held.find? (· != line) with
    | some l => let st1 := cleanLine st l; { st1 with copies := FMap.del st1.copies l }
    | none => st
  else st

/-- What an access of normal memory does at the home of its line besides moving data; CH 3 takes no place in the L1 (R81), and the hub
and the host have none. -/
def touchLine (s : State) (q : Req) (loc : Nat) (write : Bool) : State :=
  let line := loc / 128
  { s with mem := boundHost (copyLine s q (classify s.mem q line) (l1Core s q.core line) line write (q.ch != 3 && decide (q.core < hubCore))) line }

end Sys2Proof.Machine
end

