-- ==== Sys2Proof/Machine/Device.lean ====
section
/-! DEFINITION. The device-register region (interrupt files, host-notify pages) and the host ports' channels (spec/06
R158 to R162, spec/17 R384 to R386). -/

namespace Sys2Proof.Machine

/-! ## Host ports -/

/-- Change a host port. -/
def modPort (s : State) (p : Nat) (g : Port → Port) : State :=
  { s with hub := { s.hub with ports := modAt g p s.hub.ports } }

/-- A host port. -/
def portAt (s : State) (p : Nat) : Port := s.hub.ports.getD p Port.reset

/-- Put bytes in what the host sees of its memory. -/
def hostPut (s : State) (pa : Nat) (l : List Byte) : State :=
  { s with hub := { s.hub with hostMem := (l.zipIdx).foldl (fun m p => SMap.set 0 m (pa + p.2) p.1) s.hub.hostMem } }

/-- The first `n` relaxed writes that a port accepted leave it, in order, those that have left apart (R158). -/
def sendRelaxed (s : State) (p n : Nat) : State :=
  let due (w : RelaxedWrite) : Bool := !w.sent && decide (w.num < n)
  let s1 := ((portAt s p).relaxed.filter due).foldl (fun t w => output t (.hostWrite p w.pa w.data true)) s
  modPort s1 p fun x => { x with relaxed := x.relaxed.map fun w => if due w then { w with sent := true } else w }

/-- A write leaves the package on the relaxed or the ordered channel of its port (R158). A relaxed one leaves at the latest before what the
port sends after it and is made visible when the host does so or a flush completes; an ordered one leaves behind every earlier write and is
made visible at once. A failed port loses it (R378). -/
def hostSend (s : State) (pa : Nat) (l : List Byte) (ordered : Bool) : State :=
  let p := portOf pa
  let x := portAt s p
  if x.failed then s
  else if ordered then output (hostPut (sendRelaxed s p x.accepted) pa l) (.hostWrite p pa l false)
  else modPort s p fun x => { x with relaxed := x.relaxed ++ [{ num := x.accepted, pa := pa, data := l, sent := false }], accepted := x.accepted + 1 }

/-- A relaxed write is made visible, having left the port. -/
def showRelaxed (p : Nat) (s : State) (w : RelaxedWrite) : State := hostPut (sendRelaxed s p (w.num + 1)) w.pa w.data

/-- The first flush read under way on a port has its Completion: the relaxed writes accepted before it was sent are visible (R160). -/
def flushPort (s : State) (p : Nat) : State :=
  match (portAt s p).flights with
  | n :: r =>
    let s1 := ((portAt s p).relaxed.filter fun w => decide (w.num < n)).foldl (showRelaxed p) s
    modPort s1 p fun x => { x with relaxed := x.relaxed.filter (fun w => decide (n ≤ w.num)), flushed := max x.flushed n, flights := r }
  | [] => s

/-- What a failing port had accepted and not sent is lost: its bytes are what the writes that have left it make them (R378). -/
def loseUnsent (s : State) (p : Nat) : State :=
  let lost := (portAt s p).relaxed.filter fun w => !w.sent
  let kept := (portAt s p).relaxed.filter (·.sent)
  let here (pa : Nat) (b : Byte) (w : RelaxedWrite) : Byte := if w.pa ≤ pa then (w.data[pa - w.pa]?).getD b else b
  let cells := lost.foldl (fun m w => (List.range w.data.length).foldl (fun m i =>
    SMap.set 0 m (w.pa + i) (kept.foldl (here (w.pa + i)) (SMap.get 0 s.hub.hostMem (w.pa + i)))) m) s.mem.cells
  modPort { s with mem := { s.mem with cells := cells } } p fun x => { x with relaxed := kept }

/-- What the ports have accepted. -/
def acceptedAll (s : State) : List Nat := s.hub.ports.map (·.accepted)

/-- No flush covers some of the first `n` relaxed writes that a port accepted; a failed port keeps no order towards the host (R160). -/
def flushOwed (x : Port) (n : Nat) : Bool := !x.failed && decide (x.flushed < n)

/-- The relaxed writes that the ports had accepted when a release began are flushed. -/
def marksFlushed (s : State) (marks : List Nat) : Bool := (s.hub.ports.zip marks).all fun p => !flushOwed p.1 p.2

/-- What a release at .sys waits for: the marks it took when it began, or, where it begins now, what the ports have accepted. -/
def marksOf (s : State) (marks : List Nat) : List Nat := if marks = [] then acceptedAll s else marks

/-- A release at this scope need wait for no flush: it is narrower than .sys, or flushes cover every relaxed write accepted before it
began, as `marks` tell (R159, R160). -/
def releaseReady (s : State) (scope : Nat) (marks : List Nat) : Bool := decide (scope < 6) || marksFlushed s (marksOf s marks)

/-- A release at .sys begins: each port with accepted relaxed writes that no flush covers sends one flush read, unless one under way covers
them (R160). -/
def startFlush (s : State) (scope : Nat) (marks : List Nat) : State :=
  if scope < 6 then s
  else (((marksOf s marks).zipIdx)).foldl (fun t m =>
    let x := portAt t m.2
    if !flushOwed x m.1 || x.flights.any (fun n => decide (m.1 ≤ n)) then t
    else modPort (output (sendRelaxed t m.2 x.accepted) (.flushRead m.2)) m.2 fun x => { x with flights := x.flights ++ [x.accepted] }) s

/-- A fibre's release at a scope need not wait. -/
def fibReady (s : State) (f scope : Nat) : Bool := releaseReady s scope (fib s f).marks

/-- A fibre's release at .sys waits: its flush begins, and what it waits for stays. -/
def fibFlush (s : State) (f scope : Nat) : State :=
  if scope < 6 then s
  else modFib (startFlush s scope (fib s f).marks) f fun x => { x with marks := marksOf s x.marks }

/-- A fibre's release at .sys is over. -/
def fibReleased (s : State) (f : Nat) : State := if (fib s f).marks = [] then s else modFib s f fun x => { x with marks := [] }

/-! ## Interrupts (R384, R386) -/

/-- A 4-byte store to an interrupt file: only seteipnum_le and seteipnum_be respond, with identities 1 to 2,047 (R384). -/
def imsicWrite (s : State) (core file offset : Nat) (value : BitVec 32) : State :=
  let i := if offset = 0 then some value.toNat else if offset = 4 then some (ofBytes (toBytes 4 value.toNat).reverse) else none
  match i with
  | some n => if 1 ≤ n ∧ n ≤ 2047 then { s with hub := { s.hub with imsic := NSet.add s.hub.imsic (imsicKey core file n) } } else s
  | none => s

/-- A byte of a function's MSI-X table. -/
def msixByte (s : State) (vf off : Nat) : Byte := SMap.get 0 s.hub.msixTable (vf * 4096 + off)

/-- The host port of a function: 96 on each (R379). -/
def vfPort (vf : Nat) : Nat := vf / 96

/-- An interrupt message leaves for the host on the ordered channel of its port, behind what that has accepted (R158, R386); a failed port loses
it (R378). -/
def sendMsix (s : State) (vf n : Nat) : State :=
  let p := vfPort vf
  if (portAt s p).failed then s else output (sendRelaxed s p (portAt s p).accepted) (.msix vf n)

/-- An interrupt message is a release at .sys: it leaves at once, or waits for the flushes that begin with it (R160, R386). -/
def postMsix (s : State) (vf n : Nat) : State :=
  if s.hub.notices.isEmpty && releaseReady s 6 [] then sendMsix s vf n
  else let t := startFlush s 6 []
    { t with hub := { t.hub with notices := t.hub.notices ++ [(vf, n, acceptedAll t)] } }

/-- The interrupt messages whose releases are over leave, in order (R160). -/
def settleNotices (s : State) : State :=
  s.hub.notices.foldl (fun t e =>
    if t.hub.notices.head? = some e ∧ releaseReady t 6 e.2.2 then sendMsix { t with hub := { t.hub with notices := t.hub.notices.drop 1 } } e.1 e.2.1 else t) s

/-- Raise a vector of a function: sent to the host, or kept pending where its table entry masks it (R379, R386). -/
def raiseMsix (s : State) (vf n : Nat) : State :=
  if 32 ≤ n then s
  else if (msixByte s vf (16 * n + 12)).getLsbD 0 then
    { s with hub := { s.hub with msix := SMap.set 0 s.hub.msix vf (SMap.get 0 s.hub.msix vf ||| BitVec.ofNat 32 (2 ^ n)) } }
  else postMsix s vf n

/-- The host-notify page and offset of an address (R386). -/
def notifyPage (pa : Nat) : Option (Nat × Nat) :=
  if 0x1000002000000 ≤ pa ∧ pa < 0x1000002000000 + 0x1000 * 192 then
    some ((pa - 0x1000002000000) / 4096, pa % 4096)
  else none

/-- The interrupt file and offset of an address (R384). -/
def imsicPage (pa : Nat) : Option (Nat × Nat × Nat) :=
  if 0x1000001000000 ≤ pa ∧ pa < 0x1000001000000 + 0x100000 * 8 then
    let r := pa - 0x1000001000000
    let file := r % 0x100000 / 4096
    if file ≤ 24 then some (r / 0x100000, file, pa % 4096) else none
  else none

/-- A store to the device region: interrupt files and host-notify pages act; the spec gives no other register, and such a
store changes nothing (log 12). -/
def deviceWrite (s : State) (pa : Nat) (l : List Byte) : State :=
  match notifyPage pa with
  | some (vf, off) => if l.length = 4 ∧ off = 0 then raiseMsix s vf (ofBytes l) else s
  | none =>
    match imsicPage pa with
    | some (core, file, off) => if l.length = 4 then imsicWrite s core file off (BitVec.ofNat 32 (ofBytes l)) else s
    | none => s

/-- A load from the device region: an interrupt file reads 0 (R384); every other value is free (log 12). -/
def deviceRead (s : State) (pa n : Nat) : List Byte × State :=
  match imsicPage pa with
  | some _ => (List.replicate n 0, s)
  | none => ((List.range n).map fun i => Config.deviceByte s.free (pa + i), { s with free := s.free + 1 })

end Sys2Proof.Machine
end

