-- ==== Sys2Proof/Machine/Access.lean ====
section
/-! DEFINITION. The checks of an access (R87), loads with forwarding, the store queue and its drain, atomics, and what a release
or an acquire at a scope waits for (spec/03, spec/05, spec/06). -/

namespace Sys2Proof.Machine

/-! ## Checks -/

/-- What the memory type must accept (R80, R90, R93, R142). -/
inductive AccClass where
  | single
  | wide
  | monitor
  | pcie
  | other
  | copy
  deriving DecidableEq, Repr

/-- The memory type or kind of a piece does not accept an access of `n` bytes (R80, R90, R93, R142). DEDUCED (log 53): a PCIe AtomicOp is of
one run of bytes, so an atomic whose words lie apart (R46) is none of the forms of R93 there. -/
def unsupported (s : State) (cls : AccClass) (n : Nat) (p : Piece) : Bool :=
  let plainHost := isHost p.loc && inMem p.loc && !(portCxl s p.loc && p.mt == 0)
  match cls with
  | .single => p.mt == 3 && !(n == 4 || n == 8)
  | .wide => p.mt == 3
  | .copy => p.mt == 3 && !((n == 4 || n == 8) && p.n == n && p.loc % n == 0)
  | .monitor => !(p.mt == 0 || p.mt == 4)
  | .pcie => p.mt == 3 || (plainHost && p.n != n)
  | .other => p.mt == 3 || p.mt == 2 || plainHost

/-- The base-2 logarithm of an access size. -/
def lszOf (n : Nat) : Nat := Nat.log2 n

/-- The checks of R87 in their order, for `n` bytes aligned to `align`; an access that reads also meets poison (R373). -/
def checkAccess (s : State) (f lane space addr n align kind : Nat) (cls : AccClass) (spec : Bool) : Except Flt (List Piece) :=
  if addr % align ≠ 0 then .error (alignFault addr kind (lszOf align) false)
  else
    match locate s f lane space addr n kind spec with
    | .error e => .error e
    | .ok ps =>
      if ps.any (unsupported s cls n) then .error (alignFault addr kind (lszOf n) true)
      else if kind ≠ kWrite ∧ !spec then
        match ps.find? fun p => poisoned s.mem p.loc p.n with
        | some p => .error { cause := cECC, addr := addr, info := poisonSource s.mem p.loc p.n }
        | none => .ok ps
      else .ok ps

/-! ## Arrival at the home: recalls, classification, copies -/

/-- The request that an access of a fibre makes, through a leaf where it has one. -/
def reqOf (s : State) (f ch : Nat) (leaf : Option Leaf) : Req :=
  { core := coreOf f, part := (fib s f).part, sh := (leaf.map fun l => l.leaf2.testBit 9).getD false, ch := ch }

/-- The request of the hub. -/
def hubReq : Req := { core := hubCore, part := 0, sh := true, ch := 0 }

/-- Take back every tenure that an access conflicts with; `sur` is the surrender of one holder (R112, R114). -/
def recallWith (sur : State → Nat → Nat → State) (s : State) (core line : Nat) (write : Bool) : State :=
  (conflicts s core line write).foldl (fun t h => (holdersOf t h).foldl (fun u c => sur u c.1 c.2) t) s

/-- A write invalidates back the copies of its line that a host holds through a window of its port (R376). -/
def backInval (s : State) (core line : Nat) (write : Bool) : State :=
  if write && core != hostCore then
    ((s.hub.ports.zipIdx).filter fun x => x.1.lines.contains line).foldl (fun t x =>
      modPort (output t (.backInvalidate x.2 (128 * line))) x.2 fun y => { y with lines := y.lines.filter (· != line) }) s
  else s

/-- An access of any memory type reaches the home of its line: conflicting tenures are taken back, the copies of a host invalidated, the line
is found under its key, and normal memory is classified and its copies kept (R61, R83, R99, R112, R376). -/
def arriveWith (sur : State → Nat → Nat → State) (s : State) (q : Req) (write : Bool) (key mt loc : Nat) : State :=
  if inMem loc then
    let s1 := openLines (backInval (recallWith sur s q.core (loc / 128) write) q.core (loc / 128) write) (decide (mt = 0)) key loc 1
    if mt = 0 then touchLine s1 q loc write else s1
  else s

/-! ## Atomic operations (R91, R92) -/

/-- The new value of an atomic operation on bit patterns of a type: 0 add, 1 min, 2 max, 3 and, 4 or, 5 xor, 6 exchange,
7 compare-and-swap with the expected value `e`. -/
def atomNew (op : Nat) (t : Ty) (clamp : Bool) (old x e : Nat) : Nat :=
  match op with
  | 0 =>
    if tyIsFloat t then
      roundTo (fmtOf t 0) (.mode .rne) clamp (sumNum .rne [decodeFloat t 0 old, decodeFloat t 0 x])
    else intResult t clamp (intOf t old + intOf t x)
  | 1 => if tyIsFloat t then floatMinMax t 0 false old x else if intOf t x < intOf t old then x else old
  | 2 => if tyIsFloat t then floatMinMax t 0 true old x else if intOf t old < intOf t x then x else old
  | 3 => old &&& x
  | 4 => old ||| x
  | 5 => old ^^^ x
  | 6 => x
  | _ => if old = e then x else old

/-! ## The store queue (R132 to R134) -/

/-- The parts of a queued entry, each with its length and key. -/
def entryParts (e : SqEntry) : List (Nat × Nat × Nat) :=
  (e.loc, e.bytes.length - e.more.foldl (fun n p => n + p.2.1) 0, e.key) :: e.more

/-- The queued entry covers some byte of a block. -/
def sqOverlaps (e : SqEntry) (loc n : Nat) : Bool := (entryParts e).any fun p => decide (p.1 < loc + n) && decide (loc < p.1 + p.2.1)

/-- A write to host memory leaves through its port (R158); through CXL.cache it is coherent there (R162). -/
def toHost (s : State) (mt loc : Nat) (l : List Byte) (ordered : Bool) : State :=
  if isHost loc && inMem loc then (if portCxl s loc && mt == 0 then hostPut s loc l else hostSend s loc l ordered) else s

/-- The accesses of R127 that a lane's pieces make, at most 32 bytes each (R311, R315): the parts of one piece, or eight words each of those
that lie apart (R46). -/
def atomGroups (ps : List Piece) : List (List Piece) :=
  match ps with
  | [p] => if p.n ≤ 32 then [[p]] else (List.range (p.n / 32)).map fun k => [{ p with loc := p.loc + 32 * k, n := 32 }]
  | ps => (List.range ((ps.length + 7) / 8)).map fun k => (ps.drop (8 * k)).take 8

/-- Perform a queued entry part by part, as a release of the scope given; the parts of one access have one place in the order of
writes (R127). -/
def performParts (f core mt : Nat) (rmw ordered : Bool) (rel : Option Nat) : List (Nat × Nat × Nat) → List Byte → State → State
  | [], _, s => s
  | p :: r, l, s =>
    let d := l.take p.2.1
    let t := toHost (performWrite s (.fibre f) core p.2.2 mt p.1 d rmw rel) mt p.1 d ordered
    if r.isEmpty then t else performParts f core mt rmw ordered rel r (l.drop p.2.1) { t with mem := { t.mem with clock := s.mem.clock } }

/-- The bytes a queued entry writes where some stand: its own, or a reduction's result (R94). -/
def entryBytes (e : SqEntry) (old : List Byte) : List Byte :=
  match e.red with
  | some (op, t, clamp) => toBytes e.bytes.length (atomNew op t clamp (ofBytes old) (ofBytes e.bytes) 0)
  | none => e.bytes

/-- The accesses of a queued entry arrive at the homes of their lines. -/
def arriveEntry (sur : State → Nat → Nat → State) (s : State) (f : Nat) (e : SqEntry) : State :=
  let q : Req := { core := coreOf f, part := (fib s f).part, sh := e.sh, ch := e.ch }
  (entryParts e).foldl (fun t p => arriveWith sur t q true p.2.2 e.mt p.1) s

/-- Some part of a queued entry names host memory behind a failed port, where it is lost (R378). -/
def entryLost (s : State) (e : SqEntry) : Bool := (entryParts e).any fun p => inMem p.1 && portFailed s p.1

/-- A queued entry that has arrived and left its queue is performed. -/
def performEntry (s : State) (f : Nat) (e : SqEntry) : State :=
  if entryLost s e then s
  else if e.mt = 3 ∧ inMem e.loc then deviceWrite s e.loc e.bytes
  else
    match e.red.isSome, (entryParts e).find? fun p => poisoned s.mem p.1 p.2.1 with
    | true, some p => raiseAsync s f cECC e.va.toNat (poisonSource s.mem p.1 p.2.1) (BitVec.ofNat 32 (2 ^ e.lane))
    | _, _ =>
      performParts f (coreOf f) e.mt e.red.isSome (decide (e.ord ≠ 0) || decide (e.mt = 2)) (if e.ord = 0 then none else some e.scope) (entryParts e)
        (entryBytes e ((entryParts e).flatMap fun p => readBytes s p.2.2 p.1 p.2.1)) s

/-- The scope that a queued entry is a release at, if any: its own, .sys for an interrupt message to the host (R130, R160). -/
def entryRelease (e : SqEntry) : Option Nat :=
  if e.mt = 3 ∧ inMem e.loc ∧ (notifyPage e.loc).isSome then some 6 else if e.ord ≠ 0 then some e.scope else none

/-- A queued entry meets a tenure that another fibre has pinned (R117). -/
def entryPinned (s : State) (f : Nat) (e : SqEntry) : Bool :=
  (entryParts e).any fun p => inMem p.1 && pinnedConflict s (some f) (coreOf f) (p.1 / 128) true

/-- A queued entry that is a release still waits for its scope (R130, R160). -/
def entryUnready (s : State) (f : Nat) (e : SqEntry) : Bool :=
  match entryRelease e with
  | some sc => !fibReady s f sc
  | none => false

/-- A queued entry leaves the head of its queue. -/
def dequeue (s : State) (f : Nat) (e : SqEntry) : State :=
  let s1 := modFib s f fun x => { x with sq := x.sq.drop 1 }
  if (entryRelease e).isSome then fibReleased s1 f else s1

/-- The oldest entry of a fibre's queue is performed; a release first waits for its scope (R130, R158, R160). None where it must wait. A
recall that its arrival causes may perform it (R114). DESIGN CHOICE (log 5): write-combining stores keep this order too, which R79 leaves
open. -/
def drainWith (sur : State → Nat → Nat → State) (s : State) (f : Nat) : Option State :=
  match (fib s f).sq with
  | [] => none
  | e :: r =>
    if entryUnready s f e || entryPinned s f e then none
    else
      let s1 := arriveEntry sur s f e
      some (if (fib s1 f).sq.length ≤ r.length then s1 else performEntry (dequeue s1 f e) f e)

/-- A queued entry touches one of some lines. -/
def entryMeets (lines : List Nat) (e : SqEntry) : Bool := (entryParts e).any fun p => inMem p.1 && lines.contains (p.1 / 128)

/-- A fibre's queue is drained as long as it holds accesses to some lines. -/
def drainMeeting (lines : List Nat) (s : State) (f : Nat) : State :=
  (List.range (fib s f).sq.length).foldl (fun t _ => if (fib t f).sq.any (entryMeets lines) then (drainWith surrender t f).getD t else t) s

/-- The accesses to some lines that a core's fibres have issued are performed as far as they may be. -/
def drainTile (s : State) (core : Nat) (lines : List Nat) : State :=
  ((s.fibres.map (·.1)).filter fun f => coreOf f == core).foldl (drainMeeting lines) s

/-- A holder surrenders, its core's accesses to the tile that are already issued being performed first (R114, points 2 to 4). A tenure
that such an access conflicts with is taken back at once (log 34). -/
def surrenderHolder (s : State) (core e : Nat) : State :=
  match holderAt s core e with
  | some h => if h.rvk then s else surrender (drainTile s core (h.lines.map (·.2))) core e
  | none => s

/-- A holder cannot surrender yet: an access to the tile that its core has issued waits, for a flush or a pinned tenure (R114). -/
def stuckHolder (s : State) (core e : Nat) : Bool :=
  match holderAt s core e with
  | some h =>
    let lines := h.lines.map (·.2)
    !h.rvk && (drainTile s core lines).fibres.any fun p => coreOf p.1 == core && p.2.sq.any (entryMeets lines)
  | none => false

/-- The holders that an access of a core to a line takes their tenure from. -/
def conflictHolders (s : State) (core line : Nat) (write : Bool) : List (Nat × Nat) := (conflicts s core line write).flatMap (holdersOf s)

/-- An access waits at a line: for a tenure that another fibre has pinned, or for a holder that cannot surrender yet (R114, R117). -/
def recallWaits (s : State) (f : Option Nat) (core line : Nat) (write : Bool) : Bool :=
  pinnedConflict s f core line write || (conflictHolders s core line write).any fun p => stuckHolder s p.1 p.2

/-- Recall every tenure an access conflicts with. -/
def recallFor (s : State) (core line : Nat) (write : Bool) : State := recallWith surrenderHolder s core line write

/-- Recall a handle from every holder that a test picks (R114). -/
def recallWhere (s : State) (h : Nat) (p : Nat → Holder → Bool) : State :=
  (holdersOf s h).foldl (fun t c =>
    match holderAt t c.1 c.2 with
    | some x => if p c.1 x then surrenderHolder t c.1 c.2 else t
    | none => t) s

/-- A tenure is taken back whether pinned or not; a pinned one of another fibre reports TENURE_BROKEN (R117, R122 to R124). -/
def breakHolder (s : State) (core e : Nat) (own : Option Nat) : State :=
  match holderAt s core e with
  | some h =>
    let s1 := surrenderHolder s core e
    if h.pin && liveHolder h && some (holderFib core h) != own then tenureBroken s1 (holderFib core h) h.handle else s1
  | none => s

/-- An access of any memory type reaches the home of its line. -/
def arrive (s : State) (q : Req) (write : Bool) (key mt loc : Nat) : State := arriveWith surrenderHolder s q write key mt loc

/-- The same for every line a block meets. -/
def arriveAll (s : State) (q : Req) (write : Bool) (key mt loc n : Nat) : State :=
  (linesOf loc n).foldl (fun t l => arrive t q write key mt (max loc (128 * l))) s

/-- The holders that the oldest entry of a fibre's queue takes their tenure from and that cannot surrender yet. -/
def entryStuck (s : State) (f : Nat) (e : SqEntry) : List (Nat × Nat) :=
  ((entryParts e).flatMap fun p => if inMem p.1 then conflictHolders s (coreOf f) (p.1 / 128) true else []).filter fun p => stuckHolder s p.1 p.2

/-- Holders perform what they can of their issued accesses to their tiles. -/
def drainHolders (s : State) (l : List (Nat × Nat)) : State :=
  l.foldl (fun t p => match holderAt t p.1 p.2 with
    | some h => drainTile t p.1 (h.lines.map (·.2))
    | none => t) s

/-- The oldest entry of a fibre's queue is performed; none where it must wait. -/
def drainOne (s : State) (f : Nat) : Option State :=
  match (fib s f).sq.head?.map (entryStuck s f) with
  | none | some [] => drainWith surrenderHolder s f
  | some l => let t := drainHolders s l; if (fib t f).sq.length < (fib s f).sq.length then some t else none

/-- Drain a fibre's queue as far as it goes. -/
def drainAll (s : State) (f : Nat) : State :=
  (List.range (fib s f).sq.length).foldl (fun t _ => (drainOne t f).getD t) s

/-- The queue is empty. -/
def drained (s : State) (f : Nat) : Bool := (fib s f).sq.isEmpty

/-- Queue one access of a lane, however many parts it has (R127, R132). -/
def enqueueOne (s : State) (f lane : Nat) (ps : List Piece) (bytes : List Byte) (red : Option (Nat × Ty × Bool)) (ord scope ch addr : Nat) : State :=
  match ps with
  | [] => s
  | p :: r =>
    let e : SqEntry :=
      { loc := p.loc, bytes := bytes, red := red, more := r.map fun q => (q.loc, q.n, q.key), ord := ord, scope := scope, key := p.key, mt := p.mt,
        ch := ch, sh := (reqOf s f ch p.leaf).sh, lane := lane, va := BitVec.ofNat 64 addr }
    modFib s f fun x => { x with sq := x.sq ++ [e] }

/-- Queue what a lane writes, access by access (R127, R132). -/
def enqueue (s : State) (f lane : Nat) (ps : List Piece) (bytes : List Byte) (red : Option (Nat × Ty × Bool)) (ord scope ch addr : Nat) : State :=
  ((atomGroups ps).foldl (fun (acc : State × List Byte) g =>
    let n := (g.map (·.n)).sum
    (enqueueOne acc.1 f lane g (acc.2.take n) red ord scope ch addr, acc.2.drop n)) (s, bytes)).1

/-! ## Translation takes effect (R57, R62, R63) -/

/-- The walker sets A and D in a leaf for a performed access: an atomic compare-and-write against the value the walk read, which writes
nothing where the entry has changed or needs no bit (R57). It is a write of normal memory at .pkg, by an agent of no core, and no RMW of
R147 (log 50). DESIGN CHOICE (log 50): no permission of stage 2 for the table's frame is asked for. -/
def markLeaf (s : State) (at_ leaf leaf1 : Nat) : State :=
  if leaf1 = leaf ∨ pteAt s.mem at_ ≠ leaf then s
  else performWrite (arrive s hubReq true 0 0 at_) (.unit [] none) hubCore 0 0 at_ (toBytes 8 leaf1) false none

/-- A permitted translation takes effect: the reads of its walk reach the homes of the table lines, a performed access sets A and D, and
the entries are held (R57, R62, R63, R112). -/
def commitLeaf (s : State) (c : Ctx) (va kind : Nat) (l : Leaf) (spec : Bool) : State :=
  let leaf := if spec then l.leaf else withAD l.leaf kind
  let s1 := l.path.foldl (fun t e => recallFor t hubCore (e.at_ / 128) false) s
  holdLeaf (holdWalk (markLeaf s1 l.at_ l.leaf leaf) l.path l.at_ leaf) (tlbEntry c va l leaf)

/-- The same, with a new walk where the leaf has changed since it was read (R57); where that walk fails nothing is marked or held. -/
def commit (s : State) (c : Ctx) (va kind : Nat) (l : Leaf) (spec : Bool) : State :=
  if !spec && staleLeaf s.mem kind l.leaf l.at_ then
    match walkPast s c va kind l.at_ with
    | .ok m => commitLeaf s c va kind m spec
    | .error _ => s
  else commitLeaf s c va kind l spec

/-- The accesses of a fibre's pieces take effect on the TLB and on A and D (R57). -/
def commitPieces (s : State) (f kind : Nat) (spec : Bool) (ps : List Piece) : State :=
  ps.foldl (fun t p => match p.leaf with
    | some l => commit t (fibCtx t f) p.va kind l spec
    | none => t) s

/-- Some line that the walk of a translation reads is under a tenure that cannot be taken back yet (R117). -/
def pathWaits (s : State) (f : Option Nat) (l : Leaf) : Bool := l.path.any fun e => recallWaits s f hubCore (e.at_ / 128) false

/-- Some line that a translation reads or writes is under a tenure that cannot be taken back yet (R117). -/
def leafWaits (s : State) (f : Option Nat) (kind : Nat) (l : Leaf) : Bool :=
  pathWaits s f l || (withAD l.leaf kind != l.leaf && recallWaits s f hubCore (l.at_ / 128) true)

/-- The walks of some pieces wait (R117). -/
def walksWait (s : State) (f : Nat) (ps : List Piece) : Bool := ps.any fun p => p.leaf.any (pathWaits s (some f))

/-- Some piece must wait for a pinned tenure (R117). -/
def mustWait (s : State) (f : Nat) (write : Bool) (ps : List Piece) : Bool :=
  ps.any fun p => inMem p.loc && (((linesOf p.loc p.n).any fun l => recallWaits s (some f) (coreOf f) l write)
    || (match p.leaf with
        | some l => leafWaits s (some f) (if write then kWrite else kRead) l
        | none => false))

/-! ## Loads -/

/-- The byte that an entry's parts write at a location under a key, if any. -/
def partByte (key loc : Nat) : List (Nat × Nat × Nat) → List Byte → Option Byte
  | [], _ => none
  | p :: r, l => if p.2.2 = key ∧ p.1 ≤ loc ∧ loc < p.1 + p.2.1 then l[loc - p.1]? else partByte key loc r (l.drop p.2.1)

/-- Overlay the queued writes of the fibre on bytes read under a key, oldest first (R129, R133). -/
def forward (x : Fibre) (key loc : Nat) (l : List Byte) : List Byte :=
  x.sq.foldl (fun m e =>
    if sqOverlaps e loc l.length ∧ e.red = none then (m.zipIdx).map fun p => (partByte key (loc + p.2) (entryParts e) e.bytes).getD p.1
    else m) l

/-- A load meets a queued reduction, or memory whose accesses stay in order: the queue is drained first (R79, R133). -/
def loadDrains (x : Fibre) (ps : List Piece) : Bool :=
  ps.any fun p => (!x.sq.isEmpty && (p.mt == 2 || p.mt == 3)) || x.sq.any fun e => e.red.isSome && sqOverlaps e p.loc p.n

/-- The bytes of one piece for a fibre's load. -/
def loadPiece (s : State) (f scope : Nat) (fresh : Bool) (ch : Nat) (p : Piece) : List Byte × State :=
  if p.mt = 3 ∧ inMem p.loc then deviceRead s p.loc p.n
  else
    let r := performRead (arrive s (reqOf s f ch p.leaf) false p.key p.mt p.loc) f p.key p.mt p.loc p.n scope fresh
    (forward (fib s f) p.key p.loc r.1, r.2)

/-- The constant cache's key for a core and line under a key (R97). -/
def constKey (core line key : Nat) : Nat := (key * 2 ^ 10 + core) * 2 ^ 46 + line

/-- The core of a constant cache's key. -/
def constCore (k : Nat) : Nat := k / 2 ^ 46 % 2 ^ 10

/-- A constant-space read: of normal memory the line that the core's constant cache holds, or memory's, which then stays there; of other
memory once, at its own size (R79, R80, R97). -/
def constPiece (s : State) (f scope : Nat) (p : Piece) : List Byte × State :=
  let line := p.loc / 128
  let k := constKey (coreOf f) line p.key
  if p.mt ≠ 0 then loadPiece s f scope false 0 p
  else match FMap.find s.mem.ccache k with
    | some l => ((l.drop (p.loc % 128)).take p.n, s)
    | none =>
      let s1 := arrive s (reqOf s f 0 p.leaf) false p.key p.mt p.loc
      let l := readBytes s1 p.key (line * 128) 128
      ((l.drop (p.loc % 128)).take p.n, { s1 with mem := { s1.mem with ccache := FMap.put s1.mem.ccache k l } })

/-- The parts of one access are read at one time: the next read point stands for each of them (R127). -/
def sharePoint (s : State) (f : Nat) (ps : List Piece) : State :=
  match s.readPts with
  | [] => s
  | k :: r =>
    let lagging := ps.filter fun p => blockLags s f p.mt p.loc p.n
    let t := lagging.foldl (fun m p => max m (readTime s f p.key p.mt p.loc p.n false)) (s.mem.clock - k)
    if lagging.isEmpty then s else { s with readPts := List.replicate lagging.length (s.mem.clock - t) ++ r }

/-- The bytes of a lane's load, access by access. -/
def loadPieces (s : State) (f space scope : Nat) (fresh : Bool) (ch : Nat) (ps : List Piece) : List Byte × State :=
  (atomGroups ps).foldl (fun acc g => g.foldl (fun acc p =>
    let r := if space = 6 then constPiece acc.2 f scope p else loadPiece acc.2 f scope fresh ch p
    (acc.1 ++ r.1, r.2)) (acc.1, if g.length ≤ 1 ∨ fresh then acc.2 else sharePoint acc.2 f g)) ([], s)

/-! ## Accesses of a unit of the core that go past the store queue: engines, ballast, matrix unit (R138) -/

/-- Check and translate `n` bytes for a unit acting for a fibre's workgroup, at a space's address. -/
def unitCheck (s : State) (f lane space addr n kind : Nat) (cls : AccClass) : Except Flt (List Piece) := checkAccess s f lane space addr n 1 kind cls false

/-- A unit reads the bytes of pieces, whose translations have taken effect; `q` is the request it makes through a leaf. -/
def readPieces (s : State) (q : Option Leaf → Req) (ps : List Piece) : List Byte × State :=
  ps.foldl (fun acc p =>
    if p.mt = 3 ∧ inMem p.loc then let r := deviceRead acc.2 p.loc p.n; (acc.1 ++ r.1, r.2)
    else
      let s1 := arriveAll acc.2 (q p.leaf) false p.key p.mt p.loc p.n
      (acc.1 ++ readBytes s1 p.key p.loc p.n, noteUnitRead s1 (q p.leaf).core p.loc p.n)) ([], s)

/-- A unit of a fibre's core reads the bytes of pieces. -/
def unitRead (s : State) (f ch : Nat) (ps : List Piece) : List Byte × State := readPieces (commitPieces s f kRead false ps) (reqOf s f ch) ps

/-- Write bytes at one piece for a unit; `rel` where the write is a completion, `ordered` where it takes the ordered channel (R158). -/
def unitPut (s : State) (q : Req) (w : Writer) (ordered : Bool) (rel : Option Nat) (p : Piece) (l : List Byte) : State :=
  if inMem p.loc && portFailed s p.loc then s
  else if p.mt = 3 ∧ inMem p.loc then deviceWrite s p.loc l
  else toHost (performWrite (arriveAll s q true p.key p.mt p.loc p.n) w q.core p.key p.mt p.loc l false rel) p.mt p.loc l ordered

/-- A unit writes the bytes of pieces, whose translations have taken effect; a completion takes the ordered channel (R158). -/
def writePieces (s : State) (q : Option Leaf → Req) (w : Writer) (rel : Option Nat) (ps : List Piece) (l : List Byte) : State :=
  (ps.foldl (fun (acc : State × List Byte) p =>
    (unitPut acc.1 (q p.leaf) w rel.isSome rel p (acc.2.take p.n), acc.2.drop p.n)) (s, l)).1

/-- A unit of a fibre's core writes the bytes of pieces. -/
def unitWrite (s : State) (f ch : Nat) (w : Writer) (rel : Option Nat) (ps : List Piece) (l : List Byte) : State :=
  writePieces (commitPieces s f kWrite false ps) (reqOf s f ch) w rel ps l

/-- The newest writes of the bytes of pieces: what a unit has just written there. -/
def wroteView (s : State) (ps : List Piece) : View :=
  if tracked s then
    ps.foldl (fun v p => (List.range p.n).foldl (fun u i => match versionAt s (p.loc + i) s.mem.clock with
      | some w => viewAdd u (ordLoc s (p.loc + i)) w.time
      | none => u) v) []
  else []

/-- Some piece waits for a pinned tenure. -/
def unitWaits (s : State) (f : Nat) (write : Bool) (ps : List Piece) : Bool := mustWait s f write ps

/-! ## What the instructions of a fibre share -/

/-- The instruction cannot issue yet: it stays where it is. -/
def hold (s : State) : Result := .next { s with stall := 1 }

/-- The instruction cannot issue yet, and that is a long wait (R340). -/
def holdLong (s : State) : Result := .next { s with stall := 2 }

/-- The instruction cannot issue yet: once the queue is drained, a release at its scope begins and waits for its flushes. -/
def retry (s : State) (scope : Nat) : Result := hold (if drained s s.cur then fibFlush s s.cur scope else s)

/-- The checks of every lane that makes an access. -/
def laneChecks (s : State) (a : Args) (n kind : Nat) (cls : AccClass) : List (Nat × Except Flt (List Piece)) :=
  (accessLanes s a).map fun i => (i, checkAccess s s.cur i a.space.toNat (effAddr s a i) n n kind cls false)

/-- The lanes that passed, with their pieces. -/
def passed (l : List (Nat × Except Flt (List Piece))) : List (Nat × List Piece) :=
  l.filterMap fun p => match p.2 with
    | .ok ps => some (p.1, ps)
    | .error _ => none

/-- The failures of an instruction's lanes; the failure of an access made once per issue is every issue lane's (R30, R351). -/
def failures (s : State) (a : Args) (l : List (Nat × Except Flt (List Piece))) : List (Nat × Flt) :=
  let fs := l.filterMap fun p => match p.2 with
    | .error e => some (p.1, e)
    | .ok _ => none
  if uniformOpnd a.d.opnd && uniformOpnd a.s0 && uniformOpnd a.s1 then
    match fs with
    | (_, e) :: _ => (lanesOf s.grp).map fun i => (i, e)
    | [] => []
  else fs

/-- The end of an access instruction: the issue lanes that did not fail go on, the others trap and stop (R65, R87). -/
def finishLanes (s : State) (fs : List (Nat × Flt)) : State :=
  if fs.isEmpty then goOn s else raise (advance s (s.grp &&& ~~~ faultMask fs)) fs

/-- After a sequentially consistent write (`store`) or a FENCE of a group's lanes: if the queue is empty and nothing awaits a
flush it is done, else the fibre waits (R131, R140, R155). -/
def fenceOrWait (s : State) (f : Nat) (m : LaneMask) (scope : Nat) (sc store : Bool) (next : BitVec 64) : State :=
  if drained s f && fibReady s f scope then setPc (noteFence (fibReleased s f) f scope sc) f m next
  else addWait (if drained s f then fibFlush s f scope else s) f { lanes := m, kind := .fence scope sc store, pc := next, since := s.tick }

/-- A lane's check, made again where a leaf that its access must mark has changed since (R57). -/
def checkAgain (chk : State → List (Nat × Except Flt (List Piece))) (kind : Nat) (s : State)
    (c : Nat × Except Flt (List Piece)) : Nat × Except Flt (List Piece) :=
  match c.2 with
  | .ok ps => if ps.any fun p => p.leaf.any fun l => staleLeaf s.mem kind l.leaf l.at_ then ((chk s).find? fun d => d.1 == c.1).getD c else c
  | .error _ => c

/-- The lanes of an instruction make their accesses one after the other, in ascending order: what each comes to, and its check (R57, R88). -/
def eachLane (chk : State → List (Nat × Except Flt (List Piece))) (kind : Nat) (act : State → Nat → List Piece → State) (s : State)
    (cs : List (Nat × Except Flt (List Piece))) : State × List (Nat × Except Flt (List Piece)) :=
  cs.foldl (fun acc c =>
    let d := checkAgain chk kind acc.1 c
    (match d.2 with
      | .ok ps => act acc.1 d.1 ps
      | .error _ => acc.1, acc.2 ++ [d])) (s, [])

/-- The end of an instruction whose accesses are sequentially consistent (`sc`) or not: the FENCE.sc that follows them, which at .sys waits for
its flush (R131, R155, R160). -/
def finishSc (s : State) (f : Nat) (sc : Bool) (fs : List (Nat × Flt)) (scope : Nat) : State :=
  let m := s.grp &&& ~~~ faultMask fs
  if sc ∧ m ≠ 0 then fenceOrWait (finishLanes s fs) f m scope true true (s.ipc + 12) else finishLanes s fs

/-- A load of the lanes whose checks `chk` makes (R89, R90): what it must follow is performed before they are made. `fails` are the traps of
failed checks; `put` places a lane's bytes in its destination. -/
def execLoadOf (a : Args) (chk : State → List (Nat × Except Flt (List Piece))) (fails : List (Nat × Except Flt (List Piece)) → List (Nat × Flt))
    (put : State → Nat → List Byte → State) (s : State) : Result :=
  let f := s.cur
  if (chk s).isEmpty then .next (goOn s)
  else
    let sc := decide (a.ord.toNat = 3)
    let s0 := if sc || (passed (chk s)).any (fun p => loadDrains (fib s f) p.2) then drainAll s f else s
    let ok := passed (chk s0)
    if (ok.any fun p => mustWait s0 f false p.2) || (ok.any fun p => loadDrains (fib s0 f) p.2) then hold s0
    else if sc && !(drained s0 f && fibReady s0 f a.scope.toNat) then retry s0 a.scope.toNat
    else
      let s1 := if sc then noteFence (fibReleased s0 f) f a.scope.toNat true else s0
      let acq := if a.ord.toNat = 0 then 1 else a.scope.toNat
      let r := eachLane chk kRead (fun t i ps =>
        let l := loadPieces (commitPieces t f kRead false ps) f a.space.toNat acq false a.ch.toNat ps
        put l.2 i l.1) s1 (chk s0)
      .next (finishSc (if a.ord.toNat = 0 then r.1 else noteAcquire r.1 f) f sc (fails r.2) a.scope.toNat)

/-- Load instructions: LD, LDX (R89, R90). -/
def execLoad (a : Args) (n : Nat) (cls : AccClass) (put : State → Nat → List Byte → State) (s : State) : Result :=
  execLoadOf a (fun t => laneChecks t a n kRead cls) (failures s a) put s

/-- A store or reduction of the lanes whose checks are given (R89, R90, R94): `bytes` is a lane's data. The walk that sets A and D waits for a
tenure pinned on its tables (R117). -/
def execStoreOf (a : Args) (cs : List (Nat × Except Flt (List Piece))) (fs : List (Nat × Flt)) (kind : Nat) (red : Option (Nat × Ty × Bool))
    (bytes : Nat → List Byte) (s : State) : Result :=
  let f := s.cur
  let ok := passed cs
  let sc := decide (a.ord.toNat = 3) && !cs.isEmpty
  if ok.any fun p => p.2.any fun q => q.leaf.any (leafWaits s (some f) kind) then hold s
  else
  let s1 := if sc then noteFence s f a.scope.toNat true else s
  let s2 := ok.foldl (fun t p =>
    enqueue (commitPieces t f kind false p.2) f p.1 p.2 (bytes p.1) red a.ord.toNat a.scope.toNat a.ch.toNat (effAddr s a p.1)) s1
  let s3 := finishLanes s2 fs
  .next (if sc && !ok.isEmpty then fenceOrWait (drainAll s3 f) f (s.grp &&& ~~~ faultMask fs) a.scope.toNat true true (s.ipc + 12) else s3)

/-- Store instructions and reductions (R89, R90, R94). -/
def execStore (a : Args) (n kind : Nat) (cls : AccClass) (red : Option (Nat × Ty × Bool))
    (bytes : Nat → List Byte) (s : State) : Result :=
  let cs := laneChecks s a n kind cls
  execStoreOf a cs (failures s a cs) kind red bytes s

/-- The new value of an atomic goes to host memory as a PCIe AtomicOp with its operands, behind a port without CXL.cache (R93, R158). -/
def atomToHost (s : State) (p : Piece) (op : Nat) (new operands : List Byte) : State :=
  if isHost p.loc && inMem p.loc then
    (if portCxl s p.loc && p.mt == 0 then hostPut s p.loc new else output (hostPut s p.loc new) (.atomicOp (portOf p.loc) p.loc op operands))
  else s

/-- Perform an atomic operation at its pieces: the old value, and the state with the new one; the words of one access have one place in the
order of writes (R92, R93, R127). -/
def atomicAt (s : State) (f : Nat) (a : Args) (op : Nat) (x e : Nat) (ps : List Piece) : Nat × State :=
  let core := coreOf f
  let s1 := ps.foldl (fun t p => arrive t (reqOf t f a.ch.toNat p.leaf) true p.key p.mt p.loc) (commitPieces s f kRmw false ps)
  let scope := if a.ord.toNat = 0 then 1 else a.scope.toNat
  let r := ps.foldl (fun (acc : List Byte × State) p =>
    let q := performRead acc.2 f p.key p.mt p.loc p.n scope true
    (acc.1 ++ q.1, q.2)) ([], s1)
  let n := r.1.length
  let new := toBytes n (atomNew op a.ty a.d.clamp (ofBytes r.1) x e)
  let operands := if op = 7 then toBytes n e ++ toBytes n x else toBytes n x
  let rel := if a.ord.toNat = 0 then none else some a.scope.toNat
  let s2 := (ps.foldl (fun (acc : State × List Byte) p =>
    let t : State := { acc.1 with mem := { acc.1.mem with clock := r.2.mem.clock } }
    (atomToHost (performWrite t (.fibre f) core p.key p.mt p.loc (acc.2.take p.n) true rel) p op (acc.2.take p.n) operands,
     acc.2.drop p.n)) (r.2, new)).1
  (ofBytes r.1, s2)

/-- The forms performed as PCIe AtomicOps (R93). -/
def pcieForm (op : Nat) (t : Ty) : Bool := (op == 0 && tyIsInt t) || op == 6 || op == 7

/-- Atomic instructions (R92): the queue drains first, the lanes follow in ascending order, each writes the old value to D. -/
def execAtomic (a : Args) (op : Nat) (s : State) : Result :=
  let f := s.cur
  let chk (t : State) := laneChecks t a (tyWidth a.ty / 8) kRmw (if pcieForm op a.ty then .pcie else .other)
  if (chk s).isEmpty then .next (goOn s)
  else
    let s0 := drainAll s f
    let cs := chk s0
    let ok := passed cs
    let strong := decide (a.ord.toNat ≠ 0)
    if !ok.isEmpty && !drained s0 f || ok.any fun p => mustWait s0 f true p.2 then hold s0
    else if !ok.isEmpty && strong && !fibReady s0 f a.scope.toNat then retry s0 a.scope.toNat
    else
      let sc := decide (a.ord.toNat = 3)
      let s1 := if sc then noteFence (fibReleased s0 f) f a.scope.toNat true else fibReleased s0 f
      let r := eachLane chk kRmw (fun t i ps =>
        let v := atomicAt t f a op (srcVal s a.ty 0 a.s1 i) (srcVal s a.ty 0 a.d.opnd i) ps
        match a.d.opnd with
        | .reg g _ _ => dstSet v.2 f i (tyIs64 a.ty) g v.1
        | _ => v.2) s1 cs
      .next (finishSc (if a.ord.toNat = 0 then r.1 else noteAcquire r.1 f) f sc (failures s0 a r.2) a.scope.toNat)

end Sys2Proof.Machine
end

