-- ==== Sys2Proof/Machine/Slots.lean ====
section
/-! DEFINITION. The current fibre of a slot, yield points, parking and exit (spec/08 R188 to R193, R211 to R213). -/

namespace Sys2Proof.Machine

/-! ## The slot (R192) -/

/-- The lanes of a fibre whose next instruction the scoreboard holds (R192). -/
def operandMask (x : Fibre) : LaneMask := x.opWaits.foldl (fun m w => if w.back then m else m ||| w.lanes) 0

/-- A resident fibre that has a selectable lane whose next instruction is not held by the scoreboard (R192). -/
def readyFib (s : State) (f : Nat) : Bool := hasFib s f && (selectable (fib s f) &&& ~~~ operandMask (fib s f)) != 0

/-- An operand wait without SOS keeps the slot with the fibre (R192). -/
def keepsSlot (s : State) (f : Nat) : Bool :=
  hasFib s f && (fib s f).opWaits.any fun w => w.keeps && !w.back && (w.lanes &&& selectable (fib s f)) != 0

/-- The next ready fibre of a slot after the current one, ascending and wrapping; none where no other is ready (R192). -/
def nextReady (s : State) (slot : Nat) : Option Nat :=
  let sl := slotRec s slot
  ((List.range 3).map fun k => (sl.cur + k + 1) % 4).find? fun j => j != sl.cur && decide (j < sl.nfib) && readyFib s (slot * 4 + j)

/-- Change a slot record. -/
def modSlot (s : State) (slot : Nat) (g : Slot → Slot) : State :=
  match FMap.find s.slots slot with
  | some x => { s with slots := FMap.put s.slots slot (g x) }
  | none => s

/-- The slot passes to its next ready fibre (R192). -/
def passSlot (s : State) (slot : Nat) : State :=
  match nextReady s slot with
  | some j => modSlot s slot fun x => { x with cur := j }
  | none => s

/-- The current fibre has ceased to be ready, an operand wait without SOS apart: the slot passes on (R192). -/
def settleSlot (s : State) (slot : Nat) : State :=
  let f := slot * 4 + (slotRec s slot).cur
  if readyFib s f || keepsSlot s f then s else passSlot s slot

/-- A yield point: the watchdog's count is 0 again (R204, R205). -/
def yieldPoint (s : State) (f : Nat) : State := modFib s f fun x => { x with wdCount := 0 }

/-! ## The active and pending sets (R339, R340) -/

/-- Some fibre of the slot is ready (R339). -/
def slotReady (s : State) (slot : Nat) : Bool := (List.range (slotRec s slot).nfib).any fun k => readyFib s (slot * 4 + k)

/-- A wait that R340 lists. -/
def longKind (k : WaitKind) : Bool :=
  match k with
  | .fence _ _ _ | .tlbsync | .svcKept _ _ _ | .barNext _ _ false => false
  | _ => true

/-- A frame transfer that R340 lists. -/
def longTransfer (w : LaneWait) : Bool :=
  match w with
  | .callSpill _ _ | .retRefill => true
  | _ => false

/-- An operand wait is long: HINT 5 or 6 says so, or it has lasted 240 clk (R340). -/
def longOperand (tick : Nat) (w : OpWait) : Bool := !w.back && (w.long || decide (w.since + 240 ≤ tick))

/-- A fibre is in a long wait at a time (R340). -/
def longWait (tick : Nat) (x : Fibre) : Bool :=
  x.heldLong || x.opWaits.any (longOperand tick) || x.waits.any (fun w => longKind w.kind) || x.lanes.toList.any fun l => longTransfer l.wait

/-- An active slot is eligible for exchange: it has no ready fibre, a fibre whose issue is held in a long wait not counting as one, and a
fibre in a long wait (R340). -/
def eligible (s : State) (slot : Nat) : Bool :=
  let fs := (List.range (slotRec s slot).nfib).map fun k => slot * 4 + k
  !(fs.any fun f => readyFib s f && !(fib s f).heldLong) && fs.any fun f => hasFib s f && longWait s.tick (fib s f)

/-- The slot of a list whose time is the least, the lowest slot among equals. -/
def oldestSlot : List (Nat × Nat) → Option Nat
  | [] => none
  | p :: l => some (l.foldl (fun b q => if q.2 < b.2 then q else b) p).1

/-- The pending slot that has been ready for the longest time. -/
def readyPending (s : State) (u : Nat) : Option Nat :=
  oldestSlot ((s.slots.filter fun p => p.1 / 16 == u && !p.2.active && slotReady s p.1).map fun p => (p.1, p.2.readySince.getD s.tick))

/-- The active slot that has been eligible for the longest time; `also` is a slot that has just yielded. -/
def exchangeable (s : State) (u : Nat) (also : Option Nat) : Option Nat :=
  oldestSlot ((s.slots.filter fun p => p.1 / 16 == u && p.2.active && (eligible s p.1 || also == some p.1)).map
    fun p => (p.1, p.2.eligibleSince.getD s.tick))

/-- The active set of a sub-core has room (R339). -/
def activeRoom (s : State) (u : Nat) : Bool := decide ((s.slots.filter fun p => p.1 / 16 == u && p.2.active).length < 8)

/-- Exchange an eligible active slot with a ready pending one, where both exist (R340); in an active set that a slot has left, the
pending one takes its room (R339). -/
def exchange (s : State) (u : Nat) (also : Option Nat) : State :=
  match readyPending s u, exchangeable s u also with
  | some p, some a =>
    if activeRoom s u then modSlot s p fun x => { x with active := true, readySince := none }
    else modSlot (modSlot s a fun x => { x with active := false, eligibleSince := none }) p fun x => { x with active := true, readySince := none }
  | some p, none => if activeRoom s u then modSlot s p fun x => { x with active := true, readySince := none } else s
  | none, _ => s

/-- An exchange of slots is due. -/
def exchangeDue (s : State) (u : Nat) : Bool := (readyPending s u).isSome && (activeRoom s u || (exchangeable s u none).isSome)

/-- Keep since when each slot has been eligible or ready and pending. -/
def trackSlots (s : State) : State :=
  { s with slots := s.slots.map fun p => (p.1, { p.2 with
      readySince := if !p.2.active && slotReady s p.1 then some (p.2.readySince.getD s.tick) else none,
      eligibleSince := if p.2.active && eligible s p.1 then some (p.2.eligibleSince.getD s.tick) else none }) }

/-- SLOT_EXCHANGE (R340). -/
def execSlotExchange (u : Nat) (s : State) : Result := .next (exchange s u none)

/-- The slot of a fibre passes on, if it has not passed from it already (R192). -/
def passFrom (s : State) (f : Nat) : State := if (slotRec s (slotOf f)).cur = f % 4 then passSlot s (slotOf f) else s

/-- The effect of YIELD: the count, the pass of the slot, and its eligibility for an exchange at that issue (R212, R340). -/
def doYield (s : State) (f : Nat) : State := exchange (passFrom (yieldPoint s f) f) (subOf f) (some (slotOf f))

/-- What an issue that had to wait does: with SOS the slot passes to its next ready fibre (R31, R167, R192); in a long wait, where the slot
has no other ready fibre, it may be exchanged (R340). -/
def heldIssue (s : State) (f : Nat) (sos long : Bool) : State :=
  let s1 := modFib s f fun x => { x with heldLong := long }
  let s2 := if sos then passSlot s1 (slotOf f) else s1
  if long && eligible s2 (slotOf f) then exchange s2 (subOf f) (some (slotOf f)) else s2

/-- The watchdog is due at this boundary; without a place in the trap queue it waits, COUNT staying at LIMIT (R205, R352). -/
def watchdogDue (x : Fibre) : Bool := x.wdLimit != 0 && decide (x.wdLimit ≤ x.wdCount) && !x.klvl && decide (x.trapq.length < 8)

/-- COUNT after a U-level issue (R205, R352). -/
def countIssue (x : Fibre) : Fibre :=
  if x.klvl || (x.wdLimit != 0 && decide (x.wdLimit ≤ x.wdCount)) then x else { x with wdCount := x.wdCount + 1 }

/-- WATCHDOG (R205): the entry, and the count is 0 again. -/
def execWatchdog (f : Nat) (s : State) : Result :=
  let x := fib s f
  .next (if watchdogDue x then yieldPoint (raiseAsync s f cWATCHDOG 0 0 (liveMask x &&& ~~~ stoppedMask x)) f else s)

/-! ## The issue group (R189, R190) -/

/-- The lane's depth and PC put it before another lane: greater depth, then lower PC (R189). -/
def before (a b : Lane) : Bool := decide (b.depth < a.depth) || (a.depth == b.depth && decide (a.pc.toNat < b.pc.toNat))

/-- The selected PC and lanes of a slice (R189). -/
def sliceSelect (x : Fibre) (sel : LaneMask) (k : Nat) : Option (BitVec 64 × LaneMask) :=
  let ls := ((List.range 4).map fun j => 4 * k + j).filter fun i => sel.getLsbD i
  match ls with
  | [] => none
  | i :: r =>
    let best := r.foldl (fun b j => if before (laneAt x j) b then laneAt x j else b) (laneAt x i)
    some (best.pc, maskOf fun j => ls.contains j && (laneAt x j).depth == best.depth && (laneAt x j).pc == best.pc)

/-- An issue group: its slices, PC and lanes. -/
structure Group where
  slices : List Nat
  pc     : BitVec 64
  mask   : LaneMask
  deriving DecidableEq, Repr

/-- The slices that hold lanes of a mask. -/
def sliceList (m : LaneMask) : List Nat := (List.range 8).filter fun k => bits m.toNat (4 * k) 4 != 0

/-- Lane groups without some lanes. -/
def cutGroups (l : List LaneMask) (m : LaneMask) : List LaneMask := (l.map fun g => g &&& ~~~ m).filter fun g => g != 0

/-- The first lane group that executes again and has a selectable lane, past those held since the sub-core issued, and the fibre without it
(R352; log 32). -/
def againGroup (held : LaneMask) (x : Fibre) : Option (Group × Fibre) :=
  (x.again.zipIdx).findSome? fun p =>
    match lowest (p.1 &&& selectable x &&& ~~~ held) with
    | some i =>
      let pc := (laneAt x i).pc
      let m := maskOf fun j => (p.1 &&& selectable x).getLsbD j && (laneAt x j).pc == pc
      some ({ slices := sliceList m, pc := pc, mask := m }, { x with again := x.again.take p.2 ++ x.again.drop (p.2 + 1) })
    | none => none

/-- The group a fibre issues next, and the fibre with its gang state (R190). A parted warp's slices take turns; one held since the sub-core
issued lets the others go first (log 32). -/
def regularGroup (held : LaneMask) (x : Fibre) : Option (Group × Fibre) :=
  let sel := selectable x
  let ss := (List.range 8).filterMap fun k => (sliceSelect x sel k).map fun p => (k, p)
  match ss with
  | [] => none
  | (_, p) :: _ =>
    if x.ganged && ss.all fun q => q.2.1 == p.1 then
      let m := ss.foldl (fun m q => m ||| q.2.2) 0
      some ({ slices := ss.map (·.1), pc := p.1, mask := m }, { x with again := cutGroups x.again m })
    else
      let last := if x.ganged then 7 else x.lastSlice
      let turn := (List.range 8).map fun j => (last + 1 + j) % 8
      let find (l : List (Nat × BitVec 64 × LaneMask)) := turn.findSome? fun k => l.find? fun q => q.1 == k
      match find (ss.filter fun q => q.2.2 &&& ~~~ held != 0), find ss with
      | some (k, q), _ | none, some (k, q) =>
        some ({ slices := [k], pc := q.1, mask := q.2 }, { x with ganged := false, lastSlice := k, again := cutGroups x.again q.2 })
      | none, none => none

/-- A group without the slices that wait for an operand: a ganged one waits whole (R190, R192). -/
def unheld (x : Fibre) (g : Group × Fibre) : Option (Group × Fibre) := if g.1.mask &&& operandMask x = 0 then some g else none

/-- The group a fibre issues next: first those that found no place in the trap queue (R352); `held` are the lanes whose last attempt was
held. -/
def issueGroup (held : LaneMask) (x : Fibre) : Option (Group × Fibre) :=
  match againGroup (held ||| operandMask x) x with
  | some g => some g
  | none => (regularGroup (held ||| operandMask x) x).bind (unheld x)

/-- The lanes of a fibre whose last attempt to issue was held, since their sub-core issued. -/
def triedLanes (s : State) (f : Nat) : LaneMask := (FMap.find s.tried f).getD 0

/-- A group could not issue. -/
def noteTried (s : State) (f : Nat) (m : LaneMask) : State := { s with tried := FMap.put s.tried f (triedLanes s f ||| m) }

/-- A sub-core issues, or every group there has been tried: each may be tried again. -/
def clearTried (s : State) (u : Nat) : State := { s with tried := s.tried.filter fun p => subOf p.1 != u }

/-- The fibre has a group that has not been tried in vain. -/
def untried (s : State) (f : Nat) : Bool :=
  match FMap.find s.tried f with
  | none => true
  | some m => (issueGroup m (fib s f)).any fun g => g.1.mask &&& ~~~ m != 0

/-! ## Waits -/

/-- The first wait of a fibre that a test picks. -/
def findWait (x : Fibre) (p : WaitKind → Bool) : Option Wait := x.waits.find? fun w => p w.kind

/-- Remove a wait. -/
def dropWait (x : Fibre) (w : Wait) : Fibre := { x with waits := x.waits.filter fun v => v != w }

/-- A wait ends: its lanes go on at its PC. -/
def finishWait (s : State) (f : Nat) (w : Wait) : State :=
  modFib s f fun x => modLanes (dropWait x w) w.lanes fun _ l => { l with pc := w.pc }

/-- Replace a wait's record. -/
def setWait (s : State) (f : Nat) (w v : Wait) : State :=
  modFib s f fun x => { x with waits := x.waits.map fun u => if u = w then v else u }

/-- The lanes of a group begin a wait that is a yield point (R144, R204). -/
def beginWait (s : State) (m : LaneMask) (k : WaitKind) : State :=
  addWait (yieldPoint s s.cur) s.cur { lanes := m, kind := k, pc := s.ipc + 12, since := s.tick }

/-! ## Parking (R213) -/

/-- When every non-exited lane is parked, and none masked, the lanes go on and the warp gangs. -/
def checkRegang (x : Fibre) : Fibre :=
  if liveMask x != 0 && (liveMask x &&& ~~~ x.amask) == 0 && (liveMask x &&& ~~~ x.parked) == 0 then
    { modLanes x x.parked (fun _ l => { l with pc := l.pc + 12 }) with parked := 0, ganged := true, lastSlice := 7 }
  else x

/-! ## Exit (R211) -/

/-- Discard the trap entries of lanes that exit. -/
def dropEntries (x : Fibre) (m : LaneMask) : Fibre :=
  let cut (l : List TrapEntry) := (l.map fun e => { e with lmask := e.lmask &&& ~~~ m }).filter fun e => e.lmask != 0
  { dropOpWaits x m with
    trapq := cut x.trapq, pendingAsync := cut x.pendingAsync, stopped := x.stopped &&& ~~~ m, held := cutGroups x.held m,
    again := cutGroups x.again m }

/-- Every lane of a fibre has exited and nothing of it is outstanding. -/
def exitSettled (x : Fibre) : Bool := x.sq.isEmpty && x.queues.toList.all fun q => q.entries.isEmpty

/-- Free a holder entry as TREL does (R121), a release at .pkg: a live one unlinks first. -/
def freeHolder (s : State) (core e : Nat) : State :=
  match holderAt s core e with
  | some h => setHolder (if h.rvk then s else unlink (releaseTile s h (releaseView s (holderFib core h) 4)) core e h.handle) core e none
  | none => s

/-- Free every holder entry of a fibre (R211). -/
def freeHolders (s : State) (f : Nat) : State :=
  ((holderTable s (coreOf f)).filter fun p => p.2.fib == f % 256).foldl (fun t p => freeHolder t (coreOf f) p.1) s

/-- The fibres of a workgroup still resident. -/
def wgFibres (s : State) (w : Wg) : List Nat := w.fibres.filter (hasFib s)

/-- A launch record in progress. -/
def launchOf (s : State) (part lid : Nat) : Option Launch := s.hub.launches.find? fun l => l.part == part && l.lid == lid

/-- Change a launch record. -/
def modLaunch (s : State) (part lid : Nat) (g : Launch → Launch) : State :=
  { s with hub := { s.hub with launches := s.hub.launches.map fun l => if l.part = part ∧ l.lid = lid then g l else l } }

/-- The L1 copies of a quad's cores are written back and invalidated (R77); the dirty bytes are kept once for L1 and L2. -/
def dropQuad (s : State) (q : Nat) : State :=
  let left := s.mem.copies.filterMap fun p =>
    let cs := p.2.2.filter fun c => quadOf c != q
    if cs.isEmpty then none else some (p.1, (p.2.1, cs))
  { s with mem := { s.mem with copies := left } }

/-- Quads that no fused workgroup occupies any more leave fusion (R77). -/
def endFusion (s : State) : State :=
  let on (q : Nat) : Bool := s.wgs.any fun w => w.2.fuse && quadOf w.2.core == q
  let s1 := (s.fused.filter fun q => !on q.1).foldl (fun t q => dropQuad t q.1) s
  { s1 with fused := s.fused.filter fun q => on q.1 }

/-- An ownership entry is a workgroup's: its partition, launch and workgroup number, and, for a spawned warp, which has no number of its
own (R203), the warp's tile. -/
def ownsEntry (w : Wg) (u : Nat) (e : OwnEntry) : Bool :=
  e.owned && e.part == w.part && e.olid == w.lid && e.owg == w.wg
    && (w.spawnSlot.isNone || FMap.find w.tiles (u % 4 * 16 + e.ltile) == some (u, e.tile))

/-- The pinned states a workgroup owns on a sub-core become parked when its last fibre there exits (R319). -/
def parkPins (s : State) (u : Nat) (w : Wg) : State :=
  match FMap.find s.own u with
  | some l => { s with own := FMap.put s.own u (l.map fun o => o.map fun e =>
      if ownsEntry w u e then { e with owned := false, lastUse := s.tick } else e) }
  | none => s

/-- The barrier objects of a workgroup's scratchpad are forgotten with its allocation (log 18). -/
def dropObjects (s : State) (w : Wg) : State :=
  let lo := (w.core * 2 ^ 20 + w.scrBase) / 16
  { s with objs := s.objs.filter fun o => !(decide (lo ≤ o) && decide (o < lo + w.scrSize / 16)) }

/-- A workgroup all of whose fibres have left is complete: its record, slots and allocations go, its spawn slot is free
(R200, R336). -/
def endWg (s : State) (key : Nat) : State :=
  match FMap.find s.wgs key with
  | some w =>
    if (wgFibres s w).isEmpty then
      let s0 := dropObjects s w
      let s1 := { s0 with wgs := FMap.del s.wgs key, slots := s.slots.filter fun p => !w.slots.contains p.1 }
      endFusion (modLaunch s1 w.part w.lid fun l =>
        match w.spawnSlot with
        | some m => { l with spawnUsed := NSet.del l.spawnUsed m }
        | none => l)
    else s
  | none => s

/-- A place number that names no slot and no fibre: what a workgroup keeps for a slot it has left. -/
def noPlace : Nat := 2 ^ 20

/-- A slot that no fibre is left in is free (R211, R336); its workgroup keeps the positions of its other slots. -/
def emptySlot (s : State) (slot key : Nat) : State :=
  if (List.range 4).any fun k => hasFib s (4 * slot + k) then s
  else match FMap.find s.wgs key with
    | some w => { s with slots := FMap.del s.slots slot, wgs := FMap.put s.wgs key { w with
        slots := w.slots.map fun k => if k = slot then noPlace else k, fibres := w.fibres.map fun g => if g / 4 = slot then noPlace else g } }
    | none => s

/-- The end of a fibre whose lanes have all exited, once its store queue and engine queues are empty (R211): tenures, names
and, with the last fibre of the workgroup on the sub-core, the unpinned tiles there are freed; a release at .pkg, which the launch's end
passes on (R200); the place is free. -/
def settleExit (s : State) (f : Nat) : State :=
  let x := fib s f
  if x.exiting && exitSettled x then
    let key := (slotRec s (slotOf f)).wgKey
    let s1 := modLaunch (freeHolders s f) x.part x.lid fun l => { l with ended := viewJoin l.ended (releaseView s f 4) }
    let s2 := { s1 with fibres := FMap.del s1.fibres f }
    let w := (FMap.find s2.wgs key)
    let last := match w with
      | some w => !((wgFibres s2 w).any fun g => subOf g == subOf f)
      | none => false
    let s3 := match w with
      | some w =>
        if last then parkPins { s2 with wgs := FMap.put s2.wgs key { w with tiles := w.tiles.filter fun t => t.1 / 16 != subOf f % 4 } } (subOf f) w
        else s2
      | none => s2
    endWg (emptySlot (settleSlot s3 (slotOf f)) (slotOf f) key) key
  else s

/-- A queue stopped by a fault loses its entries when its fibre ends (R211). -/
def dropStopped (q : Queue) : Queue := if q.stopped then Queue.empty else q

/-- End the lanes of a mask (R211). -/
def exitLanes (s : State) (f : Nat) (m : LaneMask) : State :=
  if m = 0 then s
  else
    let s1 := modFib s f fun x =>
      let y := dropEntries { x with exited := x.exited ||| m, parked := x.parked &&& ~~~ m } m
      checkRegang (endEmptyHandler y)
    if liveMask (fib s1 f) = 0 then
      settleExit (modFib (settleLate s1 f) f fun x => { x with exiting := true, queues := vmap dropStopped x.queues }) f
    else s1

end Sys2Proof.Machine
end

