-- ==== Sys2Proof/Machine/MemOps.lean ====
section
/-! DEFINITION. Memory instructions: loads, stores, atomics, reductions, the drain of the store queue, prefetch and cache
control (spec/03 R85 to R97, spec/05 R132). -/

namespace Sys2Proof.Machine

/-! ## Loads and stores (R85, R89, R90) -/

/-- The bytes of an access of a type (R85). -/
def tyBytes (t : Ty) : Nat := tyWidth t / 8

/-- The register value of a loaded value (R85). -/
def placeLoaded (t : Ty) (v : Nat) : Nat :=
  match t with
  | .s8 => wrap 32 (toSigned 8 v)
  | .s16 => wrap 32 (toSigned 16 v)
  | _ => v

/-- Write a loaded value through D. -/
def putLoaded (a : Args) (s : State) (lane : Nat) (l : List Byte) : State :=
  match a.d.opnd with
  | .reg r _ _ => dstSet s s.cur lane (tyIs64 a.ty) r (placeLoaded a.ty (ofBytes l))
  | _ => s

/-- The window register that a destination names. -/
def windowDst (o : Opnd) : Option Nat :=
  match o with
  | .reg (.x n) _ _ => some n.val
  | _ => none

/-- Words for window registers from `n` on return later than the load's issue (R136). -/
def putLate (s : State) (lane n : Nat) (ws : List Word) : State :=
  modFib s s.cur fun x => { x with late := x.late ++ (ws.zipIdx).map fun p => (lane, n + p.2, p.1) }

/-- A load whose destination is in the window: the next late point tells whether its data return at once or later (R136; log 49). -/
def execLateLoad (a : Args) (load : (State → Nat → List Byte → State) → State → Result) (put : State → Nat → List Byte → State)
    (words : List Byte → List Word) (s : State) : Result :=
  match windowDst a.d.opnd, s.latePts with
  | some n, b :: r =>
    match load (if b then fun t lane l => latchLate (putLate t lane n (words l)) lane (words l) else put) s with
    | .next t => .next (if t.stall = 0 then { t with latePts := r } else t)
    | o => o
  | _, _ => load put s
where
  /-- One 32-bit word counts for the latches (R232). -/
  latchLate (t : State) (lane : Nat) (ws : List Word) : State :=
    match a.d.opnd, ws with
    | .reg g _ _, [v] => latch t t.cur lane g v
    | _, _ => t

/-- The words of a register value of a type. -/
def valueWords (t : Ty) (v : Nat) : List Word := if tyIs64 t then [BitVec.ofNat 32 v, BitVec.ofNat 32 (v / 2 ^ 32)] else [BitVec.ofNat 32 v]

/-- LD (R89). -/
def execLd (a : Args) (s : State) : Result :=
  execLateLoad a (execLoad a (tyBytes a.ty) .single) (putLoaded a) (fun l => valueWords a.ty (placeLoaded a.ty (ofBytes l))) s

/-- ST (R89). DEDUCED (log 53): neg and abs on the data of ST.b8 follow the signed narrow variants, since the instruction has no field that
names a format. -/
def execSt (a : Args) (s : State) : Result :=
  execStore a (tyBytes a.ty) kWrite .single none (fun i => toBytes (tyBytes a.ty) (srcVal s a.ty 0 a.s1 i)) s

/-- The bytes of a block of LDX and STX (R90). -/
def blockBytes (t : Ty) : Nat := if t = .b64 then 32 else 16

/-- The words of a block of bytes. -/
def blockWords (l : List Byte) : List Word := (List.range (l.length / 4)).map fun j => BitVec.ofNat 32 (ofBytes ((l.drop (4 * j)).take 4))

/-- Write a loaded block: register j takes bytes 4j to 4j + 3 (R90). -/
def putBlock (a : Args) (s : State) (lane : Nat) (l : List Byte) : State :=
  match a.d.opnd with
  | .reg r _ _ => ((blockWords l).zipIdx).foldl (fun t p => regSet32 t t.cur lane r p.2 p.1) s
  | _ => s

/-- The bytes of a lane's block. -/
def blockData (s : State) (a : Args) (lane : Nat) : List Byte :=
  match a.s1 with
  | .reg r _ _ => (List.range (blockBytes a.ty / 4)).flatMap fun j => toBytes 4 (regGet32 s s.cur lane r j).toNat
  | _ => []

/-- LDX (R90). -/
def execLdx (a : Args) (s : State) : Result := execLateLoad a (execLoad a (blockBytes a.ty) .wide) (putBlock a) blockWords s
/-- STX (R90). -/
def execStx (a : Args) (s : State) : Result := execStore a (blockBytes a.ty) kWrite .wide none (blockData s a) s

/-! ## Atomics and reductions (R91 to R94) -/

/-- ATOM.add (R91). -/
def execAtomAdd (a : Args) (s : State) : Result := execAtomic a 0 s
/-- ATOM.min (R91). -/
def execAtomMin (a : Args) (s : State) : Result := execAtomic a 1 s
/-- ATOM.max (R91). -/
def execAtomMax (a : Args) (s : State) : Result := execAtomic a 2 s
/-- ATOM.and (R91). -/
def execAtomAnd (a : Args) (s : State) : Result := execAtomic a 3 s
/-- ATOM.or (R91). -/
def execAtomOr (a : Args) (s : State) : Result := execAtomic a 4 s
/-- ATOM.xor (R91). -/
def execAtomXor (a : Args) (s : State) : Result := execAtomic a 5 s
/-- ATOM.exch (R91). -/
def execAtomExch (a : Args) (s : State) : Result := execAtomic a 6 s
/-- ACAS (R91). -/
def execAcas (a : Args) (s : State) : Result := execAtomic a 7 s

/-- A reduction (R94): queued with its operation. -/
def execReduce (a : Args) (op : Nat) (s : State) : Result :=
  execStore a (tyBytes a.ty) kRmw (if pcieForm op a.ty then .pcie else .other) (some (op, a.ty, a.d.clamp))
    (fun i => toBytes (tyBytes a.ty) (srcVal s a.ty 0 a.s1 i)) s

/-- RED.add (R94). -/
def execRedAdd (a : Args) (s : State) : Result := execReduce a 0 s
/-- RED.min (R94). -/
def execRedMin (a : Args) (s : State) : Result := execReduce a 1 s
/-- RED.max (R94). -/
def execRedMax (a : Args) (s : State) : Result := execReduce a 2 s
/-- RED.and (R94). -/
def execRedAnd (a : Args) (s : State) : Result := execReduce a 3 s
/-- RED.or (R94). -/
def execRedOr (a : Args) (s : State) : Result := execReduce a 4 s
/-- RED.xor (R94). -/
def execRedXor (a : Args) (s : State) : Result := execReduce a 5 s

/-- The flush that the oldest entry of a fibre's queue waits for begins (R160). -/
def flushHead (s : State) (f : Nat) : State :=
  match (fib s f).sq.head?.bind entryRelease with
  | some sc => fibFlush s f sc
  | none => s

/-- STORE_QUEUE_DRAIN (R132): the oldest entry is performed; a fibre that has exited may now end (R211). -/
def execStoreQueueDrain (f : Nat) (s : State) : Result :=
  match drainOne s f with
  | some t => .next (settleExit t f)
  | none => .next (flushHead s f)

/-! ## Prefetch (R95) -/

/-- A lane's prefetch: normal memory only, dropped where a check of R87 fails or a tenure stands against it. -/
def prefetchLane (a : Args) (s : State) (lane : Nat) : State :=
  let f := s.cur
  match checkAccess s f lane a.space.toNat (effAddr s a lane) 1 1 kRead .single true with
  | .error _ => s
  | .ok ps =>
    ps.foldl (fun t p =>
      if p.mt ≠ 0 ∨ !inMem p.loc ∨ poisoned t.mem p.loc 1 ∨ walksWait t f [p] ∨ !(conflicts t (coreOf f) (p.loc / 128) false).isEmpty then t
      else touchLine (commitPieces t f kRead true [p]) (reqOf t f (if a.scope.toNat = 1 then a.ch.toNat else 3) p.leaf) p.loc false) s

/-- PREF (R95). -/
def execPref (a : Args) (s : State) : Result := .next (goOn ((accessLanes s a).foldl (prefetchLane a) s))

/-! ## Cache control (R96) -/

/-- The checks of a CCTL lane: translation in a space with read permission, no access (R96). -/
def cctlCheck (s : State) (a : Args) (space lane : Nat) : Except Flt (List Piece) :=
  locate s s.cur lane space (effAddr s a lane) 1 kRead true

/-- Act on the lines of every lane that passes its check in a space, once the fibre's queued stores to them are performed. -/
def execCctl (a : Args) (space : Nat) (act : Nat → State → State) (s : State) : Result :=
  let f := s.cur
  let cs := (accessLanes s a).map fun i => (i, cctlCheck s a space i)
  let lines := ((passed cs).flatMap (·.2)).filter fun p => inMem p.loc
  if cs.isEmpty then .next (goOn s)
  else
    let s0 := if (fib s f).sq.isEmpty then s else drainAll s f
    if (fib s0 f).sq.any (entryMeets (lines.map fun p => p.loc / 128)) || walksWait s0 f lines then hold s0
    else
      let s1 := lines.foldl (fun t p => act (p.loc / 128) (commitPieces t f kRead true [p])) s0
      .next (finishLanes s1 (failures s a cs))

/-- Write a line's dirty bytes to memory at .sys; towards the L2 the model keeps one set of dirty bytes and nothing moves. -/
def writeBack (scope line : Nat) (s : State) : State := if scope = 6 then { s with mem := cleanLine s.mem line } else s

/-- Invalidate the copies of a line at the levels a scope names: the core's L1, or every L1 (R96). -/
def dropCopies (core scope line : Nat) (s : State) : State :=
  match FMap.find s.mem.copies line with
  | some (w, cs) =>
    let left := if scope = 1 then NSet.del cs (l1Core s core line) else []
    { s with mem := { s.mem with copies := if left.isEmpty then FMap.del s.mem.copies line else FMap.put s.mem.copies line (w, left) } }
  | none => s

/-- CCTL.wb (R96). -/
def execCctlWb (a : Args) (s : State) : Result := execCctl a a.space.toNat (writeBack a.scope.toNat) s

/-- CCTL.wbi (R96). -/
def execCctlWbi (a : Args) (s : State) : Result :=
  execCctl a a.space.toNat (fun l t => dropCopies (coreOf s.cur) a.scope.toNat l (writeBack a.scope.toNat l t)) s

/-- CCTL.ivc: the whole constant cache of the core (R96). -/
def execCctlIvc (_a : Args) (s : State) : Result :=
  .next (goOn { s with mem := { s.mem with ccache := s.mem.ccache.filter fun p => constCore p.1 != coreOf s.cur } })

/-- The granule of a line is recalled and returns to untouched (R84, R96). -/
def unclassify (line : Nat) (s : State) : State :=
  let g := line / 256
  let st := recallGranule s.mem g
  { s with mem := { st with granules := SMap.set 0 st.granules g 0, dir := st.dir.filter fun p => p.1 / 64 != g } }

/-- CCTL.unclass: the address is a global VA (R96). DESIGN CHOICE (log 53): with SPACE = lane-private the base has the form that space
asks for, and its sum modulo 2^32 is then taken as the global VA. -/
def execCctlUnclass (a : Args) (s : State) : Result := execCctl a 1 unclassify s

end Sys2Proof.Machine
end

