-- ==== Sys2Proof/Machine/Order.lean ====
section
/-! DEFINITION. FENCE and WAITA with their completions (spec/05 R139 to R145). -/

namespace Sys2Proof.Machine

/-! ## FENCE (R140, R141) -/

/-- FENCE: the window writes of loads come first too (R136). -/
def execFence (a : Args) (s : State) : Result :=
  .next (fenceOrWait (drainAll (settleLate s s.cur) s.cur) s.cur s.grp a.scope.toNat (decide (a.ord.toNat = 3)) false (s.ipc + 12))

/-- FENCE_COMPLETE: everything earlier is performed and the wait ends; for .sc the fence takes its place in the .sc order. -/
def execFenceComplete (f : Nat) (s : State) : Result :=
  match findWait (fib s f) (fun k => match k with
    | .fence _ _ _ => true
    | _ => false) with
  | some w =>
    match w.kind with
    | .fence scope sc _ =>
      let s1 := drainAll s f
      if !drained s1 f then .next s1
      else if fibReady s1 f scope then .next (finishWait (noteFence (fibReleased s1 f) f scope sc) f w)
      else .next (fibFlush s1 f scope)
    | _ => .next s
  | none => .next s

/-! ## WAITA (R142 to R145) -/

/-- The value a waiting lane's word has for its fibre: the fibre's own queued stores are seen (R133, R145). -/
def monitored (s : State) (f : Nat) (p : Nat × Nat) : Word :=
  BitVec.ofNat 32 (ofBytes (forward (fib s f) p.2 p.1 (readBytes s p.2 p.1 4)))

/-- What the arming of one lane found. -/
structure Armed where
  lane : Nat
  loc  : Nat × Nat
  exp  : Word
  dl   : Option Nat
  read : Nat
  done : Option Bool

/-- The memory type of a monitored word: normal memory, or a core's own storage. -/
def monitoredType (loc : Nat) : Nat := if inMem loc then 0 else 4

/-- A lane's word is read again, as it now stands: a load like any other, which reaches the home of its line (R112, R143, R145). -/
def waitaReread (s : State) (f : Nat) (p : Nat × Nat) : List Byte × State :=
  let r := performRead (arrive s (reqOf s f 0 none) false p.2 (monitoredType p.1) p.1) f p.2 (monitoredType p.1) p.1 4 1 true
  (forward (fib r.2 f) p.2 p.1 r.1, r.2)

/-- A lane's last read, which answered a time, is an acquire's: it takes the releases of the writes it returned (R145, R148). -/
def waitaTake (s : State) (f loc t scope : Nat) : State :=
  if tracked s then (List.range 4).foldl (fun u i => (relsAt u (loc + i) t).foldl (takeRel f scope) u) s else s

/-- Every lane is done: the acquire, the results, and the lanes go on. -/
def waitaFinish (s : State) (f : Nat) (m : LaneMask) (done : List (Option Bool)) (dst : Option Nat) (acq : Bool) (pc : BitVec 64) : State :=
  let s1 := if acq then noteAcquire s f else s
  let s2 := match dst with
    | some n => (done.zipIdx).foldl (fun t p => match p.1 with
        | some b => predSet t f p.2 (.p (Fin.ofNat 7 n)) b
        | none => t) s1
    | none => s1
  setPc s2 f m pc

/-- The predicate a destination names, none where the result is discarded. -/
def predDst (o : Opnd) : Option Nat :=
  match o with
  | .reg (.p n) _ _ => some n.val
  | _ => none

/-- WAITA: compare and arm every lane; faults come first, the other lanes wait unless all are done (R142, R143). -/
def execWaita (a : Args) (s : State) : Result :=
  let f := s.cur
  let cs := laneChecks s a 4 kRead .monitor
  let ok := passed cs
  let s0 := if ok.any (fun p => loadDrains (fib s f) p.2) then drainAll s f else s
  if (ok.any fun p => mustWait s0 f false p.2) || ok.any (fun p => loadDrains (fib s0 f) p.2) then hold s0
  else
    let acq := decide (a.ord.toNat = 1)
    let r := ok.foldl (fun (acc : List Armed × State) p =>
      let s1 := p.2.foldl (fun t q => arrive t (reqOf t f a.ch.toNat q.leaf) false q.key q.mt q.loc) (commitPieces acc.2 f kRead false p.2)
      let loc := match p.2 with
        | q :: _ => (q.loc, q.key)
        | [] => (0, 0)
      let at_ := readTime s1 f loc.2 (monitoredType loc.1) loc.1 4 false
      let v := loadPieces s1 f a.space.toNat 1 false a.ch.toNat p.2
      let e : Word := BitVec.ofNat 32 (wordVal s a.s1 p.1)
      let t := pairHigh s a.s1 p.1
      let met := ofBytes v.1 != e.toNat
      (acc.1 ++ [{ lane := p.1, loc := loc, exp := e, dl := if t = 0 then none else some (s.tick + t), read := at_, done := if met then some true else none }],
       if met && acq then waitaTake v.2 f loc.1 at_ a.scope.toNat else v.2)) ([], s0)
    let fs := failures s a cs
    let m := s.grp &&& ~~~ faultMask fs
    let at_ (i : Nat) : Option Armed := r.1.find? fun w => w.lane == i
    let addr := (List.range 32).map fun i => (at_ i).map (·.loc)
    let done := (List.range 32).map fun i => (at_ i).bind (·.done)
    let s1 := raise r.2 fs
    if r.1.all fun w => w.done.isSome then
      .next (waitaFinish s1 f m done (predDst a.d.opnd) (acq && !r.1.isEmpty) (s.ipc + 12))
    else
      .next (beginWait s1 m (.waita addr ((List.range 32).map fun i => ((at_ i).map (·.exp)).getD 0) ((List.range 32).map fun i => (at_ i).bind (·.dl))
        ((List.range 32).map fun i => ((at_ i).map (·.read)).getD 0) done (predDst a.d.opnd) acq a.scope.toNat))

/-- One lane of a waiting WAITA is done with a result; with .acq its last read is an acquire's; the wait ends with the last lane (R143, R145). -/
def waitaDone (s0 : State) (f lane : Nat) (w : Wait) (b : Bool) : State :=
  match w.kind with
  | .waita addr exp dl reads done dst acq scope =>
    let s := match addr.getD lane none, acq with
      | some p, true => waitaTake s0 f p.1 (reads.getD lane 0) scope
      | _, _ => s0
    let done1 := modAt (fun _ => some b) lane done
    if (addr.zip done1).all fun p => p.1.isNone || p.2.isSome then
      waitaFinish (modFib s f fun x => dropWait x w) f w.lanes done1 dst acq w.pc
    else setWait s f w { w with kind := .waita addr exp dl reads done1 dst acq scope }
  | _ => s0

/-- A lane's last read is now. -/
def waitaRead (s : State) (lane : Nat) (w : Wait) : Wait :=
  match w.kind with
  | .waita addr exp dl reads done dst acq scope => { w with kind := .waita addr exp dl (modAt (fun _ => s.mem.clock) lane reads) done dst acq scope }
  | _ => w

/-- The wait of a fibre in WAITA. -/
def waitaOf (x : Fibre) : Option Wait :=
  findWait x fun k => match k with
    | .waita _ _ _ _ _ _ _ _ => true
    | _ => false

/-- The place and key of the word of a lane that is not done. -/
def waitaWord (lane : Nat) (w : Wait) : Option (Nat × Nat) :=
  match w.kind with
  | .waita addr _ _ _ done _ _ _ => if (done.getD lane none).isNone then addr.getD lane none else none
  | _ => none

/-- The value a lane waits to see changed. -/
def waitaExp (lane : Nat) (w : Wait) : Word :=
  match w.kind with
  | .waita _ exp _ _ _ _ _ _ => exp.getD lane 0
  | _ => 0

/-- A lane that is not done and whose word now differs from the expected value. -/
def waitaWakes (s : State) (f lane : Nat) (w : Wait) : Bool :=
  match waitaWord lane w with
  | some p => monitored s f p != waitaExp lane w
  | none => false

/-- A write to a lane's word has followed the one that its last read returned (R143). -/
def waitaStirred (s : State) (lane : Nat) (w : Wait) : Bool :=
  match w.kind, waitaWord lane w with
  | .waita _ _ _ reads _ _ _ _, some p => s.mem.hist.any fun e => decide (p.1 ≤ e.loc) && decide (e.loc < p.1 + 4) && decide (reads.getD lane 0 < e.time)
  | _, _ => false

/-- A lane that is not done and whose deadline %tick has reached. -/
def waitaExpired (s : State) (lane : Nat) (w : Wait) : Bool :=
  match w.kind with
  | .waita addr _ dl _ done _ _ _ =>
    (addr.getD lane none).isSome && (done.getD lane none).isNone
      && (match dl.getD lane none with
          | some t => decide (t ≤ s.tick)
          | none => false)
  | _ => false

/-- WAITA_WAKE: a woken lane re-reads its word, waiting for a tenure that cannot be taken back yet, and is done where it differs from the
expected value (R117, R143). -/
def execWaitaWake (f lane : Nat) (s : State) : Result :=
  match waitaOf (fib s f) with
  | some w =>
    match waitaWord lane w with
    | some p =>
      if !(waitaWakes s f lane w || waitaStirred s lane w) || (inMem p.1 && recallWaits s (some f) (coreOf f) (p.1 / 128) false) then .next s
      else
        let r := waitaReread s f p
        let w1 := waitaRead r.2 lane w
        let s1 := setWait r.2 f w w1
        .next (if BitVec.ofNat 32 (ofBytes r.1) = waitaExp lane w then s1 else waitaDone s1 f lane w1 true)
    | none => .next s
  | none => .next s

/-- WAITA_TIMEOUT: %tick has reached the lane's deadline (R143). -/
def execWaitaTimeout (f lane : Nat) (s : State) : Result :=
  match waitaOf (fib s f) with
  | some w => .next (if waitaExpired s lane w then waitaDone s f lane w false else s)
  | none => .next s

end Sys2Proof.Machine
end

