-- ==== Sys2Proof/Machine/Tiles.lean ====
section
/-! DEFINITION. Tile instructions: TOPEN, TACQ, TREL, TSPLIT, TMERGE, TCLOSE, TQUERY, and the events of tenure (spec/04). -/

namespace Sys2Proof.Machine

/-! ## The tile descriptor (R103 to R105) -/

/-- Bits of a descriptor. -/
def descBits (d : BitVec 512) (lo len : Nat) : Nat := bits d.toNat lo len
/-- BASE. -/
def tileBase (d : BitVec 512) : Nat := descBits d 0 64
/-- EXT of a dimension. -/
def tileExt (d : BitVec 512) (k : Nat) : Nat := descBits d (64 + 32 * k) 32
/-- STR of a dimension. -/
def tileStr (d : BitVec 512) (k : Nat) : Nat := descBits d (192 + 32 * k) 32
/-- NDIM. -/
def tileDims (d : BitVec 512) : Nat := descBits d 320 3
/-- The element size in bytes. -/
def tileEsz (d : BitVec 512) : Nat := 2 ^ descBits d 324 2
/-- ETY. -/
def tileEty (d : BitVec 512) : Ty := tyOf (descBits d 328 4)

/-- A descriptor is invalid (R104). -/
def tileInvalid (d : BitVec 512) : Bool :=
  let n := tileDims d
  let ety := descBits d 328 4
  descBits d 323 1 != 0 || descBits d 326 2 != 0 || descBits d 336 48 != 0 || descBits d 448 64 != 0
    || n == 0 || decide (4 < n) || decide (2 ^ 24 < tileExt d 0)
    || (List.range 4).any (fun k => if k < n then tileExt d k == 0 || tileStr d k == 0 else tileExt d k != 0 || tileStr d k != 0)
    || ety == 15 || tileEsz d * 8 != tyWidth (tileEty d)
    || (ety != 13 && (descBits d 332 3 != 0 || descBits d 335 1 != 0)) || (ety == 13 && descBits d 332 3 == 0)
    || !canonical (tileBase d) || tileBase d % tileEsz d != 0

/-- L(T) is exact (R105). -/
def tileExact (d : BitVec 512) : Bool :=
  tileStr d 0 == 1 && (List.range (tileDims d)).all fun k => k == 0 || decide (tileStr d (k - 1) * tileExt d (k - 1) ≤ tileStr d k)

/-- The address of the tile's highest byte, less BASE. -/
def tileSpan (d : BitVec 512) : Nat :=
  tileEsz d * (List.range (tileDims d)).foldl (fun n k => n + (tileExt d k - 1) * tileStr d k) 0 + tileEsz d - 1

/-- The number of elements. -/
def tileCount (d : BitVec 512) : Nat := (List.range (tileDims d)).foldl (fun n k => n * tileExt d k) 1

/-- Append a run of lines, dropping one that the list just ended with; the list is kept newest first. -/
def addLines (acc : List Nat) (lo hi : Nat) : List Nat :=
  (List.range (hi + 1 - lo)).foldl (fun l i => match l with
    | x :: _ => if x = lo + i then l else (lo + i) :: l
    | [] => [lo + i]) acc

/-- The lines of an exact tile, one row of dimension 0 after another. -/
def exactLines (d : BitVec 512) : List Nat :=
  let ext (k : Nat) := if k < tileDims d then tileExt d k else 1
  let row := ext 0 * tileEsz d
  ((List.range (ext 3)).foldl (fun a3 i3 => (List.range (ext 2)).foldl (fun a2 i2 => (List.range (ext 1)).foldl (fun a1 i1 =>
    let lo := tileBase d + tileEsz d * (i1 * tileStr d 1 + i2 * tileStr d 2 + i3 * tileStr d 3)
    addLines a1 (lo / 128) ((lo + row - 1) / 128)) a2) a3) []).reverse

/-- Too large for tenure by its span or its plain count, before L(T) is formed. -/
def tileHuge (d : BitVec 512) : Bool :=
  decide (2 ^ 40 ≤ tileSpan d)
    || (if tileExact d then decide (2 ^ 25 < tileCount d * tileEsz d)
        else decide (262144 < (tileBase d + tileSpan d) / 128 + 1 - tileBase d / 128))

/-- L(T) as line numbers of virtual addresses (R105). -/
def tileLines (d : BitVec 512) : List Nat :=
  if tileExact d then exactLines d
  else (List.range ((tileBase d + tileSpan d) / 128 + 1 - tileBase d / 128)).map fun i => tileBase d / 128 + i

/-- A tile is too large for tenure (R105). -/
def tooLarge (d : BitVec 512) : Bool := tileHuge d || decide (262144 < (tileLines d).length)

/-! ## Home entries -/

/-- A new open entry (R119). -/
def newHome (part kind : Nat) (d : BitVec 512) : Home :=
  { kind := kind, part := part, held := 0, exact := tileExact d, pinned := false, parent := 65536, child0 := 0, child1 := 0, axis := 0,
    at_ := 0, desc := d, holders := [] }

/-- The home entry of a live handle. -/
def homeOf (s : State) (h : Nat) : Option Home := if handleLive s h then FMap.find s.homes (homeOfHandle h) else none

/-- Write one value to the s register a field names. -/
def setUniform (s : State) (o : Opnd) (v : Nat) : State :=
  match o with
  | .reg r _ _ => regSet s s.cur 0 false r v
  | _ => s

/-- Write a predicate of every lane of the issue group. -/
def setPredAll (s : State) (o : Opnd) (b : Bool) : State := writePred s s.grp o fun _ => b

/-- A scalar operand of an instruction that executes once per issue. -/
def scalar (s : State) (o : Opnd) : Nat := wordVal s o (lane0 s)

/-! ## TOPEN (R119) -/

/-- TOPEN. -/
def execTopen (a : Args) (s : State) : Result :=
  let f := s.cur
  let addr := effAddr s a (lane0 s)
  match checkAccess s f (lane0 s) a.space.toNat addr 64 64 kRead .wide false with
  | .error e => .next (trapAll s e)
  | .ok ps =>
    if mustWait s f false ps ∨ loadDrains (fib s f) ps then hold (drainAll s f)
    else
      let r := loadPieces (commitPieces s f kRead false ps) f a.space.toNat 1 false 0 ps
      let d : BitVec 512 := BitVec.ofNat 512 (ofBytes r.1)
      let s1 := r.2
      if tileInvalid d then .next (trapAll s1 { cause := cRESERVED, addr := addr, info := 0 })
      else
        match globalPiece s1 (fibCtx s1 f) (tileBase d) 1 kRead true with
        | .error e => .next (trapAll s1 e)
        | .ok p =>
          if walksWait s1 f [p] then hold s
          else
          let s2 := commitPieces s1 f kRead true [p]
          let free := if tooLarge d || isDevice p.loc then none else freeEntry s2 (homeDie p.loc) (homeSlice p.loc)
          match free with
          | some n =>
            let s3 := { s2 with homes := FMap.put s2.homes n (newHome (fib s2 f).part 0 d) }
            .next (goOn (setUniform s3 a.d.opnd (handleOf s3 n)))
          | none => .next (goOn (setUniform s2 a.d.opnd 0))

/-! ## Tenure (R110 to R118) -/

/-- Translate L(T) for a fibre (R113): the lines with their places, the first failure, or a line that is not of normal memory. -/
structure TileMap where
  lines  : FMap Nat
  fault  : Option Flt
  normal : Bool

/-- The translation of L(T) with the permission a mode asks for; a check, no access. -/
def mapTile (s : State) (c : Ctx) (d : BitVec 512) (wr : Bool) : TileMap :=
  (tileLines d).foldl (fun (m : TileMap) l =>
    match globalPiece s c (l * 128 % 2 ^ 64) 1 (if wr then kRmw else kRead) true with
    | .ok p => { m with lines := m.lines ++ [(l, p.loc / 128)], normal := m.normal && p.mt == 0 }
    | .error e => { m with fault := match m.fault with
        | some g => some g
        | none => some e }) { lines := [], fault := none, normal := true }

/-- Mark the lines of a handle (R113) for the mode its holders have. -/
def markLines (s : State) (h : Nat) (lines : FMap Nat) (wr : Bool) : State :=
  let put (m : FMap (List (Nat × Bool))) (l : Nat) := FMap.put m l ((h, wr) :: (((FMap.find m l).getD []).filter fun p => p.1 != h))
  { s with mem := { s.mem with held := lines.foldl (fun m p => put m p.2) s.mem.held } }

/-- The live tenures other than a fibre's own on the same handle that conflict with a request on lines (R112). -/
def tenureConflicts (s : State) (f h : Nat) (lines : FMap Nat) (wr : Bool) : List (Nat × Nat) :=
  let hs := (lines.flatMap fun p => ((FMap.find s.mem.held p.2).getD []).map (·.1)).eraseDups
  (hs.flatMap (holdersOf s)).filter fun p =>
    match holderAt s p.1 p.2 with
    | some x => (x.wr || wr) && !(x.handle == h && holderFib p.1 x == f)
    | none => false

/-- A tenure that a request may recall now: unpinned, or the requester's own, and held for 1,024 clk (R114, R117). -/
def recallable (s : State) (f : Nat) (p : Nat × Nat) : Bool :=
  match holderAt s p.1 p.2 with
  | some x => (holderFib p.1 x == f || !x.pin) && decide (x.granted + 1024 ≤ s.tick)
  | none => true

/-- The entry R111 gives a new holder, some entries apart: a free one, the revoked one released longest ago, the unpinned live one granted
longest ago. -/
def pickEntry (s : State) (core : Nat) (keep : List Nat) : Option Nat :=
  let t := holderTable s core
  let t1 := t.filter fun p => !keep.contains p.1
  match (List.range 128).find? fun i => (FMap.find t i).isNone && !keep.contains i with
  | some i => some i
  | none =>
    match oldestSlot ((t1.filter fun p => p.2.rvk).map fun p => (p.1, p.2.freed)) with
    | some i => some i
    | none => oldestSlot ((t1.filter fun p => !p.2.rvk && !p.2.pin).map fun p => (p.1, p.2.granted))

/-- Take that entry, surrendering what it held (R111). -/
def takeEntry (s : State) (core : Nat) (keep : List Nat) : Option (Nat × State) :=
  (pickEntry s core keep).map fun i => (i, setHolder (surrenderHolder s core i) core i none)

/-- Link a holder at the head of a handle's list (R110) and mark its lines. -/
def linkHolder (s : State) (core e : Nat) (x : Holder) : State :=
  let n := homeOfHandle x.handle
  let s1 := modHome (setHolder s core e (some x)) n fun y => { y with holders := (core, e) :: y.holders }
  refreshHome (markLines s1 x.handle x.lines x.wr) n

/-- TACQ is declined (R118). -/
def tacqDeclined (s : State) (f h : Nat) (m : TileMap) : Bool :=
  match homeOf s h with
  | none => true
  | some y =>
    y.kind == 1 || tooLarge y.desc || !m.normal
      || ((myHolder s f h).isNone && (pickEntry s (coreOf f) []).isNone)

/-- The request of TACQ for a fibre: a handle and its mode. -/
structure TileReq where
  h   : Nat
  wr  : Bool
  pin : Bool
  deriving DecidableEq, Repr

/-- The pinned deadline a grant sets, where pinning is asked for and granted (R117, R120). -/
def pinEntry (s : State) (f : Nat) (q : TileReq) (x : Holder) : Holder :=
  let lim := (fib s f).tenmax.toNat % 2 ^ 32
  if q.pin ∧ lim ≠ 0 then { x with pin := true, dl := (s.tick + 256 * lim) % 2 ^ 42 } else x

/-- A live write tenure that becomes a read tenure: what was written under it appears at once where it has been continuous (R115, R120). -/
def downgrade (s : State) (x : Holder) (wr : Bool) : State := if x.wr && !wr && x.cont then collapse s x.since (x.lines.map (·.2)) else s

/-- Grant a request whose conflicts are gone: upgrade or downgrade in place, or a new entry at the head (R120). -/
def grantTile (s : State) (f : Nat) (q : TileReq) (lines : FMap Nat) : State :=
  let core := coreOf f
  match myHolder s f q.h with
  | some (i, x) =>
    if x.rvk then
      linkHolder (setHolder s core i none) core i
        (pinEntry s f q { wr := q.wr, pin := false, cont := false, rvk := false, brk := false, handle := q.h, fib := f % 256,
                          dl := 0, granted := s.tick, since := s.mem.clock, freed := 0, lines := lines })
    else
      let t := downgrade s x q.wr
      refreshHome (markLines (setHolder t core i (some (pinEntry t f q { x with wr := q.wr, since := t.mem.clock, lines := lines }))) q.h lines q.wr)
        (homeOfHandle q.h)
  | none =>
    match takeEntry s core [] with
    | some (i, t) =>
      linkHolder t core i
        (pinEntry t f q { wr := q.wr, pin := false, cont := true, rvk := false, brk := false, handle := q.h, fib := f % 256,
                          dl := 0, granted := t.tick, since := t.mem.clock, freed := 0, lines := lines })
    | none => s

/-- The acquire at .pkg of TACQ and TMERGE on some lines: it synchronises with the releases of the holders whose tenure conflicted (R120,
R123). -/
def tileAcquire (s : State) (f : Nat) (wr : Bool) (lines : List Nat) : State :=
  (s.mem.tileRels.filter fun r => (r.1 || wr) && r.2.1.any fun l => lines.contains l).foldl (fun t r => joinView t f r.2.2) (acquireFence s f 4)

/-- The end of TACQ: its acquire at .pkg and its result in the lanes of a mask (R120). -/
def endTacq (s : State) (f h : Nat) (m : LaneMask) (dst : Option Nat) (granted : Bool) : State :=
  let s1 := match granted, myHolder s f h with
    | true, some (_, x) => tileAcquire s f x.wr (x.lines.map (·.2))
    | _, _ => acquireFence s f 4
  match dst with
  | some n => (lanesOf m).foldl (fun t i => predSet t f i (.p (Fin.ofNat 7 n)) granted) s1
  | none => s1

/-- What a request comes to now. -/
inductive TacqNow where
  | fault (e : Flt)
  | done (granted : Bool) (s : State)
  | wait

/-- Try a request: declined, already held, granted, faulting, or waiting for conflicts (R113 to R120). -/
def tryTacq (s : State) (f : Nat) (q : TileReq) (turn : Bool) : TacqNow :=
  match homeOf s q.h with
  | none => .done false s
  | some y =>
    if y.kind == 1 || tooLarge y.desc then .done false s
    else
      let m := mapTile s (fibCtx s f) y.desc q.wr
      if tacqDeclined s f q.h m then .done false s
      else if (match myHolder s f q.h with
        | some (_, x) => liveHolder x && x.wr == q.wr
        | none => false) then .done true s
      else
        match m.fault with
        | some e => .fault e
        | none =>
          let walked (t : State) (p : Nat × Nat) : List Piece := match globalPiece t (fibCtx t f) (p.1 * 128 % 2 ^ 64) 1 (if q.wr then kRmw else kRead) true with
            | .ok g => [g]
            | .error _ => []
          if turn && (tenureConflicts s f q.h m.lines q.wr).isEmpty && !(m.lines.any fun p => walksWait s f (walked s p)) then
            .done true (grantTile (m.lines.foldl (fun t p => commitPieces t f (if q.wr then kRmw else kRead) true (walked t p)) s) f q m.lines)
          else .wait

/-- The waiting request of a fibre. -/
def tacqWait (s : State) (f : Nat) : Option (Wait × TileReq × Option Nat) :=
  (fib s f).waits.findSome? fun w => match w.kind with
    | .tacq h wr pin dst => some (w, { h := h, wr := wr, pin := pin }, dst)
    | _ => none

/-- The number of an engine queue in the order of arrival. -/
def queueWho (f q : Nat) : Nat := 2 ^ 20 + 4 * f + q

/-- The fibre a request acts for. -/
def whoFib (who : Nat) : Nat := if who < 2 ^ 20 then who else (who - 2 ^ 20) / 4

/-- The context in which a request translates: its fibre's, or what the entry of its queue froze (R67). -/
def whoCtx (s : State) (who : Nat) : Ctx :=
  let x := fib s (whoFib who)
  match (if who < 2 ^ 20 then none else (x.queues.toList[who % 4]?).bind fun q => q.entries.head?) with
  | some e => { part := x.part, root := e.root, klvl := e.klvl, core := coreOf (whoFib who), keys := x.keys }
  | none => fibCtx s (whoFib who)

/-- A fibre's requests and those of its queues are withdrawn (R116, R120). -/
def withdrawRequests (s : State) (f : Nat) : State := { s with tacqs := s.tacqs.filter fun w => whoFib w.who != f }

/-- A request still waits: its fibre waits in TACQ, or its queue has an entry and has not stopped. -/
def tileWaits (s : State) (w : TileWait) : Bool :=
  if w.who < 2 ^ 20 then (tacqWait s w.who).isSome
  else hasFib s (whoFib w.who) && match (fib s (whoFib w.who)).queues.toList[w.who % 4]? with
    | some q => !q.entries.isEmpty && !q.stopped
    | none => false

/-- A request is the oldest that waits at its home entry, or none waits there before it (R116, R120). -/
def tileTurn (s : State) (who h : Nat) : Bool :=
  match s.tacqs.find? fun w => w.h == h && tileWaits s w with
  | some w => w.who == who
  | none => true

/-- TACQ (R120). -/
def execTacq (a : Args) (s : State) : Result :=
  let f := s.cur
  let h := scalar s a.s0
  let ctl := scalar s a.s1
  match checkHandle s (fib s f).part h with
  | some e => .next (trapAll s e)
  | none =>
    if ctl / 4 ≠ 0 then .next (trapOpen s cRESERVED none none)
    else
      let q : TileReq := { h := h, wr := ctl.testBit 0, pin := ctl.testBit 1 }
      match tryTacq s f q (tileTurn s f h) with
      | .fault e => .next (trapAll s e)
      | .done b t => .next (goOn (endTacq t f h s.grp (predDst a.d.opnd) b))
      | .wait =>
        let s1 := addWait s f { lanes := s.grp, kind := .tacq h q.wr q.pin (predDst a.d.opnd), pc := s.ipc + 12, since := s.tick }
        .next { s1 with tacqs := s1.tacqs ++ [{ who := f, h := h, wr := q.wr }] }

/-- The executing instruction of a waiting group, for what it raises when its wait ends. -/
def asIssue (s : State) (f : Nat) (w : Wait) : State := { s with cur := f, grp := w.lanes, ipc := w.pc - 12 }

/-- A waiting TACQ ends: the wait goes, the lanes go on with the result. -/
def finishTacq (s : State) (f h : Nat) (w : Wait) (dst : Option Nat) (b : Bool) : State :=
  let s1 := finishWait s f w
  endTacq { s1 with tacqs := s1.tacqs.filter fun g => g.who != f } f h w.lanes dst b

/-- TACQ_GRANT (R120): the oldest request is granted once nothing conflicts; it may also be declined or fault now. -/
def execTacqGrant (f : Nat) (s : State) : Result :=
  match tacqWait s f with
  | none => .next { s with tacqs := s.tacqs.filter fun g => g.who != f }
  | some (w, q, dst) =>
    match tryTacq s f q (tileTurn s f q.h) with
    | .fault e =>
      let s1 := modFib s f fun x => dropWait x w
      .next (trapAll (asIssue { s1 with tacqs := s1.tacqs.filter fun g => g.who != f } f w) e)
    | .done b t => .next (finishTacq t f q.h w dst b)
    | .wait => .next s

/-- A holder has received a recall: some waiting request conflicts with it and may recall it now (R114). -/
def recallDue (s : State) (core e : Nat) : Bool :=
  s.tacqs.any fun w =>
    let f := whoFib w.who
    match homeOf s w.h with
    | some y =>
      tileWaits s w && tileTurn s w.who w.h && recallable s f (core, e)
        && (tenureConflicts s f w.h (mapTile s (whoCtx s w.who) y.desc w.wr).lines w.wr).contains (core, e)
    | none => false

/-- HOLDER_SURRENDER (R114). A recall by an ordinary access is served within that access. -/
def execHolderSurrender (core entry : Nat) (s : State) : Result := .next (if recallDue s core entry then surrenderHolder s core entry else s)

/-- A pinned tenure's deadline is reached, compared modulo 2^42 (R109, R117). -/
def deadlineDue (s : State) (core e : Nat) : Bool :=
  match holderAt s core e with
  | some x => x.pin && liveHolder x && decide ((s.tick + 2 ^ 42 - x.dl) % 2 ^ 42 < 2 ^ 41)
  | none => false

/-- PINNED_DEADLINE (R117). -/
def execPinnedDeadline (core entry : Nat) (s : State) : Result := .next (if deadlineDue s core entry then breakHolder s core entry none else s)

/-! ## TREL (R121) -/

/-- TREL: the earlier accesses are performed first; a continuous write tenure's writes appear at once (R115). -/
def execTrel (a : Args) (s : State) : Result :=
  let f := s.cur
  let h := scalar s a.s0
  match checkHandle s (fib s f).part h with
  | some e => .next (trapAll s e)
  | none =>
    let s0 := drainAll s f
    if !drained s0 f then hold s0
    else
      match myHolder s0 f h with
      | some (i, x) =>
        let cont := x.cont && !x.brk && h != 0
        let s1 := if cont && x.wr then collapse s0 x.since (x.lines.map (·.2)) else s0
        .next (goOn (setPredAll (releaseFence (freeHolder s1 (coreOf f) i) f 4) a.d.opnd cont))
      | none => .next (goOn (setPredAll (releaseFence s0 f 4) a.d.opnd (h == 0)))

/-! ## TSPLIT (R122) -/

/-- Replace bits of a descriptor. -/
def descSet (d : BitVec 512) (lo len v : Nat) : BitVec 512 := BitVec.ofNat 512 (setBits d.toNat lo len v)

/-- The descriptors of the two children. -/
def childDescs (d : BitVec 512) (axis pos : Nat) : BitVec 512 × BitVec 512 :=
  (descSet d (64 + 32 * axis) 32 pos,
   descSet (descSet d 0 64 (tileBase d + tileEsz d * pos * tileStr d axis)) (64 + 32 * axis) 32 (tileExt d axis - pos))

/-- A child held in the parent's mode, with its CONT and PIN and with the parent's lines that are its own. -/
def childHolder (p : Holder) (h : Nat) (d : BitVec 512) : Holder :=
  let ls := tileLines d
  { p with rvk := false, handle := h, lines := p.lines.filter fun l => ls.contains l.1 }

/-- Write both results of TSPLIT. -/
def endTsplit (s : State) (a : Args) (h0 h1 : Nat) : State := setUniform (setUniform s a.d.opnd h0) a.s3 h1

/-- R111 could free two entries of a core beside the one kept. -/
def twoEntries (s : State) (core keep : Nat) : Bool :=
  let t := holderTable s core
  decide (2 ≤ (128 - t.length) + (t.filter fun p => p.1 != keep && (p.2.rvk || !p.2.pin)).length)

/-- Divide a parent that its fibre holds live: the other holders are recalled, two entries are freed, and the children take what the parent's
own entry then says (R111, R122). -/
def splitTile (s : State) (a : Args) (h n : Nat) (y : Home) (i : Nat) (x : Holder) (axis pos : Nat) : State :=
  let f := s.cur
  let core := coreOf f
  let die := n / 16384
  let slice := n / 512 % 32
  let ds := childDescs y.desc axis pos
  let kid (d : BitVec 512) : Home := { newHome y.part 2 d with parent := n }
  match freeEntry s die slice, twoEntries s core i with
  | some n0, true =>
    let s1 := { s with homes := FMap.put s.homes n0 (kid ds.1) }
    match freeEntry s1 die slice with
    | some n1 =>
      let s2 := { s1 with homes := FMap.put s1.homes n1 (kid ds.2) }
      let s3 := ((holdersOf s2 h).filter fun p => p != (core, i)).foldl (fun t p => breakHolder t p.1 p.2 (some f)) s2
      match (takeEntry s3 core [i]).bind fun p => (takeEntry p.2 core [i, p.1]).map fun q => (p.1, q) with
      | some (i0, i1, s4) =>
        let own := (holderAt s4 core i).getD x
        let s5 := modHome s4 n fun z => { z with kind := 1, axis := axis, at_ := pos, child0 := n0, child1 := n1, holders := [], held := 0, pinned := false }
        let s6 := setHolder (unmark s5 h) core i none
        let s7 := linkHolder s6 core i0 (childHolder own (handleOf s6 n0) ds.1)
        endTsplit (linkHolder s7 core i1 (childHolder own (handleOf s7 n1) ds.2)) a (handleOf s7 n0) (handleOf s7 n1)
      | none => endTsplit s a 0 0
    | none => endTsplit s a 0 0
  | _, _ => endTsplit s a 0 0

/-- TSPLIT. -/
def execTsplit (a : Args) (s : State) : Result :=
  let f := s.cur
  let h := scalar s a.s0
  let ctl := scalar s a.s1
  match checkHandle s (fib s f).part h with
  | some e => .next (trapAll s e)
  | none =>
    if ctl / 2 ^ 26 ≠ 0 then .next (trapOpen s cRESERVED none none)
    else
      match homeOf s h, myHolder s f h with
      | some y, some (i, x) =>
        if !liveHolder x || y.kind == 1 then .next (goOn (endTsplit s a 0 0))
        else
          let axis := ctl % 4
          let pos := bits ctl 2 24
          if tileDims y.desc ≤ axis ∨ pos = 0 ∨ tileExt y.desc axis ≤ pos then
            .next (trapOpen s cRESERVED none (some ctl))
          else .next (goOn (splitTile s a h (homeOfHandle h) y i x axis pos))
      | _, _ => .next (goOn (endTsplit s a 0 0))

/-! ## Closing (R123, R124) -/

/-- The children of a container that are still its own. -/
def childrenOf (s : State) (n : Nat) : List Nat :=
  match FMap.find s.homes n with
  | some y =>
    if y.kind = 1 then [y.child0, y.child1].filter fun c => match FMap.find s.homes c with
      | some z => z.parent == n && y.part == z.part
      | none => false
    else []
  | none => []

/-- A home entry with its descendants, itself last. -/
def tileTree (s : State) : Nat → Nat → List Nat
  | 0, n => [n]
  | k + 1, n => (childrenOf s n).flatMap (tileTree s k) ++ [n]

/-- A waiting TACQ on a closed handle is declined (R120, R124). -/
def declineWaiters (s : State) (h : Nat) : State :=
  let t := s.tacqs.foldl (fun t g => match tacqWait t g.who with
    | some (w, q, dst) => if q.h = h then finishTacq t g.who h w dst false else t
    | none => t) s
  { t with tacqs := t.tacqs.filter fun g => g.h != h }

/-- Close one handle: every tenure goes, the marks, the entry (R124). -/
def closeHome (f : Nat) (s : State) (n : Nat) : State :=
  let h := handleOf s n
  let s1 := (holdersOf s h).foldl (fun t p => breakHolder t p.1 p.2 (some f)) s
  declineWaiters (freeHome (unmark s1 h) n) h

/-- TCLOSE: a release at .pkg. -/
def execTclose (a : Args) (s : State) : Result :=
  let f := s.cur
  let h := scalar s a.s0
  match checkHandle s (fib s f).part h with
  | some e => .next (trapAll s e)
  | none =>
    let s0 := drainAll s f
    if !drained s0 f then hold s0
    else
      let s1 := releaseFence s0 f 4
      .next (goOn (if h = 0 then s1 else (tileTree s1 48 (homeOfHandle h)).foldl (closeHome f) s1))

/-- The live entries that a fibre holds on some home entries. -/
def heldOn (s : State) (f : Nat) (kids : List Nat) : List (Nat × Holder) :=
  kids.filterMap fun c => (myHolder s f (handleOf s c)).filter fun p => liveHolder p.2

/-- Recall some holders at once, a fibre's own entries on some handles apart (R123). -/
def breakOthers (f : Nat) (own : List Nat) (s : State) (ps : List (Nat × Nat)) : State :=
  ps.foldl (fun t p => match holderAt t p.1 p.2 with
    | some x => if holderFib p.1 x = f ∧ own.contains x.handle then t else breakHolder t p.1 p.2 (some f)
    | none => t) s

/-- What precedes the closing of the children: the other holders of the children and of their descendants are recalled, then the tenures on
other handles that conflict with the parent's lines, and the fibre's core performs the accesses to its children that it has issued (R114,
R123). DESIGN CHOICE (log 34): those other tenures are broken at once too, pinned ones with TENURE_BROKEN, without the 1,024 clk hold. -/
def mergeRecalls (s : State) (f h : Nat) (y : Home) (kids : List Nat) : State :=
  let own := kids.map (handleOf s)
  let s1 := breakOthers f own s (kids.flatMap fun c => (tileTree s 48 c).flatMap fun k => holdersOf s (handleOf s k))
  let mine := heldOn s1 f kids
  let m := mapTile s1 (fibCtx s1 f) y.desc (mine.any fun p => p.2.wr)
  let s2 := if mine.isEmpty || m.fault.isSome || !m.normal || tooLarge y.desc then s1
    else breakOthers f own s1 (tenureConflicts s1 f h m.lines (mine.any fun p => p.2.wr))
  drainTile s2 (coreOf f) ((heldOn s2 f kids).flatMap fun p => p.2.lines.map (·.2))

/-- TMERGE: the children are closed and the parent is open again; the fibre's tenure on it, and CONT (R123). DEDUCED (log 34): where the
parent's lines no longer translate the fibre gains no tenure and no fault is raised, and the tenure it gains is not pinned. -/
def execTmerge (a : Args) (s : State) : Result :=
  let f := s.cur
  let core := coreOf f
  let h := scalar s a.s0
  match checkHandle s (fib s f).part h with
  | some e => .next (trapAll s e)
  | none =>
    match homeOf s h with
    | some y =>
      if y.kind ≠ 1 then .next (goOn (setPredAll (acquireFence s f 4) a.d.opnd false))
      else
        let n := homeOfHandle h
        let kids := childrenOf s n
        let s0 := mergeRecalls s f h y kids
        let mine := heldOn s0 f kids
        let s1 := kids.foldl (fun t c => (tileTree t 48 c).foldl (closeHome f) t) s0
        let s2 := mine.foldl (fun t p => setHolder t core p.1 none) s1
        let s3 := modHome s2 n fun z => { z with kind := 0, child0 := 0, child1 := 0, axis := 0, at_ := 0 }
        let wr := mine.any fun p => p.2.wr
        let cont := decide (mine.length = 2) && mine.all fun p => p.2.cont && !p.2.brk
        let m := mapTile s3 (fibCtx s3 f) y.desc wr
        if mine.isEmpty || m.fault.isSome || tacqDeclined s3 f h m then .next (goOn (setPredAll (tileAcquire s3 f true (m.lines.map (·.2))) a.d.opnd false))
        else
          let s4 := grantTile s3 f { h := h, wr := wr, pin := false } m.lines
          let s5 := match myHolder s4 f h with
            | some (i, x) => setHolder s4 core i (some { x with cont := cont, since := mine.foldl (fun t p => min t p.2.since) x.since })
            | none => s4
          .next (goOn (setPredAll (tileAcquire s5 f true (m.lines.map (·.2))) a.d.opnd cont))
    | none => .next (goOn (setPredAll (acquireFence s f 4) a.d.opnd false))

/-! ## TQUERY (R125) -/

/-- The status word of a live handle for a fibre. -/
def tqueryWord (s : State) (f h : Nat) (y : Home) : Nat :=
  let mine := (myHolder s f h).map (·.2)
  let live := mine.filter liveHolder
  let b (p : Bool) (k : Nat) : Nat := if p then 2 ^ k else 0
  1 + 2 * y.kind + (match live with
    | some x => if x.wr then 16 else 8
    | none => 0)
    + b ((mine.map (·.cont)).getD false) 5 + b ((live.map (·.pin)).getD false) 6 + b ((mine.map (·.rvk)).getD false) 7
    + b y.exact 8 + b (y.holders.any fun p => ((holderAt s p.1 p.2).map (·.wr)).getD false) 9 + 1024 * (y.holders.length % 65536)

/-- TQUERY. -/
def execTquery (a : Args) (s : State) : Result :=
  let f := s.cur
  let h := scalar s a.s0
  match homeOf s h with
  | none => .next (goOn (setUniform s a.d.opnd 0))
  | some y =>
    if y.part ≠ (fib s f).part then .next (trapAll s { cause := cFOREIGN, addr := 0, info := h })
    else .next (goOn (setUniform s a.d.opnd (tqueryWord s f h y)))

end Sys2Proof.Machine
end

