-- ==== Sys2Proof/Machine/BarObj.lean ====
section
/-! DEFINITION. Barrier-object instructions and the wake of a waiter (spec/07 R173 to R177, R186). -/

namespace Sys2Proof.Machine

/-- The checks of an object's address (R186, R428): the location, or the failure. -/
def objCheck (s : State) (f lane space addr kind : Nat) : Except Flt Nat :=
  let x := fib s f
  let w := wgOf s f
  if addr % 16 ≠ 0 then .error (alignFault addr kind 4 false)
  else
    let own (sp q : Nat) : Except Flt Nat :=
      match locateIn s f lane sp addr q 16 kind false with
      | .ok (p :: _) => .ok p.loc
      | .ok [] => .error (windowFault addr kind)
      | .error e => .error e
    if space ≠ 0 then own space addr
    else
      let g := genericSpace x w addr
      match g.1 with
      | 2 => own 2 g.2
      | 3 => if g.2 + 16 ≤ 4 * bits x.lpl.toNat 2 23 then .error (alignFault addr kind 4 true) else .error (windowFault addr kind)
      | 1 => if canonical addr then .error (alignFault addr kind 4 true) else .error (windowFault addr kind)
      | _ => .error (windowFault addr kind)

/-- What the executing instruction's object holds, once its fibre's queued stores are performed (R134): the state, the
location and the 128 bits; a failure traps, and a res bit is BAR_ENCODING unless the instruction only writes (R176). -/
def withObj (a : Args) (kind : Nat) (encoded : Bool) (act : State → Nat → Nat → Nat → Result) (s : State) : Result :=
  let f := s.cur
  let addr := effAddr s a (lane0 s)
  match objCheck s f (lane0 s) a.space.toNat addr kind with
  | .error e => .next (trapAll s e)
  | .ok loc =>
    if kind ≠ kWrite ∧ poisoned s.mem loc 16 then .next (trapAll s { cause := cECC, addr := addr, info := poisonSource s.mem loc 16 })
    else
      let s0 := drainAll s f
      let rel := decide (a.ord.toNat = 1) && kind != kRead
      if !drained s0 f then hold s0
      else if rel && !fibReady s0 f a.scope.toNat then retry s0 a.scope.toNat
      else
        let s1 := nameObj (if rel then fibReleased s0 f else s0) (coreOf f) loc
        let v := objBits s1 loc
        match (if encoded then objRes v else none) with
        | some w => .next (trapAll s1 { cause := cBARENC, addr := addr, info := w })
        | none => act s1 addr loc v

/-- The release scope of an ORD field. -/
def relOf (a : Args) : Option Nat := if a.ord.toNat = 1 then some a.scope.toNat else none

/-- The acquire and the order of a contribution by a fibre: a read-modify-write of the whole object (R173). -/
def contribute (s : State) (f loc v : Nat) (rel : Option Nat) : State :=
  performWrite s (.fibre f) (coreOf f) 0 4 loc (toBytes 16 v) true rel

/-- BARINIT: an ordinary store of the whole object (R186). -/
def execBarinit (a : Args) (s : State) : Result :=
  let n := srcVal s .n32 0 a.s1 (lane0 s)
  if 65535 < n then
    match objCheck s s.cur (lane0 s) a.space.toNat (effAddr s a (lane0 s)) kWrite with
    | .error e => .next (trapAll s e)
    | .ok _ => .next (trapOpen s cCOUNT none none)
  else
    withObj a kWrite false (fun t _ loc _ =>
      let v := n * 2 ^ 32 + n * 2 ^ 64 + (if n = 0 then 0 else 2 ^ 62)
      .next (goOn (performWrite t (.fibre t.cur) (coreOf t.cur) 0 4 loc (toBytes 16 v) false (relOf a)))) s

/-- BAREXP (R177, R186). -/
def execBarexp (a : Args) (s : State) : Result :=
  withObj a kRmw true (fun t _ loc v =>
    let sum := toSigned 32 (bits v 0 32) + toSigned 32 (srcVal t .s32 0 a.s1 (lane0 t))
    if sum < -(2 ^ 31) ∨ 2 ^ 31 ≤ sum then .next (trapOpen t cCOUNT none none)
    else .next (goOn (contribute t t.cur loc (setBits v 0 32 (wrap 32 sum)) none))) s

/-- The count of BARARR: 1 where the data field names zero (R186). -/
def arrCount (s : State) (o : Opnd) : Nat :=
  match o with
  | .reg .zero _ _ => 1
  | _ => srcVal s .n32 0 o (lane0 s)

/-- BARARR (R177, R186). -/
def execBararr (a : Args) (s : State) : Result :=
  withObj a kRmw true (fun t _ loc v =>
    let n := arrCount t a.s1
    let arr := bits v 32 16
    if arr < n then .next (trapOpen t cCOUNT none none)
    else
      let t1 := contribute t t.cur loc (setBits v 32 16 (arr - n)) (relOf a)
      .next (goOn (setPredAll t1 a.d.opnd (objPhase v)))) s

/-- The acquire of a BARWAIT that has read the new phase (R175). -/
def barAcquire (s : State) (f loc : Nat) (acq : Bool) (scope : Nat) : State :=
  let s1 := (performRead s f 0 4 loc 16 (if acq then scope else 1) true).2
  if acq then noteAcquire s1 f else s1

/-- BARWAIT: arms with the read; waits while PHASE is the parity given (R186). -/
def execBarwait (a : Args) (s : State) : Result :=
  withObj a kRead true (fun t addr loc v =>
    let f := t.cur
    let parity := srcVal t .pred 0 a.s1 (lane0 t) == 1
    let acq := decide (a.ord.toNat = 1)
    if objPhase v != parity then .next (goOn (barAcquire t f loc acq a.scope.toNat))
    else .next (beginWait t t.grp (.barwait loc addr parity acq a.scope.toNat false))) s

/-- The wait of a fibre in BARWAIT. -/
def barwaitOf (x : Fibre) : Option Wait :=
  findWait x fun k => match k with
    | .barwait _ _ _ _ _ _ => true
    | _ => false

/-- A waiter has been woken (R174, R176). -/
def barWoken (w : Wait) : Bool :=
  match w.kind with
  | .barwait _ _ _ _ _ woken => woken
  | _ => false

/-- BARWAIT_WAKE (R176): a woken waiter departs with its acquire. -/
def execBarwaitWake (f : Nat) (s : State) : Result :=
  match barwaitOf (fib s f) with
  | some w =>
    match w.kind with
    | .barwait loc _ _ acq scope woken => .next (if woken then finishWait (barAcquire s f loc acq scope) f w else s)
    | _ => .next s
  | none => .next s

end Sys2Proof.Machine
end

