-- ==== Sys2Proof/Machine/Engine.lean ====
section
/-! DEFINITION. Engine queues: transfers, collectives, flags, joins, faults and resumption (spec/07 R165 to R185, spec/06 R157). -/

namespace Sys2Proof.Machine

/-! ## Queues (R165 to R168) -/

/-- Queue q of a fibre. -/
def queueAt (x : Fibre) (q : Nat) : Queue := if h : q < 4 then x.queues[q] else Queue.empty

/-- Change a queue. -/
def modQueue (s : State) (f q : Nat) (g : Queue → Queue) : State := modFib s f fun x => { x with queues := vmod g q x.queues }

/-- A queue takes one more entry (R167). -/
def queueRoom (x : Fibre) (q : Nat) : Bool := decide ((queueAt x q).entries.length < 63)

/-- Append an entry. -/
def pushEntry (s : State) (f q : Nat) (e : QEntry) : State := modQueue s f q fun z => { z with entries := z.entries ++ [e] }

/-- The entry of an enqueueing fibre, with what it freezes (R67). -/
def newEntry (x : Fibre) (k : EntryKind) (ch : Nat) (tile : BitVec 512) : QEntry :=
  { kind := k, prog := 0, root := x.pgroot, klvl := x.klvl, ch := ch, tile := tile, sent := false, view := [], marks := [] }

/-- A join of an id stands in a queue. -/
def holdsJoin (z : Queue) (id : Nat) : Bool := z.entries.any fun e => e.kind == .join id

/-- A join entry. -/
def isJoin (e : QEntry) (id : Nat) : Bool := e.kind == .join id

/-- The joins that are complete: in each queue that still holds it the join is at the head (R184). -/
def joinsDone (x : Fibre) : List Nat :=
  (x.queues.toList.flatMap fun z => z.entries.filterMap fun e => match e.kind with
    | .join id => some id
    | _ => none).eraseDups.filter fun id => x.queues.toList.all fun z => !holdsJoin z id || (z.entries.head?.map fun e => isJoin e id).getD false

/-- Remove the complete joins. -/
def dropJoins (x : Fibre) : Fibre :=
  let ids := joinsDone x
  { x with queues := vmap (fun z => { z with entries := z.entries.filter fun e => !ids.any (isJoin e) }) x.queues }

/-- The entry at the head of a queue is complete: it leaves, its payload takes its place among its core's writes, what it ordered stays with the
queue, and an exiting fibre may end (R138, R165, R178, R211). -/
def popEntry (s : State) (f q : Nat) (v : View) : State :=
  settleExit (placePayload (modQueue s f q fun z => { z with entries := z.entries.drop 1, view := viewJoin z.view v }) (queueWho f q)) f

/-- Replace the entry at the head of a queue. -/
def setHead (s : State) (f q : Nat) (e : QEntry) : State := modQueue s f q fun z => { z with entries := modAt (fun _ => e) 0 z.entries }

/-! ## Engine faults (R179) -/

/-- ECAUSE and DETAIL of a failure. -/
def engineCode (e : Flt) : Nat × Nat :=
  if e.cause = cMISALIGN then (1, e.info % 1024) else if e.cause = cECC then (2, 0) else if e.cause = cOBRANGE then (3, 0) else (0, e.info % 1024)

/-- Stop a queue at its head and report it. A fibre whose lanes have all exited loses the queue's entries instead (R211). -/
def engineStop (s : State) (f q ecause detail addr : Nat) (coll : Bool) : State :=
  if (fib s f).exiting then settleExit (modQueue s f q fun _ => Queue.empty) f
  else
    let s1 := modQueue s f q fun z => { z with stopped := true }
    raiseAsync s1 f cENGINE addr (q + 4 * ecause + 64 * detail + (if coll then 65536 else 0)) (liveMask (fib s1 f))

/-- LSZ of a misaligned access is that of the chunk; of a chunk whose size is no power of two it is a free value (log 17). -/
def engineSize (s : State) (n : Nat) (e : Flt) : State × Flt :=
  if e.cause ≠ cMISALIGN ∨ n = 0 then (s, e)
  else if 2 ^ lszOf n = n then (s, { e with info := setBits e.info 4 4 (lszOf n) })
  else let d := draw s; (d.2, { e with info := setBits e.info 4 4 (d.1.toNat % 16) })

/-- Stop a queue for a failed check of a chunk of `n` bytes; a failure of an operand-buffer offset gives that offset. -/
def engineFault (s : State) (f q : Nat) (coll : Bool) (n : Nat) (e : Flt) : State :=
  let r := engineSize s n e
  engineStop r.1 f q (engineCode r.2).1 (engineCode r.2).2 r.2.addr coll

/-! ## Addresses of an entry (R169, R171) -/

/-- The blocks of 128 bytes that a range of addresses meets. -/
def spans (addr n : Nat) : List (Nat × Nat) :=
  (List.range (n / 128 + 2)).filterMap fun i =>
    let lo := max addr ((addr / 128 + i) * 128)
    let hi := min (addr + n) ((addr / 128 + i + 1) * 128)
    if lo < hi then some (lo, hi - lo) else none

/-- The byte of the operand buffer a reservation offset reaches, with the end of its area (R304). -/
def obByte (r : Reservation) (q n : Nat) : Option Nat :=
  if q + n ≤ r.rows * r.rstr then some (r.off + q)
  else if 0x100000 ≤ q ∧ q + n ≤ 0x100000 + r.rows * r.sstr then some (r.soff + (q - 0x100000))
  else none

/-- The base of a fibre's operand-buffer allocation on its sub-core (R303). -/
def obBaseOf (s : State) (f : Nat) : Nat := (wgOf s f).obBase.getD (subOf f % 4) 0

/-- OB_RANGE for an ob number (R304, R310). -/
def obFault (q name : Nat) : Flt := { cause := cOBRANGE, addr := q, info := name }

/-- The bytes of a local reservation at an offset (R304). -/
def obPieces (s : State) (f name q n : Nat) : Except Flt (List Piece) :=
  match FMap.find (fib s f).obs name with
  | some r =>
    if r.rmt then .error (obFault q name)
    else match obByte r q n with
      | some b => .ok [ownPiece (obLoc (subOf f) (obBaseOf s f + b)) n]
      | none => .error (obFault q name)
  | none => .error (obFault q name)

/-- Check `n` bytes of a space of R169 for an entry, aligned to `align`; a chunk in the device region must be one aligned access of 4 or 8
bytes (R172). -/
def engineCheck (s : State) (f name space addr n align kind : Nat) : Except Flt (List Piece) :=
  let m := if space = 0 ∨ space = 4 then 2 ^ 64 else 2 ^ 32
  if addr % align ≠ 0 then .error (alignFault (addr % m) kind (lszOf align) false)
  else if space = 3 then obPieces s f name (addr % m) n
  else
    let blocks := if align = n then [(addr, n)] else spans addr n
    match blocks.mapM fun p => checkAccess s f 0 (if space = 1 then 2 else if space = 2 then 5 else 1) (p.1 % m) p.2 1 kind .copy false with
    | .ok l =>
      if decide (1 < blocks.length) && l.flatten.any (fun p => p.mt == 3) then .error (alignFault (addr % m) kind (lszOf n) true) else .ok l.flatten
    | .error e => .error e

/-- Parts of a chunk that lie side by side in write-combining or uncached memory are one access (R172). -/
def joinPieces : List Piece → List Piece
  | p :: r => match joinPieces r with
    | o :: l => if (p.mt = 1 ∨ p.mt = 2) ∧ o.mt = p.mt ∧ o.key = p.key ∧ o.loc = p.loc + p.n then { p with n := p.n + o.n } :: l else p :: o :: l
    | [] => [p]
  | [] => []

/-- Act with the root and level an entry froze, and put the fibre's own back (R67). -/
def underEntry (s : State) (f : Nat) (e : QEntry) (act : State → State) : State :=
  let x := fib s f
  modFib (act (modFib s f fun y => { y with pgroot := e.root, klvl := e.klvl })) f fun y => { y with pgroot := x.pgroot, klvl := x.klvl }

/-! ## The transfer descriptor (R169, R170) -/

/-- Fields of a transfer descriptor. -/
structure Copy where
  src : Nat
  dst : Nat
  shnd : Nat
  dhnd : Nat
  len : Nat
  ssp : Nat
  dsp : Nat
  obn : Nat
  lesz : Nat
  pkg : Nat
  bobj : Nat
  csc : Nat
  iw : Nat
  isp : Nat
  idx : Nat

/-- The fields of 512 bits. -/
def copyOf (d : BitVec 512) : Copy :=
  { src := descBits d 0 64, dst := descBits d 64 64, shnd := descBits d 128 32, dhnd := descBits d 160 32, len := descBits d 192 32,
    ssp := descBits d 224 3, dsp := descBits d 228 3, obn := descBits d 232 4, lesz := descBits d 236 3, pkg := descBits d 240 16,
    bobj := descBits d 256 32, csc := descBits d 288 3, iw := descBits d 291 1, isp := descBits d 292 1, idx := descBits d 320 64 }

/-- No barrier object. -/
def noBobj : Nat := 0xFFFFFFFF

/-- The completion scope a CSC code gives: 0 acts as .core. -/
def cscScope (c : Nat) : Nat := if c = 0 then 1 else c

/-- A transfer descriptor is invalid (R170, point 2); kind 0 XCOPY, 1 XGATH, 2 XSCAT. -/
def copyInvalid (kind : Nat) (d : BitVec 512) : Bool :=
  let c := copyOf d
  let tile := c.shnd != 0 || c.dhnd != 0
  let bytes := if kind = 1 then c.len * 2 ^ c.lesz else c.len
  descBits d 227 1 != 0 || descBits d 231 1 != 0 || descBits d 239 1 != 0 || descBits d 293 27 != 0 || descBits d 384 64 != 0
    || decide (4 < c.ssp) || decide (4 < c.dsp) || c.ssp == 3 || c.csc == 7
    || (c.obn != 0 && c.dsp != 3) || (c.pkg != 0 && c.ssp != 4 && c.dsp != 4)
    || (kind == 0 && ((c.shnd != 0 && c.dhnd != 0) || (tile && c.len != 0) || c.lesz != 0 || c.iw != 0 || c.isp != 0 || c.idx != 0
          || decide (2 ^ 31 ≤ c.len)))
    || (kind != 0 && (tile || decide (5 < c.lesz) || decide (2 ^ 24 < c.len)))
    || (c.bobj != noBobj && c.bobj % 16 != 0)
    || (c.dsp == 3 && (c.dst % 4 != 0 || (kind != 2 && bytes % 4 != 0)))

/-- The descriptor of a handle's tile at enqueue, 0 where there is none. -/
def tileDescOf (s : State) (h : Nat) : BitVec 512 :=
  match homeOf s h with
  | some y => y.desc
  | none => 0

/-- Read an aligned record of the workgroup's scratchpad allocation (R170, R303): its value, or the failure. -/
def scratchRecord (s : State) (off n : Nat) : Except Flt Nat :=
  match checkAccess s s.cur (lane0 s) 2 off n n kRead .single false with
  | .ok ps => .ok (ofBytes (ps.flatMap fun p => readBytes s 0 p.loc p.n))
  | .error e => .error e

/-- A BOBJ outside the allocation (R170, point 4; R428). -/
def bobjFault (s : State) (bobj : Nat) : Option Flt :=
  if bobj = noBobj ∨ bobj + 16 ≤ (wgOf s s.cur).scrSize then none else some (windowFault bobj kRmw)

/-- The location of an entry's barrier object. -/
def bobjLoc (s : State) (f bobj : Nat) : Nat := scrLoc (coreOf f) ((wgOf s f).scrBase + bobj)

/-- Enqueue with the release at .core (R168), once the earlier accesses of the fibre are performed and the queue has room. -/
def enqueueEntry (s : State) (q : Nat) (k : EntryKind) (ch : Nat) (tile : BitVec 512) : Result :=
  let f := s.cur
  if queueRoom (fib s f) q then
    .next (goOn (pushEntry s f q { newEntry (fib s f) k ch tile with view := if tracked s then releaseView s f 1 else [] }))
  else holdLong s

/-- The first failing check of a transfer after its descriptor is read, as the state that has trapped; none where all pass. -/
def copyTrap (s : State) (kind off : Nat) (d : BitVec 512) : Option State :=
  let c := copyOf d
  if copyInvalid kind d then some (trapOpen s cRESERVED (some off) none)
  else
    match checkHandle s (me s).part c.shnd with
    | some e => some (trapAll s e)
    | none =>
      match checkHandle s (me s).part c.dhnd with
      | some e => some (trapAll s e)
      | none =>
        let t := tileDescOf s c.shnd
        if c.dsp = 3 ∧ c.shnd ≠ 0 ∧ tileCount t * tileEsz t % 4 ≠ 0 then some (trapOpen s cRESERVED (some off) none)
        else (bobjFault s c.bobj).map (trapAll s)

/-- XCOPY, XGATH, XSCAT (R170, R180). -/
def execTransfer (a : Args) (kind : Nat) (s : State) : Result :=
  let s0 := drainAll s s.cur
  if !drained s0 s0.cur then hold s0
  else
    let off := scalar s0 a.s1
    match scratchRecord s0 off 64 with
    | .error e => .next (trapAll s0 e)
    | .ok v =>
      let d : BitVec 512 := BitVec.ofNat 512 v
      match copyTrap s0 kind off d with
      | some t => .next t
      | none =>
        let c := copyOf d
        let s1 := if c.bobj = noBobj then s0 else nameObj s0 (coreOf s0.cur) (bobjLoc s0 s0.cur c.bobj)
        enqueueEntry s1 (opndNum a.s0) (.copy d kind) a.ch.toNat (tileDescOf s1 (if c.shnd = 0 then c.dhnd else c.shnd))

/-- XCOPY (R180). -/
def execXcopy (a : Args) (s : State) : Result := execTransfer a 0 s
/-- XGATH (R180). -/
def execXgath (a : Args) (s : State) : Result := execTransfer a 1 s
/-- XSCAT (R180). -/
def execXscat (a : Args) (s : State) : Result := execTransfer a 2 s

/-! ## Chunks (R171, R172) -/

/-- Element c of a tile as a byte offset from BASE, dimension 0 fastest (R105, R171). -/
def tileElem (d : BitVec 512) (c : Nat) : Nat :=
  let r := (List.range (tileDims d)).foldl (fun (acc : Nat × Nat) k => (acc.1 + acc.2 % tileExt d k * tileStr d k, acc.2 / tileExt d k)) (0, c)
  tileEsz d * r.1

/-- The number of chunks of a transfer. -/
def chunkCount (c : Copy) (kind : Nat) (tile : BitVec 512) : Nat :=
  if kind ≠ 0 then c.len
  else if c.shnd ≠ 0 ∨ c.dhnd ≠ 0 then tileCount tile
  else if c.len = 0 then 0
  else (c.dst + c.len - 1) / 128 + 1 - c.dst / 128

/-- One chunk: where it reads and writes, its size, and its alignment. -/
structure Chunk where
  ssp : Nat
  src : Nat
  dsp : Nat
  dst : Nat
  n   : Nat
  align : Nat

/-- Chunk k of a transfer, with the index entry its kind asks for (R171). -/
def chunkOf (c : Copy) (kind : Nat) (tile : BitVec 512) (k : Nat) (idx : Int) : Chunk :=
  let m (sp : Nat) : Nat := if sp = 0 ∨ sp = 4 then 64 else 32
  match kind with
  | 0 =>
    if c.shnd ≠ 0 then { ssp := 0, src := tileBase tile + tileElem tile k, dsp := c.dsp, dst := c.dst + k * tileEsz tile, n := tileEsz tile, align := 1 }
    else if c.dhnd ≠ 0 then { ssp := c.ssp, src := c.src + k * tileEsz tile, dsp := 0, dst := tileBase tile + tileElem tile k, n := tileEsz tile, align := 1 }
    else
      let lo := max c.dst ((c.dst / 128 + k) * 128)
      let hi := min (c.dst + c.len) ((c.dst / 128 + k + 1) * 128)
      { ssp := c.ssp, src := c.src + (lo - c.dst), dsp := c.dsp, dst := lo, n := hi - lo, align := 1 }
  | 1 => { ssp := c.ssp, src := wrap (m c.ssp) (c.src + idx * ((2 ^ c.lesz : Nat) : Int)), dsp := c.dsp, dst := c.dst + k * 2 ^ c.lesz,
           n := 2 ^ c.lesz, align := 2 ^ c.lesz }
  | _ => { ssp := c.ssp, src := c.src + k * 2 ^ c.lesz, dsp := c.dsp, dst := wrap (m c.dsp) (c.dst + idx * ((2 ^ c.lesz : Nat) : Int)),
           n := 2 ^ c.lesz, align := 2 ^ c.lesz }

/-- The size of chunk k (R171). -/
def chunkSize (c : Copy) (kind : Nat) (tile : BitVec 512) (k : Nat) : Nat := (chunkOf c kind tile k 0).n

/-- A request for tenure leaves the order of arrival. -/
def leaveTile (s : State) (who : Nat) : State := { s with tacqs := s.tacqs.filter fun w => w.who != who }

/-- The tenure an entry's handle gives it (R116): a revoked holder re-acquires exactly as a TACQ would, taking its place in the home's order of
arrival; where TACQ would decline, the entry goes on under line coherence. DEDUCED (log 36): so does one whose tile no longer translates, where
TACQ would trap. None where it must wait, with the state in which it does. -/
def engineTenure (s : State) (f q h : Nat) (wr : Bool) : Option State × State :=
  let who := queueWho f q
  match (if h = 0 then none else myHolder s f h) with
  | some (_, x) =>
    if liveHolder x then (some s, s)
    else
      match tryTacq s f { h := h, wr := wr, pin := false } (tileTurn s who h) with
      | .done _ t => (some (leaveTile t who), s)
      | .fault _ => (some (leaveTile s who), s)
      | .wait => (none, if s.tacqs.any (fun w => w.who == who && w.h == h) then s else { s with tacqs := s.tacqs ++ [{ who := who, h := h, wr := wr }] })
  | none => (some s, s)

/-- What counting a chunk would do to the barrier object (R177): its new bits, or the cause that stops the entry. -/
def countBytes (v n : Nat) : Except Nat Nat :=
  if (objRes v).isSome then .error 5
  else if toSigned 32 (bits v 0 32) - (n : Int) < -(2 ^ 31) then .error 4
  else .ok (setBits v 0 32 (wrap 32 (toSigned 32 (bits v 0 32) - n)))

/-- What counting a chunk on an entry's object comes to now: the cause that stops the entry, with its address (R177, R179, R373). -/
def countCheck (s : State) (f bobj n : Nat) : Option (Nat × Nat) :=
  if bobj = noBobj then none
  else if poisoned s.mem (bobjLoc s f bobj) 16 then some (2, bobj)
  else match countBytes (objBits s (bobjLoc s f bobj)) n with
    | .ok _ => none
    | .error c => some (c, 0)

/-- A collective entry. -/
def isColl (e : QEntry) : Bool :=
  match e.kind with
  | .coll _ _ _ => true
  | _ => false

/-- The core of the agent that performs an entry: a collective's is the hub's (R157, R168). -/
def entryCore (f : Nat) (e : QEntry) : Nat := if isColl e then hubCore else coreOf f

/-- The request an entry's accesses make. -/
def entryReq (s : State) (f : Nat) (e : QEntry) (l : Option Leaf) : Req := { reqOf s f e.ch l with core := entryCore f e }

/-- An entry's own writes but for its payload: by its agent, after what its enqueue and its own chunks order, for the launch of its fibre. -/
def entryWriter (s : State) (f : Nat) (e : QEntry) : Writer := .unit e.view (some ((fib s f).part, (fib s f).lid))

/-- Some piece of an entry's access waits for a tenure that cannot be taken back yet (R117). -/
def entryWaits (s : State) (f : Nat) (e : QEntry) (write : Bool) (ps : List Piece) : Bool :=
  if isColl e then
    ps.any fun p => inMem p.loc && (((linesOf p.loc p.n).any fun l => recallWaits s none hubCore l write)
      || (p.leaf.map (leafWaits s none (if write then kWrite else kRead))).getD false)
  else unitWaits s f write ps

/-- An entry reads the bytes of pieces. -/
def entryRead (s : State) (f : Nat) (e : QEntry) (ps : List Piece) : List Byte × State :=
  readPieces (commitPieces s f kRead false ps) (entryReq s f e) (joinPieces ps)

/-- An entry writes its payload, which no agent sees in any order before the entry is complete (R138, R168). -/
def entryWrite (s : State) (f q : Nat) (e : QEntry) (ps : List Piece) (l : List Byte) : State :=
  writePieces (commitPieces s f kWrite false ps) (entryReq s f e) (.payload (queueWho f q) (some ((fib s f).part, (fib s f).lid))) none (joinPieces ps) l

/-- Count a chunk on a BOBJ as a release at CSC (R175, R177). -/
def countChunk (s : State) (f bobj csc n : Nat) (e : QEntry) : State :=
  if bobj = noBobj then s
  else
    let loc := bobjLoc s f bobj
    match countBytes (objBits s loc) n with
    | .ok v => performWrite s (entryWriter s f e) (entryCore f e) 0 4 loc (toBytes 16 v) true (some (cscScope csc))
    | .error _ => s

/-- The chunk is done: prog advances, and the last one completes the entry (R172). -/
def chunkDone (s : State) (f q total : Nat) (e : QEntry) : State :=
  if total ≤ e.prog + 1 then popEntry s f q e.view
  else setHead s f q { e with prog := e.prog + 1, sent := false, marks := [] }

/-- Count a written chunk and go on, or wait for the flush its scope asks for (R160, R172); a count that cannot be made now stops the entry with
its prog before the chunk (R177). -/
def countAndGo (s : State) (f q total bobj csc n : Nat) (e : QEntry) : State :=
  if releaseReady s (cscScope csc) e.marks then
    match countCheck s f bobj n with
    | some c => engineStop (setHead s f q { e with sent := false, marks := [] }) f q c.1 0 c.2 (isColl e)
    | none => chunkDone (countChunk s f bobj csc n e) f q total e
  else setHead (startFlush s (cscScope csc) e.marks) f q { e with sent := true, marks := marksOf s e.marks }

/-- What an entry's access is translated under in another package (R157, R169). -/
def linkCtx (s : State) (f : Nat) (e : QEntry) : LinkCtx := { part := (fib s f).part, root := e.root, klvl := e.klvl }

/-- Bytes that arrive from another package of the pod, asked for there: free values (R157; log 19). -/
def linkRead (s : State) (pkg : Nat) (c : LinkCtx) (addr n : Nat) : List Byte × State :=
  (List.range n).foldl (fun acc _ => let r := draw acc.2; (acc.1 ++ [r.1.setWidth 8], r.2)) ([], output s (.linkRead pkg c addr n))

/-- The checks of an access carried to another package: its alignment, and what that package's tables answer (R171, R180). -/
def linkCheck (s : State) (addr align kind : Nat) : Except Flt Nat :=
  if addr % align ≠ 0 then .error (alignFault (addr % 2 ^ 64) kind (lszOf align) false)
  else match s.hub.refused with
    | i :: _ => .error (pageFault (addr % 2 ^ 64) i)
    | [] => .ok (addr % 2 ^ 64)

/-- A refusal has been met. -/
def refusalMet (s : State) : State := { s with hub := { s.hub with refused := s.hub.refused.drop 1 } }

/-- The package an entry names is this one. -/
def ownPkg (s : State) (p : Nat) : Bool := decide (p = s.hub.pkgid.toNat)

/-- A read of an entry: its bytes, a failure, or a wait for a pinned tenure. -/
inductive Fetch where
  | wait
  | fail (e : Flt)
  | got (l : List Byte) (s : State)

/-- Read where a check has passed, unless a pinned tenure stands there (R117). -/
def fetchPieced (s : State) (f : Nat) (e : QEntry) (r : Except Flt (List Piece)) : Fetch :=
  match r with
  | .error x => .fail x
  | .ok ps => if entryWaits s f e false ps then .wait else let b := entryRead s f e ps; .got b.1 b.2

/-- The index entry of a chunk, read under the entry's cache hint (R81, R171). -/
def chunkIndex (s : State) (f : Nat) (e : QEntry) (c : Copy) : Fetch :=
  let w := if c.iw = 0 then 4 else 8
  fetchPieced s f e (engineCheck s f 0 c.isp (c.idx + e.prog * w) w w kRead)

/-- A chunk's source bytes (R171). -/
def chunkRead (s : State) (f : Nat) (e : QEntry) (c : Copy) (k : Chunk) : Fetch :=
  if k.ssp = 4 ∧ !ownPkg s c.pkg then
    match linkCheck s k.src k.align kRead with
    | .ok a => let b := linkRead s c.pkg (linkCtx s f e) a k.n; .got b.1 b.2
    | .error x => .fail x
  else fetchPieced s f e (engineCheck s f 0 k.ssp k.src k.n k.align kRead)

/-- Perform a chunk of a transfer in the context its entry froze: the checks of R87 at both ends come before the count is tried. A package that is
not of the pod or that the links do not reach stops it (R180). -/
def runChunk (s : State) (f q : Nat) (e : QEntry) (c : Copy) (kind : Nat) (k : Chunk) : State :=
  let total := chunkCount c kind e.tile
  let away (sp : Nat) : Bool := sp == 4 && !ownPkg s c.pkg
  let fail (sp : Nat) (t : State) (x : Flt) : State := engineFault (if away sp ∧ x.cause = cPAGE then refusalMet t else t) f q false k.n x
  if (k.ssp == 4 || k.dsp == 4) && (!s.hub.pod.contains c.pkg || s.hub.unreached.contains c.pkg) then engineStop s f q 7 0 0 false
  else
    match chunkRead s f e c k with
    | .wait => s
    | .fail x => fail k.ssp s x
    | .got bytes s1 =>
      match (if away k.dsp then (linkCheck s1 k.dst k.align kWrite).map fun _ => [] else engineCheck s1 f c.obn k.dsp k.dst k.n k.align kWrite) with
      | .error x => fail k.dsp s1 x
      | .ok ps =>
        match countCheck s1 f c.bobj k.n with
        | some x => engineStop s1 f q x.1 0 x.2 false
        | none =>
          if away k.dsp then
            let rel := if 5 ≤ cscScope c.csc then some (cscScope c.csc) else none
            countAndGo (output s1 (.linkWrite c.pkg (linkCtx s1 f e) (k.dst % 2 ^ 64) bytes rel)) f q total c.bobj c.csc k.n e
          else if entryWaits s1 f e true ps then s
          else
            let s2 := entryWrite s1 f q e ps bytes
            countAndGo s2 f q total c.bobj c.csc k.n { e with view := viewJoin e.view (wroteView s2 ps) }

/-- A chunk that is not yet written, once its handles' tenures allow it (R116, R171). -/
def startChunk (s : State) (f q : Nat) (e : QEntry) (c : Copy) (kind : Nat) : State :=
  match engineTenure s f q c.shnd false with
  | (none, t) => t
  | (some s1, _) =>
    match engineTenure s1 f q c.dhnd true with
    | (none, t) => t
    | (some s2, _) =>
      if kind = 0 then runChunk s2 f q e c kind (chunkOf c kind e.tile e.prog 0)
      else match chunkIndex s2 f e c with
        | .wait => s2
        | .fail x => engineFault s2 f q false (if c.iw = 0 then 4 else 8) x
        | .got l s3 => runChunk s3 f q e c kind (chunkOf c kind e.tile e.prog (toSigned (8 * l.length) (ofBytes l)))

/-- One chunk of the transfer at the head of a queue. -/
def stepCopy (s : State) (f q : Nat) (e : QEntry) (d : BitVec 512) (kind : Nat) : State :=
  let c := copyOf d
  let total := chunkCount c kind e.tile
  if total = 0 then popEntry s f q e.view
  else underEntry s f e fun s =>
    if e.sent then countAndGo s f q total c.bobj c.csc (chunkSize c kind e.tile e.prog) e else startChunk s f q e c kind

/-- The entry at the head of a queue that runs. -/
def headEntry (s : State) (f q : Nat) : Option QEntry :=
  let z := queueAt (fib s f) q
  if z.stopped || !hasFib s f then none else z.entries.head?

/-- WINCH_CHUNK (R172). -/
def execWinchChunk (f q : Nat) (s : State) : Result :=
  match headEntry s f q with
  | some e =>
    match e.kind with
    | .copy d kind => .next (stepCopy s f q e d kind)
    | _ => .next s
  | none => .next s

/-! ## Flags (R178, R183) -/

/-- XFLAG (R183): the control word, the alignment, the window. -/
def execXflag (a : Args) (s : State) : Result :=
  let s0 := drainAll s s.cur
  if !drained s0 s0.cur then hold s0
  else
    let i := lane0 s0
    let addr := addrVal s0 a.s1 i
    let ctl := scalar s0 a.s3
    let sp := bits ctl 3 2
    if ctl % 8 = 7 ∨ sp = 3 ∨ ctl / 32 ≠ 0 then .next (trapOpen s0 cRESERVED none none)
    else if addr % 4 ≠ 0 then .next (trapAll s0 (alignFault addr kWrite 2 false))
    else
      match (if sp = 1 then .ok [] else locateIn s0 s0.cur i (if sp = 0 then 2 else 5) addr addr 4 kWrite false) with
      | .error e => .next (trapAll s0 e)
      | .ok _ =>
        enqueueEntry s0 (opndNum a.s0) (.flag (BitVec.ofNat 64 addr) (BitVec.ofNat 32 (srcVal s0 .b32 0 a.s2 i)) (cscScope (ctl % 8)) sp) 0 0

/-- The scope that the write of a flag is a release at: its own, .sys for an interrupt message to the host (R160). -/
def flagScope (scope : Nat) (ps : List Piece) : Nat := if ps.any fun p => p.mt == 3 && (notifyPage p.loc).isSome then 6 else scope

/-- The write of a flag at the head of a queue, a release at its scope of what its enqueue and the earlier entries of its queue order (R178). -/
def stepFlag (s : State) (f q : Nat) (e : QEntry) (addr value scope sp : Nat) : State :=
  underEntry s f e fun s =>
    match engineCheck s f 0 (if sp = 0 then 1 else if sp = 1 then 0 else 2) addr 4 4 kWrite with
    | .error x => engineFault s f q false 4 x
    | .ok ps =>
      if unitWaits s f true ps then s
      else if !releaseReady s (flagScope scope ps) e.marks then
        setHead (startFlush s (flagScope scope ps) e.marks) f q { e with marks := marksOf s e.marks }
      else
        let v := viewJoin (queueAt (fib s f) q).view e.view
        let s1 := unitWrite s f 0 (.unit v (some ((fib s f).part, (fib s f).lid))) (some scope) ps (toBytes 4 value)
        popEntry s1 f q (viewJoin e.view (wroteView s1 ps))

/-- FLAG_ENTRY_WRITE (R178). -/
def execFlagEntryWrite (f q : Nat) (s : State) : Result :=
  match headEntry s f q with
  | some e =>
    match e.kind with
    | .flag addr v scope sp => .next (stepFlag s f q e addr.toNat v.toNat scope sp)
    | _ => .next s
  | none => .next s

/-! ## Joins (R184) -/

/-- The queues a mask names. -/
def maskQueues (m : Nat) : List Nat := (List.range 4).filter fun q => m.testBit q

/-- QFENCE (R184). -/
def execQfence (a : Args) (s : State) : Result :=
  let f := s.cur
  let ctl := scalar s a.s0
  let qs := maskQueues (ctl % 16)
  if 32 ≤ ctl then .next (trapOpen s cRESERVED none none)
  else if qs.isEmpty then .next (goOn s)
  else if qs.all (queueRoom (fib s f)) then
    let id := s.joinId
    let s1 := qs.foldl (fun t q => pushEntry t f q (newEntry (fib t f) (.join id) 0 0)) { s with joinId := id + 1 }
    if ctl.testBit 4 then .next (beginWait s1 s1.grp (.qfence id (ctl % 16))) else .next (goOn s1)
  else holdLong s

/-- The wait of a fibre in QFENCE with its join and the queues it names. -/
def qfenceWait (x : Fibre) : Option (Wait × Nat × Nat) :=
  x.waits.findSome? fun w => match w.kind with
    | .qfence id m => some (w, id, m)
    | _ => none

/-- The acquire of QFENCE at .core: it synchronises with the completions of the entries of the queues it names (R184). -/
def qfenceAcquire (s : State) (f m : Nat) : State :=
  if tracked s then (maskQueues m).foldl (fun t q => joinView t f (queueAt (fib t f) q).view) (acquireFence s f 1) else s

/-- QFENCE_JOIN_COMPLETE (R184): complete joins leave their queues; a fibre that waited acquires at .core and goes on. -/
def execQfenceJoinComplete (f : Nat) (s : State) : Result :=
  let s1 := settleExit (modFib s f dropJoins) f
  match qfenceWait (fib s1 f) with
  | some (w, id, m) =>
    if (fib s1 f).queues.toList.any fun z => holdsJoin z id then .next s1 else .next (finishWait (qfenceAcquire s1 f m) f w)
  | none => .next s1

/-! ## XRESUME (R185) -/

/-- XRESUME: D is all ones where the queue is not stopped, else the head entry's progress. DEDUCED (log 36): the chunks that a dropped entry has
written belong to no completion: neither a flag behind it nor the acquire of QFENCE orders them. -/
def execXresume (a : Args) (s : State) : Result :=
  let f := s.cur
  let q := opndNum a.s0
  let z := queueAt (fib s f) q
  if 2 ≤ scalar s a.s1 then .next (trapOpen s cRESERVED none none)
  else if !z.stopped then .next (goOn (setUniform s a.d.opnd 0xFFFFFFFF))
  else
    let drop := (scalar s a.s1).testBit 0
    let s1 := setUniform s a.d.opnd ((z.entries.head?.map (·.prog)).getD 0)
    .next (goOn (modQueue (if drop then leaveTile s1 (queueWho f q) else s1) f q fun z =>
      { z with entries := if drop then z.entries.drop 1 else z.entries, stopped := false }))

/-! ## Collectives (R181, R182) -/

/-- Fields of a collective descriptor. -/
structure Coll where
  src : Nat
  dst : Nat
  count : Nat
  op : Nat
  red : Nat
  ety : Nat
  root : Nat
  bobj : Nat
  csc : Nat

/-- The fields of 512 bits. -/
def collOf (d : BitVec 512) : Coll :=
  { src := descBits d 0 64, dst := descBits d 64 64, count := descBits d 128 32, op := descBits d 160 4, red := descBits d 164 4,
    ety := descBits d 168 4, root := descBits d 192 16, bobj := descBits d 224 32, csc := descBits d 256 3 }

/-- The ranks of a partition's collective domain, in ascending order of their packages; its own package where none is set (R182). -/
def collRanks (s : State) (part : Nat) : List Nat :=
  match (partOf s part).cdom with
  | [] => [s.hub.pkgid.toNat]
  | l => l.foldl NSet.add []

/-- A collective descriptor is invalid for a domain of `n` ranks (R181). -/
def collInvalid (n : Nat) (d : BitVec 512) : Bool :=
  let c := collOf d
  descBits d 172 4 != 0 || descBits d 208 16 != 0 || descBits d 259 253 != 0 || descBits d 176 16 != 0
    || decide (2 ^ 28 < c.count) || decide (3 < c.op) || decide (5 < c.red) || (decide (c.op < 2) && c.red != 0)
    || !([1, 2, 3, 4, 5, 6, 7, 8].contains c.ety) || (decide (3 ≤ c.red) && !([1, 2, 3, 4].contains c.ety))
    || (if c.op = 0 then decide (n ≤ c.root) else c.root != 0) || c.csc == 7 || (c.bobj != noBobj && c.bobj % 16 != 0)

/-- XCOLL (R181): counted within its partition's collectives. -/
def execXcoll (a : Args) (s : State) : Result :=
  let s0 := drainAll s s.cur
  let f := s0.cur
  if !drained s0 f then hold s0
  else
    let off := scalar s0 a.s1
    match scratchRecord s0 off 64 with
    | .error e => .next (trapAll s0 e)
    | .ok v =>
      let d : BitVec 512 := BitVec.ofNat 512 v
      let c := collOf d
      let p := (fib s0 f).part
      if collInvalid (collRanks s0 p).length d then .next (trapOpen s0 cRESERVED (some off) none)
      else
        match bobjFault s0 c.bobj with
        | some e => .next (trapAll s0 e)
        | none =>
          if !queueRoom (fib s0 f) (opndNum a.s0) then holdLong s0
          else
            let s1 := if c.bobj = noBobj then s0 else nameObj s0 (coreOf f) (bobjLoc s0 f c.bobj)
            let k := (partOf s1 p).collCount
            enqueueEntry (modPart s1 p fun r => { r with collCount := k + 1 }) (opndNum a.s0) (.coll d k (collRanks s1 p)) a.ch.toNat 0

/-- The element size of a collective. -/
def collSize (c : Coll) : Nat := tyWidth (tyOf c.ety) / 8

/-- The output bytes of a rank. -/
def collBytes (c : Coll) (n : Nat) : Nat := (if c.op = 1 then n else 1) * c.count * collSize c

/-- Output element e of rank r: `inp q e` is element e of rank q's input (R182). -/
def collElem (c : Coll) (n r : Nat) (inp : Nat → Nat → Nat) (e : Nat) : Nat :=
  let t := tyOf c.ety
  let reduce (i : Nat) : Nat := (List.range (n - 1)).foldl (fun acc q => atomNew c.red t false acc (inp (q + 1) i) 0)
    (if tyIsFloat t ∧ n = 1 then (if decodeFloat t 0 (inp 0 i) = .nan then (fmtOf t 0).nan else inp 0 i) else inp 0 i)
  match c.op with
  | 0 => inp c.root e
  | 1 => inp (e / c.count) (e % c.count)
  | 2 => reduce (r * c.count + e)
  | _ => reduce e

/-- The blocks of a rank's output. -/
def collChunks (c : Coll) (n : Nat) : Nat :=
  if collBytes c n = 0 then 0 else (c.dst + collBytes c n - 1) / 128 + 1 - c.dst / 128

/-- A rank's operation differs from rank 0's (R182). -/
def collMismatch (c : Coll) (own : Nat) (ranks : List RankInput) : Bool :=
  let key (i : Nat) (r : RankInput) := if i = own then (c.op, c.red, c.ety, c.count, c.root) else (r.op, r.red, r.ety, r.count, r.root)
  match ranks with
  | r0 :: _ => ranks.zipIdx.any fun p => key p.2 p.1 != key 0 r0
  | [] => false

/-- The own input elements that a block of the output asks for; the others come with the event. -/
inductive Inputs where
  | wait
  | fail (e : Flt)
  | got (m : FMap Nat) (s : State)

/-- They are read from memory, one after the other. -/
def collRead (s : State) (f : Nat) (e : QEntry) (c : Coll) (idxs : List Nat) : Inputs :=
  idxs.foldl (fun acc i =>
    match acc with
    | .got m t =>
      match fetchPieced t f e (engineCheck t f 0 0 (c.src + i * collSize c) (collSize c) 1 kRead) with
      | .wait => .wait
      | .fail x => .fail x
      | .got l u => .got (FMap.put m i (ofBytes l)) u
    | o => o) (.got [] s)

/-- The own input elements that output element i of rank r uses. -/
def collNeeds (c : Coll) (r own : Nat) (i : Nat) : List Nat :=
  match c.op with
  | 0 => if c.root = own then [i] else []
  | 1 => if i / c.count = own then [i % c.count] else []
  | 2 => [r * c.count + i]
  | _ => [i]

/-- One block of a collective's output (R182): the bytes [lo, hi). -/
def collBlock (s : State) (f q : Nat) (e : QEntry) (c : Coll) (n own : Nat) (rs : List RankInput) (total lo hi : Nat) : State :=
  let sz := collSize c
  let first := (lo - c.dst) / sz
  let els := (List.range ((hi - 1 - c.dst) / sz + 1 - first)).map (· + first)
  match collRead s f e c (els.flatMap (collNeeds c own own)) with
  | .wait => s
  | .fail x => engineFault s f q true sz x
  | .got m s1 =>
    let inp (r i : Nat) : Nat := if r = own then (FMap.find m i).getD 0 else ((rs[r]?).map fun x => x.elems.getD i 0).getD 0
    let all := els.flatMap fun i => toBytes sz (collElem c n own inp i)
    match engineCheck s1 f 0 0 lo (hi - lo) 1 kWrite with
    | .error x => engineFault s1 f q true (hi - lo) x
    | .ok ps =>
      match countCheck s1 f c.bobj (hi - lo) with
      | some x => engineStop s1 f q x.1 0 x.2 true
      | none =>
        if entryWaits s1 f e true ps then s
        else
          let s2 := entryWrite s1 f q e ps ((all.drop (lo - c.dst - first * sz)).take (hi - lo))
          countAndGo s2 f q total c.bobj c.csc (hi - lo) { e with view := viewJoin e.view (wroteView s2 ps) }

/-- One block of the collective at the head of a queue, for the ranks its domain had at the enqueue (R181, R182). -/
def stepColl (s : State) (f q : Nat) (e : QEntry) (d : BitVec 512) (dom : List Nat) (ranks : List RankInput) : State :=
  let c := collOf d
  let n := dom.length
  let own := dom.idxOf s.hub.pkgid.toNat
  let rs := if n = 1 then [{ op := c.op, red := c.red, ety := c.ety, count := c.count, root := c.root, elems := [] }] else ranks
  if rs.length ≠ n then s
  else if collMismatch c own rs then engineStop s f q 6 0 0 true
  else
    let total := collChunks c n
    if total = 0 then popEntry s f q e.view
    else
      let lo := max c.dst ((c.dst / 128 + e.prog) * 128)
      let hi := min (c.dst + collBytes c n) ((c.dst / 128 + e.prog + 1) * 128)
      if e.sent then countAndGo s f q total c.bobj c.csc (hi - lo) e
      else underEntry s f e fun s => collBlock s f q e c n own rs total lo hi

/-- COLLECTIVE_CHUNK (R182): `ranks` is what the other ranks bring. -/
def execCollectiveChunk (f q : Nat) (ranks : List RankInput) (s : State) : Result :=
  match headEntry s f q with
  | some e =>
    match e.kind with
    | .coll d _ dom => .next (stepColl s f q e d dom ranks)
    | _ => .next s
  | none => .next s

/-! ## Accesses carried over the links (R157) -/

/-- A link-carried access: translated in the partition's tables, performed at its home by the collective engine, whose core number is 256,
the hub; `who` is the package that asks and the partition. A read answers its package with its bytes; a failure answers with its cause. A
release at .pod orders what that agent has written (R157). -/
def execLinkAccess (who : Nat × Nat) (root : BitVec 64) (klvl : Bool) (va : BitVec 64) (len : Nat) (data : Option (List Byte)) (release : Bool)
    (s : State) : Result :=
  let c : Ctx := { part := who.2, root := root, klvl := klvl }
  let kind := if data.isSome then kWrite else kRead
  let n := match data with
    | some l => l.length
    | none => len
  match (spans va.toNat n).mapM fun p => globalPiece s c (p.1 % 2 ^ 64) p.2 kind false with
  | .error e => .next (output s (.linkFault who.1 e.cause e.info))
  | .ok ps =>
    if ps.any fun p => p.mt == 3 then .next (output s (.linkFault who.1 cMISALIGN (alignInfo kind 0 true)))
    else if ps.any (fun p => ((linesOf p.loc p.n).any fun l => recallWaits s none hubCore l data.isSome) || p.leaf.any (leafWaits s none kind)) then .next s
    else
      let s1 := ps.foldl (fun t p => match p.leaf with
        | some l => commit t c p.va kind l false
        | none => t) s
      let q (l : Option Leaf) : Req := { core := hubCore, part := who.2, sh := (l.map fun l => l.leaf2.testBit 9).getD false, ch := 0 }
      match data with
      | some l =>
        .next (writePieces s1 q (.unit (agentWrites s1 hubCore) none) (if release then some 5 else none) ps l)
      | none => let r := readPieces s1 q ps; .next (output r.2 (.linkData who.1 r.1))

end Sys2Proof.Machine
end

