-- ==== Sys2Proof/Machine/Barriers.lean ====
section
/-! DEFINITION. The tether tree: BAR, BARS, FBAR and the completion of their phases (spec/08 R206 to R209, R214, R215). -/

namespace Sys2Proof.Machine

/-! ## Phases (R206 to R208) -/

/-- The instance of a scope that holds a core. -/
def instanceOf (scope core : Nat) : Nat :=
  match scope with
  | 1 => core
  | 2 => quadOf core
  | 3 => dieOf core
  | _ => 0

/-- The key of a phase: its user (the workgroup at .core, else the launch), the scope, the instance and the tag (R206). -/
def phaseKey (s : State) (f scope tag : Nat) : Nat :=
  let w := wgOf s f
  let user := if scope = 1 then (slotRec s (slotOf f)).wgKey else wgKey w.part w.lid 0
  ((user * 1024 + (if scope = 1 then 0 else instanceOf scope (coreOf f))) * 8 + scope) * 8 + tag

/-- The phases a key has completed. -/
def phasesDone (s : State) (key : Nat) : Nat := (FMap.find s.phases key).getD 0

/-- The scope of a key. -/
def keyScope (key : Nat) : Nat := key / 8 % 8

/-- The slices that still have lanes. -/
def liveSlices (x : Fibre) : BitVec 8 := slicesOf (liveMask x)

/-- Arrivals hold a whole warp's arrival at the present phase of a key: every live slice has arrived (R207). -/
def hasArrived (done key : Nat) (slices : BitVec 8) (l : List Arrival) : Bool :=
  slices == 0 || l.any fun r => r.key == key && r.phase == done && (slices &&& ~~~ r.slices) == 0

/-- A fibre is stopped for service outside it: frozen, or with lanes that stage 2 has stopped; it counts as not arrived (R66, R193, R358). -/
def stoppedOutside (x : Fibre) : Bool := x.frozen || (x.stopped &&& liveMask x) != 0

/-- A workgroup is in the instance of a phase and of its user. -/
def takesPart (s : State) (f key : Nat) (w : Wg) : Bool :=
  let v := wgOf s f
  let scope := keyScope key
  v.part == w.part && v.lid == w.lid && w.spawnSlot.isNone && instanceOf scope w.core == instanceOf scope (coreOf f)

/-- The saved workgroups of the launch whose core was in the instance have arrived (R207, R214). -/
def savedArrived (s : State) (f key : Nat) : Bool :=
  let v := wgOf s f
  s.saved.all fun p => p.1 / 2 ^ 32 != wgKey v.part v.lid 0 / 2 ^ 32 || instanceOf (keyScope key) p.2.core != instanceOf (keyScope key) (coreOf f)
    || p.2.warps.all fun q => hasArrived (phasesDone s key) key q.slices q.arrivals

/-- Every participant has arrived (R207). -/
def phaseFull (s : State) (f key : Nat) : Bool :=
  let arrived (g : Nat) : Bool :=
    !stoppedOutside (fib s g) && hasArrived (phasesDone s key) key (liveSlices (fib s g)) (fib s g).arrivals
  if keyScope key = 1 then (wgFibres s (wgOf s f)).all arrived
  else (s.wgs.all fun p => !takesPart s f key p.2 || (wgFibres s p.2).all arrived) && savedArrived s f key

/-- What the arrivals of a phase in a list release (R209). -/
def releasedBy (done key : Nat) (l : List Arrival) : View :=
  (l.filter fun r => r.key == key && r.phase == done).foldl (fun v r => viewJoin v r.view) []

/-- What every arrival of the present phase of a key has released, those of saved warps among them (R209). -/
def phaseView (s : State) (key : Nat) : View :=
  let done := phasesDone s key
  let live := s.fibres.foldl (fun v p => viewJoin v (releasedBy done key p.2.arrivals)) []
  s.saved.foldl (fun v p => p.2.warps.foldl (fun u q => viewJoin u (releasedBy done key q.arrivals)) v) live

/-- The arrivals of a completed phase that stay for a departure to come carry what the phase released. -/
def keptArrivals (done key : Nat) (v : View) (l : List Arrival) : List Arrival :=
  l.map fun r => if r.key = key ∧ r.phase = done then { r with view := v } else r

/-- A fibre departs from a completed phase that released `v`: its BAR waits end, a waiting later arrival executes again, and the
arrival is kept only for slices that will wait again (R208, R209, R214). -/
def depart (done key : Nat) (v : View) (x : Fibre) : Fibre :=
  let here (w : Wait) : Bool := match w.kind with
    | .bar k _ => k == key
    | _ => false
  let next (w : Wait) : Bool := match w.kind with
    | .barNext k _ _ => k == key
    | _ => false
  let y := (x.waits.filter here).foldl (fun z w => modLanes z w.lanes fun _ l => { l with pc := w.pc }) x
  { y with waits := y.waits.filter fun w => !here w && !next w,
           arrivals := keptArrivals done key v (y.arrivals.filter fun r => r.key != key || r.phase != done || r.kept != 0) }

/-- A departure from a barrier is an acquire of what its phase released (R209). -/
def departAcquire (s : State) (f : Nat) (v : View) : State := noteAcquire (joinView s f v) f

/-- The packages of a fibre's collective domain beside its own (R182, R207). -/
def otherRanks (s : State) (f : Nat) : List Nat := (collRanks s (fib s f).part).filter fun p => p != s.hub.pkgid.toNat

/-- A .pod phase is exchanged among the collective engines of the domain (R157, R207). -/
def exchangePhase (s : State) (f key : Nat) : State :=
  if keyScope key = 5 then
    (otherRanks s f).foldl (fun t p => output t (.linkBarrier p (fib s f).part (fib s f).lid (phasesDone s key) (key % 8))) s
  else s

/-- A phase completes: every waiter departs, acquiring what the arrivals released; warps saved at it depart once they are back. -/
def completePhase (s : State) (key : Nat) : State :=
  let done := phasesDone s key
  let v := phaseView s key
  let waiting (x : Fibre) : Bool := x.waits.any fun w => match w.kind with
    | .bar k _ => k == key
    | _ => false
  let keep (w : SavedWg) : SavedWg := { w with warps := w.warps.map fun q => { q with arrivals := keptArrivals done key v q.arrivals } }
  let s1 := { s with phases := FMap.put s.phases key (done + 1), saved := s.saved.map fun (p : Nat × SavedWg) => (p.1, keep p.2) }
  s1.fibres.foldl (fun t p =>
    let t1 := if waiting p.2 then departAcquire t p.1 v else t
    modFib t1 p.1 (depart done key v)) s1

/-- The incomplete arrival of a fibre. -/
def openArrival (s : State) (x : Fibre) : Option Arrival := x.arrivals.find? fun r => r.phase == phasesDone s r.key

/-- A phase that a fibre has arrived at is full. -/
def barDue (s : State) (f : Nat) : Option Nat :=
  match openArrival s (fib s f) with
  | some r => if phaseFull s f r.key then some r.key else none
  | none => none

/-- BAR_PHASE_COMPLETE (R207). At .pod this rank's arrivals go to the others; the event itself stands for theirs having come. -/
def execBarPhaseComplete (f : Nat) (s : State) : Result :=
  match barDue s f with
  | some key => .next (completePhase (exchangePhase s f key) key)
  | none => .next s

/-! ## BAR, BARS (R214) -/

/-- The control word breaks R214. -/
def controlFails (s : State) (f ctl : Nat) : Bool :=
  let w := wgOf s f
  let scope := cscBar ctl
  decide (6 ≤ ctl % 8) || decide (64 ≤ ctl) || decide (max 1 w.ntag ≤ ctl / 8 % 8) || (decide (1 < scope) && (!w.cor || w.spawnSlot.isSome))
where
  /-- SCOPE, 0 acting as .core. -/
  cscBar (c : Nat) : Nat := if c % 8 = 0 then 1 else c % 8

/-- Change the arrivals of a fibre. -/
def modArrivals (s : State) (f : Nat) (g : List Arrival → List Arrival) : State := modFib s f fun x => { x with arrivals := g x.arrivals }

/-- Slices whose kept arrival has been taken up again. -/
def unkeep (key : Nat) (g : BitVec 8) (l : List Arrival) : List Arrival :=
  l.map fun r => if r.key = key then { r with kept := r.kept &&& ~~~ g } else r

/-- A slice whose wait was withdrawn takes up its arrival again: it departs at once where the phase has completed, else waits
(R214). -/
def resumeBar (s : State) (f key scope : Nat) (r : Arrival) (g : BitVec 8) : State :=
  if r.phase < phasesDone s key then
    let s1 := modArrivals s f fun l => (unkeep key g l).filter fun q => q.kept != 0 || q.phase == phasesDone s q.key
    goOn (departAcquire s1 f r.view)
  else beginWait (modArrivals s f (unkeep key g)) s.grp (.bar key scope)

/-- Slices arrive, releasing `v` (R207, R209): joined to the warp's arrival at the present phase. -/
def arriveBar (s : State) (f key : Nat) (g : BitVec 8) (v : View) : State :=
  let done := phasesDone s key
  modArrivals s f fun l =>
    if l.any fun r => r.key == key && r.phase == done then
      l.map fun r => if r.key = key ∧ r.phase = done then { r with slices := r.slices ||| g, view := viewJoin r.view v } else r
    else l ++ [{ key := key, slices := g, phase := done, kept := 0, view := v }]

/-- BAR and BARS: the release of the arrival waits for what its scope asks for (R209). -/
def execBarrier (a : Args) (wait : Bool) (s : State) : Result :=
  let f := s.cur
  let ctl := scalar s a.s0
  if controlFails s f ctl then .next (trapOpen s cRESERVED none (some ctl))
  else
    let scope := controlFails.cscBar ctl
    let key := phaseKey s f scope (ctl / 8 % 8)
    let g := slicesOf s.grp
    let x := fib s f
    match x.arrivals.find? fun r => r.key == key && (r.kept &&& g) != 0 with
    | some r => .next (resumeBar s f key scope r g)
    | none =>
      match openArrival s x with
      | some r =>
        if r.key ≠ key then .next (trapOpen s cRESERVED none (some ctl))
        else if (r.slices &&& g) ≠ 0 then .next (awaitNext s key scope wait)
        else arriveNow s f key scope g wait
      | none => arriveNow s f key scope g wait
where
  /-- The wait for the incomplete phase before: a yield point of BAR, none of BARS (R204). -/
  awaitNext (s : State) (key scope : Nat) (wait : Bool) : State :=
    if wait then beginWait s s.grp (.barNext key scope true)
    else addWait s s.cur { lanes := s.grp, kind := .barNext key scope false, pc := s.ipc + 12, since := s.tick }
  /-- The arrival itself. -/
  arriveNow (s : State) (f key scope : Nat) (g : BitVec 8) (wait : Bool) : Result :=
    let s0 := drainAll s f
    if !drained s0 f then hold s0
    else
      let s1 := arriveBar s0 f key g (releaseView s0 f scope)
      .next (if wait then beginWait s1 s1.grp (.bar key scope) else goOn s1)

/-- BAR (R214). -/
def execBar (a : Args) (s : State) : Result := execBarrier a true s
/-- BARS (R214). -/
def execBars (a : Args) (s : State) : Result := execBarrier a false s

/-! ## FBAR (R215) -/

/-- FBAR: a release and acquire at .slot; the window writes of earlier loads are made, and the slices wait for the phase (R209, R215). -/
def execFbar (_a : Args) (s : State) : Result :=
  let f := s.cur
  let g := slicesOf s.grp
  if ((fib s f).fbarPass &&& g) ≠ 0 then .next (goOn (modFib s f fun x => { x with fbarPass := x.fbarPass &&& ~~~ g }))
  else
    let s0 := drainAll (settleLate s f) f
    if !drained s0 f then hold s0
    else .next (beginWait (modFib s0 f fun x => { x with fbar := x.fbar ||| g, fbarKept := x.fbarKept &&& ~~~ g }) s0.grp .fbar)

/-- The fibres resident in a slot. -/
def slotFibres (s : State) (slot : Nat) : List Nat := ((List.range (slotRec s slot).nfib).map fun k => slot * 4 + k).filter (hasFib s)

/-- Every non-exited fibre of a slot has arrived at FBAR, and some fibre has. -/
def fbarFull (s : State) (slot : Nat) : Bool :=
  (slotFibres s slot).any (fun f => (fib s f).fbar != 0)
    && (slotFibres s slot).all fun f => !stoppedOutside (fib s f) && (liveSlices (fib s f) &&& ~~~ (fib s f).fbar) == 0

/-- A fibre departs from FBAR. -/
def departFbar (x : Fibre) : Fibre :=
  let here (w : Wait) : Bool := w.kind == .fbar
  let y := (x.waits.filter here).foldl (fun z w => modLanes z w.lanes fun _ l => { l with pc := w.pc }) x
  { y with waits := y.waits.filter fun w => !here w, fbar := 0, fbarPass := y.fbarKept, fbarKept := 0 }

/-- FBAR_PHASE_COMPLETE (R209, R215): every fibre takes what each of them has released at .slot. -/
def execFbarPhaseComplete (slot : Nat) (s : State) : Result :=
  let v := (slotFibres s slot).foldl (fun v f => viewJoin v (releaseView s f 0)) []
  .next (if fbarFull s slot then (slotFibres s slot).foldl (fun t f => modFib (departAcquire t f v) f departFbar) s else s)

end Sys2Proof.Machine
end

