-- ==== Sys2Proof/Machine/Accum.lean ====
section
/-! DEFINITION. Accumulator tiles with their side registers, the ownership tables of pinned state, the spill image, eviction
and refill (spec/13 R299 to R302, spec/14 R317 to R325). -/

namespace Sys2Proof.Machine

/-! ## Tiles (R299 to R301) -/

/-- The key of a row of a physical tile of a sub-core. -/
def rowKey (u p i : Nat) : Nat := (u * 16 + p) * 32 + i
/-- The key of an element. -/
def elemKey (u p i j : Nat) : Nat := rowKey u p i * 64 + j

/-- The 64 elements of a row. -/
def tileRow (s : State) (u p i : Nat) : List Nat := (List.range 64).map fun j => (SMap.get 0 s.acc (elemKey u p i j)).toNat

/-- The workgroup that holds a physical tile has the units of a row to save again, its side registers among them (R367). -/
def markTile (s : State) (u p i : Nat) : State :=
  let loc := accLoc (elemKey u p i 0)
  { s with wgs := s.wgs.map fun w => if w.2.core = u / 4 ∧ w.2.tiles.any (fun t => t.2 == (u, p)) then
      (w.1, { w.2 with dirtyUnits := NSet.add (NSet.add w.2.dirtyUnits (loc / 1008)) ((loc + 255) / 1008) }) else w }

/-- Write a row: poison ends with the words written (R373). -/
def setTileRow (s0 : State) (u p i : Nat) (l : List Nat) : State :=
  let s := markTile s0 u p i
  { s with acc := (l.zipIdx).foldl (fun m e => SMap.set 0 m (elemKey u p i e.2) (BitVec.ofNat 32 e.1)) s.acc,
           mem := unpoison s.mem (accLoc (elemKey u p i 0)) 256 }

/-- Some of the `n` words of a row from column `j` on is poisoned. -/
def colsPoisoned (s : State) (u p i j n : Nat) : Bool := poisoned s.mem (accLoc (elemKey u p i j)) (4 * n)

/-- Some word of a row is poisoned. -/
def rowPoisoned (s : State) (u p i : Nat) : Bool := colsPoisoned s u p i 0 64

/-- The side registers of a row at reset: m = −Inf, l = +0, g = 1.0, not armed (R301). -/
def sideReset : Word × Word × Word × Bool := (0xFF800000, 0, 0x3F800000, false)
/-- The side registers of a row: m, l, g, arm. -/
def sideOf (s : State) (u p i : Nat) : Word × Word × Word × Bool := SMap.get sideReset s.side (rowKey u p i)
/-- Write the side registers of a row. -/
def setSide (s0 : State) (u p i : Nat) (v : Word × Word × Word × Bool) : State :=
  let s := markTile s0 u p i
  { s with side := SMap.set sideReset s.side (rowKey u p i) v }

/-- A row at its state in a fresh tile (R300, R314). -/
def zeroRow (s : State) (u p i : Nat) : State := setSide (setTileRow s u p i (List.replicate 64 0)) u p i sideReset
/-- A whole tile fresh (R300). -/
def zeroTile (s : State) (u p : Nat) : State := (List.range 32).foldl (fun t i => zeroRow t u p i) s
/-- The side registers of a tile at reset (R320). -/
def resetSides (s : State) (u p : Nat) : State := (List.range 32).foldl (fun t i => setSide t u p i sideReset) s

/-- The bytes of a row (R315, R321). -/
def rowBytes (l : List Nat) : List Byte := l.flatMap (toBytes 4)
/-- The words of bytes. -/
def wordsOf (l : List Byte) : List Nat := (List.range (l.length / 4)).map fun j => ofBytes ((l.drop (4 * j)).take 4)

/-! ## The ownership tables (R317, R318) -/

/-- The table of a sub-core. -/
def ownTable (s : State) (u : Nat) : List (Option OwnEntry) := (FMap.find s.own u).getD (List.replicate 16 none)
/-- An entry. -/
def ownAt (s : State) (u k : Nat) : Option OwnEntry := (ownTable s u).getD k none
/-- Write or free an entry. -/
def setOwn (s : State) (u k : Nat) (e : Option OwnEntry) : State := { s with own := FMap.put s.own u (modAt (fun _ => e) k (ownTable s u)) }
/-- The first free entry. -/
def freeOwn (s : State) (u : Nat) : Option Nat := (List.range 16).find? fun k => (ownAt s u k).isNone

/-- The first entry of a sub-core that a test picks. -/
def findOwn (s : State) (u : Nat) (p : OwnEntry → Bool) : Option (Nat × OwnEntry) :=
  (List.range 16).findSome? fun k => match ownAt s u k with
    | some e => if p e then some (k, e) else none
    | none => none

/-- The entry of a fibre's logical tile on its sub-core. -/
def pinOf (s : State) (f t : Nat) : Option (Nat × OwnEntry) :=
  findOwn s (subOf f) fun e => ownsEntry (wgOf s f) (subOf f) e && e.ltile == t

/-- The entry of a key in the tables of a core (R318): sub-core, index, entry. -/
def findKey (s : State) (core part key : Nat) : Option (Nat × Nat × OwnEntry) :=
  (List.range 4).findSome? fun j => (findOwn s (4 * core + j) fun e => e.part == part && e.key == key).map fun r => (4 * core + j, r.1, r.2)

/-- The physical tile of a logical one: ACC_NOT_OWNED at or above ACC (R299). -/
def physTile (s : State) (f t : Nat) : Except Flt Nat :=
  let w := wgOf s f
  match FMap.find w.tiles (subOf f % 4 * 16 + t) with
  | some (_, p) => if t < w.acc then .ok p else .error { cause := cACC, addr := 0, info := t }
  | none => .error { cause := cACC, addr := 0, info := t }

/-- A row of a fibre's tile has changed: DMASK of a pinned tile (R320). -/
def markRows (s : State) (f t : Nat) (m : LaneMask) : State :=
  match pinOf s f t with
  | some (k, e) => setOwn s (subOf f) k (some { e with dmask := e.dmask ||| m, lastUse := s.tick })
  | none => s

/-! ## The spill image (R321 to R323) -/

/-- On whose behalf an image is reached (R317, R322; log 22). -/
def imageCtx (e : OwnEntry) : Ctx := { part := e.part, root := e.pgr, klvl := e.klvl }

/-- A block of an image: at most 64 bytes, which never cross a page. -/
def imagePiece (s : State) (e : OwnEntry) (off kind : Nat) : Except Flt Piece :=
  match globalPiece s (imageCtx e) ((e.spa + off) % 2 ^ 64) 64 kind false with
  | .error x => .error x
  | .ok p => if p.mt = 3 then .error (alignFault ((e.spa + off) % 2 ^ 64) kind 6 true) else .ok p

/-- The check of a block takes effect on the TLB and on A and D. -/
def imageCommit (s : State) (e : OwnEntry) (kind : Nat) (p : Piece) : State :=
  match p.leaf with
  | some l => commit s (imageCtx e) p.va kind l false
  | none => s

/-- Poison travels with the 8-byte words of a copied block (R373). -/
def carryPoison (s : State) (src dst n : Nat) : State :=
  let bad := s.mem.poison.filter fun w => decide (src ≤ 8 * w) && decide (8 * w < src + n)
  let all := bad.foldl (fun m w => NSet.add m ((8 * w - src + dst) / 8)) s.mem.poison
  { s with mem := { s.mem with poison := all } }

/-- A block of an image on its way to memory: its offset, its bytes, and the tile words it comes from, if any. -/
structure ImageBlock where
  off   : Nat
  src   : Option Nat
  bytes : List Byte

/-- The request of a core's matrix unit for an image (R83). -/
def imageReq (core : Nat) (e : OwnEntry) (p : Piece) : Req :=
  { core := core, part := e.part, sh := (p.leaf.map fun l => l.leaf2.testBit 9).getD false, ch := 0 }

/-- Write a block of an image for a core's matrix unit; `f` is the fibre whose instruction asks for it, if any. -/
def imageWrite (s : State) (f : Option Nat) (core : Nat) (e : OwnEntry) (b : ImageBlock) : Except Flt State :=
  match imagePiece s e b.off kWrite with
  | .error x => .error x
  | .ok p =>
    let w : Writer := match f with
      | some g => .fibre g
      | none => .unit (agentWrites s core) none
    let s0 := performWrite (arrive (imageCommit s e kWrite p) (imageReq core e p) true p.key p.mt p.loc) w core p.key p.mt p.loc b.bytes false none
    let s1 := match b.src with
      | some a => carryPoison s0 a p.loc 64
      | none => s0
    .ok (toHost s1 p.mt p.loc b.bytes (decide (p.mt = 2)))

/-- The header of an image without its tag (R321). -/
def imageHead (e : OwnEntry) : Nat :=
  0x53574650 + 2 ^ 32 + e.part % 32 * 2 ^ 48 + e.key * 2 ^ 64 + (if e.owned then e.olid else 0) * 2 ^ 128 + e.dmask.toNat * 2 ^ 160
    + e.epoch * 2 ^ 192

/-- The tag over header bytes 0 to 55 and the rows (R321). -/
def imageTag (s : State) (e : OwnEntry) (head : Nat) (rows : List Byte) : Nat :=
  (Config.gmacTag (SMap.get 0 s.hub.keySlots (partOf s e.part).skey) 0 ((toBytes 56 head) ++ rows)).toNat % 2 ^ 64

/-- The blocks an eviction writes, in order: the rows of DMASK, then the header (R322). -/
def imageBlocks (s : State) (u : Nat) (e : OwnEntry) : List ImageBlock :=
  let rows := (List.range 32).map fun i => rowBytes (tileRow s u e.tile i)
  let head := imageHead e
  (lanesOf e.dmask).flatMap (fun i => (List.range 4).map fun q =>
      { off := 64 + 256 * i + 64 * q, src := some (accLoc (elemKey u e.tile i (16 * q))), bytes := ((rows.getD i []).drop (64 * q)).take 64 })
    ++ [{ off := 0, src := none, bytes := toBytes 64 (head + imageTag s e head rows.flatten * 2 ^ 448) }]

/-- Some block of an image, or of the tables that lead there, lies under a tenure that another fibre has pinned: its access waits (R117). -/
def imageWaits (s : State) (f : Option Nat) (core : Nat) (e : OwnEntry) (write : Bool) : Bool :=
  let kind := if write then kWrite else kRead
  (List.range 129).any fun q => match imagePiece s e (64 * q) kind with
    | .ok p => (inMem p.loc && recallWaits s f core (p.loc / 128) write) || (p.leaf.map (leafWaits s f kind)).getD false
    | .error _ => false

/-- Write blocks until one fails; what was written stays. -/
def writeBlocks (f : Option Nat) (core : Nat) (e : OwnEntry) : List ImageBlock → State → State × Option Flt
  | [], s => (s, none)
  | b :: l, s => match imageWrite s f core e b with
    | .ok t => writeBlocks f core e l t
    | .error x => (s, some x)

/-- Evict entry k of a sub-core (R322): EPOCH advances, DMASK and EF clear; a failure sets EF and leaves the rest (R325). -/
def evict (s : State) (f : Option Nat) (u k : Nat) (e : OwnEntry) : State × Option Flt :=
  let n := { e with epoch := (e.epoch + 1) % 2 ^ 32 }
  let r := writeBlocks f (u / 4) n (imageBlocks s u n) s
  match r.2 with
  | none => (setOwn r.1 u k (some { n with dmask := 0, ef := false, lastUse := s.tick }), none)
  | some x => (setOwn r.1 u k (some { e with ef := true }), some x)

/-- Read the image of an entry: its bytes, or the failure (R323). -/
def readImage (s : State) (core : Nat) (e : OwnEntry) : Except Flt (List Byte × State) :=
  (List.range 129).foldl (fun acc q => match acc with
    | .error x => .error x
    | .ok (l, t) => match imagePiece t e (64 * q) kRead with
      | .error x => .error x
      | .ok p =>
        if poisoned t.mem p.loc 64 then .error { cause := cRESTINT, addr := e.spa, info := 0 }
        else
          let t1 := arrive (imageCommit t e kRead p) (imageReq core e p) false p.key p.mt p.loc
          .ok (l ++ readBytes t1 p.key p.loc 64, t1)) (.ok ([], s))

/-- The header of an image is the entry's, every res bit 0 and the tag right (R323). -/
def imageAccepted (s : State) (e : OwnEntry) (img : List Byte) : Bool :=
  let h := ofBytes (img.take 64)
  bits h 0 32 == 0x53574650 && bits h 32 16 == 1 && bits h 53 11 == 0 && bits h 224 224 == 0 && bits h 48 5 == e.part && bits h 64 64 == e.key
    && bits h 192 32 == e.epoch && bits h 448 64 == imageTag s e (h % 2 ^ 448) (img.drop 64)

/-- Put an accepted image into a tile (R320, R323). -/
def putImage (s : State) (u p : Nat) (img : List Byte) : State :=
  resetSides ((List.range 32).foldl (fun t i => setTileRow t u p i (wordsOf ((img.drop (64 + 256 * i)).take 256))) s) u p

/-- Refill entry k into a tile (R323). -/
def refill (s : State) (u k : Nat) (e : OwnEntry) (p : Nat) : Except Flt State :=
  match readImage s (u / 4) e with
  | .error x => .error x
  | .ok (img, s1) =>
    if imageAccepted s1 e img then
      .ok (setOwn (putImage s1 u p img) u k (some { e with res := true, dmask := 0, tile := p, lastUse := s.tick }))
    else .error { cause := cRESTINT, addr := e.spa, info := 0 }

/-- How a tile that an instruction names comes to hand. -/
inductive TileNow where
  | fault (e : Flt)
  | wait
  | ready (s : State)

/-- An owned, evicted state is refilled before an instruction that names its tile proceeds (R324). -/
def bringTile (s : State) (f t p : Nat) : TileNow :=
  match pinOf s f t with
  | some (k, e) =>
    if e.res then .ready (setOwn s (subOf f) k (some { e with lastUse := s.tick }))
    else if imageWaits s (some f) (coreOf f) e false then .wait
    else match refill s (subOf f) k e p with
      | .ok u => .ready u
      | .error x => .fault x
  | none => .ready s

end Sys2Proof.Machine
end

