-- ==== Sys2Proof/Machine/Special.lean ====
section
/-! DEFINITION. The special functions of R298, correctly rounded: exact integer methods for RCP, RSQ and SQRT, and
interval evaluation in fixed point for the transcendental ones. -/

namespace Sys2Proof.Machine

/-! ## Reciprocal and square roots -/

/-- Integer square root, one result bit for each unit of fuel (bits from `2^(k-1)` down). -/
def isqrtBits (n : Nat) : Nat → Nat → Nat
  | 0, acc => acc
  | k + 1, acc =>
    let t := acc + 2 ^ k
    isqrtBits n k (if t * t ≤ n then t else acc)

/-- ⌊√n⌋. -/
def isqrt (n : Nat) : Nat := isqrtBits n (Nat.log2 n / 2 + 1) 0

/-- A value a little above m · 2^e and below (m + 1) · 2^e, standing for every value strictly between them; exact where
`exact` holds. -/
def sticky (neg : Bool) (m : Nat) (e : Int) (exact : Bool) : Num :=
  if exact then .fin neg m e else .fin neg (2 * m + 1) (e - 1)

/-- 1 / (m · 2^e) to 128 bits beyond the operand, with a sticky bit. -/
def recipNum (neg : Bool) (m : Nat) (e : Int) : Num :=
  let k := Nat.log2 m + 128
  sticky neg (2 ^ k / m) (-(k : Int) - e) (2 ^ k % m == 0)

/-- √(m · 2^e) with a sticky bit. -/
def sqrtNum (m : Nat) (e : Int) : Num :=
  let pad : Nat := 256 + (if (e - 256) % 2 = 0 then 0 else 1)
  let n := m * 2 ^ pad
  let r := isqrt n
  sticky false r ((e - pad) / 2) (r * r == n)

/-- 1 / √(m · 2^e) with a sticky bit: √ of the reciprocal scaled to an even exponent. -/
def rsqNum (m : Nat) (e : Int) : Num :=
  -- 1/√(m·2^e) = √(2^k/m) · 2^((-k-e)/2) with -k-e even
  let k0 := Nat.log2 m + 256
  let k := if (-(k0 : Int) - e) % 2 = 0 then k0 else k0 + 1
  let n := 2 ^ k / m
  let r := isqrt n
  sticky false r ((-(k : Int) - e) / 2) (r * r * m == 2 ^ k)

/-- RCP (R298). -/
def rcpVal : Num → Num
  | .nan => .nan
  | .inf s => .fin s 0 0
  | .fin s m e => if m = 0 then .inf s else recipNum s m e

/-- RSQ (R298). -/
def rsqVal : Num → Num
  | .nan => .nan
  | .inf s => if s then .nan else .zero
  | .fin s m e => if m = 0 then .inf s else if s then .nan else rsqNum m e

/-- SQRT (R298). -/
def sqrtVal : Num → Num
  | .nan => .nan
  | .inf s => if s then .nan else .inf false
  | .fin s m e => if m = 0 then .fin s 0 0 else if s then .nan else sqrtNum m e

/-! ## Fixed-point series

Every helper works in units of 2^-w and truncates; a caller widens its result by 2^-(w-40), far above the error of the
operations, fewer than 2^30 at every precision that an operand needs. -/

/-- Σ of the odd series y + y³/3 + y⁵/5 + … (atanh): `pw` is the current odd power, `y2` the square. -/
def atanhSeries (w y2 : Nat) : Nat → Nat → Nat → Nat → Nat
  | 0, _, _, acc => acc
  | fuel + 1, k, pw, acc => atanhSeries w y2 fuel (k + 2) (pw * y2 / 2 ^ w) (acc + pw / k)

/-- atanh of y / 2^w, for y at most a third. -/
def atanhFix (w y : Nat) : Nat := atanhSeries w (y * y / 2 ^ w) (w / 2) 1 y 0

/-- ln 2 in units of 2^-w. -/
def ln2Fix (w : Nat) : Nat := 2 * atanhFix w (2 ^ w / 3)

/-- Σ xⁿ/n!. -/
def expSeries (w x : Nat) : Nat → Nat → Nat → Nat → Nat
  | 0, _, _, acc => acc
  | fuel + 1, n, term, acc => expSeries w x fuel (n + 1) (term * x / (2 ^ w * n)) (acc + term)

/-- e^x for x in [0, 1], in units of 2^-w. -/
def expFix (w x : Nat) : Nat := expSeries w x (w / 2) 1 (2 ^ w) 0

/-- arctan of 1/q: the alternating series, `pos` the sum of the positive and `sub` of the negative terms. -/
def arctanSeries (q2 : Nat) : Nat → Nat → Nat → Bool → Nat → Nat → Nat
  | 0, _, _, _, pos, sub => pos - sub
  | fuel + 1, k, pw, plus, pos, sub =>
    arctanSeries q2 fuel (k + 2) (pw / q2) (!plus) (if plus then pos + pw / k else pos) (if plus then sub else sub + pw / k)

/-- arctan(1/q) in units of 2^-w. -/
def arctanInv (w q : Nat) : Nat := arctanSeries (q * q) (w / 2) 1 (2 ^ w / q) true 0 0

/-- π/2 in units of 2^-w, by Machin's formula: π/4 = 4 arctan(1/5) − arctan(1/239). -/
def halfPiFix (w : Nat) : Nat := 2 * (4 * arctanInv w 5 - arctanInv w 239)

/-- The alternating series of sine (n0 = 1, term x) or cosine (n0 = 0, term 1). -/
def trigSeries (w x2 : Nat) : Nat → Nat → Nat → Bool → Nat → Nat → Int
  | 0, _, _, _, pos, sub => (pos : Int) - sub
  | fuel + 1, n, term, plus, pos, sub =>
    trigSeries w x2 fuel (n + 2) (term * x2 / (2 ^ w * ((n + 1) * (n + 2)))) (!plus)
      (if plus then pos + term else pos) (if plus then sub else sub + term)

/-- sin of x / 2^w, x in [0, π/2]. -/
def sinFix (w x : Nat) : Int := trigSeries w (x * x / 2 ^ w) (w / 4) 1 x true 0 0
/-- cos of x / 2^w, x in [0, π/2]. -/
def cosFix (w x : Nat) : Int := trigSeries w (x * x / 2 ^ w) (w / 4) 0 (2 ^ w) true 0 0

/-- The two ends of an interval around v / 2^w, scaled by 2^k: v widened by 2^40 on either side, never below zero. -/
def ends (neg : Bool) (w v : Nat) (k : Int) : Num × Num :=
  (.fin neg (v - 2 ^ 40) (k - w), .fin neg (v + 2 ^ 40) (k - w))

/-- m · 2^e in units of 2^-w, rounded down. -/
def toFix (w m : Nat) (e : Int) : Nat :=
  if 0 ≤ e + w then m * 2 ^ (e + w).toNat else m / 2 ^ (-(e + w)).toNat

/-- 2^a for a finite non-integral a: the interval. -/
def ex2Ends (w : Nat) (neg : Bool) (m : Nat) (e : Int) : Num × Num :=
  if 0 ≤ e + (Nat.log2 m : Int) - 16 then
    -- beyond 2^16 in magnitude: above every format's range, or below it
    (if neg then (.fin false 1 (-65536), .fin false 2 (-65536)) else (.fin false 1 65536, .fin false 2 65536))
  else
    let a := toFix w m e
    let n := a / 2 ^ w
    let f := a % 2 ^ w
    if neg then ends false w (expFix w ((2 ^ w - f) * ln2Fix w / 2 ^ w)) (-(n : Int) - 1)
    else ends false w (expFix w (f * ln2Fix w / 2 ^ w)) n

/-- log2 of m · 2^e, no power of two: the interval. -/
def lg2Ends (w m : Nat) (e : Int) : Num × Num :=
  let l := Nat.log2 m
  let z := m * 2 ^ w / 2 ^ l
  let y := (z - 2 ^ w) * 2 ^ w / (z + 2 ^ w)
  let frac := 2 * atanhFix w y * 2 ^ w / ln2Fix w
  let n : Int := e + l
  let v : Int := n * (2 ^ w : Nat) + frac
  if v < 0 then ends true w v.natAbs 0 else ends false w v.natAbs 0

/-- sin or cos of ±m · 2^e with exact reduction by π/2: the interval. -/
def trigEnds (w : Nat) (isCos : Bool) (neg : Bool) (m : Nat) (e : Int) : Num × Num :=
  let ww := w + 200
  let p := halfPiFix ww
  let a := toFix ww m e
  let n := a / p
  let r := a % p / 2 ^ 200
  let quad := (n + (if isCos then 1 else 0)) % 4
  let v := if quad % 2 = 0 then sinFix w r else cosFix w r
  let s := (decide (2 ≤ quad)) != (neg && !isCos)
  ends (if v < 0 then !s else s) w v.natAbs 0

/-- tanh of ±m · 2^e: the interval; (1 − t)/(1 + t) with t = e^(−2|a|). -/
def tanhEnds (w : Nat) (neg : Bool) (m : Nat) (e : Int) : Num × Num :=
  if 0 ≤ e + (Nat.log2 m : Int) - 8 then (.fin neg (2 ^ 256 - 1) (-256), .fin neg 1 0)
  else
    let a2 := toFix w (2 * m) e
    let l2 := ln2Fix w
    let n := a2 / l2
    let t := 2 ^ (2 * w) / expFix w (a2 % l2) / 2 ^ n
    ends neg w ((2 ^ w - t) * 2 ^ w / (2 ^ w + t)) 0

/-- The transcendental functions. -/
inductive Trans where
  | ex2 | lg2 | sin | cos | tanh
  deriving DecidableEq, Repr

/-- The special operands and the exact results of R298; none where the value is irrational. -/
def transExact : Trans → Num → Option Num
  | _, .nan => some .nan
  | .ex2, .inf s => some (if s then .zero else .inf false)
  | .ex2, .fin s m e =>
    if m = 0 then some (.fin false 1 0)
    else if 0 ≤ e then
      (if e + (Nat.log2 m : Int) ≤ 32 then some (.fin false 1 (if s then -((m * 2 ^ e.toNat : Nat) : Int) else ((m * 2 ^ e.toNat : Nat) : Int)))
       else none)
    else if m % 2 ^ (-e).toNat = 0 then
      (let k : Int := ((m / 2 ^ (-e).toNat : Nat) : Int)
       if k < 2 ^ 32 then some (.fin false 1 (if s then -k else k)) else none)
    else none
  | .lg2, .inf s => some (if s then .nan else .inf false)
  | .lg2, .fin s m e =>
    if m = 0 then some (.inf true)
    else if s then some .nan
    else if m = 2 ^ Nat.log2 m then some (Num.ofInt (e + Nat.log2 m))
    else none
  | .sin, .inf _ => some .nan
  | .sin, .fin s m _ => if m = 0 then some (.fin s 0 0) else none
  | .cos, .inf _ => some .nan
  | .cos, .fin _ m _ => if m = 0 then some (.fin false 1 0) else none
  | .tanh, .inf s => some (.fin s 1 0)
  | .tanh, .fin s m _ => if m = 0 then some (.fin s 0 0) else none

/-- The interval of an irrational result. -/
def transEnds (f : Trans) (w : Nat) (neg : Bool) (m : Nat) (e : Int) : Num × Num :=
  match f with
  | .ex2 => ex2Ends w neg m e
  | .lg2 => lg2Ends w m e
  | .sin => trigEnds w false neg m e
  | .cos => trigEnds w true neg m e
  | .tanh => tanhEnds w neg m e

/-- Round both ends of the interval, doubling the precision until they agree. Every value that reaches this is irrational, so some
precision separates it from the rounding boundaries; the bound on the doublings lies past every operand's (log 15). -/
def transRound (f : Trans) (fm : FloatFmt) (clamp : Bool) (scale : Int) (neg : Bool) (m : Nat) (e : Int) : Nat → Nat → Nat
  | fuel, w =>
    let p := transEnds f w neg m e
    let lo := roundTo fm (.mode .rne) clamp (p.1.scaleBy scale)
    let hi := roundTo fm (.mode .rne) clamp (p.2.scaleBy scale)
    match fuel with
    | 0 => lo
    | n + 1 => if lo = hi then lo else transRound f fm clamp scale neg m e n (2 * w)

/-- RoundTo(F, RNE) of f(a) · 2^scale for a value a, correctly rounded (R298, R276). -/
def transTo (f : Trans) (fm : FloatFmt) (clamp : Bool) (scale : Int) (a : Num) : Nat :=
  match transExact f a with
  | some r => roundTo fm (.mode .rne) clamp (r.scaleBy scale)
  | none =>
    match a with
    | .fin s m e => transRound f fm clamp scale s m e 64 704
    | _ => fm.nan

end Sys2Proof.Machine
end

