-- ==== Sys2Proof/Machine/Matrix.lean ====
section
/-! DEFINITION. Reservations, the operand buffer, and the matrix instructions ORSV, ORFREE, OBLD, OBST, MMA, MSMX, MZERO, MLD,
MST and MREAD (spec/13; sums and block scales of spec/11). -/

namespace Sys2Proof.Machine

/-! ## Reservations (R303, R304, R310) -/

/-- The record of 256 bits as a binding. -/
def recordOf (v : Nat) : Reservation :=
  { off := bits v 0 18, rows := bits v 24 7, klen := bits v 32 11, ety := bits v 48 4, nfc := bits v 52 8, blk := bits v 60 2,
    rstr := bits v 64 18, soff := bits v 96 20, sstr := bits v 120 8, rmt := v.testBit 128, rcore := bits v 129 2, roff := bits v 136 20 }

/-- The bytes of an element. -/
def elemSize (r : Reservation) : Nat := if r.ety = 13 then 1 else 2

/-- A record is invalid (R310, point 2). -/
def recordInvalid (v : Nat) : Bool :=
  let r := recordOf v
  bits v 18 6 != 0 || bits v 31 1 != 0 || bits v 43 5 != 0 || bits v 62 2 != 0 || bits v 82 14 != 0 || bits v 116 4 != 0
    || bits v 131 5 != 0 || bits v 156 100 != 0
    || r.off % 16 != 0 || (r.rmt && r.off != 0) || r.rows == 0 || decide (64 < r.rows) || decide (r.klen < 16) || decide (1024 < r.klen)
    || r.klen % 16 != 0 || !([7, 8, 13].contains r.ety)
    || (if r.ety = 13 then r.nfc % 8 == 0 || decide (32 ≤ r.nfc) else r.nfc != 0 || r.blk != 0)
    || r.blk == 3 || (r.blk != 0 && r.klen % (16 * r.blk) != 0) || r.rstr % 16 != 0 || decide (r.rstr < r.klen * elemSize r)
    || (if r.blk = 0 then r.soff != 0 || r.sstr != 0 else r.sstr == 0) || (!r.rmt && (r.rcore != 0 || r.roff != 0))

/-- The number 0 to 15 of the ob an operand names. -/
def obName (o : Opnd) : Nat := opndNum o

/-- ORSV (R310). -/
def execOrsv (a : Args) (s : State) : Result :=
  let f := s.cur
  let s0 := drainAll (settleLate s f) f
  if !drained s0 f then hold s0
  else
    let off := scalar s0 a.s0
    match scratchRecord s0 off 32 with
    | .error e => .next (trapAll s0 e)
    | .ok v =>
      let r := recordOf v
      let size := (wgOf s0 f).obSize
      if recordInvalid v then .next (trapAll s0 { cause := cRESERVED, addr := off, info := 0 })
      else if !r.rmt && (decide (size < r.off + r.rows * r.rstr) || decide (size < r.soff + r.rows * r.sstr)) then
        .next (trapAll s0 { cause := cOBRANGE, addr := off, info := obName a.d.opnd })
      else .next (goOn (obSet s0 f (obName a.d.opnd) (some r)))

/-- ORFREE (R310). -/
def execOrfree (a : Args) (s : State) : Result := .next (goOn (obSet s s.cur (obName a.s0) none))

/-- The binding of a name, or OB_RANGE (R310). -/
def bound (s : State) (f n : Nat) : Except Flt Reservation :=
  match FMap.find (fib s f).obs n with
  | some r => .ok r
  | none => .error (obFault 0 n)

/-! ## OBLD, OBST (R311) -/

/-- The operand-buffer place of a lane's block, or OB_RANGE. -/
def obBlock (s : State) (f name q n : Nat) : Except Flt Piece :=
  if q % n ≠ 0 then .error (obFault q name)
  else match obPieces s f name q n with
    | .ok (p :: _) => .ok p
    | .ok [] => .error (obFault q name)
    | .error e => .error e

/-- The checks of the lanes: R87 first, then the reservation; a store also reads the block (R373). -/
def obChecks (s : State) (a : Args) (n kind : Nat) : List (Nat × Except Flt (List Piece)) :=
  (laneChecks s a n kind .wide).map fun c =>
    (c.1, match c.2 with
      | .error e => .error e
      | .ok ps => match obBlock s s.cur (obName a.d.opnd) (srcVal s .n32 0 a.s1 c.1) n with
        | .error e => .error e
        | .ok p => if kind = kWrite ∧ poisoned s.mem p.loc n then .error { cause := cECC, addr := 0, info := 5 } else .ok ps)

/-- The place of a lane's block in the operand buffer. -/
def obLane (s : State) (a : Args) (n lane : Nat) : Nat :=
  match obBlock s s.cur (obName a.d.opnd) (srcVal s .n32 0 a.s1 lane) n with
  | .ok p => p.loc
  | .error _ => 0

/-- An OBLD or OBST whose name is bound, where a lane is active. -/
def withBound (a : Args) (act : Result) (s : State) : Result :=
  if active s a = 0 then .next (goOn s)
  else match bound s s.cur (obName a.d.opnd) with
    | .error e => .next (trapAll s e)
    | .ok _ => act

/-- OBLD (R311): its write of the operand buffer does not go through the store queue, so the writes queued before it are performed first
(R134, R305). -/
def execObld (a : Args) (s : State) : Result :=
  let n := blockBytes a.ty
  let s0 := drainAll s s.cur
  withBound a (if drained s0 s.cur then
      execLoadOf a (fun t => obChecks t a n kRead) (failures s a)
        (fun t i l => performWrite t (.fibre t.cur) (coreOf t.cur) 0 4 (obLane t a n i) l false none) s0
    else hold s0) s

/-- OBST (R311): queued as STX is (R132); its reads of the operand buffer are accesses of the fibre (R305). -/
def execObst (a : Args) (s : State) : Result :=
  let n := blockBytes a.ty
  let cs := obChecks s a n kWrite
  withBound a (execStoreOf a cs (failures s a cs) kWrite none (fun i => readValue s s.cur (obLane s a n i) n)
    (noteReads s s.cur ((passed cs).map fun p => (obLane s a n p.1, n)))) s

/-! ## Operands of MMA (R280 to R282, R303, R306) -/

/-- The place of bytes of a reservation's rows or scale streams, or the failure of the read. -/
def operandAt (s : State) (f : Nat) (r : Reservation) (off n : Nat) : Except Flt Nat :=
  if r.rmt then
    let q := r.rcore * 2 ^ 20 + off
    if 2 ^ 20 < off + n then .error (windowFault q kRead)
    else match locateIn s f 0 5 q q n kRead false with
      | .ok (p :: _) => if poisoned s.mem p.loc n then .error { cause := cECC, addr := q, info := 4 } else .ok p.loc
      | .ok [] => .error (windowFault q kRead)
      | .error e => .error e
  else
    let loc := obLoc (subOf f) (obBaseOf s f + off)
    if poisoned s.mem loc n then .error { cause := cECC, addr := 0, info := 5 } else .ok loc

/-- Up to `n` bytes from an offset, and the failure that ends them early. -/
def operandBytes (s : State) (f : Nat) (r : Reservation) : Nat → Nat → List Byte × Option Flt
  | 0, _ => ([], none)
  | n + 1, off =>
    match operandAt s f r off 1 with
    | .error e => ([], some e)
    | .ok loc => let l := operandBytes s f r n (off + 1); (readValue s f loc 1 ++ l.1, l.2)

/-- The bytes of a row's scale stream, as far as its scales can reach (R281). -/
def scaleBytes (s : State) (f : Nat) (r : Reservation) (row : Nat) : List Byte × Option Flt :=
  operandBytes s f r (min 97 ((r.rows - row) * r.sstr)) (r.soff + row * r.sstr)

/-- The scale of block `k` of a row (R281, R282). -/
def rowScale (s : State) (f : Nat) (r : Reservation) (row k : Nat) : Except Flt Nat :=
  let start := r.soff + row * r.sstr
  let l := scaleBytes s f r row
  let bad (n : Nat) : Flt :=
    { cause := cRESERVED, addr := start + n / 2, info := n % 2 + 2 * row + (if r.rmt then 128 else 0) }
  match decodeScales l.1 (k + 1), l.2 with
  | .ok es, _ => .ok (es.getD k 0)
  | .error n, some e => if n / 2 < l.1.length then .error (bad n) else .error e
  | .error n, none => .error (bad n)

/-- The elements of bytes. -/
def elemsOf (r : Reservation) (l : List Byte) : List Num :=
  (List.range (l.length / elemSize r)).map fun k => decodeFloat (tyOf r.ety) r.nfc (ofBytes ((l.drop (k * elemSize r)).take (elemSize r)))

/-- `n` elements of a row from element k0 on, before block scaling. -/
def rowElems (s : State) (f : Nat) (r : Reservation) (row k0 n : Nat) : Except Flt (List Num) :=
  match operandAt s f r ((if r.rmt then r.roff else r.off) + row * r.rstr + k0 * elemSize r) (n * elemSize r) with
  | .error e => .error e
  | .ok loc => .ok (elemsOf r (readValue s f loc (n * elemSize r)))

/-- Where the elements of a row lie from element k0 on: what reading them accesses (R305). -/
def rowPlace (s : State) (f : Nat) (r : Reservation) (k0 n row : Nat) : List (Nat × Nat) :=
  match operandAt s f r ((if r.rmt then r.roff else r.off) + row * r.rstr + k0 * elemSize r) (n * elemSize r) with
  | .ok loc => [(loc, n * elemSize r)]
  | .error _ => []

/-- The bytes of a row's scale stream that its first k + 1 scales take (R281, R305). -/
def scalePlaces (s : State) (f : Nat) (r : Reservation) (row k : Nat) : List (Nat × Nat) :=
  let l := (scaleBytes s f r row).1
  let used := ((List.range (l.length + 1)).find? fun j => match decodeScales (l.take j) (k + 1) with
    | .ok _ => true
    | .error _ => false).getD l.length
  (List.range used).filterMap fun j => match operandAt s f r (r.soff + row * r.sstr + j) 1 with
    | .ok loc => some (loc, 1)
    | .error _ => none

/-- What reading the operands of a row in k-step `t` accesses. -/
def stepPlaces (s : State) (f : Nat) (r : Reservation) (t row : Nat) : List (Nat × Nat) :=
  rowPlace s f r (16 * t) 16 row ++ (if r.blk = 0 then [] else scalePlaces s f r row (t / r.blk))

/-- The 16 operand values of a row in k-step `t` (R280). -/
def stepElems (s : State) (f : Nat) (r : Reservation) (t row : Nat) : Except Flt (List Num) :=
  match rowElems s f r row (16 * t) 16 with
  | .error e => .error e
  | .ok l =>
    if r.blk = 0 then .ok l
    else match rowScale s f r row (t / r.blk) with
      | .error e => .error e
      | .ok e => .ok (l.map (applyE8 e))

/-! ## MMA (R283, R284, R307, R308, R312) -/

/-- A row of C after a k-step: `g` is the row factor where it applies (R283, R284). -/
def mmaRow (g : Option Nat) (c : List Nat) (x : List Num) (b : List (List Num)) : List Nat :=
  (c.zip b).map fun p =>
    let old := match g with
      | some v => (numF32 p.1).mul (numF32 v)
      | none => numF32 p.1
    roundF32 (sumNum .rne (old :: List.zipWith Num.mul x p.2))

/-- The factor of a row: g where armed, else 1 (R312). -/
def rowFactor (s : State) (u p i : Nat) : Nat :=
  let d := sideOf s u p i
  if d.2.2.2 then d.2.2.1.toNat else 0x3F800000

/-- The factor of a row is consumed. -/
def consumeFactor (s : State) (u p i : Nat) : State :=
  let d := sideOf s u p i
  setSide s u p i (d.1, d.2.1, 0x3F800000, false)

/-- What a k-step reads of A and B, or the failure that stops it; poison in the tile stops it too (R308, R373). -/
def stepOperands (s : State) (f p : Nat) (ra rb : Reservation) (t : Nat) (m : LaneMask) : Except Flt (List (Nat × List Num) × List (List Num)) :=
  if (lanesOf m).any (rowPoisoned s (subOf f) p) then .error { cause := cECC, addr := 0, info := 6 }
  else match (lanesOf m).mapM fun i => (stepElems s f ra t i).map fun l => (i, l) with
    | .error e => .error e
    | .ok as_ => match (List.range 64).mapM (stepElems s f rb t) with
      | .error e => .error e
      | .ok bs => .ok (as_, bs)

/-- K-step `t` of an MMA on the rows of a mask. -/
def kStep (s : State) (f p : Nat) (ra rb : Reservation) (resc : Bool) (t : Nat) (m : LaneMask) : Except Flt State :=
  match stepOperands s f p ra rb t m with
  | .error e => .error e
  | .ok (as_, bs) =>
    let u := subOf f
    let first := resc && t == 0
    .ok (as_.foldl (fun v x =>
      let g := if first then some (rowFactor s u p x.1) else none
      let v1 := setTileRow v u p x.1 (mmaRow g (tileRow s u p x.1) x.2 bs)
      if first then consumeFactor v1 u p x.1 else v1)
      (noteReads s f (if tracked s then (lanesOf m).flatMap (stepPlaces s f ra t) ++ (List.range 64).flatMap (stepPlaces s f rb t) else [])))

/-- %prog of a stopped instruction (R307). -/
def progWord (count opc : Nat) (m : LaneMask) : BitVec 64 := BitVec.ofNat 64 (count + opc * 2 ^ 16 + 2 ^ 26 + m.toNat * 2 ^ 32)

/-- V of %prog. -/
def progValid (x : Fibre) : Bool := x.prog.getLsbD 26

/-- An instruction waits at issue for a stopped one that it is not (R308). -/
def progBars (x : Fibre) (opc : Nat) (m : LaneMask) : Bool :=
  progValid x && (bits x.prog.toNat 16 10 != opc || x.prog.toNat / 2 ^ 32 != m.toNat)

/-- The unit a resumable instruction starts at. -/
def progStart (x : Fibre) : Nat := if progValid x then x.prog.toNat % 2 ^ 16 else 0

/-- The instruction completes: V returns to 0. -/
def clearProg (s : State) (f : Nat) : State := modFib s f fun x => { x with prog := x.prog &&& ~~~ (BitVec.ofNat 64 (2 ^ 26)) }

/-- The instruction stops at a unit. -/
def stopProg (s : State) (f count opc : Nat) (m : LaneMask) : State := modFib s f fun x => { x with prog := progWord count opc m }

/-- After how many units a pre-emption stops the instruction, as the next stop point tells; 0 for none (log 23). -/
def takeStop (s : State) : Nat × State :=
  match s.stopPts with
  | n :: l => (n, { s with stopPts := l })
  | [] => (0, s)

/-- How a run of units ends: complete, stopped for a pre-emption, or at a fault. -/
inductive UnitEnd where
  | done
  | stopped (count : Nat)
  | fault (count : Nat) (e : Flt)

/-- Run units `t` to `n` − 1; `k` counts down to a pre-emption, 0 for none. -/
def runUnits (unit : Nat → State → Except Flt State) : Nat → Nat → Nat → State → State × UnitEnd
  | 0, _, _, s => (s, .done)
  | fuel + 1, t, k, s =>
    match unit t s with
    | .error e => (s, .fault t e)
    | .ok s1 => if k = 1 ∧ fuel ≠ 0 then (s1, .stopped (t + 1)) else runUnits unit fuel (t + 1) (k - 1) s1

/-- Run a resumable instruction of `n` units on the lanes of a mask: the end of R308. Where `whole`, the instruction completes or
does nothing, and a fault leaves %prog. -/
def runResumable (opc n : Nat) (whole : Bool) (m : LaneMask) (unit : Nat → State → Except Flt State) (s : State) : Result :=
  let f := s.cur
  let k := takeStop s
  let t0 := progStart (fib s f)
  let r := runUnits unit (n - t0) t0 k.1 k.2
  match r.2 with
  | .done => .next (goOn (clearProg r.1 f))
  | .stopped c => .next (stopProg r.1 f c opc m)
  | .fault c e =>
    let s1 := if whole then r.1 else stopProg r.1 f c opc m
    .next (trapLanes (advance s1 (s.grp &&& ~~~ m)) m e.cause e.addr e.info)

/-- The tile of an instruction comes to hand, or the instruction traps or waits (R299, R324). -/
def withTile (s : State) (t : Nat) (act : Nat → State → Result) : Result :=
  match physTile s s.cur t with
  | .error e => .next (trapAll s e)
  | .ok p => match bringTile s s.cur t p with
    | .fault e => .next (trapAll s e)
    | .wait => holdLong s
    | .ready s1 => act p s1

/-- The checks of MMA at issue, in their order (R312). -/
def mmaChecks (s : State) (a : Args) (t : Nat) : Except Flt (Reservation × Reservation) :=
  match physTile s s.cur t with
  | .error e => .error e
  | .ok _ => match bound s s.cur (obName a.s0) with
    | .error e => .error e
    | .ok ra => match bound s s.cur (obName a.s1) with
      | .error e => .error e
      | .ok rb =>
        if ra.rows = 32 ∧ rb.rows = 64 ∧ ra.klen = rb.klen then .ok (ra, rb)
        else .error { cause := cRESERVED, addr := 0, info := obName a.s1 }

/-- MMA and MMA.resc (R312); the issue is a release at .core (R305). -/
def execMmaForm (a : Args) (resc : Bool) (s : State) : Result :=
  let f := s.cur
  let m := active s a
  let t := codeOf a.s2 % 16
  if m = 0 then .next (goOn s)
  else if progBars (fib s f) 0x284 m then hold s
  else match mmaChecks s a t with
    | .error e => .next (trapAll s e)
    | .ok (ra, rb) =>
      let s0 := drainAll s f
      if !drained s0 f then hold s0
      else withTile s0 t (fun p s1 =>
        runResumable 0x284 (ra.klen / 16) false m (fun k v => (kStep v f p ra rb resc k m).map fun w => markRows w f t m) (releaseFence s1 f 1))

/-- MMA (R283, R312). -/
def execMma (a : Args) (s : State) : Result := execMmaForm a false s
/-- MMA.resc (R284, R312). -/
def execMmaResc (a : Args) (s : State) : Result := execMmaForm a true s

/-! ## MSMX (R285, R313) -/

/-- RoundTo(f32, RNE)((x − M) · c). -/
def softArg (x m c : Nat) : Nat := roundF32 ((sumNum .rne [numF32 x, (numF32 m).negate]).mul (numF32 c))

/-- A row of the softmax step: p as bf16 codes, g_new (0 where m was −Inf, log 39), l and M, from the scores, m, l and c (R285). -/
structure SoftRow where
  p : List Nat
  g : Nat
  l : Nat
  m : Nat

/-- R285 on one row. -/
def softRow (scores : List Nat) (m l c : Nat) : SoftRow :=
  let top := scores.foldl (fun b x => floatMinMax .f32 0 true b x) m
  let none_ := numF32 top == .inf true
  let p := if none_ then List.replicate 64 0 else scores.map fun x => transTo .ex2 fmtBF16 false 0 (numF32 (softArg x top c))
  let g := if none_ then 0x3F800000 else if numF32 m == .inf true then 0 else transTo .ex2 fmtF32 false 0 (numF32 (softArg m top c))
  { p := p, g := g, m := top,
    l := roundF32 (sumNum .rne ((numF32 l).mul (numF32 g) :: p.map (decodeFloat .bf16 0))) }

/-- The step on one lane's row: p into the reservation, the side registers of the output tile (R313). -/
def softLane (s : State) (f ps po : Nat) (r : Reservation) (b c : Nat) (t : State) (i : Nat) : State :=
  let u := subOf f
  let d := sideOf s u po i
  let x := softRow (tileRow s u ps i) d.1.toNat d.2.1.toNat c
  let loc := obLoc u (obBaseOf s f + r.off + i * r.rstr + 128 * b)
  let t1 := performWrite t (.fibre f) (coreOf f) 0 4 loc (x.p.flatMap (toBytes 2)) false none
  setSide t1 u po i (BitVec.ofNat 32 x.m, BitVec.ofNat 32 x.l, BitVec.ofNat 32 (if d.2.2.2 then mulF32 d.2.2.1.toNat x.g else x.g), true)

/-- The reservation of p: local, bf16, without scales, 32 rows, wide enough (R313). -/
def softTarget (s : State) (name b : Nat) : Except Flt Reservation :=
  match bound s s.cur name with
  | .error e => .error e
  | .ok r =>
    if r.rmt then .error (obFault 0 name)
    else if r.ety = 8 ∧ r.blk = 0 ∧ r.rows = 32 ∧ 64 * (b + 1) ≤ r.klen then .ok r
    else .error { cause := cRESERVED, addr := 0, info := name }

/-- The active lanes where some of the `n` columns read of a tile's row, from column `j` on, is poisoned (R373). -/
def tileFaults (s : State) (f p j n : Nat) (m : LaneMask) : List (Nat × Flt) :=
  ((lanesOf m).filter fun i => colsPoisoned s (subOf f) p i j n).map fun i => (i, { cause := cECC, addr := 0, info := 6 })

/-- MSMX (R313). -/
def execMsmx (a : Args) (s : State) : Result :=
  let f := s.cur
  let m := active s a
  let code := codeOf a.s2
  let b := codeOf a.s3
  if m = 0 then .next (goOn s)
  else match physTile s f (code % 16), physTile s f (code / 16) with
    | .error e, _ => .next (trapAll s e)
    | _, .error e => .next (trapAll s e)
    | .ok _, .ok _ => match softTarget s (obName a.s0) b with
      | .error e => .next (trapAll s e)
      | .ok r =>
        let s0 := drainAll s f
        if !drained s0 f then hold s0
        else withTile s0 (code % 16) fun ps s1 => withTile s1 (code / 16) fun po s2 =>
          let fs := tileFaults s2 f ps 0 64 m
          let s3 := releaseFence s2 f 1
          .next (finishLanes ((lanesOf (m &&& ~~~ faultMask fs)).foldl (softLane s3 f ps po r b (srcVal s .f32 0 a.s1 0)) s3) fs)

/-! ## MZERO, MLD, MST, MREAD (R314 to R316) -/

/-- MZERO (R314). -/
def execMzero (a : Args) (s : State) : Result :=
  let m := active s a
  let t := codeOf a.s0 % 16
  if m = 0 then .next (goOn s)
  else withTile s t fun p s1 =>
    .next (goOn (markRows ((lanesOf m).foldl (fun v i => zeroRow v (subOf s1.cur) p i) s1) s1.cur t m))

/-- The checks of every active lane's row of `n` bytes (R315). -/
def rowChecks (s : State) (a : Args) (n kind : Nat) : List (Nat × Except Flt (List Piece)) :=
  (lanesOf (active s a)).map fun i => (i, checkAccess s s.cur i a.space.toNat (effAddr s a i) n n kind .wide false)

/-- The failures of lanes checked one by one. -/
def rowFailures (cs : List (Nat × Except Flt (List Piece))) : List (Nat × Flt) :=
  cs.filterMap fun c => match c.2 with
    | .error e => some (c.1, e)
    | .ok _ => none

/-- MLD (R315): the loaded bits unchanged. -/
def execMld (a : Args) (s : State) : Result :=
  let t := codeOf a.s1 % 16
  if active s a = 0 then .next (goOn s)
  else withTile s t fun p s1 =>
    execLoadOf a (fun v => rowChecks v a 256 kRead) rowFailures
      (fun v i l => markRows (setTileRow v (subOf v.cur) p i (wordsOf l)) v.cur t (BitVec.ofNat 32 (2 ^ i))) s1

/-- RoundTo(bf16, RNE) of an f32 code. -/
def toBf16 (c : Nat) : Nat := roundTo fmtBF16 (.mode .rne) false (numF32 c)

/-- The bytes MST stores of a row (R315). -/
def storedRow (t : Ty) (l : List Nat) : List Byte := if t = .f32 then rowBytes l else l.flatMap fun c => toBytes 2 (toBf16 c)

/-- MST (R315). -/
def execMst (a : Args) (s : State) : Result :=
  let n := if a.ty = .f32 then 256 else 128
  if active s a = 0 then .next (goOn s)
  else withTile s (codeOf a.s1 % 16) fun p s1 =>
    let u := subOf s1.cur
    let cs := (rowChecks s1 a n kWrite).map fun c => match c.2 with
      | .ok _ => if rowPoisoned s1 u p c.1 then (c.1, .error { cause := cECC, addr := 0, info := 6 }) else c
      | .error _ => c
    execStoreOf a cs (rowFailures cs) kWrite none (fun i => storedRow a.ty (tileRow s1 u p i)) s1

/-- Register r of MREAD's block for a row (R316). -/
def mreadWord (t : Ty) (sel : Nat) (row : List Nat) (d : Word × Word × Word × Bool) (r : Nat) : Nat :=
  if t = .f32 then
    (if sel < 8 then row.getD (8 * sel + r) 0
     else match r with
      | 0 => d.1.toNat
      | 1 => d.2.1.toNat
      | 2 => d.2.2.1.toNat
      | 3 => if d.2.2.2 then 1 else 0
      | _ => 0)
  else toBf16 (row.getD (16 * sel + 2 * r) 0) + 2 ^ 16 * toBf16 (row.getD (16 * sel + 2 * r + 1) 0)

/-- Write a block of registers of a lane, leaving the latches. -/
def writeBlock (s : State) (o : Opnd) (lane : Nat) (l : List Nat) : State :=
  match o with
  | .reg r _ _ => (l.zipIdx).foldl (fun t p => regSet32 t t.cur lane r p.2 (BitVec.ofNat 32 p.1)) s
  | _ => s

/-- MREAD (R316). -/
def execMread (a : Args) (s : State) : Result :=
  let m := active s a
  let code := codeOf a.s0
  let sel := code / 16
  if m = 0 then .next (goOn s)
  else withTile s (code % 16) fun p s1 =>
    let u := subOf s1.cur
    let cols := if a.ty = .f32 then 8 else 16
    let fs := if sel = 8 then [] else tileFaults s1 s1.cur p (cols * sel) cols m
    let put (v : State) (i : Nat) : State :=
      writeBlock v a.d.opnd i ((List.range 8).map (mreadWord a.ty sel (tileRow s1 u p i) (sideOf s1 u p i)))
    .next (finishLanes ((lanesOf (m &&& ~~~ faultMask fs)).foldl put s1) fs)

end Sys2Proof.Machine
end

