-- ==== Sys2Proof/Machine/Ring.lean ====
section
/-! DEFINITION. Service rings, their slots and the batches queued on them; the hardware entries (spec/17 R392, R393, spec/15
R345). -/

namespace Sys2Proof.Machine

/-! ## Accesses of the hub (R379, R388, R392) -/

/-- A physical place as the hub reaches it under the key in a slot, by its ID: host memory uncached, so that it travels the ordered
channel. -/
def hubPiece (s : State) (pa n id : Nat) : Piece :=
  { loc := pa, n := n, key := dataKey pa (SMap.get 0 s.hub.keySlots id) id, mt := if isHost pa && !portCxl s pa then 2 else 0, va := 0, leaf := none }

/-- An access of the hub to a place would meet a tenure that cannot be taken back yet: it waits (R114, R117). -/
def hubPinned (s : State) (pa n : Nat) (write : Bool) : Bool := (linesOf pa n).any fun l => recallWaits s none hubCore l write

/-- The hub writes bytes at a physical address; `rel` is the scope of the release it makes, if any, and `v` the writes before it. -/
def hubWrite (s : State) (pa id : Nat) (v : View) (rel : Option Nat) (l : List Byte) : State :=
  unitPut s hubReq (.unit v none) true rel (hubPiece s pa l.length id) l

/-- The bytes at a physical address as the hub reads them. -/
def hubRead (s : State) (pa id n : Nat) : List Byte := readBytes s (hubPiece s pa n id).key pa n

/-- What a read of the hub does at the home of the lines it reads (R112). -/
def hubArrive (s : State) (pa id n : Nat) : State :=
  let p := hubPiece s pa n id
  arriveAll s hubReq false p.key p.mt pa n

/-! ## Rings (R380, R392) -/

/-- A partition's ring on a die: its address and its key ID. DEDUCED (log 51): a ring in device memory whose key slot is not loaded refuses
every access (R60, R381) and counts as none. -/
def ringOf (s : State) (part die : Nat) : Option (Nat × Nat) :=
  (FMap.find (partOf s part).ring die).filter fun r => isHost r.1 || SMap.get 0 s.hub.keySlots r.2 != 0

/-- The scope of a ring: .die for a device ring, .sys for a host ring (R393). -/
def ringScope (pa : Nat) : Nat := if isHost pa then 6 else 3

/-- The address of a slot. -/
def slotAddr (pa i : Nat) : Nat := pa + 2048 * i

/-- STATUS of a slot. -/
def slotStatus (s : State) (r : Nat × Nat) (i : Nat) : Nat := ofBytes (hubRead s (slotAddr r.1 i + 4) r.2 4)

/-- A batch fills a slot of a ring: the slot's place in memory is taken, whichever ring the batch was placed in (R380). -/
def fillsSlot (part die : Nat) (r : Nat × Nat) (i : Nat) (b : Batch) : Bool :=
  b.part == part && b.die == die && slotAddr b.ring.1 b.slot == slotAddr r.1 i

/-- A slot of a kind that no SVC frees is free once its STATUS is not zero (R393). -/
def spent (s : State) (b : Batch) : Bool := decide (3 ≤ b.kind) && slotStatus s b.ring b.slot != 0

/-- Drop the batches whose slots are free again. -/
def reclaim (s : State) : State := { s with hub := { s.hub with batches := s.hub.batches.filter fun b => !spent s b } }

/-- The first free slot of a partition's ring on a die. -/
def freeSlot (s : State) (part die : Nat) : Option Nat :=
  (ringOf s part die).bind fun r => (List.range (partOf s part).batchLimit).find? fun i => !s.hub.batches.any (fillsSlot part die r i)

/-! ## Virtual time (R345) -/

/-- The unit of virtual time: a multiple of every weight 1 to 255. -/
def vUnit : Nat :=
  8337245403447921335829504375888192675135162254454825924977726845769444687965016467695833282339504042669808000

/-- V of a partition on a die, in that unit. -/
def vTime (s : State) (part die : Nat) : Nat := (FMap.find s.hub.vtime (part * 4 + die)).getD 0
/-- Set V. -/
def setVTime (s : State) (part die v : Nat) : State := { s with hub := { s.hub with vtime := FMap.put s.hub.vtime (part * 4 + die) v } }
/-- An issue spent on a partition's batch adds 1 / w. -/
def chargeV (s : State) (part die : Nat) : State := setVTime s part die (vTime s part die + vUnit / max 1 (partOf s part).weight)

/-- The partitions with batches queued on a die. -/
def queuedParts (s : State) (die : Nat) : List Nat :=
  ((s.hub.batches.filter fun b => b.die == die && b.state == 0).map (·.part)).eraseDups

/-- The least of a list. -/
def leastOf : List Nat → Option Nat
  | [] => none
  | x :: l => some (l.foldl min x)

/-- V when the FIFO of a partition is no longer empty (R345). -/
def wakeV (s : State) (part die : Nat) : State :=
  if (queuedParts s die).contains part then s
  else match leastOf ((queuedParts s die).map fun q => vTime s q die) with
    | some v => setVTime s part die (max (vTime s part die) v)
    | none => s

/-! ## Offering a batch (R392, R393) -/

/-- The fields of a slot's header. -/
structure Header where
  kind : Nat
  part : Nat
  lid  : Nat
  wg   : Nat
  fib  : Nat
  place : Nat
  code : Nat
  trap : Nat
  aux  : Nat
  deriving DecidableEq, Repr

/-- The 512 bits of a header, STATUS 0. -/
def Header.bits (h : Header) : BitVec 512 :=
  BitVec.ofNat 512 (h.kind + h.part % 32 * 2 ^ 8 + h.lid * 2 ^ 64 + h.wg * 2 ^ 96 + h.fib * 2 ^ 128 + h.place * 2 ^ 136
    + h.code * 2 ^ 144 + h.trap * 2 ^ 192 + h.aux * 2 ^ 448)

/-- FIB as R109 numbers it. -/
def fibCode (f : Nat) : Nat := f / 64 % 4 + 4 * (f / 4 % 16) + 64 * (f % 4)

/-- A trap-queue entry in the form of R350. -/
def trapBits (e : TrapEntry) : Nat :=
  e.lmask.toNat + e.cause * 2 ^ 32 + (if e.async then 2 ^ 40 else 0) + (if e.klvl then 2 ^ 41 else 0) + e.pc.toNat * 2 ^ 64
    + e.addr.toNat * 2 ^ 128 + e.info.toNat * 2 ^ 192

/-- The header of a kind for a fibre. -/
def fibHeader (s : State) (f kind : Nat) : Header :=
  let x := fib s f
  { kind := kind, part := x.part, lid := x.lid, wg := x.wg, fib := fibCode f, place := coreOf f, code := 0, trap := 0, aux := 0 }

/-- Raise vector 0 of a partition's lowest function. -/
def callHost (s : State) (part : Nat) : State :=
  match s.hub.vfPart.find? fun p => p.2 == part with
  | some (vf, _) => raiseMsix s vf 0
  | none => s

/-- The kind, the partition of a header. -/
def headKind (h : BitVec 512) : Nat := Machine.bits h.toNat 0 8
def headPart (h : BitVec 512) : Nat := Machine.bits h.toNat 8 5

/-- Fill a slot, perform it at the ring's scope and offer it: queued for the gondola, or to the host. `v` are the writes that its filling
orders. -/
def offerSlot (s : State) (die i owner : Nat) (r : Nat × Nat) (h : BitVec 512) (v : View) (rest : List (Nat × List Byte)) : State :=
  let s1 := rest.foldl (fun t p => hubWrite t (slotAddr r.1 i + p.1) r.2 v none p.2) s
  let s2 := hubWrite s1 (slotAddr r.1 i) r.2 v (some (ringScope r.1)) (toBytes 64 h.toNat)
  let b : Batch :=
    { part := headPart h, die := die, slot := i, kind := headKind h, owner := owner, state := if isHost r.1 then 2 else 0, header := h, view := v, ring := r }
  let s3 := wakeV s2 (headPart h) die
  let s4 := { s3 with hub := { s3.hub with batches := s3.hub.batches ++ [b] } }
  if isHost r.1 then callHost s4 (headPart h) else s4

/-- A hardware entry passed to the error log (R393); for a stopped engine queue its engine then raises its interrupt (R385). -/
def logEntry (s : State) (die : Nat) (h : BitVec 512) : State :=
  let s1 := logError s (.service h)
  if headKind h = 3 ∧ Machine.bits h.toNat 224 8 = cENGINE then irq s1 0 die else s1

/-- An entry's fate now: it enters a slot, passes to the error log, or waits. A fault of a fibre waits for room, its lanes staying stopped
(R346); another entry that finds the ring full passes to the log, as does each that finds no ring (R393; log 51). A host ring's slot is a
release at .sys (R160), and a pinned tenure is waited for (R117). -/
def placeEntry (s : State) (e : Nat × List Nat × BitVec 512) : Option State × State :=
  let h := e.2.2
  match ringOf s (headPart h) e.1, freeSlot s (headPart h) e.1 with
  | none, _ => (some (logEntry s e.1 h), s)
  | some _, none => if headKind h = 3 then (none, s) else (some (logEntry s e.1 h), s)
  | some r, some i =>
    if hubPinned s (slotAddr r.1 i) 64 true then (none, s)
    else if isHost r.1 && !releaseReady s 6 e.2.1 then (none, startFlush s 6 e.2.1)
    else (some (offerSlot s e.1 i 0 r h [] []), s)

/-- The waiting entries are placed in order; one that waits keeps those behind it of its partition on its die (R345, R346). -/
def placeEntries : List (Nat × List Nat × BitVec 512) → List (Nat × Nat) → State → List (Nat × List Nat × BitVec 512) × State
  | [], _, s => ([], s)
  | e :: l, stuck, s =>
    let k := (e.1, headPart e.2.2)
    if stuck.contains k then let r := placeEntries l stuck s; (e :: r.1, r.2)
    else match placeEntry s e with
      | (some t, _) => placeEntries l stuck t
      | (none, t) => let r := placeEntries l (k :: stuck) t; ((e.1, marksOf s e.2.1, e.2.2) :: r.1, r.2)

/-- The hardware entries that wait enter their rings as far as they can. -/
def settleFaults (s0 : State) : State :=
  if s0.hub.faults.isEmpty then s0
  else
    let s := reclaim s0
    let r := placeEntries s.hub.faults [] { s with hub := { s.hub with faults := [] } }
    { r.2 with hub := { r.2.hub with faults := r.1 ++ r.2.hub.faults } }

/-- A hardware entry of a die (R392, R393). -/
def hardwareEntry (s : State) (die : Nat) (h : Header) : State :=
  settleFaults { s with hub := { s.hub with faults := s.hub.faults ++ [(die, [], h.bits)] } }

end Sys2Proof.Machine
end

