-- ==== Sys2Proof/Machine/FastWeight.lean ====
section
/-! DEFINITION. Pinned accumulators and fast weights: MPIN, MUNPIN, MDELTA, MQUERY, MEVICT and the eviction of a parked tile
(spec/14 R324 to R332; arithmetic of R286, R287). -/

namespace Sys2Proof.Machine

/-! ## Physical tiles -/

/-- A physical tile of a sub-core that no workgroup maps and no parked, resident state holds. -/
def tileFree (s : State) (u p : Nat) : Bool :=
  !(s.wgs.any fun w => w.2.tiles.any fun t => t.2 == (u, p))
    && (findOwn s u fun e => e.res && !e.owned && e.tile == p).isNone

/-- The free physical tiles of a sub-core. -/
def freeTiles (s : State) (u : Nat) : List Nat := (List.range 16).filter (tileFree s u)

/-- The parked, resident entry used least recently (R324). -/
def oldestParked (s : State) (u : Nat) : Option Nat :=
  oldestSlot ((List.range 16).filterMap fun k => match ownAt s u k with
    | some e => if e.res && !e.owned then some (k, e.lastUse) else none
    | none => none)

/-! ## MPIN (R327) -/

/-- The 64-bit value of a uniform pair. -/
def scalar64 (s : State) (o : Opnd) : Nat := addrVal s o (lane0 s)

/-- What MPIN comes to: a report, a trap, or a wait for a pinned tenure. -/
inductive PinNow where
  | report (ok : Bool) (s : State)
  | fault (e : Flt) (s : State)
  | wait

/-- The entry becomes the workgroup's, as its logical tile t, held in physical tile p. -/
def ownNow (s : State) (f t : Nat) (e : OwnEntry) : OwnEntry :=
  let w := wgOf s f
  { e with owned := true, olid := w.lid, owg := w.wg, ltile := t, lastUse := s.tick }

/-- The logical tile takes the physical tile of a state resident here; the one it had goes back. -/
def remapTile (s : State) (f t p : Nat) : State :=
  resetSides (modWg s f fun w => { w with tiles := FMap.put w.tiles (subOf f % 4 * 16 + t) (subOf f, p) }) (subOf f) p

/-- Adopt an entry of this sub-core's table. -/
def adoptHere (s : State) (f t k p : Nat) (e : OwnEntry) : PinNow :=
  let u := subOf f
  if e.res then .report true (setOwn (remapTile s f t e.tile) u k (some (ownNow s f t e)))
  else if imageWaits s (some f) (coreOf f) e false then .wait
  else match refill s u k e p with
    | .error x => .fault x s
    | .ok s1 => match ownAt s1 u k with
      | some n => .report true (setOwn s1 u k (some (ownNow s1 f t n)))
      | none => .report true s1

/-- Adopt an entry, from another sub-core's table through its image. -/
def adopt (s : State) (f t p u k : Nat) (e : OwnEntry) : PinNow :=
  if u = subOf f then adoptHere s f t k p e
  else match freeOwn s (subOf f) with
    | none => .report false s
    | some n =>
      if e.res && imageWaits s (some f) (coreOf f) e true then .wait
      else
        let r := if e.res then evict s (some f) u k e else (s, none)
        match r.2 with
        | some x => .fault x r.1
        | none =>
          let e1 := { ((ownAt r.1 u k).getD e) with res := false }
          adoptHere (setOwn (setOwn r.1 u k none) (subOf f) n (some e1)) f t n p e1

/-- A new pinning, with the checks of the spill VA. -/
def pinNew (s : State) (f t p key spa : Nat) : PinNow :=
  let x := fib s f
  if spa % 64 ≠ 0 then .fault (alignFault spa kWrite 6 false) s
  else if !canonical spa then .fault (windowFault spa kWrite) s
  else match freeOwn s (subOf f) with
    | none => .report false s
    | some k =>
      .report true (setOwn s (subOf f) k (some
        { res := true, ef := false, owned := true, ltile := t, part := x.part, olid := (wgOf s f).lid, owg := (wgOf s f).wg, key := key,
          spa := spa, pgr := x.pgroot, klvl := x.klvl, dmask := BitVec.allOnes 32, epoch := 0, tile := p, lastUse := s.tick }))

/-- The decision of R327. -/
def pinNow (s : State) (f t p key spa : Nat) (adopting new : Bool) : PinNow :=
  let w := wgOf s f
  let other := match pinOf s f t with
    | some (_, e) => e.key != key
    | none => false
  if other then .report false s
  else match findKey s (coreOf f) w.part key with
    | some (u, k, e) =>
      if ownsEntry w u e && e.ltile == t then .report true s
      else if new || e.owned then .report false s
      else adopt s f t p u k e
    | none => if adopting || (freeOwn s (subOf f)).isNone then .report false s else pinNew s f t p key spa

/-- MPIN (R327). -/
def execMpin (a : Args) (s : State) : Result :=
  let f := s.cur
  let code := codeOf a.s2
  let key := scalar64 s a.s0
  if key = 0 then .next (trapOpen s cRESERVED none none)
  else match physTile s f (code % 16) with
    | .error e => .next (trapAll s e)
    | .ok p => match pinNow s f (code % 16) p key (scalar64 s a.s1) (code.testBit 4) (code.testBit 5) with
      | .report ok t => .next (goOn (setPredAll t a.d.opnd ok))
      | .fault e t => .next (trapAll t e)
      | .wait => hold s

/-! ## MUNPIN, MEVICT (R328, R332) -/

/-- An instruction on a tile pinned and owned by the workgroup, else ACC_NOT_OWNED. -/
def withPinned (s : State) (t : Nat) (act : Nat → Nat → OwnEntry → Result) : Result :=
  match physTile s s.cur t, pinOf s s.cur t with
  | .error e, _ => .next (trapAll s e)
  | .ok p, some (k, e) => act p k e
  | .ok _, none => .next (trapAll s { cause := cACC, addr := 0, info := t })

/-- MUNPIN (R328). -/
def execMunpin (a : Args) (s : State) : Result :=
  let t := codeOf a.s0 % 16
  withPinned s t fun p k _ => match bringTile s s.cur t p with
    | .fault e => .next (trapAll s e)
    | .wait => holdLong s
    | .ready s1 => .next (goOn (setOwn s1 (subOf s1.cur) k none))

/-- MUNPIN.drop (R328). -/
def execMunpinDrop (a : Args) (s : State) : Result :=
  withPinned s (codeOf a.s0 % 16) fun p k _ => .next (goOn (zeroTile (setOwn s (subOf s.cur) k none) (subOf s.cur) p))

/-- MEVICT in either form: the image is written where the state is resident, then `finish` (R332). The fibre's earlier accesses
go first, so that the image writes take the instruction's place. -/
def execEvict (a : Args) (detach : Bool) (s : State) : Result :=
  let s0 := drainAll s s.cur
  if !drained s0 s0.cur then hold s0
  else withPinned s0 (codeOf a.s0 % 16) fun p k e =>
    let f := s0.cur
    let u := subOf f
    if e.res && imageWaits s0 (some f) (coreOf f) e true then hold s0
    else
      let r := if e.res then evict s0 (some f) u k e else (s0, none)
      match r.2, ownAt r.1 u k with
      | some x, _ => .next (trapAll r.1 x)
      | none, some n =>
        .next (goOn (if detach then zeroTile (setOwn r.1 u k (some { n with owned := false, res := false, lastUse := s.tick })) u p else r.1))
      | none, none => .next (goOn r.1)

/-- MEVICT (R332). -/
def execMevict (a : Args) (s : State) : Result := execEvict a false s
/-- MEVICT.det (R332). -/
def execMevictDet (a : Args) (s : State) : Result := execEvict a true s

/-! ## MDELTA, MQUERY (R286, R287, R329 to R331) -/

/-- y of R286: the pairwise sum of the products of a row and a vector. -/
def rowDot (row q : List Nat) : Nat := pairwiseSum (List.zipWith mulF32 row q)

/-- One token on a row: k, v, α, β (R286). -/
def deltaRow (row k : List Nat) (v α β : Nat) : List Nat :=
  let u := rowDot row k
  let d := roundF32 (sumNum .rne [numF32 v, ((numF32 α).mul (numF32 u)).negate])
  let g := mulF32 β d
  List.zipWith (fun x y => fmaF32 g y (mulF32 α x)) row k

/-- Elements 0 to 63 of a row of a reservation, widened to f32 (R329). -/
def rowVector (s : State) (f : Nat) (r : Reservation) (row : Nat) : Except Flt (List Nat) :=
  (rowElems s f r row 0 64).map fun l => l.map roundF32

/-- The reservation of MDELTA and MQUERY, with at least `rows` rows (R329, R331). -/
def fastSource (s : State) (name rows : Nat) : Except Flt Reservation :=
  match bound s s.cur name with
  | .error e => .error e
  | .ok r =>
    if r.rmt then .error (obFault 0 name)
    else if (r.ety = 7 ∨ r.ety = 8) ∧ r.blk = 0 ∧ 64 ≤ r.klen ∧ rows ≤ r.rows then .ok r
    else .error { cause := cRESERVED, addr := 0, info := name }

/-- A register of a block as a 32-bit word: the register a field names, `off` further on. -/
def blockReg (s : State) (o : Opnd) (lane off : Nat) : Nat :=
  match o with
  | .reg r _ _ => (regGet32 s s.cur lane r off).toNat
  | _ => 0

/-- Write one register of a block, leaving the latches. -/
def blockPut (s : State) (o : Opnd) (lane off v : Nat) : State :=
  match o with
  | .reg r _ _ => regSet32 s s.cur lane r off (BitVec.ofNat 32 v)
  | _ => s

/-- The row of one lane under token t, and its query result. -/
def deltaLane (a : Args) (p t : Nat) (k : List Nat) (q : Option (List Nat)) (s : State) (i : Nat) : State :=
  let u := subOf s.cur
  let row := deltaRow (tileRow s u p i) k (blockReg s a.s1 i t) (blockReg s a.s3 i (2 * t)) (blockReg s a.s3 i (2 * t + 1))
  let s1 := setTileRow s u p i row
  match q with
  | some v => blockPut s1 a.d.opnd i t (rowDot row v)
  | none => s1

/-- Token t of MDELTA, or the error that stops it (R330). -/
def deltaToken (a : Args) (r : Reservation) (p tile : Nat) (m : LaneMask) (query : Bool) (t : Nat) (s : State) : Except Flt State :=
  let f := s.cur
  if (lanesOf m).any (rowPoisoned s (subOf f) p) then .error { cause := cECC, addr := 0, info := 6 }
  else match rowVector s f r t with
    | .error e => .error e
    | .ok k => match (if query then (rowVector s f r (8 + t)).map some else .ok none) with
      | .error e => .error e
      | .ok q => .ok (markRows ((lanesOf m).foldl (deltaLane a p t k q)
          (noteReads s f (rowPlace s f r 0 64 t ++ (if query then rowPlace s f r 0 64 (8 + t) else [])))) f tile m)

/-- MDELTA of T tokens (R329, R330); the plain form completes or does nothing. -/
def execDelta (a : Args) (whole : Bool) (s : State) : Result :=
  let f := s.cur
  let m := active s a
  let code := codeOf a.s2
  let n := code / 16 % 8 + 1
  let q := code.testBit 7
  if m = 0 then .next (goOn s)
  else if progBars (fib s f) 0x292 m then hold s
  else match physTile s f (code % 16), fastSource s (obName a.s0) (if q then 8 + n else n) with
    | .error e, _ => .next (trapAll s e)
    | .ok _, .error e => .next (trapAll s e)
    | .ok _, .ok r => withTile s (code % 16) fun p s1 => runResumable 0x292 n whole m (deltaToken a r p (code % 16) m q) s1

/-- MDELTA (R329). -/
def execMdelta (a : Args) (s : State) : Result := execDelta a true s
/-- MDELTA.c (R330). -/
def execMdeltaC (a : Args) (s : State) : Result := execDelta a false s

/-- MQUERY (R331). -/
def execMquery (a : Args) (s : State) : Result :=
  let f := s.cur
  let m := active s a
  let row := codeOf a.s1
  let t := codeOf a.s2 % 16
  if m = 0 then .next (goOn s)
  else match physTile s f t, fastSource s (obName a.s0) (row + 1) with
    | .error e, _ => .next (trapAll s e)
    | .ok _, .error e => .next (trapAll s e)
    | .ok _, .ok r => withTile s t fun p s1 => match rowVector s1 f r row with
      | .error e => .next (trapLanes (advance s1 (s1.grp &&& ~~~ m)) m e.cause e.addr e.info)
      | .ok q =>
        let fs := tileFaults s1 f p 0 64 m
        let s2 := writeOpnd (noteReads s1 f (rowPlace s1 f r 0 64 row)) (m &&& ~~~ faultMask fs) a.d.opnd false fun i => rowDot (tileRow s1 (subOf f) p i) q
        .next (finishLanes s2 fs)

end Sys2Proof.Machine
end

