-- ==== Sys2Proof/Machine/Launch.lean ====
section
/-! DEFINITION. Launch records and kernel descriptors, LAUNCH and SPAWN, the room a workgroup needs on a core, and the start of its
fibres (spec/08 R194 to R203, R216, R217, R429; spec/15 R335, R336, R343; spec/16 R349). -/

namespace Sys2Proof.Machine

/-! ## Kernel descriptors and launch records (R194 to R196) -/

/-- A field of a kernel descriptor. -/
def kf (k : BitVec 512) (lo len : Nat) : Nat := bits k.toNat lo len
/-- A field of a launch record. -/
def rf (r : BitVec 1024) (lo len : Nat) : Nat := bits r.toNat lo len

/-- F, the fibres of a slot. -/
def kFibs (k : BitVec 512) : Nat := kf k 70 2 + 1
/-- RING, decoded (R195). -/
def kRing (k : BitVec 512) : Nat := if kf k 72 4 = 0 then 16 else kf k 72 4
/-- NTAG, 0 acting as 1. -/
def kNtag (k : BitVec 512) : Nat := max 1 (kf k 89 4)
/-- PRIV. -/
def kPriv (k : BitVec 512) : Nat := kf k 128 23
/-- SPW and LKN. -/
def kSpw (k : BitVec 512) : Nat := kf k 160 24
def kLkn (k : BitVec 512) : Nat := kf k 184 16
/-- NWG, and DEP. -/
def rNwg (r : BitVec 1024) : Nat := rf r 64 32
def rDep (r : BitVec 1024) : Bool := rf r 202 1 == 1
/-- NSPN, and DONE. -/
def rNspn (r : BitVec 1024) : Nat := rf r 208 16
def rDone (r : BitVec 1024) : Nat := rf r 960 64

/-- A field that fails is reported at a bit. -/
def needs (ok : Bool) (bit : Nat) : Option Nat := if ok then none else some bit

/-- A reserved field is reported at its lowest set bit (R429). -/
def resBits (n lo len : Nat) : Option Nat := ((List.range len).map (lo + ·)).find? fun i => n.testBit i

/-- The first failing field of a record, in ascending order (R196, R197, R429). -/
def recordFails (r : BitVec 1024) : Option Nat :=
  let dep := rDep r
  [needs (rNwg r != 0) 64, needs ((rf r 96 32 != 0) == dep) 96, resBits r.toNat 195 1, resBits r.toNat 203 5,
   needs ((rf r 224 32 != 0) == dep) 224, needs (dep || rf r 256 32 == 0) 256, resBits r.toNat 288 32,
   needs (if dep then rf r 320 64 % 4 == 0 else rf r 320 64 == 0) 320, needs (dep || rf r 384 64 == 0) 384,
   needs (rf r 448 64 % 128 == 0) 448, needs (rf r 512 64 % 128 == 0) 512, needs (rDone r % 4 == 0) 960].findSome? id

/-- The first failing field or relation of a descriptor (R194, R195, R429). -/
def kdescFails (k : BitVec 512) : Option Nat :=
  let n := kf k 64 6
  let s := n / kFibs k
  [needs (canonical (kf k 0 64) && kf k 0 64 % 4 == 0) 0, needs (decide (1 ≤ n) && decide (n ≤ 32)) 64, needs (kf k 72 4 != 1) 72,
   needs (decide (kf k 76 6 ≤ 32)) 76, needs (decide (kf k 83 5 ≤ 16)) 83, needs (decide (kf k 89 4 ≤ 8)) 89, resBits k.toNat 93 3,
   needs (decide (kf k 96 13 ≤ 4096)) 96, needs (decide (kf k 109 9 ≤ 256)) 109, resBits k.toNat 118 10,
   needs (decide (kPriv k ≤ 2 ^ 22)) 128, resBits k.toNat 151 9, needs (canonical (kf k 200 39 * 2 ^ 25)) 200, resBits k.toNat 239 273,
   needs (n % kFibs k == 0) 64, needs (decide (kf k 76 6 + 64 * kFibs k ≤ 32 * kRing k)) 72,
   needs (decide ((s + 3) / 4 * (32 * kRing k) ≤ 2048)) 72].findSome? id

/-- The info field of the first failure of a record with its descriptor (R429). -/
def launchFails (r : BitVec 1024) (k : BitVec 512) : Option Nat :=
  match recordFails r with
  | some b => some b
  | none => (kdescFails k).map (· + 2 ^ 31)

/-- The request of a fibre, or of the hub acting for a partition. -/
def blockReq (s : State) (c : Ctx) (f : Option Nat) (leaf : Option Leaf) : Req :=
  match f with
  | some i => reqOf s i 0 leaf
  | none => { core := hubCore, part := c.part, sh := (leaf.map fun l => l.leaf2.testBit 9).getD false, ch := 0 }

/-- Read `n` bytes aligned to `n` for a fibre, or for the hub acting for a partition: none where it waits for a pinned tenure
(R87, R117, R428). -/
def readBlock (s : State) (c : Ctx) (f : Option Nat) (va n : Nat) : State × Except Flt (Option Nat) :=
  if va % n ≠ 0 then (s, .error (alignFault va kRead (lszOf n) false))
  else match globalPiece s c va n kRead false with
    | .error e => (s, .error e)
    | .ok p =>
      let q := blockReq s c f p.leaf
      if p.mt = 3 then (s, .error (alignFault va kRead (lszOf n) true))
      else if poisoned s.mem p.loc n then (s, .error { cause := cECC, addr := va, info := poisonSource s.mem p.loc n })
      else if recallWaits s f q.core (p.loc / 128) false || (p.leaf.map (leafWaits s f kRead)).getD false then (s, .ok none)
      else
        let s1 := match p.leaf with
          | some l => commit s c p.va kRead l false
          | none => s
        let s2 := arrive s1 q false p.key p.mt p.loc
        match f with
        | some i => let r := performRead s2 i p.key p.mt p.loc n 1 false; (r.2, .ok (some (ofBytes r.1)))
        | none => (s2, .ok (some (ofBytes (readBytes s2 p.key p.loc n))))

/-- Read a record and its descriptor (R217). -/
def readLaunch (s : State) (c : Ctx) (f : Option Nat) (va : Nat) : State × Except Flt (Option (BitVec 1024 × BitVec 512)) :=
  let a := readBlock s c f va 128
  match a.2 with
  | .error e => (a.1, .error e)
  | .ok none => (a.1, .ok none)
  | .ok (some r) =>
    let b := readBlock a.1 c f (bits r 0 64) 64
    match b.2 with
    | .error e => (b.1, .error e)
    | .ok none => (b.1, .ok none)
    | .ok (some k) => (b.1, .ok (some (BitVec.ofNat 1024 r, BitVec.ofNat 512 k)))

/-! ## Launch queues (R217, R333) -/

/-- The workgroups of a record that have started. -/
def startedCount (l : Launch) : Nat := l.started.foldl (fun n p => n + p.2) 0
/-- Every workgroup of a record has started: it no longer stands in its queue. -/
def allStarted (l : Launch) : Bool := decide (rNwg l.record ≤ startedCount l)
/-- The records a queue holds, in order; those that the partition monitor starts stand in none (R422). -/
def queueOf (s : State) (part q : Nat) : List Launch :=
  s.hub.launches.filter fun l => l.part == part && l.queue == q && l.gondola.isNone && !allStarted l

/-- The number of the n-th launch of a partition: from 1, skipping 0 (R217). -/
def launchNumber (n : Nat) : Nat := (n - 1) % (2 ^ 32 - 1) + 1

/-- A queue of the partition starts its workgroups at K (R380). -/
def isKQueue (p : Part) (q : Nat) : Bool := decide (64 - p.kq ≤ q)

/-- The next launch of a partition, at K, by a checked record; it begins under the partition's key window as it stands (R217, R380). -/
def newLaunch (p : Part) (part : Nat) (root : BitVec 64) (v : View) (va : Nat) (r : BitVec 1024) (k : BitVec 512) : Launch :=
  { part := part, lid := launchNumber p.nextLid, queue := rf r 196 6, prio := rf r 192 3, record := r, kdesc := k, va := BitVec.ofNat 64 va,
    root := root, klvl := true, doneK := true, started := [], ready := [], spawnUsed := [], view := v, flagViews := [], ended := [], marks := [],
    keys := some (p.kb, p.kn), gondola := none }

/-- A launch joins those in progress: its partition's next takes the next number (R217). -/
def addLaunch (s : State) (l : Launch) : State :=
  let s1 := modPart s l.part fun p => { p with nextLid := p.nextLid + 1 }
  { s1 with hub := { s1.hub with launches := s1.hub.launches ++ [l] } }

/-- Enqueue a checked record, or refuse it with 0 (R15, R217); `klvl` is the level it is issued at, `v` the writes that the enqueue
orders (R200). -/
def enqueueLaunch (s : State) (part : Nat) (root : BitVec 64) (klvl : Bool) (v : View) (va : Nat) (r : BitVec 1024) (k : BitVec 512) : Nat × State :=
  let p := partOf s part
  let q := rf r 196 6
  let prod := rf r 256 32
  if 256 ≤ (queueOf s part q).length ∨ (rDep r ∧ (prod = 0 ∨ p.nextLid ≤ prod)) ∨ (isKQueue p q ∧ !klvl) ∨ s.hub.boot < 6 then (0, s)
  else
    let id := launchNumber p.nextLid
    (id, addLaunch s { newLaunch p part root v va r k with klvl := isKQueue p q, doneK := klvl })

/-- LAUNCH (R217). -/
def execLaunch (a : Args) (s : State) : Result :=
  let f := s.cur
  let s0 := drainAll s f
  if !drained s0 f then hold s0
  else
    let s1 := releaseFence s0 f 4
    let x := fib s1 f
    let va := scalar64 s1 a.s0
    let r := readLaunch s1 (fibCtx s1 f) (some f) va
    match r.2 with
    | .error e => .next (trapAll r.1 e)
    | .ok none => hold r.1
    | .ok (some (rec, k)) =>
      match launchFails rec k with
      | some info => .next (trapAll r.1 { cause := cRESERVED, addr := va, info := info })
      | none =>
        let e := enqueueLaunch r.1 x.part x.pgroot x.klvl (releaseView s0 f 4) va rec k
        .next (goOn (setUniform e.2 a.d.opnd e.1))

/-! ## Dependent launches (R163, R197, R335) -/

/-- The workgroups of a consumer tile; a launch with DEP = 0 is one tile. -/
def tileWg (l : Launch) : Nat := if rDep l.record then max 1 (rf l.record 96 32) else rNwg l.record
/-- The consumer tiles of a launch. -/
def tileTotal (l : Launch) : Nat := (rNwg l.record + tileWg l - 1) / tileWg l

/-- Flag k of a dependent launch as the scheduler reaches it, if its address translates. -/
def flagPiece (s : State) (l : Launch) (k : Nat) : Option Piece :=
  match globalPiece s { part := l.part, root := l.root, klvl := l.doneK, keys := l.keys } ((rf l.record 320 64 + 4 * k) % 2 ^ 64) 4 kRead true with
  | .ok p => some p
  | .error _ => none

/-- The parts of the region of tile k, page by page: location and length (R164, R197). -/
def regionParts (s : State) (l : Launch) (k : Nat) : List (Nat × Nat) :=
  let size := rf l.record 224 32
  let lo := rf l.record 384 64 + k * size
  (List.range ((lo % 32768 + size + 32767) / 32768)).filterMap fun i =>
    let a := max lo ((lo / 32768 + i) * 32768)
    let n := min (lo + size) ((lo / 32768 + i + 1) * 32768) - a
    match globalPiece s { part := l.part, root := l.root, klvl := l.doneK, keys := l.keys } (a % 2 ^ 64) n kRead true with
    | .ok p => some (p.loc, n)
    | .error _ => none

/-- A view restricted to the region of tile k. -/
def regionView (s : State) (l : Launch) (k : Nat) (v : View) : View :=
  if v.isEmpty then [] else v.filter fun e => (regionParts s l k).any fun r => decide (r.1 ≤ e.1) && decide (e.1 < r.1 + r.2)

/-- What the write of a flag orders for its tile: the region's writes before it, where an agent of the producer launch made it, else
nothing (R164). -/
def flagOrders (s : State) (l : Launch) (k : Nat) (w : Option WordWrite) : View :=
  match w with
  | some w => if w.owner = some (l.part, rf l.record 256 32) then regionView s l k w.view else []
  | none => []

/-- Tile k of a launch is released for good, ordered after what its flag's write releases. -/
def releaseFlag (k : Nat) (v : View) (l : Launch) : Launch := { l with ready := NSet.add l.ready k, flagViews := FMap.put l.flagViews k v }

/-- The tiles of a dependent launch that wait for their flags. -/
def waitingTiles (l : Launch) : List Nat :=
  if rDep l.record && !allStarted l then (List.range (tileTotal l)).filter fun k => !l.ready.contains k else []

/-- A write of a word releases the tiles whose flag it makes non-zero, as the scheduler reads it, whoever wrote it (R163). -/
def flagWrite (s : State) (w : WordWrite) (l : Launch) : Launch :=
  (waitingTiles l).foldl (fun l k => match flagPiece s l k with
    | some p => if p.loc = w.loc ∧ wordUnder p.key w ≠ 0 then releaseFlag k (flagOrders s l k (some w)) l else l
    | none => l) l

/-- A release at .pkg is added to those of a write of a location (R164). -/
def addRel (s : State) (w : WordWrite) (v : View) : State :=
  let r : Rel := { core := w.core, scope := 4, view := v }
  let put (e : Nat × List Rel) : Nat × List Rel := if e.1 = w.time ∧ !e.2.contains r then (e.1, r :: e.2) else e
  { s with mem := { s.mem with relSeq := FMap.put s.mem.relSeq w.loc (((FMap.find s.mem.relSeq w.loc).getD []).map put) } }

/-- A write of a flag by an agent of the producer launch is a release at .pkg of the region's writes before it, for whoever acquires the flag
(R147, R164). -/
def flagRelease (l : Launch) (k : Nat) (s : State) (w : WordWrite) : State :=
  if w.value ≠ 0 ∧ w.owner = some (l.part, rf l.record 256 32) ∧ (flagPiece s l k).any (fun p => p.loc == w.loc) then
    addRel s w (regionView s l k w.view)
  else s

/-- The releases of the flags written since the scheduler last looked, and of those found standing for the tiles of a list. -/
def flagReleases (words : List WordWrite) (found : List Nat) (s : State) (l : Launch) : State :=
  if tracked s && rDep l.record then
    (List.range (tileTotal l)).foldl (fun t k =>
      (words ++ (if found.contains k then s.mem.flagWords.map (·.2) else [])).foldl (flagRelease l k) t) s
  else s

/-- A flag that holds a non-zero value as it stands is ready too (R163). -/
def flagStands (s : State) (l : Launch) : Launch :=
  (waitingTiles l).foldl (fun l k => match flagPiece s l k with
    | some p =>
      if ofBytes (readBytes s p.key p.loc 4) = 0 then l else releaseFlag k (flagOrders s l k (FMap.find s.mem.flagWords p.loc)) l
    | none => l) l

/-- The scheduler looks at the writes performed since it last did, in their order, then at the flags as they stand; a read of the scheduler
sets A in the leaf of a flag it finds ready (R57, R163). -/
def observeFlags (s : State) : State :=
  if s.hub.launches.isEmpty then (if s.mem.words.isEmpty then s else { s with mem := { s.mem with words := [] } })
  else
    let looked := s.hub.launches.map fun l => flagStands s (s.mem.words.foldl (fun l w => flagWrite s w l) l)
    let s1 := { s with mem := { s.mem with words := [] }, hub := { s.hub with launches := looked } }
    (s.hub.launches.zip looked).foldl (fun t p =>
      let found := p.2.ready.filter fun k => !p.1.ready.contains k
      found.foldl (flagRead p.2) (flagReleases s.mem.words found t p.2)) s1
where
  /-- The read of a flag takes effect on its leaf. -/
  flagRead (l : Launch) (t : State) (k : Nat) : State :=
    match (flagPiece t l k).bind (·.leaf) with
    | some x => commit t { part := l.part, root := l.root, klvl := l.doneK, keys := l.keys } ((rf l.record 320 64 + 4 * k) % 2 ^ 64) kRead x false
    | none => t

/-- The next workgroup of a record whose tile is released: the lowest number (R335). -/
def nextWgOf (l : Launch) : Option Nat :=
  (if rDep l.record then l.ready else [0]).findSome? fun k =>
    let n := (FMap.find l.started k).getD 0
    let g := k * tileWg l + n
    if n < tileWg l ∧ g < rNwg l.record then some g else none

/-! ## Cores of a partition (R5, R342, R343) -/

/-- A die self-hosts: some partition's ring on it lies in device memory (log 24). -/
def selfHosts (s : State) (die : Nat) : Bool :=
  s.hub.parts.any fun p => match FMap.find p.2.ring die with
    | some r => !isHost r.1
    | none => false
/-- The gondola core of a die. -/
def gondolaCore (die : Nat) : Nat := 64 * die + 63
/-- A core is the gondola of a self-hosting die. -/
def isGondola (s : State) (core : Nat) : Bool := core % 64 == 63 && selfHosts s (dieOf core)

/-- A partition owns a quad. -/
def ownsQuad (s : State) (part q : Nat) : Bool := ((partOf s part).qmask.getD (q / 16) 0).getLsbD (q % 16)

/-- The partitions with a ring on a die that its gondola serves (R392; log 24). -/
def ringParts (s : State) (die : Nat) : List Nat :=
  (s.hub.parts.filter fun p => (FMap.find p.2.ring die).any fun r => !isHost r.1).map (·.1)

/-- The cores open to a partition's user work. -/
def userCores (s : State) (part : Nat) : List Nat :=
  (List.range 256).filter fun c => ownsQuad s part (quadOf c) && !s.hub.excluded.contains c && !isGondola s c
/-- The cores open to a workgroup of a partition: one that starts at K may also take a gondola that is in use (R14, R343). -/
def coresFor (s : State) (part : Nat) (klvl : Bool) : List Nat :=
  (if klvl then (((List.range 4).filter fun d => selfHosts s d && (ringParts s d).contains part).map gondolaCore).filter fun c => !s.hub.excluded.contains c
   else []) ++ userCores s part

/-- The gondola's resources: warp slots, register words per lane, tiles, operand-buffer bytes, scratchpad bytes. -/
def gondolaTotal (res : Nat) : Nat := [64, 8192, 64, 1048576, 1048576].getD res 0

/-- A partition's share of a resource of a gondola: as set, else an equal share with the remainder to the lowest numbers (R344). -/
def gondolaShare (s : State) (die part res : Nat) : Nat :=
  match FMap.find (partOf s part).gondola res with
  | some n => n
  | none =>
    let ps := ringParts s die
    let n := max 1 ps.length
    gondolaTotal res / n + (if ps.idxOf part < gondolaTotal res % n then 1 else 0)

/-! ## Room on a core (R195, R206, R336) -/

/-- The number of a workgroup's slots on sub-core j. -/
def slotsOn (w : Wg) (j : Nat) : Nat := (w.nwarp / w.fibs + 3 - j) / 4
/-- The sub-cores of a core a workgroup occupies. -/
def subsOf (w : Wg) : List Nat := (List.range 4).filter fun j => decide (0 < slotsOn w j)

/-- The free slots of a sub-core. -/
def freeSlots (s : State) (u : Nat) : List Nat := ((List.range 16).map (16 * u + ·)).filter fun k => (FMap.find s.slots k).isNone
/-- The register words per lane that a sub-core's slots hold. -/
def regUsed (s : State) (u : Nat) : Nat := (s.slots.filter fun p => p.1 / 16 == u).foldl (fun n p => n + p.2.ringLen) 0

/-- The workgroups on a core. -/
def wgsOn (s : State) (core : Nat) : List Wg := (s.wgs.map (·.2)).filter fun w => w.core == core

/-- The lowest start of a block of a size within a limit that overlaps no busy block: 0 or the end of one. -/
def firstFit (busy : List (Nat × Nat)) (size limit : Nat) : Option Nat :=
  let ok (c : Nat) : Bool := decide (c + size ≤ limit) && busy.all fun b => decide (b.1 + b.2 ≤ c) || decide (c + size ≤ b.1)
  ((0 :: busy.map fun b => b.1 + b.2).filter ok).foldl (fun m c => match m with
    | some b => some (min b c)
    | none => some c) none

/-- The scratchpad blocks in use on a core. -/
def scrBusy (s : State) (core : Nat) : List (Nat × Nat) :=
  ((wgsOn s core).filter fun w => w.scrSize != 0).map fun w => (w.scrBase, w.scrSize)
/-- The operand-buffer blocks in use on a sub-core: those of the workgroups that have a slot there. -/
def obBusy (s : State) (u : Nat) : List (Nat × Nat) :=
  ((wgsOn s (u / 4)).filter fun w => w.obSize != 0 && (w.slots.any fun k => k / 16 == u)).map
    fun w => (w.obBase.getD (u % 4) 0, w.obSize)

/-- The tag users of an instance of a scope, each with its tags: workgroups at .core, launches at wider scopes (R206). -/
def tagUsers (s : State) (scope inst : Nat) : FMap Nat :=
  ((s.wgs.map (·.2)).filter fun w => instanceOf scope w.core == inst && (scope == 1 || w.cor)).foldl (fun m w =>
    FMap.put m (if scope = 1 then m.length else wgKey w.part w.lid 0) (max 1 w.ntag)) []

/-- The route tags a workgroup needs are free on a core: at .core, and for a co-resident launch at every wider scope. -/
def tagsFit (s : State) (w : Wg) (core : Nat) : Bool :=
  let user := wgKey w.part w.lid 0
  let sum (l : FMap Nat) : Nat := l.foldl (fun n p => n + p.2) 0
  decide (sum (tagUsers s 1 core) + max 1 w.ntag ≤ 8)
    && (!w.cor || [2, 3, 4, 5].all fun scope =>
      decide (sum (FMap.put (tagUsers s scope (instanceOf scope core)) user (max 1 w.ntag)) ≤ 8))

/-- The launch that holds a quad by fusion, if any, is this one; a fused launch holds all four cores alone (R77, R336). -/
def fuseFits (s : State) (w : Wg) (core : Nat) : Bool :=
  let user := wgKey w.part w.lid 0
  let q := quadOf core
  if w.fuse then
    (s.wgs.all fun p => quadOf p.2.core != q || (p.2.fuse && wgKey p.2.part p.2.lid 0 == user))
      && (List.range 4).all fun j => !isGondola s (4 * q + j) && !s.hub.excluded.contains (4 * q + j)
  else (FMap.find s.fused q).isNone

/-- On a gondola a partition stays within its share of each resource (R343). -/
def shareFits (s : State) (w : Wg) (core : Nat) : Bool :=
  if isGondola s core then
    let mine := (wgsOn s core).filter fun v => v.part == w.part
    let use (v : Wg) : List Nat :=
      let n := v.nwarp / v.fibs
      let m := (subsOf v).length
      [n, n * 32 * v.ring, m * v.acc, m * v.obSize, v.scrSize]
    let total := (w :: mine).foldl (fun (t : List Nat) v => List.zipWith (· + ·) t (use v)) [0, 0, 0, 0, 0]
    (List.range 5).all fun r => decide (total.getD r 0 ≤ gondolaShare s (dieOf core) w.part r)
  else true

/-- Allocate a workgroup on a core, if it fits (R336): its slots, operand-buffer and scratchpad bases, tiles and fibre places. -/
def allocate (s : State) (w : Wg) (core : Nat) : Option Wg :=
  let subs := subsOf w
  let room (j : Nat) : Bool :=
    let u := 4 * core + j
    decide (slotsOn w j ≤ (freeSlots s u).length) && decide (regUsed s u + slotsOn w j * (32 * w.ring) ≤ 2048)
      && decide (w.acc ≤ (freeTiles s u).length)
  let ob := (List.range 4).map fun j =>
    if subs.contains j && w.obSize != 0 then firstFit (obBusy s (4 * core + j)) w.obSize 262144 else some 0
  let scr := if w.scrSize = 0 then some 0 else firstFit (scrBusy s core) w.scrSize 1048576
  match scr with
  | none => none
  | some base =>
    if subs.all room && ob.all Option.isSome && tagsFit s w core && fuseFits s w core && shareFits s w core then
      let slot (j : Nat) : Nat := (freeSlots s (4 * core + j % 4)).getD (j / 4) 0
      let tiles := subs.flatMap fun j =>
        ((freeTiles s (4 * core + j)).take w.acc).zipIdx.map fun p => (16 * j + p.2, (4 * core + j, p.1))
      some { w with core := core, slots := (List.range (w.nwarp / w.fibs)).map slot, obBase := ob.map fun o => o.getD 0, scrBase := base,
                    tiles := tiles.foldl (fun m p => FMap.put m p.1 p.2) [],
                    fibres := (List.range w.nwarp).map fun i => 4 * slot (i / w.fibs) + i % w.fibs }
    else none

/-! ## Starting a workgroup (R198 to R200, R203, R300, R339, R349) -/

/-- The workgroup a descriptor describes, not yet placed. -/
def wgOfKdesc (l : Launch) (n : Nat) (spawned : Option Nat) : Wg :=
  let k := l.kdesc
  { part := l.part, lid := l.lid, wg := n, core := 0, klvl := l.klvl, kdesc := k, nwarp := if spawned.isSome then 1 else kf k 64 6,
    fibs := if spawned.isSome then 1 else kFibs k, ring := kRing k, win := kf k 76 6, acc := kf k 83 5, ntag := kf k 89 4,
    cor := kf k 88 1 == 1, fuse := kf k 82 1 == 1, scrBase := 0, scrSize := 256 * kf k 96 13, obBase := [0, 0, 0, 0],
    obSize := 1024 * kf k 109 9, tiles := [], fibres := [], slots := [], spawnSlot := spawned, saveArea := 0, saveSeq := 0, dirtyUnits := [] }

/-- The key of a placed workgroup. -/
def keyOf (w : Wg) : Nat :=
  match w.spawnSlot with
  | some m => spawnKey w.part w.lid m
  | none => wgKey w.part w.lid w.wg

/-- The register-file words of a slot hold 0, with no poison, and count as written (R199, R237). -/
def clearSlot (s : State) (slot len : Nat) : State :=
  let u := slot / 16
  let base := slot % 16 * 512
  let inSlot (k : Nat) : Bool := k / 8192 / 32 == u && decide (base ≤ k % 8192) && decide (k % 8192 < base + 512)
  { s with ring := s.ring.filter fun p => !inSlot p.1, ringPoison := s.ringPoison.filter fun k => !inSlot k,
           ringDirty := (List.range len).foldl (fun d i => NSet.add d (u * 8192 + base + i)) s.ringDirty }

/-- A tile granted at a workgroup's start (R300). -/
def freshTile (s : State) (u p : Nat) : State :=
  let key := u * 16 + p
  let s1 := { s with acc := s.acc.filter fun e => e.1 / 2048 != key, side := s.side.filter fun e => e.1 / 32 != key }
  { s1 with mem := unpoison s1.mem (accLoc (2048 * key)) 8192 }

/-- A quarter of the length of each fibre's sub-ring (R218). -/
def subRingQuads (w : Wg) : Nat := (32 * w.ring - w.win) / (4 * w.fibs)

/-- A slot joins the active set where it has room (R339). -/
def addSlot (s : State) (w : Wg) (slot : Nat) : State :=
  let act := (s.slots.filter fun p => p.1 / 16 == slot / 16 && p.2.active).length
  let s1 := clearSlot s slot (32 * w.ring)
  let x : Slot :=
      { cur := 0, nfib := w.fibs, win := w.win, ringBase := slot % 16 * 512, ringLen := 32 * w.ring, quads := subRingQuads w,
        active := decide (act < 8), readySince := none, eligibleSince := none, wgKey := keyOf w }
  { s1 with slots := FMap.put s1.slots slot x }

/-- A fused launch's first workgroup on a quad starts fusion (R77). -/
def startFusion (s : State) (w : Wg) : State :=
  if w.fuse && (FMap.find s.fused (quadOf w.core)).isNone then
    let s1 := dropQuad s (quadOf w.core)
    { s1 with fused := FMap.put s1.fused (quadOf w.core) (wgKey w.part w.lid 0) }
  else s

/-- The scratchpad and operand buffer that a workgroup is given on a gondola hold 0: whatever another partition left there is gone (R343;
log 24). -/
def clearShare (s : State) (w : Wg) : State :=
  if isGondola s w.core then
    let inScr (k : Nat) : Bool := decide (w.core * 2 ^ 20 + w.scrBase ≤ k) && decide (k < w.core * 2 ^ 20 + w.scrBase + w.scrSize)
    let inOb (k : Nat) : Bool := k / 2 ^ 20 == w.core && (let b := w.obBase.getD (k / 2 ^ 18 % 4) 0; decide (b ≤ k % 2 ^ 18) && decide (k % 2 ^ 18 < b + w.obSize))
    { s with scr := s.scr.filter fun p => !inScr p.1, obuf := s.obuf.filter fun p => !inOb p.1,
             mem := dropPoison s.mem fun k =>
               let loc := 8 * k
               if 2 ^ 54 ≤ loc then false else if 2 ^ 53 ≤ loc then inOb (loc - 2 ^ 53) else decide (2 ^ 52 ≤ loc) && inScr (loc - 2 ^ 52) }
  else s

/-- The constant cache of a core gives up its lines: a workgroup launched after a store was performed sees it (R97). -/
def dropConst (s : State) (core : Nat) : State :=
  { s with mem := { s.mem with ccache := s.mem.ccache.filter fun p => constCore p.1 != core } }

/-- Take a place for a workgroup: its record, slots and tiles. -/
def installWg (s0 : State) (w : Wg) : State :=
  let s := clearShare (dropConst s0 w.core) w
  let s1 := w.slots.foldl (fun t k => addSlot t w k) s
  let s2 := startFusion { s1 with wgs := FMap.put s1.wgs (keyOf w) w } w
  w.tiles.foldl (fun t p => freshTile t p.2.1 p.2.2) s2

/-- A fibre of a launch as it begins, with its fibre number g (R198, R199, R349). -/
def launchFibre (s : State) (l : Launch) (entry : BitVec 64) (g : Nat) (s2 s3 : Nat) : Fibre :=
  let k := l.kdesc
  let p := partOf s l.part
  let r := l.record
  let v64 (n : Nat) : BitVec 64 := BitVec.ofNat 64 n
  let spb := v64 (rf r 512 64 + g * (128 * kSpw k + 512 * kLkn k))
  let words := [rf r 128 32, rf r 160 32, s2, s3] ++ (List.range 12).map fun j => rf r (576 + 32 * j) 32
  { Fibre.start entry with
    part := l.part, lid := l.lid, klvl := l.klvl, spb := spb, lkb := spb + v64 (128 * kSpw k), spw := kSpw k, lkn := kLkn k,
    lpb := v64 (rf r 448 64 + 128 * kPriv k * g), lpl := v64 (4 * kPriv k), scratchbase := v64 (2 ^ 25 * kf k 200 39), pgroot := l.root,
    ktvec := p.ktvec, tdeleg := p.tdeleg, tenmax := p.tenmax, keys := some (p.kb, p.kn), dirty := 7,
    sregs := (words.zipIdx).foldl (fun m e => SMap.set 0 m e.2 (BitVec.ofNat 32 e.1)) [] }

/-- Put a fibre in its place with v7 of every lane the top of its private space; its start acquires the writes given (R199, R200). -/
def startFibre (s : State) (f : Nat) (x : Fibre) (k : BitVec 512) (v : View) : State :=
  let s1 := { s with fibres := FMap.put s.fibres f x }
  let s2 := (List.range 32).foldl (fun t i => { t with ring := SMap.set 0 t.ring (ringKey f i (frameWord t f 7)) (BitVec.ofNat 32 (4 * kPriv k)) }) s1
  noteAcquire (joinView s2 f v) f

/-- What the start of a workgroup acquires: its record's enqueue, and for a dependent launch the region's writes that its tile's flag
released (R164, R200, R334). -/
def startView (l : Launch) (n : Nat) : View := viewJoin l.view ((FMap.find l.flagViews (n / tileWg l)).getD [])

/-- Start workgroup n of a launch in the place it was given. -/
def startWg (s : State) (l : Launch) (w : Wg) : State :=
  let s1 := installWg s w
  let s2 := (w.fibres.zipIdx).foldl (fun t p =>
    let g := w.wg * w.nwarp + p.2
    let x := { launchFibre t l (BitVec.ofNat 64 (kf l.kdesc 0 64)) g w.wg (rNwg l.record) with
      wg := w.wg, warp := p.2, fibre := p.2 % w.fibs }
    startFibre t p.1 x l.kdesc (startView l w.wg)) s1
  modLaunch s2 l.part l.lid fun l =>
    let k := w.wg / tileWg l
    { l with started := FMap.put l.started k ((FMap.find l.started k).getD 0 + 1) }

/-! ## The spool (R201 to R203) -/

/-- The partitions that have been built. -/
def activeParts (s : State) : Nat := max 1 s.hub.parts.length

/-- A partition's share of a die's spool (R202). -/
def spoolShareOf (s : State) (part : Nat) : Nat := (partOf s part).spoolShare.getD (8192 / activeParts s)

/-- The spool of a die takes a record, if the share allows; a partition that reaches its share is reported (R202, R385). -/
def spoolAccept (s : State) (r : SpoolRec) : Bool × State :=
  let held := s.spool.filter fun q => q.die == r.die
  let mine := (held.filter fun q => q.part == r.part).length
  let share := spoolShareOf s r.part
  let nspn := match launchOf s r.part r.lid with
    | some l => rNspn l.record
    | none => (0 : Nat)
  if nspn == 0 || decide (share ≤ mine) || decide (8192 ≤ held.length) then (false, s)
  else
    let s1 := { s with spool := s.spool ++ [r] }
    (true, if mine + 1 = share then irq s1 2 r.die else s1)

/-- One lane of SPAWN: its continuation record, and the predicate (R216). -/
def spawnLane (a : Args) (s : State) (i : Nat) : State :=
  let f := s.cur
  let x := fib s f
  let base := opndNum a.s1
  let args := (List.range 12).map fun j => frameGet s f i ((laneAt x i).fp + base + j)
  let q : SpoolRec :=
    { die := dieOf (coreOf f), part := x.part, lid := x.lid, entry := BitVec.ofNat 64 (addrVal s a.s0 i), args := args, time := s.tick,
      view := releaseView s f 3 }
  let r := spoolAccept s q
  match a.d.opnd with
  | .reg d _ _ => predSet r.2 f i d r.1
  | _ => r.2

/-- SPAWN (R216). -/
def execSpawn (a : Args) (s : State) : Result :=
  let f := s.cur
  let s0 := drainAll s f
  if active s a = 0 then .next (goOn s)
  else if !drained s0 f then hold s0
  else
    let m := active s0 a
    let fs := (lanesOf m).filterMap fun i =>
      let e := addrVal s0 a.s0 i
      if e % 4 = 0 then none else some (i, ({ cause := cRESERVED, addr := e, info := 0 } : Flt))
    let s1 := (lanesOf (m &&& ~~~ faultMask fs)).foldl (spawnLane a) (releaseFence s0 f 3)
    .next (finishLanes s1 fs)

/-- Two records gather in one group. -/
def sameGroup (die : Nat) (entry : BitVec 64) (part lid : Nat) (r : SpoolRec) : Bool :=
  r.die == die && r.part == part && r.lid == lid && r.entry == entry

/-- A group may be dispatched: 32 records, or the oldest has waited 4,096 clk; with a spawn slot free (R202). -/
def groupReady (s : State) (r : SpoolRec) : Bool :=
  let g := s.spool.filter (sameGroup r.die r.entry r.part r.lid)
  (decide (32 ≤ g.length) || g.any fun q => decide (q.time + 4096 ≤ s.tick))
    && (match launchOf s r.part r.lid with
        | some l => decide (l.spawnUsed.length < rNspn l.record)
        | none => false)

/-- The lowest free spawn slot of a launch: some number up to the count in use is free. -/
def freeSpawn (l : Launch) : Nat := ((List.range (l.spawnUsed.length + 1)).find? fun m => !l.spawnUsed.contains m).getD 0

/-- A spool without the first `n` records that a test picks. -/
def takeGroup (p : SpoolRec → Bool) : Nat → List SpoolRec → List SpoolRec
  | 0, l => l
  | _, [] => []
  | n + 1, r :: l => if p r then takeGroup p n l else r :: takeGroup p (n + 1) l

/-- Start a warp on the first 32 records of a group, in a place allocated for it; its start acquires their SPAWNs (R202, R203). -/
def startSpawned (s : State) (l : Launch) (w : Wg) (m : Nat) (g : List SpoolRec) : State :=
  let n := g.length
  let filled : LaneMask := maskOf fun i => decide (i < n)
  let entry := (g.head?.map (·.entry)).getD 0
  let s1 := installWg s w
  let x := { launchFibre s1 l entry (rNwg l.record * kf l.kdesc 64 6 + m) 0xFFFFFFFF n with
    wg := 0xFFFFFFFF, spawned := true, exited := ~~~ filled, amask := filled }
  let f := w.fibres.headD 0
  let s2 := startFibre s1 f x l.kdesc (g.foldl (fun v r => viewJoin v r.view) [])
  let place (j : Nat) : Nat := if j < 7 then j else j + 1
  let s3 := (g.zipIdx).foldl (fun t r => (r.1.args.zipIdx).foldl (fun u e =>
      { u with ring := SMap.set 0 u.ring (ringKey f r.2 (frameWord u f (place e.2))) e.1 }) t) s2
  modLaunch { s3 with spool := takeGroup (fun r => g.any fun q => sameGroup q.die q.entry q.part q.lid r) n s3.spool }
    l.part l.lid fun l => { l with spawnUsed := NSet.add l.spawnUsed m }

end Sys2Proof.Machine
end

