-- ==== Sys2Proof/Machine/Wake.lean ====
section
/-! DEFINITION. The wait-and-wake table: WWAIT, WWAKE and the host's requests (spec/17 R387 to R391). -/

namespace Sys2Proof.Machine

/-! ## The table (R387) -/

/-- The entries a partition may hold (R380). -/
def wshOf (s : State) (part : Nat) : Nat := (partOf s part).wsh.getD (4096 / activeParts s)

/-- The entries a partition holds. -/
def waitersHeld (s : State) (part : Nat) : Nat := (s.hub.waiters.filter fun w => w.part == part).length

/-- Enrol a waiter: none where refused; a partition that reaches its limit is reported (R385, R387). -/
def enrol (s : State) (e : WaitEntry) : Option State :=
  if wshOf s e.part ≤ waitersHeld s e.part ∨ 4096 ≤ s.hub.waiters.length then none
  else
    let seq := s.hub.waiters.foldl (fun n w => max n (w.seq + 1)) 0
    let s1 := { s with hub := { s.hub with waiters := s.hub.waiters ++ [{ e with seq := seq }] } }
    some (if waitersHeld s1 e.part = wshOf s e.part then irq s1 3 0 else s1)

/-- Remove the entries a test picks. -/
def unenrol (s : State) (p : WaitEntry → Bool) : State := { s with hub := { s.hub with waiters := s.hub.waiters.filter fun w => !p w } }

/-- The hub writes a word in host memory on the ordered channel of a port (R158, R379, R388, R389); a failed port loses it (R378). -/
def putWord (s : State) (w : HubWord) : State :=
  if (portAt s w.port).failed then s
  else
    let l := toBytes 8 w.value.toNat
    let s1 := performWrite (arriveAll s hubReq true 0 2 w.pa 8) (.unit w.view none) hubCore 0 2 w.pa l false (some 6)
    output (hostPut (sendRelaxed s1 w.port (portAt s1 w.port).accepted) w.pa l) (.hostWrite w.port w.pa l false)

/-- The words that the hub owes are written, in order, as far as no tenure keeps one (R117). -/
def settleWords (s : State) : State :=
  s.hub.owed.foldl (fun t w =>
    if t.hub.owed.head? = some w ∧ !hubPinned t w.pa 8 true then putWord { t with hub := { t.hub with owed := t.hub.owed.drop 1 } } w else t) s

/-- A word for a host is written, after those that wait and after the writes of a view. -/
def hostWord (s : State) (port pa : Nat) (v : View) (x : BitVec 64) : State :=
  settleWords { s with hub := { s.hub with owed := s.hub.owed ++ [{ port := port, pa := pa, value := x, view := v }] } }

/-- A waiting WWAIT with .acq takes note of the release that wakes it (R389). -/
def wokenBy (rel : Option Rel) (x : Fibre) : Fibre :=
  match rel with
  | some r => if x.waits.any (fun v => match v.kind with
      | .wwait _ _ _ _ acq _ => acq
      | _ => false) then { x with relPend := r :: x.relPend } else x
  | none => x

/-- A waiter is woken by a wake, a release where one is given: a fibre's WWAIT ends, a host's word is written (R388, R389). -/
def wakeOne (rel : Option Rel) (s : State) (w : WaitEntry) : State :=
  match w.who with
  | .fibre f => modFib s f fun x => { wokenBy rel x with waits := x.waits.map fun v => match v.kind with
      | .wwait k dl _ dst acq sc => { v with kind := .wwait k dl true dst acq sc }
      | _ => v }
  | .host port _ npa nval => if npa = 0 then s else hostWord s port npa ((rel.map Rel.view).getD []) nval

/-- The entry belongs to a key. -/
def onKey (part key : Nat) (w : WaitEntry) : Bool := w.part == part && w.key == key

/-- The waiters that a wake of a key takes: up to `count`, 0 meaning all, the oldest enrolment first (R389). -/
def wakeSet (s : State) (part key count : Nat) : List WaitEntry :=
  let l := s.hub.waiters.filter (onKey part key)
  if count = 0 then l else l.take count

/-- Wake waiters of a key: the number woken (R389). -/
def wakeKey (s : State) (part key count : Nat) (rel : Option Rel) : Nat × State :=
  let woken := wakeSet s part key count
  (woken.length, woken.foldl (wakeOne rel) (unenrol s fun w => woken.contains w))

/-- The waiter is a host's, with a word to be written. -/
def hostWaiter (w : WaitEntry) : Bool :=
  match w.who with
  | .host _ _ npa _ => npa != 0
  | .fibre _ => false

/-! ## WWAIT, WWAKE (R390, R391) -/

/-- A WWAIT ends with a result: its acquire at a scope, if any, and the predicate of its lanes. -/
def endWwait (s : State) (f : Nat) (m : LaneMask) (dst : Option Nat) (acq : Bool) (scope : Nat) (b : Bool) (pc : BitVec 64) : State :=
  let s1 := if acq then acquireFence s f scope else s
  let s2 := match dst with
    | some n => (lanesOf m).foldl (fun t i => predSet t f i (.p (Fin.ofNat 7 n)) b) s1
    | none => s1
  setPc s2 f m pc

/-- The data register of WWAIT is zero, or none. -/
def isZeroOpnd (o : Opnd) : Bool :=
  match o with
  | .reg .zero _ _ => true
  | .none => true
  | _ => false

/-- WWAIT: the comparison and the enrolment are one step of the key order. -/
def execWwait (a : Args) (s : State) : Result :=
  let f := s.cur
  let va := effAddr s a (lane0 s)
  let acq := decide (a.ord.toNat = 1)
  match checkAccess s f (lane0 s) a.space.toNat va 4 4 kRead .monitor false with
  | .error e => .next (trapAll s e)
  | .ok ps =>
    let s0 := if loadDrains (fib s f) ps then drainAll s f else s
    if mustWait s0 f false ps || loadDrains (fib s0 f) ps then hold s0
    else
      let r := loadPieces (commitPieces s0 f kRead false ps) f a.space.toNat (if acq then a.scope.toNat else 1) true 0 ps
      let e := if isZeroOpnd a.s1 then 0 else wordVal s a.s1 (lane0 s)
      let t := if isZeroOpnd a.s1 then 0 else pairHigh s a.s1 (lane0 s)
      let part := (fib s f).part
      if ofBytes r.1 ≠ e then .next (endWwait r.2 f s.grp (predDst a.d.opnd) acq a.scope.toNat false (s.ipc + 12))
      else match enrol r.2 { part := part, key := va, who := .fibre f, seq := 0 } with
        | none => .next (endWwait r.2 f s.grp (predDst a.d.opnd) acq a.scope.toNat false (s.ipc + 12))
        | some u => .next (beginWait u s.grp (.wwait va (if t = 0 then none else some (s.tick + t)) false (predDst a.d.opnd) acq a.scope.toNat))

/-- The wait of a fibre in WWAIT. -/
def wwaitOf (x : Fibre) : Option Wait :=
  findWait x fun k => match k with
    | .wwait _ _ _ _ _ _ => true
    | _ => false

/-- A WWAIT whose entry is no longer in the table goes on with a result. -/
def finishWwait (s : State) (f : Nat) (w : Wait) (b : Bool) : State :=
  match w.kind with
  | .wwait _ _ _ dst acq scope => endWwait (modFib s f fun x => dropWait x w) f w.lanes dst acq scope b w.pc
  | _ => s

/-- A WWAIT has been woken. -/
def wwaitWoken (w : Wait) : Bool :=
  match w.kind with
  | .wwait _ _ woken _ _ _ => woken
  | _ => false

/-- A WWAIT that is not woken has passed its deadline. -/
def wwaitExpired (s : State) (w : Wait) : Bool :=
  match w.kind with
  | .wwait _ (some t) false _ _ _ => decide (t ≤ s.tick)
  | _ => false

/-- WWAIT_WAKE (R389). -/
def execWwaitWake (f : Nat) (s : State) : Result :=
  match wwaitOf (fib s f) with
  | some w => .next (if wwaitWoken w then finishWwait s f w true else s)
  | none => .next s

/-- WWAIT_TIMEOUT (R391): the entry is removed. -/
def execWwaitTimeout (f : Nat) (s : State) : Result :=
  match wwaitOf (fib s f) with
  | some w => .next (if wwaitExpired s w then finishWwait (unenrol s fun e => e.who == .fibre f) f w false else s)
  | none => .next s

/-- WWAKE (R389, R391). Where a host waits, the release set is performed at .sys before its word is written. -/
def execWwake (a : Args) (s : State) : Result :=
  let f := s.cur
  let rel := decide (a.ord.toNat = 1)
  let scope := a.scope.toNat
  let va := effAddr s a (lane0 s)
  let count := scalar s a.s1
  let part := (fib s f).part
  let reach := if va % 4 = 0 ∧ (wakeSet s part va count).any hostWaiter then 6 else scope
  let s0 := if rel then drainAll s f else s
  if rel && !(drained s0 f && fibReady s0 f reach) then retry s0 reach
  else
    let s1 := if rel then releaseFence (fibReleased s0 f) f scope else s0
    if va % 4 ≠ 0 then .next (trapAll s1 (alignFault va kRead 2 false))
    else
      let r : Rel := { core := coreOf f, scope := scope, view := releaseView s1 f scope }
      let k := wakeKey s1 part va count (if rel then some r else none)
      .next (goOn (setUniform k.2 a.d.opnd k.1))

/-! ## Host requests (R388) -/

/-- Fields of a request. -/
def wreqKey (q : BitVec 256) : Nat := bits q.toNat 0 64
def wreqOp (q : BitVec 256) : Nat := bits q.toNat 64 2
def wreqToken (q : BitVec 256) : Nat := bits q.toNat 80 16
def wreqCount (q : BitVec 256) : Nat := bits q.toNat 96 32
def wreqNpa (q : BitVec 256) : Nat := bits q.toNat 128 52
def wreqNval (q : BitVec 256) : BitVec 64 := BitVec.ofNat 64 (bits q.toNat 192 64)

/-- A function is bound, and its port accepts requests (R378, R379). -/
def vfLive (s : State) (vf : Nat) : Option Nat :=
  if (portAt s (vfPort vf)).failed then none else FMap.find s.hub.vfPart vf

/-- A request to a function that takes none: behind a failed port it is not accepted (R378); the function of no partition answers Unsupported
Request (R379). -/
def refuseRequest (s : State) (vf : Nat) : State := if (portAt s (vfPort vf)).failed then s else output s (.completion 1)

/-- The request of a host. -/
def hostReq : Req := { core := hostCore, part := 0, sh := true, ch := 0 }

/-- The host writes bytes at their home through a port, an ordered write as a release at .sys of what arrived there before; its own memory
shows them too (R161, R162). -/
def hostStore (s : State) (port pa : Nat) (rel : Bool) (l : List Byte) (rmw : Bool := false) : State :=
  let p := hubPiece s pa l.length 0
  let s1 := performWrite (arriveAll s hostReq true p.key p.mt pa l.length) (.unit (portAt s port).arrived none) hostCore p.key p.mt pa l rmw
    (if rel then some 6 else none)
  let s2 := modPort s1 port fun x => { x with arrived := viewJoin x.arrived (wroteView s1 [p]) }
  if isHost pa then hostPut s2 pa l else s2

/-- The lines of a host access are under a tenure that cannot be taken back yet (R112, R117). -/
def hostWaits (s : State) (pa n : Nat) (write : Bool) : Bool := (linesOf pa n).any fun l => recallWaits s none hostCore l write

/-- Something that arrived before on a port must wait, and with it what follows there (R117, R161). -/
def inboundWaits (s : State) (port : Nat) : Bool := (portAt s port).inbound.any fun w => hostWaits s w.1 w.2.length true

/-- Everything that arrived before on a port is performed: a request there is a release at .sys of it (R161). -/
def arriveInbound (s : State) (port : Nat) : State :=
  let s1 := (portAt s port).inbound.foldl (fun t w => hostStore t port w.1 false w.2) s
  modPort s1 port fun x => { x with inbound := [] }

/-- A request of a live function with its op, no res bit set; else it is dropped and logged (R388), or unsupported (R379). -/
def withWreq (s : State) (vf : Nat) (q : BitVec 256) (op : Nat) (act : State → Nat → State) : Result :=
  match vfLive s vf with
  | none => .next (refuseRequest s vf)
  | some part =>
    if inboundWaits s (vfPort vf) then .next s
    else
    let s1 := arriveInbound s (vfPort vf)
    if bits q.toNat 66 14 ≠ 0 ∨ bits q.toNat 180 12 ≠ 0 ∨ wreqOp q = 3 then .next (logError s1 (.dropped (wreqOp q)))
    else if wreqOp q = op then .next (act s1 part) else .next s

/-- WREQ_ENROL: a refusal writes ¬NVAL. -/
def execWreqEnrol (vf : Nat) (req : BitVec 256) (s : State) : Result :=
  withWreq s vf req 0 fun s part =>
    let e : WaitEntry := { seq := 0, part := part, key := wreqKey req, who := .host (vfPort vf) (wreqToken req) (wreqNpa req) (wreqNval req) }
    match enrol s e with
    | some t => t
    | none => if wreqNpa req = 0 then s else hostWord s (vfPort vf) (wreqNpa req) [] (~~~ wreqNval req)

/-- WREQ_WAKE: the number woken is written. -/
def execWreqWake (vf : Nat) (req : BitVec 256) (s : State) : Result :=
  withWreq s vf req 1 fun s part =>
    let r : Rel := { core := hostCore, scope := 6, view := (portAt s (vfPort vf)).arrived }
    let k := wakeKey s part (wreqKey req) (wreqCount req) (some r)
    if wreqNpa req = 0 then k.2 else hostWord k.2 (vfPort vf) (wreqNpa req) [] (BitVec.ofNat 64 k.1)

/-- WREQ_CANCEL. -/
def execWreqCancel (vf : Nat) (req : BitVec 256) (s : State) : Result :=
  withWreq s vf req 2 fun s part => unenrol s fun w => onKey part (wreqKey req) w && (match w.who with
    | .host _ token _ _ => token == wreqToken req
    | .fibre _ => false)

end Sys2Proof.Machine
end

