-- ==== Sys2Proof/Machine/Ports.lean ====
section
/-! DEFINITION. The host ports and the functions behind them: doorbells, register accesses, host reads and writes, flushes, port
failures, interrupts (spec/06 R158 to R162; spec/17 R375 to R379, R384 to R386, R393). -/

namespace Sys2Proof.Machine

/-! ## Codes of what the package answers -/

/-- Successful completion, Unsupported Request, Configuration Request Retry Status. -/
def cplOk : Nat := 0
def cplUnsupported : Nat := 1
def cplRetry : Nat := 2

/-- What the firmware signals over a port: power, thermal, a failure of the other port, a core to sign for. -/
def sigPower : Nat := 1
def sigThermal : Nat := 2
def sigPort : Nat := 3

/-- Unsupported Request. -/
def unsupportedRequest (s : State) : State := output s (.completion cplUnsupported)

/-! ## Doorbells and requests (R379, R393) -/

/-- The launch ID of a doorbell's record, 0 where it is refused; none where it must wait for a pinned tenure. -/
def doorbellId (s : State) (vf part va : Nat) : Option (Nat × State) :=
  let root := SMap.get 0 (partOf s part).lctx vf
  let r := readLaunch s { part := part, root := root, klvl := true } none va
  match r.2 with
  | .error _ => some (0, r.1)
  | .ok none => none
  | .ok (some (rec, k)) => if (launchFails rec k).isSome then some (0, r.1) else some (enqueueLaunch r.1 part root true (portAt s (vfPort vf)).arrived va rec k)

/-- A write to LDB: a release at .sys of what arrived before it; the record is read at K; the result word is written. -/
def doorbell (vf : Nat) (record result : BitVec 64) (s : State) : Result :=
  match vfLive s vf with
  | none => .next (refuseRequest s vf)
  | some part =>
    if inboundWaits s (vfPort vf) then .next s
    else
    let s1 := arriveInbound s (vfPort vf)
    match doorbellId s1 vf part record.toNat with
    | none => .next s
    | some (id, t) => .next (hostWord t (vfPort vf) (result.toNat % 2 ^ 52) [] (BitVec.ofNat 64 id))

/-- LAUNCH_DOORBELL (R379). -/
def execLaunchDoorbell (vf : Nat) (record result : BitVec 64) (s : State) : Result := doorbell vf record result s

/-- A write to SDONE: the slots of the die's ring whose service is complete are free again. -/
def serviceDone (vf : Nat) (value : BitVec 64) (s : State) : Result :=
  match vfLive s vf with
  | none => .next (refuseRequest s vf)
  | some _ =>
    if inboundWaits s (vfPort vf) then .next s
    else
    let s1 := arriveInbound s (vfPort vf)
    .next (if bits value.toNat 16 48 = 0 then reclaim s1 else logError s1 (.dropped 3))

/-- SDONE (R393). -/
def execSdone (vf : Nat) (value : BitVec 64) (s : State) : Result := serviceDone vf value s

/-- The request that four 8-byte writes have assembled. -/
def request (l : List (BitVec 64)) : BitVec 256 := BitVec.ofNat 256 ((l.zipIdx).foldl (fun n p => n + p.1.toNat * 2 ^ (64 * p.2)) 0)

/-- A request by its OP. -/
def runRequest (vf : Nat) (q : BitVec 256) (s : State) : Result :=
  match wreqOp q with
  | 1 => execWreqWake vf q s
  | 2 => execWreqCancel vf q s
  | _ => execWreqEnrol vf q s

/-- Write j of four to WREQ: the last starts the request (R388). -/
def requestPart (vf j : Nat) (v : BitVec 64) (s : State) : Result :=
  let old := (FMap.find s.hub.wreq vf).getD []
  if old.length ≠ j ∧ j ≠ 0 then .next { s with hub := { s.hub with wreq := FMap.del s.hub.wreq vf } }
  else
    let l := (if j = 0 then [] else old) ++ [v]
    if l.length = 4 then runRequest vf (request l) { s with hub := { s.hub with wreq := FMap.del s.hub.wreq vf } }
    else .next { s with hub := { s.hub with wreq := FMap.put s.hub.wreq vf l } }

/-! ## The MSI-X table (R379; the unmasking of a pending vector is PCIe's, log 25) -/

/-- A pending vector whose mask has been cleared is sent. -/
def sendPending (s : State) (vf : Nat) : State :=
  (List.range 32).foldl (fun t n =>
    let pend := SMap.get 0 t.hub.msix vf
    if pend.getLsbD n && !(msixByte t vf (16 * n + 12)).getLsbD 0 then
      postMsix { t with hub := { t.hub with msix := SMap.set 0 t.hub.msix vf (pend &&& ~~~ (BitVec.ofNat 32 (2 ^ n))) } } vf n
    else t) s

/-- The host writes the table. -/
def msixWrite (s : State) (vf off n v : Nat) : State :=
  let put (t : State) (p : Byte × Nat) : State :=
    { t with hub := { t.hub with msixTable := SMap.set 0 t.hub.msixTable (vf * 4096 + off + p.2) p.1 } }
  sendPending (((toBytes n v).zipIdx).foldl put s) vf

/-- The host reads the table or the pending bits. -/
def msixRead (s : State) (vf off n : Nat) : List Byte :=
  if off < 0x800 then (List.range n).map fun i => msixByte s vf (off + i)
  else (toBytes n ((SMap.get 0 s.hub.msix vf).toNat / 2 ^ (8 * (off - 0x800))))

/-- An access the MSI-X part of BAR0 accepts: 4 or 8 aligned bytes. -/
def msixAccess (offset size : Nat) : Bool := decide (0x3000 ≤ offset) && decide (offset + size ≤ 0x4000) && (size == 4 || size == 8) && offset % size == 0

/-- VF_REGISTER_WRITE (R379): the BAR0 map; every other access completes with Unsupported Request and changes nothing. -/
def execVfRegisterWrite (vf offset size : Nat) (write : Bool) (value : BitVec 128) (s : State) : Result :=
  let v64 : BitVec 64 := BitVec.ofNat 64 value.toNat
  if (vfLive s vf).isNone then .next (refuseRequest s vf)
  else if write then
    (if offset = 0 ∧ size = 16 then doorbell vf v64 (BitVec.ofNat 64 (value.toNat / 2 ^ 64)) s
     else if offset = 0x2000 ∧ size = 8 then serviceDone vf v64 s
     else if 0x1000 ≤ offset ∧ offset < 0x1020 ∧ offset % 8 = 0 ∧ size = 8 then requestPart vf ((offset - 0x1000) / 8) v64 s
     else if msixAccess offset size then .next (if offset < 0x3800 then msixWrite s vf (offset - 0x3000) size value.toNat else s)
     else .next (unsupportedRequest s))
  else if msixAccess offset size then .next (output s (.readData (vfPort vf) offset (msixRead s vf (offset - 0x3000) size)))
  else .next (unsupportedRequest s)

/-! ## Host reads and writes (R161, R376) -/

/-- A port lets a host access reach an address: its own host memory, or a CXL.mem window. -/
def hostReaches (s : State) (port pa n : Nat) : Bool :=
  (isHost pa && portOf pa == port) || ((portAt s port).cxl && (portAt s port).windows.any fun w => decide (w.2.1 ≤ pa) && decide (pa + n ≤ w.2.1 + w.2.2))

/-- HOST_WRITE (R161): a relaxed write is performed in any order before the next ordered one. -/
def execHostWrite (port pa : Nat) (data : List Byte) (relaxed : Bool) (s : State) : Result :=
  if (portAt s port).failed then .next s
  else if !hostReaches s port pa data.length then .next (unsupportedRequest s)
  else if relaxed then .next (modPort s port fun x => { x with inbound := x.inbound ++ [(pa, data)] })
  else if inboundWaits s port || hostWaits s pa data.length true then .next s
  else .next (hostStore (arriveInbound s port) port pa true data)

/-- HOST_READ (R161). -/
def execHostRead (port pa len : Nat) (s : State) : Result :=
  if (portAt s port).failed then .next s
  else if !hostReaches s port pa len then .next (unsupportedRequest s)
  else if inboundWaits s port || hostWaits s pa len false then .next s
  else
    let s1 := arriveInbound s port
    let p := hubPiece s1 pa len 0
    let s2 := arriveAll s1 hostReq false p.key p.mt pa len
    let s3 := if isHost pa then s2 else modPort s2 port fun x => { x with lines := (linesOf pa len).foldl NSet.add x.lines }
    .next (output s3 (.readData port pa (readBytes s2 p.key pa len)))

/-- The new value of an AtomicOp of a host: FetchAdd, Swap, CAS (R375). -/
def hostOp (n op operand compare old : Nat) : Nat :=
  match op with
  | 0 => (old + operand) % 256 ^ n
  | 1 => operand % 256 ^ n
  | _ => if old = compare % 256 ^ n then operand % 256 ^ n else old

/-- An AtomicOp of the host, of 32 or 64 bits (R375): performed as an ordered write is, its Completion carries the old value. DESIGN CHOICE (log
21): a CAS that finds another value writes that value back. -/
def hostAtomic (s : State) (port pa n op operand compare : Nat) : State :=
  if (portAt s port).failed then s
  else if !hostReaches s port pa n || !(n == 4 || n == 8) || pa % n != 0 || decide (2 < op) then unsupportedRequest s
  else if inboundWaits s port || hostWaits s pa n true then s
  else
    let s1 := arriveInbound s port
    let p := hubPiece s1 pa n 0
    let s2 := arriveAll s1 hostReq true p.key p.mt pa n
    let old := ofBytes (readBytes s2 p.key pa n)
    output (hostStore s2 port pa true (toBytes n (hostOp n op operand compare old)) true) (.readData port pa (toBytes n old))

/-- CXL_SNOOP (R112, R162, R376): the data of a line the device holds; conflicting tenures are taken back, and an exclusive snoop takes its
copies. -/
def execCxlSnoop (port pa : Nat) (exclusive : Bool) (s0 : State) : Result :=
  let line := pa / 128
  if (portAt s0 port).failed || !(portAt s0 port).cxl || !(isHost pa && portOf pa == port) then .next s0
  else if recallWaits s0 none hostCore line exclusive then .next s0
  else
    let s := recallFor s0 hostCore line exclusive
    let dirty := (List.range 128).any fun i => (FMap.find s.mem.dirty (line * 128 + i)).isSome
    let st := cleanLine s.mem line
    let st1 : Store := if exclusive then { st with copies := FMap.del st.copies line } else st
    let s1 : State := { s with mem := st1 }
    .next (output s1 (.snoopAnswer port pa (if dirty then readBytes s1 0 (line * 128) 128 else [])))

/-! ## Flushes and failures (R160, R378) -/

/-- FLUSH_COMPLETION (R160). -/
def execFlushCompletion (port : Nat) (s : State) : Result := .next (flushPort s port)

/-- A port fails: what it had accepted and not delivered is lost; the failure is recorded, the other port signalled (R378, R385). -/
def failPort (s : State) (port : Nat) : State :=
  let s1 := modPort (loseUnsent s port) port fun x => { x with failed := true, flushed := x.accepted, flights := [], inbound := [] }
  irq (output (logError s1 (.hostPort port false)) (.signal (1 - port) sigPort)) 4 port

/-- FLUSH_TIMEOUT (R160). -/
def execFlushTimeout (port : Nat) (s : State) : Result := .next (if (portAt s port).flights.isEmpty then s else failPort s port)

/-- A host port does not train: it stays down, and the failure is signalled (R378, R385). -/
def failTraining (s : State) (port : Nat) : State :=
  if s.hub.boot < 6 ∨ (portAt s port).failed then irq (modPort s port fun x => { x with failed := true }) 4 port else s

/-- HOST_PORT_FAIL (R378). -/
def execHostPortFail (port : Nat) (_aer : Bool) (s : State) : Result :=
  .next (if decide (port < s.hub.ports.length) && !(portAt s port).failed then failPort s port else s)

/-- HOST_PORT_RESET (R378): a second record marks the recovery. -/
def execHostPortReset (port : Nat) (s : State) : Result :=
  .next (if (portAt s port).failed then logError (modPort s port fun x => { x with failed := false }) (.hostPort port true) else s)

/-- CONFIGURATION_REQUEST (R14): answered once the ports have trained; with Retry Status until the partition monitor runs. -/
def execConfigurationRequest (port : Nat) (s : State) : Result :=
  if (portAt s port).failed ∨ s.hub.boot < 5 then .next s
  else .next (output s (.completion (if s.hub.boot = 5 then cplRetry else cplOk)))

/-! ## Memory ports (R377) -/

/-- The name of a memory port among the sources of R385: behind the two host ports. -/
def memPortSource (port : Nat) : Nat := 2 + port

/-- A device of up to 2 TiB, a single logical one. -/
def trains (m : MemPort) : Bool := m.plain && m.size != 0 && decide (m.size ≤ 2 ^ 41)

/-- The memory ports train: a device that is refused leaves its port down, a training failure (R377, R385). -/
def trainMemPorts (s : State) : State :=
  let s1 := { s with hub := { s.hub with memPorts := s.hub.memPorts.map fun m => { m with up := trains m } } }
  (s.hub.memPorts.zipIdx).foldl (fun t m => if m.1.size != 0 && !trains m.1 then irq t 4 (memPortSource m.2) else t) s1

/-- A device is attached to a memory port: before training it stands there; afterwards it is a hot add, which is refused (R377). -/
def attachMem (s : State) (port size : Nat) (plain : Bool) : State :=
  match s.hub.memPorts[port]? with
  | some m =>
    if s.hub.boot < 3 then { s with hub := { s.hub with memPorts := modAt (fun _ => { size := size, plain := plain, up := false }) port s.hub.memPorts } }
    else if m.size = 0 then irq s 4 (memPortSource port)
    else s
  | none => s

/-! ## Interrupts (R384, R386) -/

/-- IMSIC_SETEIPNUM (R384). -/
def execImsicSeteipnum (core file offset : Nat) (value : BitVec 32) (s : State) : Result :=
  .next (if core < 8 ∧ file ≤ 24 then imsicWrite s core file offset value else s)

/-- HOST_NOTIFY (R386): the message is a release at .sys. -/
def execHostNotify (vf vector : Nat) (s : State) : Result :=
  if (FMap.find s.hub.vfPart vf).isNone then .next s
  else .next (raiseMsix s vf vector)

end Sys2Proof.Machine
end

