-- ==== Sys2Proof/Machine/Context.lean ====
section
/-! DEFINITION. Stopping a workgroup, its save area, CTXSAVE, CTXLOAD, and the return of a context to a core (spec/16 R364 to R371,
spec/14 R324, R325). -/

namespace Sys2Proof.Machine

/-! ## Stopping a workgroup (R364) -/

/-- A fibre stops at an instruction boundary: its loads' window writes are made, its waits are withdrawn and their instructions execute
again, a barrier's arrival is kept, a frame transfer is undone, parked lanes stay parked. -/
def stopFibre (s : State) (f : Nat) : State :=
  let s1 := withdrawRequests (leaveQueues (settleLate s f) f) f
  let halt (w : Wait) : Bool := match w.kind with
    | .halt _ => true
    | _ => false
  let s2 := modFib s1 f fun x =>
    { modLanes (withdraw { x with waits := x.waits.filter fun w => !halt w } (BitVec.allOnes 32)) (BitVec.allOnes 32) (fun _ l => undoTransfer l) with
      stopped := 0, parked := x.parked }
  { s2 with s2held := s2.s2held.filter fun h => h.fib != f }

/-- The holder entries of a fibre: its core's table. -/
def heldBy (s : State) (f : Nat) : List (Nat × Holder) := (holderTable s (coreOf f)).filter fun p => p.2.fib == f % 256

/-- A fibre surrenders every tenure it holds (R115). -/
def surrenderFibre (s : State) (f : Nat) : State := (heldBy s f).foldl (fun t p => surrender t (coreOf f) p.1) s

/-- The owned, resident entries of a workgroup, by sub-core and index. -/
def residentPins (s : State) (w : Wg) : List (Nat × Nat × OwnEntry) :=
  (subsOf w).flatMap fun j => (List.range 16).filterMap fun k => match ownAt s (4 * w.core + j) k with
    | some e => if ownsEntry w (4 * w.core + j) e && e.res then some (4 * w.core + j, k, e) else none
    | none => none

/-- Evict one pinned state for a save (R324, R325): a failure keeps it resident and is reported. -/
def evictForSave (w : Wg) (s : State) (p : Nat × Nat × OwnEntry) : State :=
  let r := evict s none p.1 p.2.1 p.2.2
  match r.2, ownAt r.1 p.1 p.2.1 with
  | none, some n => setOwn r.1 p.1 p.2.1 (some { n with res := false })
  | some _, _ =>
    hardwareEntry r.1 (dieOf w.core)
      { kind := 4, part := w.part, lid := w.lid, wg := w.wg, fib := 0, place := w.core, code := 0, trap := 0, aux := p.2.2.key }
  | _, none => r.1

/-- A workgroup stops: every fibre, its tenures, its pinned states. -/
def stopWg (s : State) (w : Wg) : State :=
  let s1 := (wgFibres s w).foldl stopFibre s
  let s2 := (wgFibres s1 w).foldl surrenderFibre s1
  (residentPins s2 w).foldl (evictForSave w) s2

/-- The fibres' queued writes drain before the save (R137, R364). -/
def drainWg (s : State) (w : Wg) : State := (wgFibres s w).foldl drainAll s

/-! ## The context (R366) -/

/-- A map with its keys carried to other places; those without one are left out. -/
def carry {α : Type} (g : Nat → Option Nat) (m : FMap α) : FMap α :=
  m.foldl (fun t p => match g p.1 with
    | some k => FMap.put t k p.2
    | none => t) []

/-- A set carried to other places. -/
def carrySet (g : Nat → Option Nat) (m : NSet) : NSet := (m.filterMap g).foldl NSet.add []

/-- The position of a number in a list. -/
def posOf (l : List Nat) (n : Nat) : Option Nat := if l.contains n then some (l.idxOf n) else none

/-- A key within a block of a size. -/
def within (base size k : Nat) : Option Nat := if base ≤ k ∧ k < base + size then some (k - base) else none

/-- A register-file key of a workgroup's slots, as slot number, lane and word. -/
def ringOut (w : Wg) (k : Nat) : Option Nat :=
  let word := k % 8192
  (posOf w.slots (k / 8192 / 32 * 16 + word / 512)).map fun j => (j * 32 + k / 8192 % 32) * 512 + word % 512

/-- The register-file key in a new place. -/
def ringIn (w : Wg) (k : Nat) : Option Nat :=
  (w.slots[k / 512 / 32]?).map fun slot => (slot / 16 * 32 + k / 512 % 32) * 8192 + slot % 16 * 512 + k % 512

/-- The first scratchpad byte of a workgroup. -/
def scrStart (w : Wg) : Nat := w.core * 2 ^ 20 + w.scrBase

/-- An operand-buffer key of a workgroup, as sub-core and offset. -/
def obufOut (w : Wg) (k : Nat) : Option Nat :=
  let u := k / 2 ^ 18
  if u / 4 = w.core then (within (w.obBase.getD (u % 4) 0) w.obSize (k % 2 ^ 18)).map fun o => u % 4 * 2 ^ 18 + o else none

/-- The operand-buffer key in a new place. -/
def obufIn (w : Wg) (k : Nat) : Option Nat :=
  let j := k / 2 ^ 18
  some ((4 * w.core + j) * 2 ^ 18 + w.obBase.getD j 0 + k % 2 ^ 18)

/-- A key of a tile of a workgroup, `n` keys to a tile, by the logical tile. -/
def tileOut (w : Wg) (n k : Nat) : Option Nat :=
  (w.tiles.find? fun t => (t.2.1 * 16 + t.2.2) == k / n).map fun t => t.1 * n + k % n

/-- The tile key in a new place. -/
def tileIn (w : Wg) (n k : Nat) : Option Nat := (FMap.find w.tiles (k / n)).map fun p => (p.1 * 16 + p.2) * n + k % n

/-- The context of a stopped workgroup. -/
def contextOf (s : State) (w : Wg) : Restore :=
  let fs := (w.fibres.zipIdx).filter fun p => hasFib s p.1
  let pins := (subsOf w).flatMap fun j => (List.range 16).filterMap fun k => match ownAt s (4 * w.core + j) k with
    | some e => if ownsEntry w (4 * w.core + j) e then some (j, if e.res then { e with dmask := BitVec.allOnes 32 } else e) else none
    | none => none
  { wgRec := w, place := w.core, fibres := fs.foldl (fun m p => FMap.put m p.2 (fib s p.1)) [], ring := carry (ringOut w) s.ring,
    ringPoison := carrySet (ringOut w) s.ringPoison, scr := carry (within (scrStart w) w.scrSize) s.scr,
    objs := carrySet (within (scrStart w / 16) (w.scrSize / 16)) s.objs, obuf := carry (obufOut w) s.obuf, acc := carry (tileOut w 2048) s.acc,
    side := carry (tileOut w 32) s.side, pins := pins, held := fs.flatMap fun p => (heldBy s p.1).map fun h => (p.2, h.2) }

/-- The poisoned words of a workgroup's scratchpad, operand buffer and tiles. -/
def poisonedUnits (s : State) (w : Wg) : NSet :=
  s.mem.poison.filter fun k =>
    let loc := 8 * k
    if 2 ^ 54 ≤ loc then (tileOut w 2048 ((loc - 2 ^ 54) / 4)).isSome
    else if 2 ^ 53 ≤ loc then (obufOut w (loc - 2 ^ 53)).isSome
    else decide (2 ^ 52 ≤ loc) && (within (scrStart w) w.scrSize (loc - 2 ^ 52)).isSome

/-! ## Blocks of a save area (R365, R366) -/

/-- The key a partition's areas and images are signed with. -/
def saveKey (s : State) (part : Nat) : Nat := SMap.get 0 s.hub.keySlots (partOf s part).skey

/-- The tag of a block at an address. -/
def blockTag (key va v : Nat) : Nat := (Config.gmacTag key va (toBytes 1016 v)).toNat % 2 ^ 64

/-- A block with its tag. -/
def sealBlock (key va v : Nat) : Nat := v % 2 ^ 8128 + blockTag key va (v % 2 ^ 8128) * 2 ^ 8128

/-- SHAPE of a partition: its enabled quads on each die. -/
def shapeOf (s : State) (part : Nat) : Nat :=
  (List.range 4).foldl (fun n d =>
    n + 2 ^ (5 * d) * ((List.range 16).filter fun q => ownsQuad s part (16 * d + q)).length) 0

/-- The blocks of an area of a workgroup: the header and a payload the spec leaves to the generation (log 13). -/
def areaBlocks (w : Wg) : Nat := 2 + Config.saveSize w.kdesc.toNat % 4607

/-- The header without its tag. -/
def headerOf (s : State) (w : Wg) (kept : Bool) (seq baseSeq : Nat) : Nat :=
  seq + 0x58435453 * 2 ^ 64 + 2 ^ 96 + w.part % 32 * 2 ^ 112 + (if kept then 2 ^ 118 else 0) + w.lid * 2 ^ 128 + w.wg * 2 ^ 160 + seq * 2 ^ 192
    + baseSeq * 2 ^ 224 + areaBlocks w * 2 ^ 256 + shapeOf s w.part * 2 ^ 272 + w.core * 2 ^ 292 + 2 ^ 300 + w.kdesc.toNat * 2 ^ 320

/-- A payload block without its tag. -/
def payloadOf (draw seq i : Nat) : Nat := seq + i * 2 ^ 32 + ofBytes ((List.range 1008).map fun j => Config.saveByte draw i j) * 2 ^ 64

/-- The piece of a block: a wide access at a global address (R80, R87). -/
def blockPiece (s : State) (c : Ctx) (va kind : Nat) : Except Flt Piece :=
  match globalPiece s c (va % 2 ^ 64) 1024 kind false with
  | .error e => .error e
  | .ok p => if p.mt = 3 then .error (alignFault (va % 2 ^ 64) kind 10 true) else .ok p

/-- The pieces of the blocks below `n`, the first failure in ascending order. -/
def areaPieces (s : State) (c : Ctx) (va n kind : Nat) : Except Flt (List Piece) :=
  (List.range n).mapM fun i => blockPiece s c (va + 1024 * i) kind

/-- A block as it stands in memory. -/
def blockNow (s : State) (p : Piece) : Nat := ofBytes (readBytes s p.key p.loc 1024)

/-- The issuing fibre's core writes a block. -/
def areaPut (c : Ctx) (s : State) (p : Piece) (v : Nat) : State :=
  let s1 := match p.leaf with
    | some l => commit s c p.va kWrite l false
    | none => s
  unitPut s1 (reqOf s1 s1.cur 0 p.leaf) (.fibre s1.cur) false none p (toBytes 1024 v)

/-! ## CTXSAVE (R367, R371) -/

/-- State with a dirty bit is in the workgroup (R237, R367). -/
def wgDirty (s : State) (w : Wg) : Bool :=
  !w.dirtyUnits.isEmpty || (w.fibres.any fun f => hasFib s f && (fib s f).dirty != 0)
    || s.ringDirty.any fun k => w.slots.contains (k / 8192 * 16 + k % 8192 / 512)

/-- The dirty bits a save has used are 0. -/
def clearDirty (s : State) (w : Wg) : State :=
  let s1 := (w.fibres).foldl (fun t f => modFib t f fun x => { x with dirty := 0 }) s
  { s1 with ringDirty := s1.ringDirty.filter fun k => !w.slots.contains (k / 8192 * 16 + k % 8192 / 512) }

/-- Write the area: the payload blocks a save writes, each at its place, then the header; a poisoned unit poisons a word of the
payload (R367, R373). -/
def writeArea (s : State) (c : Ctx) (va : Nat) (w : Wg) (ps : List Piece) (kept : Bool) : State × Nat :=
  let key := saveKey s w.part
  let old := match ps with
    | p :: _ => bits (blockNow s p) 192 32
    | [] => 0
  let again := w.saveArea == va + 1 && old == w.saveSeq
  let seq := (old + 1) % 2 ^ 32
  let baseSeq := match ps with
    | p :: _ => if again then bits (blockNow s p) 224 32 else seq
    | [] => seq
  let n := s.free
  let dirty := wgDirty s w
  let bad := poisonedUnits s w
  let s0 := { s with free := s.free + 1 }
  let s1 := ((ps.zipIdx).drop 1).foldl (fun t p =>
    if again && !(dirty && Config.saveDirty n p.2) then t else areaPut c t p.1 (sealBlock key (va + 1024 * p.2) (payloadOf n seq p.2))) s0
  let s2 := bad.foldl (fun t k =>
    let b := 1 + (Config.freeValue t.free).toNat % (areaBlocks w - 1)
    match ps[b]? with
    | some p => { t with free := t.free + 1, mem := { t.mem with poison := NSet.add t.mem.poison ((p.loc + 8 * (1 + k % 126)) / 8) } }
    | none => t) s1
  let s3 := match ps with
    | p :: _ => areaPut c s2 p (sealBlock key va (headerOf s w kept seq baseSeq))
    | [] => s2
  (s3, seq)

/-- Everything a saved workgroup held on its core is free (R371). -/
def freeWg (s : State) (key : Nat) (w : Wg) : State :=
  let s1 := (w.fibres.flatMap fun f => (heldBy s f).map (·.1)).foldl (fun t e => setHolder t w.core e none) s
  let s2 := (subsOf w).foldl (fun t j => { t with own := FMap.put t.own (4 * w.core + j) ((ownTable t (4 * w.core + j)).map fun o =>
    match o with
    | some e => if ownsEntry w (4 * w.core + j) e then none else some e
    | none => none) }) s1
  let s3 := dropObjects s2 w
  let warps := (wgFibres s w).map fun f => { slices := liveSlices (fib s f), arrivals := (fib s f).arrivals : SavedWarp }
  endFusion { s3 with fibres := s3.fibres.filter fun p => !w.fibres.contains p.1, slots := s3.slots.filter fun p => !w.slots.contains p.1,
                      wgs := FMap.del s3.wgs key, saved := FMap.put s3.saved key { core := w.core, warps := warps } }

/-- The start of a context after its restore is ordered after the writes of a view: those that the CTXSAVE releases (R371). -/
def orderAfter (v : View) (r : Restore) : Restore := { r with fibres := r.fibres.map fun p => (p.1, { p.2 with view := viewJoin p.2.view v }) }

/-- The save of a stopped workgroup whose blocks passed their checks. -/
def saveWg (s : State) (c : Ctx) (va key : Nat) (w : Wg) (ps : List Piece) (kept : Bool) : State :=
  let r := writeArea s c va w ps kept
  let w1 := { w with saveArea := va + 1, saveSeq := r.2, dirtyUnits := [] }
  let s1 := clearDirty { r.1 with wgs := FMap.put r.1.wgs key w1 } w1
  let blocks := ps.map fun p => BitVec.ofNat 8192 (blockNow s1 p)
  let s2 := { s1 with saves := { blocks := blocks, ctx := orderAfter (releaseView s1 s1.cur 4) (contextOf s1 w1) } :: s1.saves }
  if kept then s2 else freeWg s2 key w1

/-- The resident workgroup of a launch and number. -/
def residentWg (s : State) (part lid wg : Nat) : Option (Nat × Wg) := s.wgs.find? fun p => p.2.part == part && p.2.lid == lid && p.2.wg == wg

/-- The end of CTXSAVE and CTXLOAD: ReleaseFence(.pkg) and the result. -/
def endContext (s : State) (a : Args) (b : Bool) : State := goOn (setPredAll (releaseFence s s.cur 4) a.d.opnd b)

/-- CTXSAVE (R371). -/
def execCtxsave (a : Args) (s : State) : Result :=
  let f := s.cur
  let x := fib s f
  let c := fibCtx s f
  let va := effAddr s a (lane0 s)
  let s0 := drainAll s f
  if va % 1024 ≠ 0 then .next (trapAll s (alignFault va kWrite 10 false))
  else if !drained s0 f then hold s0
  else match residentWg s0 x.part (scalar s a.s1) (pairHigh s a.s1 (lane0 s)) with
    | none => .next (endContext s0 a false)
    | some (key, w) =>
      let s1 := drainWg s0 w
      if w.fibres.contains f then .next (trapAll s0 { cause := cRESERVED, addr := 0, info := 0 })
      else if (wgFibres s1 w).any fun g => !drained s1 g then hold s1
      else if (residentPins s1 w).any fun p => imageWaits s1 none w.core p.2.2 true then hold s1
      else
        let s2 := stopWg s1 w
        match areaPieces s2 c va (areaBlocks w) kWrite with
        | .error e => .next (trapAll s2 e)
        | .ok ps =>
          if unitWaits s2 f true ps then hold s2
          else .next (endContext (saveWg s2 c va key ((FMap.find s2.wgs key).getD w) ps (decide (a.ord.toNat = 1))) a true)

/-! ## CTXLOAD (R368, R369, R371) -/

/-- A block passes the checks of R368 that every block must pass. -/
def blockGood (s : State) (part va i seq baseSeq : Nat) (p : Piece) : Bool :=
  let v := blockNow s p
  !poisoned s.mem p.loc 1024 && bits v 8128 64 == blockTag (saveKey s part) (va + 1024 * i) (v % 2 ^ 8128) && bits v 32 16 == i
    && decide (baseSeq ≤ bits v 0 32) && decide (bits v 0 32 ≤ seq)

/-- A reserved field of a block, or of the header, is not 0 (R8, R365, R366). -/
def blockRes (v i : Nat) : Bool :=
  bits v 48 16 != 0 || (i == 0 && (bits v 119 9 != 0 || bits v 304 16 != 0 || bits v 832 7296 != 0))

/-- The header's own fields are right, UNR apart. -/
def headerGood (part v : Nat) : Bool := bits v 64 32 == 0x58435453 && bits v 96 16 == 1 && bits v 112 5 == part

/-- The workgroup is resident, saved in a queue for placement, or its launch still holds it (R371). -/
def residentOrQueued (s : State) (part lid wg : Nat) : Bool :=
  (residentWg s part lid wg).isSome || s.restores.any fun r => r.wgRec.part == part && r.wgRec.lid == lid && r.wgRec.wg == wg

/-- The widest-scoped kept arrivals of a context: those at .quad or wider (R368). -/
def wideArrivals (r : Restore) : List Arrival := r.fibres.flatMap fun p => p.2.arrivals.filter fun q => decide (2 ≤ keyScope q.key)

/-- A core lies in the instance of every wide arrival of a context. -/
def inPlace (r : Restore) (core : Nat) : Bool := (wideArrivals r).all fun q => instanceOf (keyScope q.key) core == instanceOf (keyScope q.key) r.place

/-- Cores with nothing on them. -/
def emptied (s : State) : State := { s with slots := [], wgs := [], fused := [], own := [] }

/-- The ownership tables of a core have a free entry for each pinned state of a context (R324). -/
def pinsFit (s : State) (r : Restore) (core : Nat) : Bool :=
  (List.range 4).all fun j => decide ((r.pins.filter fun p => p.1 == j).length ≤ ((List.range 16).filter fun k => (ownAt s (4 * core + j) k).isNone).length)

/-- No key of a context's pinned states is in use on a core, where a partition's key names one entry at most (R318); a context waits for
another core while one is. -/
def keysFree (s : State) (r : Restore) (core : Nat) : Bool := r.pins.all fun p => (findKey s core p.2.part p.2.key).isNone

/-- The info field of RESTORE_SHAPE for a header, if it is due: the shape, then the generation (R369). -/
def headerShape (s : State) (part v : Nat) : Option Nat :=
  if bits v 272 20 ≠ shapeOf s part then some 0 else if bits v 300 4 ≠ 1 then some 1 else none

/-- The info field of RESTORE_SHAPE for a context, if it is due (R369). -/
def shapeFails (s : State) (part : Nat) (r : Restore) : Option Nat :=
  let cores := coresFor s part r.wgRec.klvl
  if !(cores.any fun c => (allocate (emptied s) r.wgRec c).isSome && pinsFit s r c) then some 2
  else if !(wideArrivals r).isEmpty && !(cores.any (inPlace r)) then some 3
  else none

/-- A failed block: RESTORE_INTEGRITY, and the header is rewritten with UNR = 1 (R369). -/
def unrestorable (s : State) (c : Ctx) (va i : Nat) : State :=
  let s1 := trapAll s { cause := cRESTINT, addr := (va + 1024 * i) % 2 ^ 64, info := i }
  match blockPiece s c va kWrite with
  | .ok p => areaPut c s1 p (sealBlock (saveKey s c.part) va (setBits (blockNow s p) 117 1 1))
  | .error _ => s1

/-- The end of a CTXLOAD whose block i failed; the header's rewriting waits for a pinned tenure (R117, R369). -/
def failArea (s : State) (c : Ctx) (va i : Nat) : Result :=
  match blockPiece s c va kWrite with
  | .ok p => if unitWaits s s.cur true [p] then hold s else .next (unrestorable s c va i)
  | .error _ => .next (unrestorable s c va i)

/-- An accepted area: the context it describes joins the queue for placement, once its shape has been found right, unless its workgroup is
resident or queued (R338, R371). -/
def queueContext (s : State) (a : Args) (part va v : Nat) (r : Restore) : State :=
  match shapeFails s part r with
  | some n => trapAll s { cause := cRESTSHAPE, addr := va, info := n }
  | none =>
    if residentOrQueued s part (bits v 128 32) (bits v 160 32) then endContext s a false
    else
      let q := { r with wgRec := { r.wgRec with saveArea := va + 1, saveSeq := bits v 192 32 } }
      endContext { s with restores := s.restores ++ [q] } a true

/-- A fibre's reads of the blocks of an area arrive at their homes. -/
def readArea (s : State) (f : Nat) (ps : List Piece) : State :=
  ps.foldl (fun t p => arriveAll t (reqOf t f 0 p.leaf) false p.key p.mt p.loc p.n) s

/-- CTXLOAD (R371). -/
def execCtxload (a : Args) (s : State) : Result :=
  let f := s.cur
  let c := fibCtx s f
  let va := effAddr s a (lane0 s)
  let s0 := drainAll s f
  if va % 1024 ≠ 0 then .next (trapAll s (alignFault va kRead 10 false))
  else if !drained s0 f then hold s0
  else match blockPiece s0 c va kRead with
    | .error e => .next (trapAll s0 e)
    | .ok p0 =>
      if unitWaits s0 f false [p0] then hold s0
      else
        let v := blockNow s0 p0
        let seq := bits v 192 32
        let baseSeq := bits v 224 32
        if !(blockGood s0 c.part va 0 seq baseSeq p0 && headerGood c.part v) then failArea s0 c va 0
        else if v.testBit 117 then .next (trapAll s0 { cause := cRESTINT, addr := va, info := 0 })
        else match areaPieces s0 c va (max 1 (bits v 256 16)) kRead with
          | .error e => .next (trapAll s0 e)
          | .ok ps =>
            if unitWaits s0 f false ps then hold s0
            else match (ps.zipIdx).find? fun p => !blockGood s0 c.part va p.2 seq baseSeq p.1 with
              | some p => failArea s0 c va p.2
              | none =>
                let s1 := readArea (commitPieces s0 f kRead false ps) f ps
                if (ps.zipIdx).any fun p => blockRes (blockNow s0 p.1) p.2 then .next (trapOpen s1 cRESERVED none none)
                else match headerShape s1 c.part v with
                | some n => .next (trapAll s1 { cause := cRESTSHAPE, addr := va, info := n })
                | none => match s1.saves.find? fun z => z.blocks == ps.map fun p => BitVec.ofNat 8192 (blockNow s0 p) with
                | some z => .next (queueContext s1 a c.part va v z.ctx)
                | none => failArea s1 c va 0

/-! ## The return to a core (R338, R368) -/

/-- Values put at new places. -/
def putAll {α : Type} [DecidableEq α] (d : α) (g : Nat → Option Nat) (m : SMap α) (l : SMap α) : SMap α :=
  l.foldl (fun t p => match g p.1 with
    | some k => SMap.set d t k p.2
    | none => t) m

/-- A set put at new places. -/
def putSet (g : Nat → Option Nat) (m l : NSet) : NSet := (l.filterMap g).foldl NSet.add m

/-- A pinned entry comes back owned: evicted, or resident in the tile that has its rows (R324, R325). -/
def restorePin (w : Wg) (s : State) (p : Nat × OwnEntry) : State :=
  let u := 4 * w.core + p.1
  match freeOwn s u with
  | some k => setOwn s u k (some { p.2 with tile := ((FMap.find w.tiles (16 * p.1 + p.2.ltile)).map (·.2)).getD 0 })
  | none => s

/-- A holder entry comes back revoked (R115). -/
def restoreHeld (w : Wg) (s : State) (p : Nat × Holder) : State :=
  match takeEntry s w.core [], w.fibres[p.1]? with
  | some (i, t), some f => setHolder t w.core i (some { p.2 with fib := f % 256, rvk := true, cont := false })
  | _, _ => s

/-- The kept arrivals of a fibre with what their phases released while it was away (R209, R214). -/
def phaseViews (away l : List Arrival) : List Arrival :=
  l.map fun r => match away.find? fun q => q.key == r.key && q.phase == r.phase with
    | some q => { r with view := q.view }
    | none => r

/-- A context takes the place allocated for it; its start is an acquire at .pkg (R371). -/
def placeRestore (s : State) (r : Restore) (w0 : Wg) : State :=
  let w := { w0 with tiles := w0.tiles.filter fun t => (FMap.find r.wgRec.tiles t.1).isSome }
  let s1 := installWg s w
  let inScr (k : Nat) : Bool := (within (scrStart w) w.scrSize k).isSome
  let s2 := { s1 with
    ring := putAll 0 (ringIn w) s1.ring r.ring, ringPoison := putSet (ringIn w) s1.ringPoison r.ringPoison,
    scr := putAll 0 (fun k => some (scrStart w + k)) (s1.scr.filter fun p => !inScr p.1) r.scr,
    objs := putSet (fun k => some (scrStart w / 16 + k)) s1.objs r.objs,
    obuf := putAll 0 (obufIn w) (s1.obuf.filter fun p => (obufOut w p.1).isNone) r.obuf,
    acc := putAll 0 (tileIn w 2048) s1.acc r.acc, side := putAll sideReset (tileIn w 32) s1.side r.side }
  let back (x : Fibre) : Fibre :=
    { x with frozen := false, fetched := [], opWaits := [], lanes := vmap (fun l => { l with sblk := false, sblkReg := false }) x.lanes }
  let warps := ((FMap.find s2.saved (keyOf w)).map (·.warps)).getD []
  let arrived (x : Fibre) (k : Nat) : Fibre := { x with arrivals := phaseViews (((warps[k]?).map (·.arrivals)).getD []) x.arrivals }
  let s3 := (r.fibres.zipIdx).foldl (fun t p => match w.fibres[p.1.1]? with
    | some f => noteAcquire { t with fibres := FMap.put t.fibres f (back (arrived p.1.2 p.2)) } f
    | none => t) s2
  let s4 := r.held.foldl (restoreHeld w) (r.pins.foldl (restorePin w) s3)
  w.slots.foldl (fun t k => emptySlot t k (keyOf w)) (clearDirty { s4 with saved := FMap.del s4.saved (keyOf w) } w)

end Sys2Proof.Machine
end

