-- ==== Sys2Proof/Machine/Sched.lean ====
section
/-! DEFINITION. The hub scheduler: the choice of the next work, its placement, the dispatch of a spool group and the completion of a
launch (spec/08 R200, R202, R203; spec/15 R333 to R338). -/

namespace Sys2Proof.Machine

/-! ## Candidates (R333, R335, R337, R338) -/

/-- Work that may be placed: a restored context by its position, a spool group by its oldest record, the head of a queue. -/
inductive Work where
  | restore (i : Nat)
  | group (r : SpoolRec)
  | head (l : Launch)
  deriving DecidableEq, Repr

/-- The cores that would take a workgroup now. -/
def fitting (s : State) (w : Wg) (ok : Nat → Bool) : List Nat :=
  (coresFor s w.part w.klvl).filter fun c => ok c && (allocate s w c).isSome

/-- Workgroup n of a launch, not yet placed. -/
def nextOf (l : Launch) (n : Nat) : Wg := wgOfKdesc l n none

/-- COR of a launch. -/
def isCor (l : Launch) : Bool := kf l.kdesc 88 1 == 1

/-- Place workgroups of a launch, numbered from n on, on the cores of a list in turn; none where one does not fit. -/
def placeEach (l : Launch) : Nat → List Nat → State → Option State
  | _, [], s => some s
  | n, c :: r, s =>
    if (coresFor s l.part l.klvl).contains c then
      match allocate s (nextOf l n) c with
      | some w => placeEach l (n + 1) r (startWg s l w)
      | none => none
    else none

/-- How many of `n` workgroups of a launch one core takes, and the state with them. -/
def fillCore (l : Launch) (c : Nat) : Nat → State → Nat × State
  | 0, s => (0, s)
  | n + 1, s => match allocate s (nextOf l n) c with
    | some w => let r := fillCore l c n (installWg s w); (r.1 + 1, r.2)
    | none => (0, s)

/-- Cores that together take `n` workgroups, in order, if the partition's cores do. -/
def planCor (l : Launch) : List Nat → Nat → State → Option (List Nat)
  | _, 0, _ => some []
  | [], _, _ => none
  | c :: r, n, s =>
    let k := fillCore l c (min n 64) s
    (planCor l r (n - k.1) k.2).map fun rest => List.replicate k.1 c ++ rest

/-- A co-resident record that could not be placed even on empty cores (R337). -/
def unplaceable (s : State) (l : Launch) : Bool := isCor l && (planCor l (coresFor s l.part l.klvl) (rNwg l.record) (emptied s)).isNone

/-- Every tile of a launch is released. -/
def allReady (l : Launch) : Bool := !rDep l.record || (List.range (tileTotal l)).all fun k => l.ready.contains k

/-- The cores on which a head's next work can be placed; for a co-resident launch one for each workgroup. -/
def headCores (s : State) (l : Launch) : Option (List Nat) :=
  if isCor l then (if allReady l then planCor l (coresFor s l.part l.klvl) (rNwg l.record) s else none)
  else match nextWgOf l with
    | some n => ((fitting s (nextOf l n) fun _ => true).head?).map fun c => [c]
    | none => none

/-- A spawned warp of a launch, not yet placed. -/
def spawnedOf (l : Launch) : Wg := wgOfKdesc l 0xFFFFFFFF (some (freeSpawn l))

/-- The cores on which a spool group can be placed: those of its die (R338). -/
def groupCores (s : State) (r : SpoolRec) : List Nat :=
  match launchOf s r.part r.lid with
  | some l => fitting s (spawnedOf l) fun c => dieOf c == r.die
  | none => []

/-- The cores on which a context can be placed (R324, R368). -/
def restoreCores (s : State) (r : Restore) : List Nat := fitting s r.wgRec fun c => inPlace r c && pinsFit s r c && keysFree s r c

/-- The machine as it would be with no parked state resident on a core. -/
def unparked (s : State) (core : Nat) : State :=
  { s with own := s.own.map fun p => if p.1 / 4 = core then
      (p.1, p.2.map fun o => o.map fun e => if e.owned then e else { e with res := false }) else p }

/-- A workgroup that waits could take its place on a core, were it not for the tiles of a sub-core (R324, point 2). -/
def wantsTile (s : State) (u : Nat) (w : Wg) : Bool :=
  (coresFor s w.part w.klvl).contains (u / 4) && (subsOf w).contains (u % 4) && decide ((freeTiles s u).length < w.acc)
    && (allocate (unparked s (u / 4)) w (u / 4)).isSome

/-- A co-resident launch of which a core would take more workgroups, were it not for the tiles of a sub-core (R324, R337). -/
def corWants (s : State) (u : Nat) (l : Launch) : Bool :=
  let n := min 64 (rNwg l.record)
  let now := fillCore l (u / 4) n s
  (coresFor s l.part l.klvl).contains (u / 4) && (subsOf (nextOf l 0)).contains (u % 4) && decide ((freeTiles now.2 u).length < (nextOf l 0).acc)
    && decide (now.1 < (fillCore l (u / 4) n (unparked s (u / 4))).1)

/-- The head of a queue is a candidate that finds no place, and a sub-core could take its next work, were it not for its tiles (R324, R333,
R335). -/
def headWants (s : State) (u : Nat) (l : Launch) : Bool :=
  (headCores s l).isNone && (if isCor l then allReady l && corWants s u l else (nextWgOf l).any fun n => wantsTile s u (nextOf l n))

/-- A spool group that is due finds no place, and a sub-core of its die could take it, were it not for its tiles (R202, R324, R338). -/
def groupWants (s : State) (u : Nat) (r : SpoolRec) : Bool :=
  dieOf (u / 4) == r.die && groupReady s r && (groupCores s r).isEmpty && (launchOf s r.part r.lid).any fun l => wantsTile s u (spawnedOf l)

/-- A context finds no place, and a sub-core could take it, were it not for its tiles. -/
def restoreWants (s : State) (u : Nat) (r : Restore) : Bool :=
  (restoreCores s r).isEmpty && inPlace r (u / 4) && pinsFit s r (u / 4) && keysFree s r (u / 4) && wantsTile s u r.wgRec

/-- The scheduler needs a physical tile of a sub-core for a candidate for placement (R324, point 2). -/
def tileDemand (s : State) (u : Nat) : Bool :=
  (s.hub.parts.any fun p => (List.range 64).any fun q => ((queueOf s p.1 q).head?).any (headWants s u)) || s.spool.any (groupWants s u)
    || s.restores.any (restoreWants s u)

/-- PINNED_TILE_EVICT (R324, R325). A failure keeps the tile and tells the device kernel; the entry then counts as just used, so
that the scheduler turns to another tile. -/
def execPinnedTileEvict (u entry : Nat) (s : State) : Result :=
  match ownAt s u entry with
  | some e =>
    if tileDemand s u && oldestParked s u == some entry && !imageWaits s none (u / 4) e true then
      let r := evict s none u entry e
      match r.2, ownAt r.1 u entry with
      | none, some n => .next (setOwn r.1 u entry (some { n with res := false }))
      | some _, some n =>
        .next (hardwareEntry (setOwn r.1 u entry (some { n with lastUse := s.tick })) (dieOf (u / 4))
          { kind := 4, part := e.part, lid := 0, wg := 0, fib := 0, place := u / 4, code := 0, trap := 0, aux := e.key })
      | _, none => .next r.1
    else .next s
  | none => .next s

/-- The priority of a launch; 0 where it is complete. -/
def prioOf (s : State) (part lid : Nat) : Nat :=
  match launchOf s part lid with
  | some l => l.prio
  | none => 0

/-- The heads of a partition's queues at a priority, in round-robin order (R333). -/
def headsAt (s : State) (part prio : Nat) : List Launch :=
  let first := SMap.get 0 (partOf s part).rrServed prio
  ((List.range 64).filterMap fun k => (queueOf s part ((first + k) % 64)).head?).filter fun l => l.prio == prio

/-- The candidates of a partition at a priority, in the order in which they are taken (R333, R338). -/
def worksAt (s : State) (part prio : Nat) : List Work :=
  ((s.restores.zipIdx).filter fun p => p.1.wgRec.part == part && prioOf s part p.1.wgRec.lid == prio && !(restoreCores s p.1).isEmpty).map (fun p => .restore p.2)
    ++ ((s.spool.filter fun r => r.part == part && prioOf s part r.lid == prio && groupReady s r && !(groupCores s r).isEmpty).map .group)
    ++ ((headsAt s part prio).filter fun l => (headCores s l).isSome).map .head

/-- The next work of a partition: the highest priority first. -/
def nextWork (s : State) (part : Nat) : Option Work := ([7, 6, 5, 4, 3, 2, 1, 0] : List Nat).findSome? fun p => (worksAt s part p).head?

/-- An unplaceable record at the head of a queue of a partition. -/
def stuckHead (s : State) (part : Nat) : Option Launch :=
  (List.range 64).findSome? fun q => match (queueOf s part q).head? with
    | some l => if unplaceable s l then some l else none
    | none => none

/-! ## Placement -/

/-- The die on whose ring the scheduler's own entries of a partition go: the lowest with a ring. -/
def entryDie (s : State) (part : Nat) : Nat := ((List.range 4).find? fun d => (FMap.find (partOf s part).ring d).isSome).getD 0

/-- The scheduler reports on a launch record to the device kernel, and raises its interrupt (R337, R385). -/
def reportLaunch (s : State) (l : Launch) (kind aux : Nat) : State :=
  irq (hardwareEntry s (entryDie s l.part)
    { kind := kind, part := l.part, lid := l.lid, wg := 0, fib := 0, place := 0, code := 0, trap := 0, aux := aux }) 1 l.part

/-- A launch record leaves the hub. -/
def dropLaunch (s : State) (l : Launch) : State :=
  { s with hub := { s.hub with launches := s.hub.launches.filter fun m => !(m.part == l.part && m.lid == l.lid) } }

/-- The queue served last at a priority (R333). -/
def served (s : State) (l : Launch) : State := modPart s l.part fun p => { p with rrServed := SMap.set 0 p.rrServed l.prio ((l.queue + 1) % 64) }

/-- The measurement block of a partition is extended at a change to it; what is hashed beside the old block is not in the spec, so
each extension is a free value (R383, log 8). -/
def extendMeasure (s : State) (part : Nat) : State :=
  let d := draw s
  modPart d.2 part fun p => { p with measure := Config.sha384 (toBytes 48 p.measure.toNat ++ toBytes 8 d.1.toNat) }

/-- The first K launch of a partition has its image measured (R383). -/
def measureImage (s : State) (l : Launch) : State :=
  if l.klvl && !(partOf s l.part).kMeasured then modPart (extendMeasure s l.part) l.part fun p => { p with kMeasured := true } else s

/-- Start the next work of a head on the cores given; nothing where they do not take it. -/
def placeHead (s : State) (l : Launch) (cores : List Nat) : State :=
  match (if isCor l then (if allReady l && cores.length == rNwg l.record then placeEach l 0 cores s else none)
         else match nextWgOf l, cores with
           | some n, [c] => placeEach l n [c] s
           | _, _ => none) with
  | some t => served (measureImage t l) l
  | none => s

/-- Dispatch a spool group on a core (R202, R203). -/
def placeGroup (s : State) (r : SpoolRec) (core : Nat) : State :=
  match launchOf s r.part r.lid with
  | some l =>
    if (groupCores s r).contains core then
      match allocate s (spawnedOf l) core with
      | some w => startSpawned s l w (freeSpawn l) ((s.spool.filter (sameGroup r.die r.entry r.part r.lid)).take 32)
      | none => s
    else s
  | none => s

/-- Put context i back on a core. -/
def placeContext (s : State) (i core : Nat) : State :=
  match s.restores[i]? with
  | some r =>
    if (restoreCores s r).contains core then
      match allocate s r.wgRec core with
      | some w => placeRestore { s with restores := s.restores.take i ++ s.restores.drop (i + 1) } r w
      | none => s
    else s
  | none => s

/-- WORKGROUP_PLACE (R333 to R338) on the cores chosen; an unplaceable record at the head of a queue is removed first. -/
def execWorkgroupPlace (part : Nat) (cores : List Nat) (s : State) : Result :=
  match stuckHead s part with
  | some l => .next (reportLaunch (dropLaunch s l) l 5 l.va.toNat)
  | none => match nextWork s part, cores with
    | some (.restore i), c :: _ => .next (placeContext s i c)
    | some (.group r), c :: _ => .next (placeGroup s r c)
    | some (.head l), _ => .next (placeHead s l cores)
    | _, _ => .next s

/-- SPOOL_DISPATCH (R202): the group of an entry PC and launch on a die, where it is its partition's next work. -/
def execSpoolDispatch (die : Nat) (entry : BitVec 64) (lid core : Nat) (s : State) : Result :=
  match s.spool.find? fun r => r.die == die && r.entry == entry && r.lid == lid && nextWork s r.part == some (.group r) with
  | some r => .next (placeGroup s r core)
  | none => .next s

/-! ## Completion (R200) -/

/-- Every workgroup and spawned warp of a launch has run to its end. -/
def launchOver (s : State) (l : Launch) : Bool :=
  let mine (w : Wg) : Bool := w.part == l.part && w.lid == l.lid
  allStarted l && !(s.wgs.any fun p => mine p.2) && !(s.restores.any fun r => mine r.wgRec)
    && !(s.saved.any fun p => p.1 / 2 ^ 32 == wgKey l.part l.lid 0 / 2 ^ 32 || p.1 / 2 ^ 32 == spawnKey l.part l.lid 0 / 2 ^ 32)
    && !(s.spool.any fun r => r.part == l.part && r.lid == l.lid) && l.spawnUsed.isEmpty

/-- LAUNCH_COMPLETE (R200): DONE is written as a release at .sys of every write of its fibres; a failed check is reported and the write is lost. -/
def execLaunchComplete (part lid : Nat) (s : State) : Result :=
  match launchOf s part lid with
  | none => .next s
  | some l =>
    if !launchOver s l then .next s
    else if rDone l.record = 0 then .next (dropLaunch s l)
    else if !releaseReady s 6 l.marks then .next (modLaunch (startFlush s 6 l.marks) part lid fun x => { x with marks := marksOf s l.marks })
    else
      let c : Ctx := { part := part, root := l.root, klvl := l.doneK, keys := l.keys }
      match globalPiece s c (rDone l.record) 4 kWrite false with
      | .error _ => .next (reportLaunch (dropLaunch (logError s (.doneFault lid)) l) l 6 (rDone l.record))
      | .ok p =>
        if recallWaits s none hubCore (p.loc / 128) true || (p.leaf.map (leafWaits s none kWrite)).getD false then .next s
        else
          let s1 := match p.leaf with
            | some x => commit s c p.va kWrite x false
            | none => s
          .next (dropLaunch (unitPut s1 (blockReq s1 c none p.leaf) (.unit l.ended none) true (some 6) p (toBytes 4 lid)) l)

end Sys2Proof.Machine
end

