-- ==== Sys2Proof/Machine/Monitor.lean ====
section
/-! DEFINITION. The partition monitor: settings, keys, teardown, warm reset, attestation (spec/03 R82; spec/15 R344; spec/17 R380 to
R383). -/

namespace Sys2Proof.Machine

/-! ## Settings (R344, R380) -/

/-- The quads that exist: those with a core that is not excluded (R14). -/
def quadExists (s : State) (q : Nat) : Bool := (List.range 4).any fun c => !s.hub.excluded.contains (4 * q + c)

/-- Every quad of a die's mask exists and belongs to no other partition (R342). -/
def maskFits (s : State) (part die : Nat) (m : BitVec 16) : Bool :=
  (List.range 16).all fun q => !m.getLsbD q
    || (quadExists s (16 * die + q) && s.hub.parts.all fun p => p.1 == part || !((p.2.qmask.getD die 0).getLsbD q))

/-- A number lies in a range. -/
def inRange (lo hi n : Nat) : Bool := decide (lo ≤ n) && decide (n ≤ hi)

/-- A partition has a workgroup or a pinned state on a core. -/
def usesCore (s : State) (part core : Nat) : Bool :=
  (wgsOn s core).any (fun w => w.part == part)
    || (List.range 4).any fun j => (findOwn s (4 * core + j) fun e => e.part == part).isSome

/-- A new mask keeps every quad of a die on which the partition has work: a core is never shared between partitions (R342). -/
def maskKeeps (s : State) (part die : Nat) (m : BitVec 16) : Bool :=
  (List.range 16).all fun q => m.getLsbD q || !ownsQuad s part (16 * die + q)
    || (List.range 4).all fun c => isGondola s (64 * die + 4 * q + c) || !usesCore s part (64 * die + 4 * q + c)

/-- A core has no work of a partition, nor an entry of an ownership table. -/
def coreBusy (s : State) (core : Nat) : Bool :=
  !(wgsOn s core).isEmpty || (List.range 4).any fun j => (findOwn s (4 * core + j) fun _ => true).isSome

/-- A ring set or dropped leaves no work on a core that is not its partition's: where the die begins or ends self-hosting the gondola must be
free, and where the partition loses its share there, of that partition (R342, R343). -/
def ringFits (s : State) (part die : Nat) (v : Option (Nat × Nat)) : Bool :=
  let after := modPart s part fun p => { p with ring := match v with
    | some r => FMap.put p.ring die r
    | none => FMap.del p.ring die }
  let core := gondolaCore die
  (selfHosts after die == selfHosts s die || !coreBusy s core)
    && ((ringParts after die).contains part || !selfHosts s die || !usesCore s part core)

/-- The change stays within its setting's range, and sets no reserved bit of a start value (R8, R52, R349). -/
def settingOk (s : State) (part : Nat) (c : SettingChange) : Bool :=
  let p := partOf s part
  match c with
  | .build => (FMap.find s.hub.parts part).isNone
  | .qmask die m => decide (die < 4) && maskFits s part die m && maskKeeps s part die m
  | .keys kb kn => inRange 1 4095 kb && inRange 1 4095 kn && decide (kb + kn ≤ 4096)
      && s.hub.parts.all fun q => q.1 == part || decide (q.2.kb + q.2.kn ≤ kb) || decide (kb + kn ≤ q.2.kb)
  | .skey k => decide (p.kb ≤ k) && decide (k < p.kb + p.kn)
  | .ktvec v => (v.toNat &&& specialRes 0x034) == 0
  | .tdeleg v => (v.toNat &&& (2 ^ 64 - 1 - delegableBits)) == 0
  | .tenmax v => decide (v.toNat < 2 ^ 32)
  | .kq n => decide (n ≤ 4)
  | .weight w => inRange 1 255 w
  | .spoolShare n => decide (n ≤ 8192)
  | .batchLimit n => inRange 16 4096 n
  | .wsh n => decide (n ≤ 4096)
  | .gondolaShare r n => decide (r < 5) && decide (n ≤ gondolaTotal r) && (r != 0 || decide (1 ≤ n))
  | .ring die v => decide (die < 4) && (match v with
      | some r => decide (r.1 < 2 ^ 52) && r.1 % 2048 == 0 && inRange 0 4095 r.2
      | none => true) && ringFits s part die v
  | .lctx vf root => FMap.find s.hub.vfPart vf == some part && (root.toNat &&& specialRes 0x026) == 0
  | .cdom _ => true
  | .bindVf vf on => decide (vf < 192) && (!on || ((FMap.find s.hub.vfPart vf).isNone
      && decide (((s.hub.vfPart.filter fun q => q.2 == part)).length < 8)))
  | .stage2Root pa => pa % 8192 == 0
  | .stage2Entry pa _ => pa % 8 == 0
  | .cxlWindow port base size => (portAt s port).cxl && decide ((portAt s port).windows.length < 2) && isDram base && isDram (base + size - 1)

/-- The start values and settings of a partition record set no reserved bit and lie within their ranges (R8, R344, R380). -/
def partOk (p : Part) : Bool :=
  decide (p.qmask.length ≤ 4) && inRange 1 4095 p.kb && inRange 1 4095 p.kn && decide (p.kb + p.kn ≤ 4096)
    && decide (p.kb ≤ p.skey) && decide (p.skey < p.kb + p.kn)
    && (p.ktvec.toNat &&& specialRes 0x034) == 0 && (p.tdeleg.toNat &&& (2 ^ 64 - 1 - delegableBits)) == 0 && decide (p.tenmax.toNat < 2 ^ 32)
    && decide (p.kq ≤ 4) && inRange 1 255 p.weight && p.spoolShare.all (fun n => decide (n ≤ 8192)) && inRange 16 4096 p.batchLimit
    && p.wsh.all (fun n => decide (n ≤ 4096)) && p.gondola.all (fun g => decide (g.1 < 5) && decide (g.2 ≤ gondolaTotal g.1) && (g.1 != 0 || decide (1 ≤ g.2)))
    && p.ring.all (fun r => decide (r.1 < 4) && decide (r.2.1 < 2 ^ 52) && r.2.1 % 2048 == 0 && decide (r.2.2 ≤ 4095))
    && p.lctx.all (fun e => (e.2.toNat &&& specialRes 0x026) == 0) && p.stage2 % 8192 == 0

/-- Two partition records share no key ID and no quad (R60, R342). -/
def partsApart (p q : Part) : Bool :=
  (decide (p.kb + p.kn ≤ q.kb) || decide (q.kb + q.kn ≤ p.kb)) && (p.qmask.zip q.qmask).all fun m => m.1 &&& m.2 == 0

/-- A partition plan that the monitor can build: each record is in order, and none stands in another's way (R14). -/
def planOk (m : FMap Part) : Bool :=
  m.all (fun p => decide (p.1 < 24) && partOk p.2) && m.all fun p => m.all fun q => p.1 == q.1 || partsApart p.2 q.2

/-- A partition record as it is when the partition is built: no launch, no collective, no measurement (R217, R383). -/
def newPart (p : Part) : Part := { p with nextLid := 1, rrServed := [], collCount := 0, measure := 0, kMeasured := false }

/-- Change a setting of a partition record; the count of collectives runs from the setting of their domain (R182). -/
def setSetting (p : Part) (c : SettingChange) : Part :=
  match c with
  | .qmask die m => { p with qmask := modAt (fun _ => m) die p.qmask }
  | .keys kb kn => { p with kb := kb, kn := kn, skey := if kb ≤ p.skey ∧ p.skey < kb + kn then p.skey else kb }
  | .skey k => { p with skey := k }
  | .ktvec v => { p with ktvec := v }
  | .tdeleg v => { p with tdeleg := v }
  | .tenmax v => { p with tenmax := v }
  | .kq n => { p with kq := n }
  | .weight w => { p with weight := w }
  | .spoolShare n => { p with spoolShare := some n }
  | .batchLimit n => { p with batchLimit := n }
  | .wsh n => { p with wsh := some n }
  | .gondolaShare r n => { p with gondola := FMap.put p.gondola r n }
  | .ring die v => { p with ring := match v with
      | some r => FMap.put p.ring die r
      | none => FMap.del p.ring die }
  | .lctx vf root => { p with lctx := SMap.set 0 p.lctx vf root }
  | .cdom l => { p with cdom := l, collCount := 0 }
  | .stage2Root pa => { p with stage2 := pa }
  | _ => p

/-- The parts of a change that stand outside the partition record: its building, functions, stage-2 tables, windows. -/
def settingEffect (s : State) (part : Nat) (c : SettingChange) : State :=
  match c with
  | .build => modPart s part fun p => { p with measure := 0 }
  | .bindVf vf on => { s with hub := { s.hub with vfPart := if on then FMap.put s.hub.vfPart vf part else FMap.del s.hub.vfPart vf } }
  | .stage2Entry pa v => performWrite (arrive s hubReq true 0 0 pa) (.unit [] none) hubCore 0 0 pa (toBytes 8 v.toNat) false none
  | .cxlWindow port base size => modPort s port fun x => { x with windows := x.windows ++ [(part, base, size)] }
  | c => modPart s part fun p => setSetting p c

/-- Set a measurement block. -/
def setMeasure (s : State) (i : Nat) (m : BitVec 384) : State := { s with hub := { s.hub with measures := SMap.set 0 s.hub.measures i m } }

/-- The partition plan in force is measured when it changes; how it is written out for that is not in the spec (R383; log 8). -/
def measurePlan (s : State) : State := let d := draw s; setMeasure d.2 4 (Config.sha384 (toBytes 8 d.1.toNat))

/-! ## The device kernel (R14, R343, R422) -/

/-- The partition monitor starts a service of the device kernel on a die's gondola, at K; the scheduler never places it (R343, R422). -/
def startService (part : Nat) (root : BitVec 64) (die : Nat) (s : State) (r : BitVec 1024 × BitVec 512) : State :=
  if (launchFails r.1 r.2).isSome || rDep r.1 then s
  else
    let l := { newLaunch (partOf s part) part root [] 0 r.1 r.2 with gondola := some die }
    (List.range (rNwg r.1)).foldl (fun t n => match allocate t (nextOf l n) (gondolaCore die) with
      | some w => startWg t l w
      | none => t) (measureImage (addLaunch s l) l)

/-- The services of a partition's device kernel are started on a die that has a gondola with a share for it. -/
def startServices (part : Nat) (s : State) (die : Nat) : State :=
  match s.hub.kernel with
  | some k =>
    if k.part = part ∧ (k.root.toNat &&& specialRes 0x026) = 0 ∧ (ringParts s die).contains part ∧ !s.hub.excluded.contains (gondolaCore die) then
      k.launches.foldl (startService part k.root die) s
    else s
  | none => s

/-- The device kernel, where one is configured for a partition that exists, is loaded: its image is written, and its services are started on
the gondola of every die (R14, R422; log 26). -/
def loadKernel (s : State) (part : Nat) : State :=
  match s.hub.kernel with
  | some k =>
    if k.part = part ∧ (FMap.find s.hub.parts part).isSome then
      (List.range 4).foldl (startServices part) (k.image.foldl (fun t b => hubWrite t b.1 b.2.1 [] none b.2.2) s)
    else s
  | none => s

/-- A ring that a partition is given on a die brings its services there (R343). -/
def ringBegins (s0 s : State) (part : Nat) (c : SettingChange) : State :=
  match c with
  | .ring die _ => if (ringParts s0 die).contains part then s else startServices part s die
  | _ => s

/-- PARTITION_SETTING_CHANGE (R380): the block of the partition is extended at every change, and begins at its building; the plan in force is
measured anew (R383). -/
def execPartitionSettingChange (part : Nat) (change : SettingChange) (s : State) : Result :=
  if s.hub.boot < 6 ∨ 24 ≤ part ∨ !settingOk s part change then .next s
  else if change = .build then .next (measurePlan (settingEffect s part change))
  else if (FMap.find s.hub.parts part).isNone then .next s
  else .next (ringBegins s (measurePlan (extendMeasure (settingEffect s part change) part)) part change)

/-! ## Keys (R60, R381) -/

/-- KEY_SLOT_LOAD (R381): slot 0 is the firmware's; `key` names the key, never 0. -/
def execKeySlotLoad (slot key : Nat) (s : State) : Result :=
  .next (if s.hub.boot = 6 ∧ 1 ≤ slot ∧ slot ≤ 4095 ∧ key ≠ 0 then
      { s with hub := { s.hub with keySlots := SMap.set 0 s.hub.keySlots slot key } } else s)

/-- The keys loaded in a partition's window. -/
def partKeys (s : State) (part : Nat) : List Nat :=
  let p := partOf s part
  ((s.hub.keySlots.filter fun e => decide (p.kb ≤ e.1) && decide (e.1 < p.kb + p.kn)).map (·.2))

/-- A key ID lies in a partition's key window. -/
def windowKey (p : Part) (id : Nat) : Bool := decide (p.kb ≤ id) && decide (id < p.kb + p.kn)

/-- The lines that the caches hold under a key ID of a partition's window (R61, R82). -/
def partLines (s : State) (part : Nat) : List Nat := (s.mem.tag.filter fun e => windowKey (partOf s part) (keyId (e.2 - 1))).map (·.1)

/-- The cached copies of a partition's lines go, with the poison that was in the caches only. -/
def dropLines (s : State) (part : Nat) (st : Store) (lines : List Nat) : Store :=
  let st1 := dropPoison st fun w => SMap.get 0 st.poisonBy w != 0 && lines.contains (w / 16)
  { st1 with dirty := st.dirty.filter fun e => !lines.contains (e.1 / 128), copies := st.copies.filter fun e => !lines.contains e.1,
             tag := st.tag.filter fun e => !lines.contains e.1,
             ccache := st.ccache.filter fun e => !windowKey (partOf s part) (keyId (e.1 / 2 ^ 56)) }

/-- What a partition has running leaves the device: fibres, workgroups, slots, launches, spool records, contexts, tenures, pinned
states, home entries, waits, batches, translations, its virtual time and its turns (R341, R345; log 26). -/
def clearPart (s : State) (part : Nat) : State :=
  let mine (w : Wg) : Bool := w.part == part
  let slots := (s.wgs.filter fun p => mine p.2).flatMap fun p => p.2.slots
  let fibs := (s.fibres.filter fun p => p.2.part == part).map (·.1)
  let s1 := fibs.foldl freeHolders s
  let s2 := ((s1.homes.filter fun h => h.2.part == part).map (·.1)).foldl (fun t n => unmark (freeHome t n) (handleOf t n)) s1
  let own := s2.own.map fun p => (p.1, p.2.map fun o => match o with
    | some e => if e.part = part then none else some e
    | none => none)
  let hub : Hub := { s2.hub with
    launches := s2.hub.launches.filter fun l => l.part != part, waiters := s2.hub.waiters.filter fun w => w.part != part,
    batches := s2.hub.batches.filter fun b => b.part != part, faults := s2.hub.faults.filter fun e => headPart e.2.2 != part,
    vtime := s2.hub.vtime.filter fun e => e.1 / 4 != part }
  endFusion { s2 with
    fibres := s2.fibres.filter fun p => p.2.part != part, wgs := s2.wgs.filter fun p => !mine p.2, slots := s2.slots.filter fun p => !slots.contains p.1,
    own := own, tacqs := s2.tacqs.filter fun w => !fibs.contains (whoFib w.who), spool := s2.spool.filter fun r => r.part != part,
    restores := s2.restores.filter fun r => r.wgRec.part != part, saved := s2.saved.filter fun p => p.1 / 2 ^ 64 % 2 ^ 16 != part,
    s2held := s2.s2held.filter fun h => !fibs.contains h.fib, tlb := s2.tlb.filter fun e => e.part != part,
    walks := s2.walks.filter fun e => e.part != part,
    lastSlot := s2.lastSlot.filter fun e => !((e.1 % 64 == 0 && ownsQuad s part (e.1 / 1024)) || e.1 % 64 == 1 + part), tried := [], hub := hub }

/-- PARTITION_TEARDOWN (R381): the lines under the partition's keys are written back and discarded, its slots cleared, its entries
and rings freed; its functions are unbound (R379), and the plan in force is measured anew (R383). -/
def execPartitionTeardown (part : Nat) (s : State) : Result :=
  if (FMap.find s.hub.parts part).isNone then .next s
  else
    let p := partOf s part
    let lines := partLines s part
    let s1 := clearPart s part
    let st := dropLines s part (lines.foldl cleanLine s1.mem) lines
    let hub : Hub := { s1.hub with
      keySlots := s1.hub.keySlots.filter fun e => !(decide (p.kb ≤ e.1) && decide (e.1 < p.kb + p.kn)),
      vfPart := s1.hub.vfPart.filter fun e => e.2 != part, parts := FMap.del s1.hub.parts part,
      ports := s1.hub.ports.map fun x => { x with windows := x.windows.filter fun w => w.1 != part } }
    .next (measurePlan { s1 with mem := st, hub := hub })

/-- A partition as step 6 of boot builds it again: as the stored plan has it, where its quads are free and its record is in order, else with the
settings it had; its counts begin anew, its measurement goes on (R15, R383; log 26). -/
def rebuilt (s : State) (part : Nat) : Part :=
  let now := partOf s part
  let fits (q : Part) : Bool := partOk q && (List.range 4).all (fun d => maskFits s part d (q.qmask.getD d 0) && ringFits s part d (FMap.find q.ring d))
    && s.hub.parts.all fun o => o.1 == part || partsApart q o.2
  { newPart (((s.hub.plan.bind fun m => FMap.find m part).filter fits).getD now) with measure := now.measure, kMeasured := now.kMeasured }

/-- WARM_RESET (R15, R82): the partition's lines are discarded without being written back, as far as no eviction had written them
before (log 14); step 6 of boot is repeated for its quads. -/
def execWarmReset (part : Nat) (s : State) : Result :=
  if (FMap.find s.hub.parts part).isNone then .next s
  else
    let lines := partLines s part
    let s1 := clearPart s part
    let st := (lines.filter fun l => Config.lineEvicted s.free l).foldl cleanLine s1.mem
    let s2 := modPart { s1 with free := s1.free + 1, mem := dropLines s part st lines } part fun _ => rebuilt s1 part
    .next (loadKernel (measurePlan (extendMeasure s2 part)) part)

/-! ## The configuration record (R12, R13) -/

/-- The fields of a record. -/
def recSeq (r : BitVec 1280) : Nat := bits r.toNat 48 16
def recMap (r : BitVec 1280) (die quad : Nat) : Nat := bits r.toNat (128 + 72 * die + 4 * quad) 4
def recSvcl (r : BitVec 1280) (j : Nat) : Nat := bits r.toNat (416 + 9 * j) 9

/-- The SVCL entries in use. -/
def svclList (r : BitVec 1280) : List Nat := ((List.range 10).map (recSvcl r)).filter fun e => e != 0x1FF

/-- The number under which SVCL lists a core. -/
def svclOf (die quad core : Nat) : Nat := die * 128 + quad * 4 + core

/-- A quad's four bits are all set, or none, or lack only listed cores. -/
def quadOk (r : BitVec 1280) (die quad : Nat) : Bool :=
  let m := recMap r die quad
  m == 0 || (List.range 4).all fun c => m.testBit c || (svclList r).contains (svclOf die quad c)

/-- The enabled quads of a die, ascending (R14). -/
def quadsOf (r : BitVec 1280) (die : Nat) : List Nat := (List.range 18).filter fun q => recMap r die q != 0

/-- An entry of SVCL names a core of a die whose bit is clear. -/
def svclOk (r : BitVec 1280) (e : Nat) : Bool := decide (bits e 2 5 ≤ 17) && !(recMap r (e / 128) (bits e 2 5)).testBit (e % 4)

/-- The hub accepts a copy (R13). -/
def recordOk (identity : BitVec 64) (r : BitVec 1280) : Bool :=
  bits r.toNat 0 32 == 0x5A4B4352 && bits r.toNat 32 16 == 1 && bits r.toNat 64 64 == identity.toNat && bits r.toNat 506 6 == 0
    && Config.signatureOk (toBytes 160 r.toNat)
    && (List.range 4).all (fun d => (List.range 18).all (quadOk r d) && decide ((quadsOf r d).length ≤ 16))
    && (svclList r).all (svclOk r) && (svclList r).length == (svclList r).eraseDups.length

/-- Sequence number a is later than b. -/
def laterSeq (a b : Nat) : Bool := inRange 1 32767 ((a + 65536 - b) % 65536)

/-- The copy the hub uses. -/
def usedCopy (identity : BitVec 64) (records : List (BitVec 1280)) : Option Nat :=
  let a := records.getD 0 0
  let b := records.getD 1 0
  match recordOk identity a, recordOk identity b with
  | true, true => some (if laterSeq (recSeq b) (recSeq a) then 1 else 0)
  | true, false => some 0
  | false, true => some 1
  | false, false => none

/-- The logical cores that do not exist under a record (R14). -/
def absentCores (r : BitVec 1280) : NSet :=
  (List.range 256).filter fun c =>
    match (quadsOf r (c / 64))[c / 4 % 16]? with
    | some q => decide (((List.range 4).filter fun k => (recMap r (c / 64) q).testBit k).length ≤ c % 4)
    | none => true

/-! ## Attestation (R382, R383) -/

/-- The measurement blocks a requester sees: a function's partition, or all. -/
def blocksFor (s : State) (vf : Option Nat) : List (Nat × BitVec 384) :=
  let common := ([1, 2, 3, 4] : List Nat).map fun i => (i, SMap.get 0 s.hub.measures i)
  let parts := s.hub.parts.map fun p => (16 + p.1, p.2.measure)
  match vf with
  | none => common ++ parts
  | some v => common ++ parts.filter fun b => (FMap.find s.hub.vfPart v).map (· + 16) == some b.1

/-- Boot has stopped because neither copy of the configuration record is accepted: only a replacement is taken (R13). -/
def bootStopped (s : State) : Bool := s.hub.boot == 1 && (usedCopy s.hub.identity s.hub.records).isNone

/-- The certificate chain of a slot: the device's identity in slot 0, the owner's in slots 1 to 7 (R382). -/
def certChain (s : State) (slot : Nat) : Option (List Byte) :=
  if slot = 0 then some Config.identityChain else if slot < 8 then FMap.find s.hub.certs slot else none

/-- An SPDM answer, and an SPDM error (R382; log 10). -/
def spdmOk (s : State) (data : List Byte) : State := output s (.spdmAnswer 0 data)
def spdmError (s : State) : State := output s (.spdmAnswer 1 [])

/-- An answer signed with the key of a slot that holds a certificate chain. -/
def spdmSigned (s : State) (slot : Nat) (message : List Byte) : State :=
  if (certChain s slot).isSome then spdmOk s (message ++ Config.spdmSign message) else spdmError s

/-- The measurement blocks of an index, 255 for every one. -/
def blocksAt (s : State) (vf : Option Nat) (n : Nat) : List (Nat × BitVec 384) := (blocksFor s vf).filter fun b => n == 255 || b.1 == n

/-- Who asks: the physical function, or a virtual one. -/
def requester (vf : Option Nat) : Nat := match vf with
  | none => 0
  | some v => v + 1

/-- The answer to an SPDM request: measurements, also signed, the certificates, a challenge, a key exchange that opens a session, its heartbeat
and its end; SET_CERTIFICATE is for the owner, over the physical function, in slots 1 to 7 (R382; log 10). -/
def spdmAnswer (s : State) (vf : Option Nat) (request : SpdmRequest) : State :=
  match request with
  | .measurements n => output s (.spdm (blocksAt s vf n))
  | .signedMeasurements n slot nonce =>
    spdmSigned (output s (.spdm (blocksAt s vf n))) slot (toBytes 32 nonce ++ (blocksAt s vf n).flatMap fun b => toBytes 1 b.1 ++ toBytes 48 b.2.toNat)
  | .certificate slot => match certChain s slot with
    | some l => spdmOk s l
    | none => spdmError s
  | .setCertificate slot chain =>
    if vf.isNone ∧ 1 ≤ slot ∧ slot ≤ 7 then spdmOk { s with hub := { s.hub with certs := FMap.put s.hub.certs slot chain } } [] else spdmError s
  | .challenge slot nonce => spdmSigned s slot (toBytes 32 nonce)
  | .keyExchange slot share =>
    if (certChain s slot).isSome then
      let t := { s with free := s.free + 1, hub := { s.hub with sessions := NSet.add s.hub.sessions (requester vf) } }
      spdmSigned t slot (share ++ Config.keyShare s.free)
    else spdmError s
  | .heartbeat => if s.hub.sessions.contains (requester vf) then spdmOk s [] else spdmError s
  | .endSession => spdmOk { s with hub := { s.hub with sessions := NSet.del s.hub.sessions (requester vf) } } []
  | .other _ => output s (.spdm [])

/-- SPDM_REQUEST (R382); a function that is not live refuses it, and a boot that has stopped takes none (R13). -/
def execSpdmRequest (vf : Option Nat) (request : SpdmRequest) (s : State) : Result :=
  if bootStopped s then .next s
  else match vf.filter fun v => (vfLive s v).isNone with
    | some v => .next (refuseRequest s v)
    | none => .next (spdmAnswer s vf request)

end Sys2Proof.Machine
end

