-- ==== Sys2Proof/Machine/Boot.lean ====
section
/-! DEFINITION. Bring-up, the configuration record, core retirement, self-tests, power and heat (spec/00 R10 to R16; spec/16 R374). -/

namespace Sys2Proof.Machine

/-! ## Cold boot (R13, R14) -/

/-- A cold reset: everything but the flash, what the firmware keeps with it, the package's own number and pod, and what stands outside the
machine. DESIGN CHOICE (log 16): no rule gives %tick a value at a cold reset; the count goes on. DESIGN CHOICE (log 16): a signing request
that waits for its signature is dropped. -/
def coldReset (s : State) (image : List Byte) : State :=
  let r := State.reset
  { r with free := s.free, agenda := s.agenda, readPts := s.readPts, stopPts := s.stopPts, latePts := s.latePts, tick := s.tick,
           hub := { r.hub with records := s.hub.records, identity := s.hub.identity, retired := s.hub.retired, plan := s.hub.plan,
                               kernel := s.hub.kernel, firmware := image, pkgid := s.hub.pkgid, pod := s.hub.pod, hostMem := s.hub.hostMem,
                               errors := s.hub.errors, outputs := s.hub.outputs, certs := s.hub.certs, unreached := s.hub.unreached,
                               memPorts := s.hub.memPorts.map fun m => { m with up := false } } }

/-- Boot has come to a step. -/
def atStep (s : State) (n : Nat) : State := { s with hub := { s.hub with boot := n } }

/-- A record without the cores of a set, given by their SVCL numbers. -/
def withoutCores (r : BitVec 1280) (out : NSet) : BitVec 1280 :=
  BitVec.ofNat 1280 (out.foldl (fun n e => setBits n (128 + 72 * (e / 128) + 4 * bits e 2 5 + e % 4) 1 0) r.toNat)

/-- A record enables a core given by its SVCL number. -/
def enables (r : BitVec 1280) (e : Nat) : Bool := (recMap r (e / 128) (bits e 2 5)).testBit (e % 4)

/-- The physical core of a logical one over the units of a record, as its SVCL number. -/
def physicalOf (r : BitVec 1280) (core : Nat) : Option Nat :=
  match (quadsOf r (core / 64))[core / 4 % 16]? with
  | some q => (((List.range 4).filter fun k => (recMap r (core / 64) q).testBit k)[core % 4]?).map fun c => svclOf (core / 64) q c
  | none => none

/-- The logical number of a physical core over the units of a record. -/
def logicalOf (r : BitVec 1280) (e : Nat) : Option Nat := (List.range 256).find? fun c => physicalOf r c == some e

/-- The units that number the cores, and the cores that no partition has: those that do not exist, those that have left service or are about
to (R14, R16). -/
def setUnits (s : State) (u : BitVec 1280) : State :=
  let gone := (s.hub.retired ++ s.hub.retiring).filterMap (logicalOf u)
  { s with hub := { s.hub with units := u, excluded := gone.foldl NSet.add (absentCores u) } }

/-- The partitions as step 6 builds them where no plan is stored: partition 0 holds the whole device (R14). -/
def wholeDevice (s : State) : State :=
  modPart s 0 fun p => { p with qmask := (List.range 4).map fun d => BitVec.ofNat 16 (2 ^ (quadsOf s.hub.units d).length - 1), kn := 4095 }

/-- Step 6 of boot: the partitions of the stored plan, but for those whose shape needs a quad that is not there (R16), or partition 0, and the
device kernel (R14). -/
def buildAll (s : State) : State :=
  let fits (p : Part) : Bool := (List.range 4).all fun d => (List.range 16).all fun q => !(p.qmask.getD d 0).getLsbD q || quadExists s (16 * d + q)
  let s1 := match s.hub.plan.filter planOk with
    | some m => { s with hub := { s.hub with parts := (m.filter fun p => fits p.2).map fun p => (p.1, newPart p.2) } }
    | none => wholeDevice s
  match s.hub.kernel with
  | some k => loadKernel s1 k.part
  | none => s1

/-- Step 2 of boot: the accepted record is in use; a core that the firmware excluded and that the record still enables stays excluded
(R14, R16). -/
def useRecord (s : State) (r : BitVec 1280) : State :=
  let out := s.hub.retired.filter (enables r)
  let s1 := setMeasure (atStep s 2) 3 (Config.sha384 (toBytes 160 r.toNat))
  setUnits { s1 with hub := { s1.hub with inUse := some r, retired := out } } (withoutCores r out)

/-- The step of cold boot that follows the steps already done: firmware, record, memory, links, ports, partition monitor. -/
def bootStep (identity : BitVec 64) (image : List Byte) (s : State) : State :=
  match s.hub.boot with
  | 1 =>
    match usedCopy s.hub.identity s.hub.records with
    | some i => useRecord s (s.hub.records.getD i 0)
    | none => s
  | 2 => atStep (trainMemPorts { s with mem := Store.reset, hub := { s.hub with keySlots := [] } }) 3
  | 3 => atStep s 4
  | 4 => atStep s 5
  | 5 => measurePlan (buildAll (atStep s 6))
  | _ =>
    let s1 := coldReset s image
    let s0 := { s1 with hub := { s1.hub with identity := identity } }
    if Config.signatureOk image then setMeasure (setMeasure (atStep s0 1) 1 (Config.sha384 image)) 2 (Config.sha384 (2 :: image)) else s0

/-- COLD_BOOT (R13, R14): one step of the boot; at power-on and when boot is complete it begins with the cold reset. -/
def execColdBoot (dieIdentity : BitVec 64) (image : List Byte) (s : State) : Result := .next (bootStep dieIdentity image s)

/-- CONFIG_RECORD_REPLACE (R12, R13): where boot has stopped because neither copy is accepted, copy 0 is replaced by a record that is. -/
def execConfigRecordReplace (record : List Byte) (s : State) : Result :=
  let r : BitVec 1280 := BitVec.ofNat 1280 (ofBytes record)
  .next (if bootStopped s && record.length == 160 && recordOk s.hub.identity r then
      { s with hub := { s.hub with records := modAt (fun _ => r) 0 s.hub.records } } else s)

/-! ## Retiring a core (R16) -/

/-- The first free SVCL entry. -/
def freeSvcl (r : BitVec 1280) : Option Nat := (List.range 10).find? fun j => recSvcl r j == 0x1FF

/-- The cores that leave service with one: that core, or its whole quad where no SVCL entry is free, by their SVCL numbers. -/
def leaving (r : BitVec 1280) (e : Nat) : List Nat :=
  if (freeSvcl r).isSome then [e] else (List.range 4).map fun k => e / 4 * 4 + k

/-- Bytes 0 to 63 of the record without a core; without its whole quad where SVCL is full. -/
def recordWithout (r : BitVec 1280) (e : Nat) : Nat :=
  let n := setBits ((withoutCores r (leaving r e)).toNat % 2 ^ 512) 48 16 (recSeq r + 1)
  match freeSvcl r with
  | some j => setBits n (416 + 9 * j) 9 e
  | none => n

/-- Where a logical core stands after the units change. -/
def movedTo (old new : BitVec 1280) (core : Nat) : Option Nat := (physicalOf old core).bind (logicalOf new)

/-- The logical cores whose number stands for another core, or for none, after the units change. -/
def renumbered (old new : BitVec 1280) : List Nat := (List.range 256).filter fun c => (physicalOf old c).isSome && movedTo old new c != some c

/-- The quad masks of a partition over the new numbers of the quads. -/
def movedMasks (old new : BitVec 1280) (m : List (BitVec 16)) : List (BitVec 16) :=
  m.zipIdx.map fun p => BitVec.ofNat 16 (((List.range 16).filter fun q =>
    (List.range 16).any fun o => p.1.getLsbD o && (quadsOf old p.2)[o]? == (quadsOf new p.2)[q]? && ((quadsOf new p.2)[q]?).isSome).foldl
      (fun n q => n + 2 ^ q) 0)

/-- The granules and copies of a core follow its number; those of a core that leaves are given up, with its dirty bytes written back. -/
def movedStore (old new : BitVec 1280) (st : Store) : Store :=
  let st1 := (st.copies.map (·.1)).foldl cleanLine st
  { st1 with
    granules := st1.granules.filterMap fun e =>
      if e.2 = 1000 ∨ e.2 % 4096 = 0 then some e else (movedTo old new (e.2 % 4096 - 1)).map fun c => (e.1, e.2 / 4096 * 4096 + c + 1)
    copies := st1.copies.filterMap fun p =>
      let cs := p.2.2.filterMap (movedTo old new)
      if cs.isEmpty then none else some (p.1, (p.2.1, cs.foldl NSet.add []))
    dir := st1.dir.map fun p => (p.1, BitVec.ofNat 64 (((List.range 256).filter fun c => p.2.getLsbD (quadOf c)).foldl (fun n c =>
      match movedTo old new c with
      | some k => n ||| 2 ^ quadOf k
      | none => n) 0)) }

/-- The units that remain once every retired core is gone. -/
def unitsLeft (s : State) : BitVec 1280 :=
  match s.hub.inUse with
  | some r => withoutCores r s.hub.retired
  | none => s.hub.units

/-- The remaining cores are numbered over the units that remain, once no work holds a number that changes (R14, R16; log 46): what is named by
core or quad follows. -/
def renumber (s : State) : State :=
  let old := s.hub.units
  let new := unitsLeft s
  if new = old ∨ (renumbered old new).any (coreBusy s) then s
  else
    let s1 := setUnits s new
    measurePlan { s1 with mem := movedStore old new s1.mem, lastSlot := s1.lastSlot.filter fun p => !(renumbered old new).contains (p.1 / 256), tried := [],
                          hub := { s1.hub with parts := s1.hub.parts.map fun p => (p.1, { p.2 with qmask := movedMasks old new p.2.qmask }) } }

/-- Cores leave service with core `e` (R16): the new record is built from the copy in use and placed in a signing request, and they are
excluded from every partition. DESIGN CHOICE (log 55): no rule says how many requests may be open; a second retirement's request takes the place
of the first, whose core stays excluded. -/
def retireNow (s : State) (r : BitVec 1280) (e : Nat) : State :=
  let b : BitVec 512 := BitVec.ofNat 512 (recordWithout r e)
  let s1 := logError s (.signing b)
  renumber (setUnits { s1 with hub := { s1.hub with
    pendingSign := some b, retired := (leaving r e).foldl NSet.add s1.hub.retired, retiring := NSet.del s1.hub.retiring e } } s1.hub.units)

/-- Some core that leaves service with core `e` has work that must be saved first (R374). -/
def leavingBusy (s : State) (r : BitVec 1280) (e : Nat) : Bool := ((leaving r e).filterMap (logicalOf s.hub.units)).any (coreBusy s)

/-- A core is to leave service: at once, or once the workgroups there have been saved; it takes no new work meanwhile (R16, R374; log 46). -/
def retire (s : State) (core : Nat) : State :=
  match s.hub.inUse, physicalOf s.hub.units core with
  | some r, some e =>
    if leavingBusy s r e then setUnits { s with hub := { s.hub with retiring := NSet.add s.hub.retiring e } } s.hub.units else retireNow s r e
  | _, _ => s

/-- The cores that wait to leave service do so once they are free, and the numbers follow once they can (R16, R374). -/
def settleUnits (s : State) : State :=
  if s.hub.retired.isEmpty && s.hub.retiring.isEmpty then s
  else match s.hub.inUse with
    | some r => renumber (s.hub.retiring.foldl (fun t e => if leavingBusy t r e then t else retireNow t r e) s)
    | none => s

/-- CORE_RETIRE (R16), by logical numbers; the core's workgroups must have been saved (R374). -/
def execCoreRetire (die quad core : Nat) (s : State) : Result := .next (retire s (64 * die + 4 * quad + core))

/-- CONFIG_SIGNATURE_RETURN (R16): a signed record that passes R13 is written over the copy not in use. -/
def execConfigSignatureReturn (signature : List Byte) (s : State) : Result :=
  match s.hub.pendingSign with
  | some b =>
    let r : BitVec 1280 := BitVec.ofNat 1280 (b.toNat + ofBytes (signature.take 96) * 2 ^ 512)
    let used := (usedCopy s.hub.identity s.hub.records).getD 0
    .next (if signature.length = 96 ∧ recordOk s.hub.identity r then
        { s with hub := { s.hub with records := modAt (fun _ => r) (1 - used) s.hub.records, pendingSign := none } } else s)
  | none => .next s

/-! ## Self-tests (R374) -/

/-- The partition whose key a line was last written under; partition 0 where none is. -/
def lineOwner (s : State) (pa : Nat) : Nat :=
  ((s.hub.parts.find? fun p => (partKeys s p.1).contains (lineKeyAt s.mem pa)).map (·.1)).getD 0

/-- The frames that hold a row are reported to the device kernel for retirement, each to the partition that owns the row's data (R374). -/
def reportFrames (s : State) (pa : Nat) : State :=
  let part := lineOwner s pa
  let die := if (ringOf s part (homeDie pa)).isSome then homeDie pa else entryDie s part
  (pa / 32768 * 32768 :: Config.rowFrames pa).foldl (fun t frame =>
    hardwareEntry t die { kind := 7, part := part, lid := 0, wg := 0, fib := 0, place := 0, code := 0, trap := 0, aux := frame }) s

/-- Two places lie in what one self-test covers. -/
def samePlace (p q : TestPlace) : Bool :=
  match p, q with
  | .l2Bank d _, .l2Bank e _ => d == e
  | p, q => p == q

/-- SELF_TEST (R374) of a place where an error was found: one that passes stays, a failing one is remapped to a spare; without one the row's
frames are reported, the bank's ways are disabled, the core is retired. -/
def execSelfTest (place : TestPlace) (pass spare : Bool) (s0 : State) : Result :=
  let s : State := { s0 with hub := { s0.hub with tests := s0.hub.tests.filter fun p => !samePlace p place } }
  if !s0.hub.tests.any (samePlace place) then .next s0
  else if pass || spare then .next s
  else match place with
    | .dramRow pa => .next (reportFrames s pa)
    | .l2Bank die ways =>
      let left := s.hub.l2ways.getD die 0 - ways
      .next { s with hub := { s.hub with l2ways := modAt (fun _ => left) die s.hub.l2ways,
                                         colour := modAt (fun c => BitVec.ofNat 64 (setBits c.toNat 18 5 left)) die s.hub.colour } }
    | .coreBank core => .next (retire s core)

/-! ## Power and heat (R10) -/

/-- POWER_LIMIT_SET (R10); a boot that has stopped takes only a replacement record (R13). -/
def execPowerLimitSet (watts : Nat) (s : State) : Result :=
  .next (if !bootStopped s && inRange 2400 5400 watts && watts % 100 == 0 then { s with hub := { s.hub with limit := watts } } else s)

/-- THROTTLE_STEP (R10): the clock in steps of 25 MHz down to 1.0 GHz, then the duty down to 1 in 16. DESIGN CHOICE (log 55): the spec does not say
how they are raised again; within the limits the duty rises first by 1, then the clock by 25 MHz. -/
def execThrottleStep (overPower overTemp : Bool) (s : State) : Result :=
  let h := s.hub
  .next { s with hub :=
    if overPower || overTemp then
      (if 1000 < h.clock then { h with clock := h.clock - 25 } else if 1 < h.duty then { h with duty := h.duty - 1 } else h)
    else if h.duty < 16 then { h with duty := h.duty + 1 }
    else if h.clock < 2500 then { h with clock := h.clock + 25 } else h }

/-- The host is signalled over both ports. -/
def signalHost (s : State) (code : Nat) : State := output (output s (.signal 0 code)) (.signal 1 code)

/-- POWER_LIMIT_UNMET: at the lowest point, the average still above the limit. -/
def execPowerLimitUnmet (watts : Nat) (s : State) : Result :=
  .next (if s.hub.clock ≤ 1000 ∧ s.hub.duty ≤ 1 ∧ s.hub.limit < watts then signalHost (logError s (.power watts)) sigPower else s)

/-- THERMAL_STOP: at 115 °C issue stops until a cold reset. -/
def execThermalStop (die celsius : Nat) (s : State) : Result :=
  .next (if 115 ≤ celsius then signalHost (logError { s with hub := { s.hub with stopped := true } } (.thermal die)) sigThermal else s)

end Sys2Proof.Machine
end

