-- ==== Sys2Proof/Machine/Control.lean ====
section
/-! DEFINITION. Control instructions: NOP, branches, calls, EXIT, YIELD, REGANG, TRAP, BKPT, IPREF, IFENCE (spec/08, spec/09,
spec/10, spec/18), and the fetch of instruction bytes. -/

namespace Sys2Proof.Machine

/-! ## Fetch (R405 to R408) -/

/-- The 12 bytes of an instruction as three parcels, each translated for execution (R56). -/
def fetchPieces (s : State) (f va : Nat) (spec : Bool) : Except Flt (List Piece) :=
  (List.range 3).mapM fun j =>
    match globalPiece s (fibCtx s f) ((va + 4 * j) % 2 ^ 64) 4 kExec spec with
    | .error e => .error e
    | .ok p =>
      if p.mt = 3 then .error (pageFault p.va (pageInfo 0 kExec 0 0 false false))
      else if poisoned s.mem p.loc 4 then .error { cause := cECC, addr := p.va, info := poisonSource s.mem p.loc 4 }
      else .ok p

/-- The word the pieces hold. -/
def fetchedWord (s : State) (ps : List Piece) : IWord :=
  BitVec.ofNat 96 (ofBytes (ps.flatMap fun p => readBytes s p.key p.loc p.n))

/-- What the reads of a fetch do: the translation takes effect, and they reach the homes of their lines, whose copies the instruction
cache keeps apart from the L1 (R57, R83, R112). -/
def fetchArrive (s : State) (f : Nat) (spec : Bool) (ps : List Piece) : State :=
  ps.foldl (fun t p => arrive t (reqOf t f 3 p.leaf) false p.key p.mt p.loc) (commitPieces s f kExec spec ps)

/-- The name under which a core marks the line of an address of a fibre (R407). -/
def lineMark (s : State) (f va : Nat) : Nat := ((fib s f).part * 4096 + asidOf (fibCtx s f)) * 2 ^ 57 + va % 2 ^ 64 / 128

/-- A core drops the prefetch of a line and marks it (R407). -/
def markDropped (s : State) (f va : Nat) : State :=
  let m := (FMap.find s.dropped (coreOf f)).getD []
  { s with dropped := FMap.put s.dropped (coreOf f) (NSet.add m (lineMark s f va)) }

/-- The core of a fibre has dropped a prefetch of the line of an address. -/
def wasDropped (s : State) (f va : Nat) : Bool := ((FMap.find s.dropped (coreOf f)).getD []).contains (lineMark s f va)

/-- The fault of a demand fetch: FETCH_FAULT with the info of R64, SPEC where the core had dropped a prefetch of the line (R408). DEDUCED (log
33): a stage-2 failure that the monitor converts is one too, with STG = 1, and no PAGE_FAULT entry (R66). -/
def fetchFault (s : State) (f : Nat) (e : Flt) : Flt :=
  if e.cause = cPAGE then { e with cause := cFETCH, info := e.info + (if wasDropped s f e.addr then 512 else 0) } else e

/-- The instructions a slice holds. -/
def sliceBuf (x : Fibre) (slice : Nat) : List (BitVec 64 × IWord) := (FMap.find x.fetched slice).getD []

/-- The least held position of a PC in a buffer: the word and the buffer without it (R405: each is used at most once). -/
def takeFetched (pc : BitVec 64) : List (BitVec 64 × IWord) → Option (IWord × List (BitVec 64 × IWord))
  | [] => none
  | e :: l => if e.1 = pc then some (e.2, l) else (takeFetched pc l).map fun r => (r.1, e :: r.2)

/-- Prefetch the line that holds an address: dropped and marked where a check fails; where its walk would have to wait it is not made (R117,
R407). -/
def prefetchLine (s : State) (f va : Nat) : State :=
  match globalPiece s (fibCtx s f) (va % 2 ^ 64) 1 kExec true with
  | .ok p => if walksWait s f [p] then s else commitPieces s f kExec true [p]
  | .error _ => markDropped s f va

/-! ## NOP, branches -/

/-- NOP (R246). -/
def execNop (_a : Args) (s : State) : Result := .next (goOn s)

/-- The target of a label: PC + 12 + 12·boff modulo 2^64 (R247). -/
def labelTarget (s : State) (a : Args) : BitVec 64 := s.ipc + 12 + BitVec.ofInt 64 (12 * toSigned 32 a.boff.toNat)

/-- The lanes whose register target is no multiple of 4, with their failures (R247, R240). -/
def targetFaults (s : State) (a : Args) (m : LaneMask) : List (Nat × Flt) :=
  (lanesOf m).filterMap fun i =>
    let t := addrVal s a.s0 i
    if t % 4 = 0 then none else some (i, alignFault t kExec 2 false)

/-- BRA (R247). -/
def execBra (a : Args) (s : State) : Result :=
  let m := active s a
  .next (advance (setPc s s.cur m (labelTarget s a)) (s.grp &&& ~~~ m))

/-- BRX (R247): misaligned targets trap in their lanes. -/
def execBrx (a : Args) (s : State) : Result :=
  let m := active s a
  let fs := targetFaults s a m
  let s1 := modFib s s.cur fun x => modLanes x (m &&& ~~~ faultMask fs) fun i l => { l with pc := BitVec.ofNat 64 (addrVal s a.s0 i) }
  .next (raise (advance s1 (s.grp &&& ~~~ m)) fs)

/-! ## CALL, RET (R239 to R242) -/

/-- The length Z of a fibre's sub-ring. -/
def subRing (s : State) (f : Nat) : Nat := (slotRec s (slotOf f)).z

/-- A lane's frames do not fit its sub-ring or its link stack: a spill is needed (R240). -/
def needsSpill (z : Nat) (l : Lane) : Bool := decide (z < l.fp + 64 - l.rb) || decide (32 < l.links.length)

/-- The trap of a spill-blocked lane: SPILL_FAULT, or REGFILE_ERROR where a parity error set SBLK (R229, R236). -/
def sblkFault (l : Lane) : Flt := { cause := if l.sblkReg then cREGFILE else cSPILL, addr := l.sblkAddr, info := l.sblkInfo }

/-- The outcome of a CALL in one lane: the lane after it, or the trap (R228, R229, R240). -/
def callLane (z spw lkn adv : Nat) (rpc target : BitVec 64) (l : Lane) : Except Flt Lane :=
  if spw < l.fp + adv + 64 then .error { cause := cSTACK, addr := 0, info := 0 }
  else if lkn < l.depth + 1 then .error { cause := cSTACK, addr := 0, info := 1 }
  else
    let n := { l with links := { rpc := rpc, adv := adv, hnd := false, cfp := l.fp } :: l.links, fp := l.fp + adv, depth := l.depth + 1 }
    if needsSpill z n then
      if l.sblk then
        .error (sblkFault l)
      else .ok { n with wait := .callSpill target l.fp }
    else .ok { n with pc := target }

/-- CALL and CALLX in the active lanes with each lane's target (R240). -/
def doCall (a : Args) (target : Nat → BitVec 64) (pre : List (Nat × Flt)) (s : State) : Result :=
  let m := active s a
  let x := me s
  let go := m &&& ~~~ faultMask pre
  let res := (lanesOf go).map fun i =>
    (i, callLane (subRing s s.cur) x.spw x.lkn (a.aux.toNat % 64) (s.ipc + 12) (target i) (laneAt x i))
  let fs := pre ++ res.filterMap fun p => match p.2 with
    | .error e => some (p.1, e)
    | .ok _ => none
  let s1 := res.foldl (fun t p => match p.2 with
    | .ok l => modFib t t.cur fun x => modLane (pushedLink x p.1) p.1 fun _ => l
    | .error _ => t) s
  .next (raise (advance s1 (s.grp &&& ~~~ m)) fs)

/-- CALL (R240). -/
def execCall (a : Args) (s : State) : Result := doCall a (fun _ => labelTarget s a) [] s

/-- CALLX (R240). -/
def execCallx (a : Args) (s : State) : Result :=
  doCall a (fun i => BitVec.ofNat 64 (addrVal s a.s0 i)) (targetFaults s a (active s a)) s

/-- A program counter always holds a multiple of 4 (R17): the low two bits of a value that sets it are dropped. DESIGN CHOICE (log 52): no
rule says what becomes of them where a link record or %tpc brings them. -/
def alignPc (v : BitVec 64) : BitVec 64 := BitVec.ofNat 64 (v.toNat / 4 * 4)

/-- Return a lane whose record is resident (R241). -/
def returnLane (l : Lane) : Lane :=
  match l.links with
  | r :: rest => { l with fp := r.cfp, depth := l.depth - 1, pc := alignPc r.rpc, links := rest, rb := min l.rb r.cfp, wait := .none }
  | [] => l

/-- RET of one lane: the lane after it (returned, or waiting for a refill), or the trap (R241). -/
def retLane (l : Lane) : Except Flt Lane :=
  match l.links with
  | [] => .ok { l with wait := .retRefill }
  | r :: _ =>
    if r.hnd then .error { cause := cRESERVED, addr := 0, info := 0 }
    else if l.fp - r.adv < l.rb then .ok { l with wait := .retRefill }
    else .ok (returnLane l)

/-- RET (R241): a lane at depth 0 ends. -/
def execRet (a : Args) (s : State) : Result :=
  let m := active s a
  let x := me s
  let ends := maskOf fun i => m.getLsbD i && (laneAt x i).depth == 0
  let res := (lanesOf (m &&& ~~~ ends)).map fun i => (i, retLane (laneAt x i))
  let fs := res.filterMap fun p => match p.2 with
    | .error e => some (p.1, e)
    | .ok _ => none
  let s1 := res.foldl (fun t p => match p.2 with
    | .ok l => modFib t t.cur fun x => { modLane x p.1 (fun _ => l) with dirty := x.dirty ||| 4 }
    | .error _ => t) s
  .next (exitLanes (raise (advance s1 (s.grp &&& ~~~ m)) fs) s.cur ends)

/-! ## EXIT, YIELD, REGANG -/

/-- EXIT (R211). -/
def execExit (a : Args) (s : State) : Result :=
  let m := active s a
  .next (exitLanes (advance s (s.grp &&& ~~~ m)) s.cur m)

/-- YIELD (R212). -/
def execYield (_a : Args) (s : State) : Result := .next (doYield (goOn s) s.cur)

/-- REGANG (R213). -/
def execRegang (a : Args) (s : State) : Result :=
  let m := active s a
  .next (modFib (advance s (s.grp &&& ~~~ m)) s.cur fun x => checkRegang { x with parked := x.parked ||| m })

/-! ## TRAP, BKPT (R248) -/

/-- A synchronous entry finds no place: its lanes are held and execute again (R352). -/
def queueFull (x : Fibre) : Bool := decide (7 ≤ x.trapq.length)

/-- TRAP: SERVICE_CALL, the instruction completed. -/
def execTrap (a : Args) (s : State) : Result :=
  let m := active s a
  let x := me s
  let e : TrapEntry := { lmask := m, cause := cSERVICE, async := false, klvl := x.klvl, pc := s.ipc + 12, addr := 0,
                         info := BitVec.ofNat 32 (a.imm.toNat % 2 ^ 24 + 255 * 2 ^ 24), laneAddr := [], level := x.hstack.length }
  if m = 0 then .next (goOn s)
  else if queueFull x then .next (modFib (advance s (s.grp &&& ~~~ m)) s.cur fun x => queueTrap x e)
  else .next (modFib (goOn s) s.cur fun x => queueTrap x e)

/-- BKPT: BREAKPOINT at the instruction. -/
def execBkpt (a : Args) (s : State) : Result :=
  let m := active s a
  .next (trapLanes (advance s (s.grp &&& ~~~ m)) m cBREAK 0 (a.imm.toNat % 2 ^ 24))

/-! ## IPREF, IFENCE (R409, R410) -/

/-- IPREF: the lines from each target upwards. -/
def execIpref (a : Args) (s : State) : Result :=
  let m := active s a
  let ts := if a.sub = 0 then (if m = 0 then [] else [(labelTarget s a).toNat]) else (lanesOf m).map (addrVal s a.s0)
  .next (goOn (ts.foldl (fun t va => (List.range (a.aux.toNat % 8 + 1)).foldl (fun u j => prefetchLine u u.cur (va / 128 * 128 + 128 * j)) t) s))

/-- IFENCE: the earlier stores are performed, the fetched instructions discarded. -/
def execIfence (_a : Args) (s : State) : Result :=
  let s1 := drainAll s s.cur
  if drained s1 s.cur then .next (goOn (modFib s1 s.cur dropFetched)) else hold s1

end Sys2Proof.Machine
end

