-- ==== Sys2Proof/Machine/Ballast.lean ====
section
/-! DEFINITION. The ballast engine: spills and refills of frames, in the background and on demand (spec/09 R222 to R230, R240,
R241; spec/16 R353). -/

namespace Sys2Proof.Machine

/-! ## What a lane holds (R222) -/

/-- The length of the frame below a record: the advance, or all 64 words below a trap-handler frame (R353). -/
def frameLen (r : Link) : Nat := if r.hnd then 64 else r.adv

/-- The room of a lane: Z − (FP + 64 − RB). -/
def roomOf (z : Nat) (l : Lane) : Int := (z : Int) - ((l.fp : Int) + 64 - l.rb)

/-- The ballast threshold T = min(4·LWM, Z − 64). -/
def threshold (z : Nat) (x : Fibre) : Nat := min (4 * x.lwm) (z - 64)

/-- The VA of frame word w of a lane, and of link record k (R226). -/
def wordVa (x : Fibre) (lane w : Nat) : Nat := (x.spb.toNat + w * 128 + lane * 4) % 2 ^ 64
def linkVa (x : Fibre) (lane k : Nat) : Nat := (x.lkb.toNat + k * 512 + lane * 16) % 2 ^ 64

/-- The 128 bits of a link record (R221). -/
def linkBits (r : Link) : Nat := r.rpc.toNat + r.adv * 2 ^ 64 + (if r.hnd then 2 ^ 70 else 0) + r.cfp % 2 ^ 24 * 2 ^ 72
/-- The record of 128 bits. -/
def linkOf (n : Nat) : Link := { rpc := BitVec.ofNat 64 n, adv := bits n 64 6, hnd := n.testBit 70, cfp := bits n 72 24 }

/-! ## Spills -/

/-- How a transfer comes out: it waits for a pinned tenure, it fails, or it is made. -/
inductive Transfer where
  | wait
  | fail (e : Flt) (parity : Bool)
  | done (s : State)

/-- Check the blocks of a transfer; the first that fails is reported. A transfer is no LD or ST, so device memory takes none (R80). DESIGN
CHOICE (log 54): a refusal of stage 2 is reported as any other. -/
def transferPieces (s : State) (f lane kind : Nat) (vas : List (Nat × Nat)) : Except Flt (List Piece) :=
  (vas.mapM fun p => unitCheck s f lane 1 p.1 p.2 kind .wide).map List.flatten

/-- A queued write of the fibre meets some piece. -/
def queuedAt (s : State) (f : Nat) (ps : List Piece) : Bool := (fib s f).sq.any fun e => ps.any fun p => sqOverlaps e p.loc p.n

/-- The pieces of a transfer, once the fibre's queued writes to them are performed: a transfer takes its place in its lane's program order
(R138, R227). None where such a write must wait. -/
def transferNow (s : State) (f lane kind : Nat) (vas : List (Nat × Nat)) : Option (State × Except Flt (List Piece)) :=
  match transferPieces s f lane kind vas with
  | .error e => some (s, .error e)
  | .ok ps =>
    if queuedAt s f ps then
      let t := drainAll s f
      match transferPieces t f lane kind vas with
      | .error e => some (t, .error e)
      | .ok qs => if queuedAt t f qs || unitWaits t f (decide (kind = kWrite)) qs then none else some (t, .ok qs)
    else if unitWaits s f (decide (kind = kWrite)) ps then none
    else some (s, .ok ps)

/-- The parity error that a spill of words meets, with its info field (R236): a ring word, or the link record of depth k. -/
def spillParity (s : State) (f lane : Nat) (words : List Nat) (k : Nat) : Option Nat :=
  match words.find? fun i => s.ringPoison.contains (ringKey f lane (frameWord s f i)) with
  | some i => some (1024 + 2 ^ 11 * (frameWord s f i % 512))
  | none => if (fib s f).poison.contains (linkCode lane k) then some (1024 + 2 ^ 20) else none

/-- Write a frame of `n` words from word `w` and its record to memory (R224, R226). -/
def spillWords (s : State) (f lane w n k : Nat) (r : Link) : Transfer :=
  let x := fib s f
  let words := (List.range n).map (w + ·)
  match spillParity s f lane words k with
  | some info => .fail { cause := cREGFILE, addr := 0, info := info } true
  | none =>
    match transferNow s f lane kWrite (words.map (fun i => (wordVa x lane i, 4)) ++ [(linkVa x lane k, 16)]) with
    | none => .wait
    | some (_, .error e) => .fail e false
    | some (t, .ok ps) =>
      .done (unitWrite t f 0 (.fibre f) none ps (words.flatMap (fun i => toBytes 4 (frameGet s f lane i).toNat) ++ toBytes 16 (linkBits r)))

/-- A failed spill sets SBLK, with the address and info it will report (R229). -/
def blockSpill (s : State) (f lane : Nat) (e : Flt) (parity : Bool) : State :=
  modFib s f fun x => modLane x lane fun l => { l with sblk := true, sblkAddr := e.addr, sblkInfo := e.info, sblkReg := parity }

/-- Spill the oldest resident frame of a lane: RB moves past it and its record leaves the link stack; a failure sets SBLK (R224,
R229). None where it waits or no frame is resident. -/
def spillOldest (s : State) (f lane : Nat) : Option State :=
  let l := laneAt (fib s f) lane
  match l.links.getLast? with
  | none => none
  | some r =>
    match spillWords s f lane l.rb (frameLen r) (l.depth - l.links.length) r with
    | .wait => none
    | .fail e p => some (blockSpill s f lane e p)
    | .done t => some (modFib t f fun x => modLane x lane fun l => { l with rb := l.rb + frameLen r, links := l.links.dropLast })

/-- For a trap delivery with no frame left below it, the interrupted frame itself is spilled with the record the delivery will push
(R240, R353): the delivery then puts RB where the new frame begins. -/
def spillCurrent (s : State) (f lane n : Nat) : Option State :=
  let l := laneAt (fib s f) lane
  match spillWords s f lane l.fp n l.depth { rpc := l.pc, adv := 16, hnd := decide (n = 64), cfp := l.fp } with
  | .wait => none
  | .fail e p => some (blockSpill s f lane e p)
  | .done t => some (modFib t f fun x => modLane x lane fun l => { l with wait := .trapSpilled n })

/-- A background spill is due (R224); a frozen fibre keeps its frames (R242). -/
def spillDue (s : State) (f lane : Nat) : Bool :=
  let x := fib s f
  let l := laneAt x lane
  let z := (slotRec s (slotOf f)).z
  hasFib s f && !x.frozen && !x.exited.getLsbD lane && l.wait == .none && !l.sblk && !l.links.isEmpty && decide (roomOf z l < threshold z x)

/-- BALLAST_BACKGROUND_SPILL. -/
def execBallastBackgroundSpill (f lane : Nat) (s : State) : Result :=
  .next (if spillDue s f lane then (spillOldest s f lane).getD s else s)

/-! ## Refills -/

/-- What a refill brings: the record and the words of the frame below it, or the failure (R230). -/
inductive Refill where
  | wait
  | fail (e : Flt)
  | got (r : Link) (words : List Word) (s : State)

/-- Read the youngest spilled frame of a lane: its record, which a RET refuses where it ends a handler (`ret`), then its words (R230, R241). -/
def readFrame (s : State) (f lane : Nat) (ret : Bool) : Refill :=
  let x := fib s f
  let l := laneAt x lane
  let va := linkVa x lane (l.depth - l.links.length - 1)
  match transferNow s f lane kRead [(va, 16)] with
  | none => .wait
  | some (_, .error e) => .fail { e with cause := cREFILL }
  | some (s1, .ok ps) =>
    let b := unitRead s1 f 0 ps
    let n := ofBytes b.1
    let r := linkOf n
    if n.testBit 71 ∨ bits n 96 32 ≠ 0 ∨ r.adv < 4 ∨ 60 < r.adv ∨ r.adv % 4 ≠ 0 ∨ r.cfp + frameLen r ≠ l.rb then
      .fail { cause := cRESERVED, addr := va, info := 0 }
    else if ret && r.hnd then .fail { cause := cRESERVED, addr := 0, info := 0 }
    else
      match transferNow b.2 f lane kRead ((List.range (frameLen r)).map fun i => (wordVa x lane (r.cfp + i), 4)) with
      | none => .wait
      | some (_, .error e) => .fail { e with cause := cREFILL }
      | some (s2, .ok qs) =>
        let v := unitRead s2 f 0 qs
        .got r ((List.range (frameLen r)).map fun i => BitVec.ofNat 32 (ofBytes ((v.1.drop (4 * i)).take 4))) v.2

/-- Put a refilled frame in the ring: RB moves back to it and its record joins the link stack, without a parity error (R224, R237). -/
def putFrame (s : State) (f lane : Nat) (r : Link) (words : List Word) : State :=
  let s1 := (words.zipIdx).foldl (fun t p => frameSet t f lane (r.cfp + p.2) p.1) s
  modFib s1 f fun x =>
    let l := laneAt x lane
    { modLane x lane (fun l => { l with rb := r.cfp, links := l.links ++ [r] }) with
      dirty := x.dirty ||| 4, poison := NSet.del x.poison (linkCode lane (l.depth - l.links.length - 1)) }

/-- Some frame of a lane is spilled. -/
def hasSpilled (l : Lane) : Bool := decide (l.links.length < l.depth)

/-- BALLAST_BACKGROUND_REFILL (R224, R230): abandoned without a trap where it fails. -/
def execBallastBackgroundRefill (f lane : Nat) (s : State) : Result :=
  let x := fib s f
  let l := laneAt x lane
  let z := (slotRec s (slotOf f)).z
  if hasFib s f && !x.frozen && !x.exited.getLsbD lane && l.wait == .none && decide (l.links.length < 2) && hasSpilled l then
    match readFrame s f lane false with
    | .got r words t => if (threshold z x : Int) ≤ roomOf z l - frameLen r then .next (putFrame t f lane r words) else .next s
    | _ => .next s
  else .next s

/-! ## Demand transfers -/

/-- A lane that waited for a transfer traps at its instruction, undone (R229, R230, R240, R241). -/
def transferTrap (s : State) (f lane : Nat) (e : Flt) : State :=
  modFib s f fun x =>
    let y := modLane x lane undoTransfer
    queueTrap y { lmask := BitVec.ofNat 32 (2 ^ lane), cause := e.cause, async := false, klvl := x.klvl, pc := (laneAt y lane).pc,
                  addr := BitVec.ofNat 64 e.addr, info := BitVec.ofNat 32 e.info, laneAddr := [], level := x.hstack.length }

/-- End a lane's wait. -/
def endLaneWait (s : State) (f lane : Nat) (g : Lane → Lane) : State := modFib s f fun x => modLane x lane fun l => { g l with wait := .none }

/-- BALLAST_DEMAND_SPILL (R224, R240, R353): frames are spilled, the oldest first, until a waiting CALL or trap delivery fits; a
frozen fibre's transfers stay pending (R242). -/
def execBallastDemandSpill (f lane : Nat) (s : State) : Result :=
  let l := laneAt (fib s f) lane
  let z := (slotRec s (slotOf f)).z
  if !hasFib s f || (fib s f).frozen then .next s
  else match l.wait with
  | .callSpill target _ =>
    if !needsSpill z l then .next (endLaneWait s f lane fun l => { l with pc := target })
    else if l.sblk then .next (transferTrap s f lane (sblkFault l))
    else .next ((spillOldest s f lane).getD s)
  | .trapSpill adv =>
    if !spillFirst z adv l ∨ l.sblk then .next (endLaneWait s f lane id)
    else if l.links.isEmpty then .next ((spillCurrent s f lane adv).getD s)
    else .next ((spillOldest s f lane).getD s)
  | _ => .next s

/-! ## The end of a handler by ERET (R360) -/

/-- The lanes of the running handler that have not exited. -/
def handlerLanes (x : Fibre) : List Nat := lanesOf (x.amask &&& liveMask x)

/-- A lane whose last record must be refilled. -/
def recordAway (l : Lane) : Bool := l.links.isEmpty && decide (0 < l.depth)

/-- The refills an ERET needs, made one after the other: the state with them, the lanes that fail, and whether one waits. -/
def eretRefills (s : State) (f : Nat) : State × List (Nat × Flt) × Bool :=
  ((handlerLanes (fib s f)).filter fun i => recordAway (laneAt (fib s f) i)).foldl (fun acc i =>
    match readFrame acc.1 f i false with
    | .wait => (acc.1, acc.2.1, true)
    | .fail e => (acc.1, acc.2.1 ++ [(i, e)], acc.2.2)
    | .got r words t => (putFrame t f i r words, acc.2)) (s, [], false)

/-- A lane leaves the handler: to %tpc where it was written, else to its record's PC (R17; log 52). -/
def eretLane (tpc : Option (BitVec 64)) (l : Lane) : Lane :=
  match l.links with
  | r :: rest => { l with fp := r.cfp, depth := l.depth - 1, pc := alignPc (tpc.getD r.rpc), links := rest, rb := min l.rb r.cfp, wait := .none }
  | [] => l

/-- Lanes wait no longer for a refill. -/
def endRefillWaits (x : Fibre) : Fibre :=
  { x with lanes := vmap (fun l => if l.wait = .eretRefill then { l with wait := .none } else l) x.lanes }

/-- The effect of ERET: every lane returns and the handler stack is popped; if any lane traps, nothing else happens. -/
def doEret (s : State) (f : Nat) (pc : BitVec 64) : State :=
  let r := eretRefills s f
  let x := fib r.1 f
  let open_ := (handlerLanes x).filterMap fun i =>
    match (laneAt x i).links with
    | k :: _ => if k.hnd then none else some (i, ({ cause := cRESERVED, addr := 0, info := 0 } : Flt))
    | [] => if (laneAt x i).depth = 0 then some (i, { cause := cRESERVED, addr := 0, info := 0 }) else none
  if r.2.2 then s
  else match r.2.1 ++ open_ with
    | [] =>
      let tpc := if x.tcause.getLsbD 10 then some x.tpc else none
      let m := x.amask &&& liveMask x
      modFib r.1 f fun x => checkRegang (popHandler (modLanes (withdraw x m) m fun _ l => eretLane tpc l))
    | fs => raise { modFib s f endRefillWaits with cur := f, ipc := pc } fs

/-- BALLAST_DEMAND_REFILL (R230, R241, R360): the frame a RET or an ERET needs comes back, or the lane traps. -/
def execBallastDemandRefill (f lane : Nat) (s : State) : Result :=
  let l := laneAt (fib s f) lane
  if !hasFib s f || (fib s f).frozen then .next s
  else match l.wait with
  | .retRefill =>
    match readFrame s f lane true with
    | .wait => .next s
    | .fail e => .next (transferTrap s f lane e)
    | .got r words t => .next (endLaneWait (putFrame t f lane r words) f lane returnLane)
  | .eretRefill => .next (doEret s f l.pc)
  | _ => .next s

end Sys2Proof.Machine
end

