-- ==== Sys2Proof/WellFormed.lean ====
section
/-! DEFINITION. Which instructions are well formed: the ones some word of R38 and R33 stands for, with every field in the
one form the decoder gives it. -/

namespace Sys2Proof.Machine

/-- Opcode and fields of an encoded instruction; none for an event, which has no encoding. -/
def opArgs : Instr → Option (Nat × Args)
  | .nop a => some (0x000, a)
  | .bra a => some (0x001, a)
  | .brx a => some (0x002, a)
  | .call a => some (0x003, a)
  | .callx a => some (0x004, a)
  | .ret a => some (0x005, a)
  | .exit a => some (0x006, a)
  | .yield a => some (0x007, a)
  | .regang a => some (0x008, a)
  | .trap a => some (0x009, a)
  | .bkpt a => some (0x00A, a)
  | .ipref a => some (0x00B, a)
  | .ifence a => some (0x00C, a)
  | .iadd a => some (0x080, a)
  | .isub a => some (0x081, a)
  | .imul a => some (0x082, a)
  | .imad a => some (0x083, a)
  | .imulhi a => some (0x084, a)
  | .idiv a => some (0x085, a)
  | .imin a => some (0x086, a)
  | .imax a => some (0x087, a)
  | .iabs a => some (0x088, a)
  | .and a => some (0x089, a)
  | .or a => some (0x08A, a)
  | .xor a => some (0x08B, a)
  | .lop3 a => some (0x08C, a)
  | .shl a => some (0x08D, a)
  | .shr a => some (0x08E, a)
  | .sar a => some (0x08F, a)
  | .shf a => some (0x090, a)
  | .bfe a => some (0x091, a)
  | .bfi a => some (0x092, a)
  | .popc a => some (0x093, a)
  | .clz a => some (0x094, a)
  | .brev a => some (0x095, a)
  | .isetp a => some (0x096, a)
  | .sel a => some (0x097, a)
  | .mov a => some (0x098, a)
  | .movi a => some (0x099, a)
  | .lea a => some (0x09A, a)
  | .plop a => some (0x09B, a)
  | .p2s a => some (0x09C, a)
  | .s2p a => some (0x09D, a)
  | .shfl a => some (0x09E, a)
  | .lanewr a => some (0x09F, a)
  | .vote a => some (0x0A0, a)
  | .redux a => some (0x0A1, a)
  | .fadd a => some (0x100, a)
  | .fmul a => some (0x101, a)
  | .ffma a => some (0x102, a)
  | .fmin a => some (0x103, a)
  | .fmax a => some (0x104, a)
  | .faddPk a => some (0x120, a)
  | .fmulPk a => some (0x121, a)
  | .ffmaPk a => some (0x122, a)
  | .fminPk a => some (0x123, a)
  | .fmaxPk a => some (0x124, a)
  | .fsetp a => some (0x105, a)
  | .fcvt a => some (0x106, a)
  | .frnd a => some (0x107, a)
  | .fclass a => some (0x108, a)
  | .rcp a => some (0x109, a)
  | .rsq a => some (0x10A, a)
  | .sqrt a => some (0x10B, a)
  | .ex2 a => some (0x10C, a)
  | .lg2 a => some (0x10D, a)
  | .sin a => some (0x10E, a)
  | .cos a => some (0x10F, a)
  | .tanh a => some (0x110, a)
  | .ld a => some (0x180, a)
  | .st a => some (0x181, a)
  | .ldx a => some (0x182, a)
  | .stx a => some (0x183, a)
  | .atomAdd a => some (0x184, a)
  | .atomMin a => some (0x185, a)
  | .atomMax a => some (0x186, a)
  | .atomAnd a => some (0x187, a)
  | .atomOr a => some (0x188, a)
  | .atomXor a => some (0x189, a)
  | .atomExch a => some (0x18A, a)
  | .acas a => some (0x18B, a)
  | .redAdd a => some (0x18C, a)
  | .redMin a => some (0x18D, a)
  | .redMax a => some (0x18E, a)
  | .redAnd a => some (0x18F, a)
  | .redOr a => some (0x190, a)
  | .redXor a => some (0x191, a)
  | .fence a => some (0x192, a)
  | .waita a => some (0x193, a)
  | .pref a => some (0x194, a)
  | .cctlWb a => some (0x195, a)
  | .cctlWbi a => some (0x195, a)
  | .cctlIvc a => some (0x195, a)
  | .cctlUnclass a => some (0x195, a)
  | .topen a => some (0x200, a)
  | .tacq a => some (0x201, a)
  | .trel a => some (0x202, a)
  | .tsplit a => some (0x203, a)
  | .tmerge a => some (0x204, a)
  | .tclose a => some (0x205, a)
  | .tquery a => some (0x206, a)
  | .xcopy a => some (0x210, a)
  | .xgath a => some (0x211, a)
  | .xscat a => some (0x212, a)
  | .xcoll a => some (0x213, a)
  | .xflag a => some (0x214, a)
  | .qfence a => some (0x215, a)
  | .xresume a => some (0x216, a)
  | .barinit a => some (0x218, a)
  | .barexp a => some (0x219, a)
  | .bararr a => some (0x21A, a)
  | .barwait a => some (0x21B, a)
  | .orsv a => some (0x280, a)
  | .orfree a => some (0x281, a)
  | .obld a => some (0x282, a)
  | .obst a => some (0x283, a)
  | .mma a => some (0x284, a)
  | .mmaResc a => some (0x284, a)
  | .msmx a => some (0x285, a)
  | .mzero a => some (0x286, a)
  | .mld a => some (0x287, a)
  | .mst a => some (0x288, a)
  | .mread a => some (0x289, a)
  | .mpin a => some (0x290, a)
  | .munpin a => some (0x291, a)
  | .munpinDrop a => some (0x291, a)
  | .mdelta a => some (0x292, a)
  | .mdeltaC a => some (0x292, a)
  | .mquery a => some (0x293, a)
  | .mevict a => some (0x294, a)
  | .mevictDet a => some (0x294, a)
  | .bar a => some (0x300, a)
  | .bars a => some (0x301, a)
  | .fbar a => some (0x302, a)
  | .spawn a => some (0x303, a)
  | .launch a => some (0x304, a)
  | .eret a => some (0x382, a)
  | .movsr a => some (0x380, a)
  | .movsw a => some (0x381, a)
  | .tlbinv a => some (0x386, a)
  | .tlbsync a => some (0x387, a)
  | .ctxsave a => some (0x388, a)
  | .ctxload a => some (0x389, a)
  | .halt a => some (0x38A, a)
  | .wwait a => some (0x384, a)
  | .wwake a => some (0x385, a)
  | .svc a => some (0x383, a)
  | .svcF a => some (0x383, a)
  | .svcTake a => some (0x383, a)
  | .storeQueueDrain _ => none
  | .fenceComplete _ => none
  | .waitaWake _ _ => none
  | .waitaTimeout _ _ => none
  | .tacqGrant _ => none
  | .holderSurrender _ _ => none
  | .pinnedDeadline _ _ => none
  | .qfenceJoinComplete _ => none
  | .winchChunk _ _ => none
  | .flagEntryWrite _ _ => none
  | .collectiveChunk _ _ _ => none
  | .linkAccess _ _ _ _ _ _ _ => none
  | .barwaitWake _ => none
  | .pinnedTileEvict _ _ => none
  | .barPhaseComplete _ => none
  | .fbarPhaseComplete _ => none
  | .spoolDispatch _ _ _ _ => none
  | .workgroupPlace _ _ => none
  | .launchComplete _ _ => none
  | .slotExchange _ => none
  | .watchdog _ => none
  | .ballastBackgroundSpill _ _ => none
  | .ballastBackgroundRefill _ _ => none
  | .ballastDemandSpill _ _ => none
  | .ballastDemandRefill _ _ => none
  | .instructionFetch _ _ => none
  | .instructionPrefetch _ _ _ => none
  | .trapDeliveryK _ => none
  | .trapDeliveryU _ => none
  | .tlbsyncComplete _ => none
  | .stage2FaultService _ _ => none
  | .stage2Invalidate _ => none
  | .haltWake _ => none
  | .wwaitWake _ => none
  | .wwaitTimeout _ => none
  | .svcReply _ => none
  | .serviceDispatch _ => none
  | .launchDoorbell _ _ _ => none
  | .wreqEnrol _ _ => none
  | .wreqWake _ _ => none
  | .wreqCancel _ _ => none
  | .sdone _ _ => none
  | .vfRegisterWrite _ _ _ _ _ => none
  | .hostWrite _ _ _ _ => none
  | .hostRead _ _ _ => none
  | .cxlSnoop _ _ _ => none
  | .flushCompletion _ => none
  | .flushTimeout _ => none
  | .hostPortFail _ _ => none
  | .hostPortReset _ => none
  | .spdmRequest _ _ => none
  | .imsicSeteipnum _ _ _ _ => none
  | .hostNotify _ _ => none
  | .partitionSettingChange _ _ => none
  | .keySlotLoad _ _ => none
  | .partitionTeardown _ => none
  | .warmReset _ => none
  | .coldBoot _ _ => none
  | .configRecordReplace _ => none
  | .coreRetire _ _ _ => none
  | .configSignatureReturn _ => none
  | .selfTest _ _ _ => none
  | .powerLimitSet _ => none
  | .throttleStep _ _ => none
  | .powerLimitUnmet _ => none
  | .thermalStop _ _ => none
  | .configurationRequest _ => none

/-- The numeric code of a format (R18). -/
def fmtCode : Fmt → Nat
  | .R => 0
  | .I => 1
  | .M => 2
  | .X => 3

/-- A guard field's four bits (R18). -/
def guardCode (g : Guard) : Nat := g.pred.val + (if g.neg then 8 else 0)

/-- The D field's fourteen bits (R20). -/
def dstRaw (d : Dst) : Nat := opndRaw d.opnd + (if d.clamp then 1024 else 0) + 2048 * d.scale.toNat

/-- The raw fields of an instruction's word. -/
def rawOf (opc : Nat) (a : Args) : Raw :=
  { opc := opc, ty := a.ty, ga := guardCode a.ga, gb := guardCode a.gb, gc := a.gc, ch := a.ch.toNat, fmt := a.fmt,
    d := dstRaw a.d, s0 := opndRaw a.s0, s1 := opndRaw a.s1, s2 := opndRaw a.s2, s3 := opndRaw a.s3, imm := a.imm.toNat,
    off := a.off.toNat, ord := a.ord.toNat, scope := a.scope.toNat, space := a.space.toNat, aux := a.aux.toNat,
    boff := a.boff.toNat, bh := a.bh.toNat, sub := a.sub.toNat, res := 0 }

/-- The fields a format does not have hold zero (R19). -/
def formatWf (a : Args) : Bool :=
  match a.fmt with
  | .R => a.imm == 0 && a.off == 0 && a.ord == 0 && a.scope == 0 && a.space == 0 && a.aux == 0 && a.boff == 0 && a.bh == 0 && a.sub == 0
  | .I => a.s1 == .none && a.s2 == .none && a.s3 == .none && a.off == 0 && a.ord == 0 && a.scope == 0 && a.space == 0 && a.aux == 0
      && a.boff == 0 && a.bh == 0 && a.sub == 0
  | .M => a.s2 == .none && a.s3 == .none && a.imm == 0 && a.aux == 0 && a.boff == 0 && a.bh == 0 && a.sub == 0
  | .X => a.d == ⟨.none, false, 0⟩ && a.s1 == .none && a.s2 == .none && a.s3 == .none && a.imm == 0 && a.off == 0 && a.ord == 0
      && a.scope == 0 && a.space == 0

/-- An operand in the form its kind reads (R243): the decoder reads its own field back as it. -/
def opndWf (k : Kind) (o : Opnd) : Bool := readOpnd k (opndRaw o) == o

/-- An instruction is well formed: an assigned opcode and format, no failing field of R33, every operand in the form of
its position, and the constructor its selecting fields name. -/
def wfInstr (i : Instr) : Bool :=
  match opArgs i with
  | none => false
  | some (opc, a) =>
    match rowOf opc with
    | none => false
    | some row =>
      let r := rawOf opc a
      let k := formatKinds a.fmt (row.kinds r)
      row.fmts.contains a.fmt && (fieldFails row 0 r).isEmpty && formatWf a
        && opndWf k.d a.d.opnd && opndWf k.s0 a.s0 && opndWf k.s1 a.s1 && opndWf k.s2 a.s2 && opndWf k.s3 a.s3
        && row.ctor a == i

end Sys2Proof.Machine
end

