-- ==== Sys2Proof/Decode.lean ====
section
/-! DEFINITION. Decoding of instruction words (R17 to R33), rejecting by cause, and the encoder beside it. -/

namespace Sys2Proof.Machine

/-- Bits [lo + len − 1 : lo] of a word. -/
def field (w lo len : Nat) : Nat := w / 2 ^ lo % 2 ^ len

/-- The format of a code (R18). -/
def fmtOfCode : Nat → Fmt
  | 0 => .R
  | 1 => .I
  | 2 => .M
  | _ => .X

/-- A guard field (R18). -/
def guardOf (n : Nat) : Guard := { neg := n.testBit 3, pred := Fin.ofNat 8 n }

/-- The raw fields of a word (R18, R19); a field that the format does not have is 0. -/
def rawFields (w : Nat) : Raw :=
  let f := fmtOfCode (field w 30 2)
  let inR := decide (f = .R)
  let inI := decide (f = .I)
  let inM := decide (f = .M)
  let inX := decide (f = .X)
  { opc := field w 0 10, ty := tyOf (field w 10 4), ga := field w 14 4, gb := field w 18 4, gc := w.testBit 22,
    ch := field w 28 2, fmt := f,
    d := if inX then 0 else field w 32 14
    s0 := field w 46 12
    s1 := if inR || inM then field w 58 12 else 0
    s2 := if inR then field w 70 12 else 0
    s3 := if inR then field w 82 12 else 0
    imm := if inI then field w 58 32 else 0
    off := if inM then field w 70 16 else 0
    ord := if inM then field w 86 2 else 0
    scope := if inM then field w 88 3 else 0
    space := if inM then field w 91 3 else 0
    aux := if inX then field w 32 14 else 0
    boff := if inX then field w 58 32 else 0
    bh := if inX then field w 90 2 else 0
    sub := if inX then field w 92 2 else 0
    res := if inI then field w 90 4 else 0 }

/-- The fields of a word under its row's kinds. -/
def argsOf (row : Row) (w : Nat) : Args :=
  let r := rawFields w
  let o := operandsOf (formatKinds r.fmt (row.kinds r)) r
  { ty := r.ty, ga := guardOf r.ga, gb := guardOf r.gb, gc := r.gc, sos := w.testBit 23, yld := w.testBit 24,
    hint := BitVec.ofNat 3 (field w 25 3), ch := BitVec.ofNat 2 r.ch, fmt := r.fmt,
    d := { opnd := if r.fmt = .X then .none else o.d, clamp := r.d.testBit 10, scale := BitVec.ofNat 3 (r.d / 2048) },
    s0 := o.s0, s1 := o.s1, s2 := o.s2, s3 := o.s3,
    imm := BitVec.ofNat 32 r.imm, off := BitVec.ofNat 16 r.off, ord := BitVec.ofNat 2 r.ord, scope := BitVec.ofNat 3 r.scope,
    space := BitVec.ofNat 3 r.space, aux := BitVec.ofNat 14 r.aux, boff := BitVec.ofNat 32 r.boff, bh := BitVec.ofNat 2 r.bh,
    sub := BitVec.ofNat 2 r.sub }

/-- Why a word is no instruction (R33). -/
inductive DecodeError where
  | illegalInsn
  | privilege (bit : Nat)
  | illegalFormat
  | reservedField (bit : Nat)
  deriving DecidableEq, Repr

/-- The field values that select a K form (R33, point 4): CCTL's OP 3 and SVC's FORM 1 and 2. -/
def kForm (r : Raw) : Option Nat :=
  if r.opc = 0x195 ∧ rawCode r.d = 3 then some 34
  else if r.opc = 0x383 ∧ (r.imm / 2 ^ 30 = 1 ∨ r.imm / 2 ^ 30 = 2) then some 88
  else none

/-- The least of a list of word bits. -/
def leastBit : List Nat → Nat → Nat
  | [], m => m
  | b :: l, m => leastBit l (min b m)

/-- Decode a word at K level (`k`) or U level, with the checks of R33 in their order. -/
def decode (k : Bool) (word : IWord) : Except DecodeError Instr :=
  let w := word.toNat
  let r := rawFields w
  match rowOf r.opc with
  | none => .error .illegalInsn
  | some row =>
    if row.kOnly && !k then .error (.privilege 0)
    else if !row.fmts.contains r.fmt then .error .illegalFormat
    else
      match (if k then none else kForm r) with
      | some b => .error (.privilege b)
      | none =>
        match fieldFails row (field w 94 2) r with
        | b :: l => .error (.reservedField (leastBit l b))
        | [] => .ok (row.ctor (argsOf row w))

/-- The word of three parcels (R17). -/
def parcels (p0 p1 p2 : BitVec 32) : IWord := p2 ++ (p1 ++ p0)

/-! ## The encoder -/

/-- The bits [93:32] of an instruction by its format (R19). -/
def bodyOf (r : Raw) : Nat :=
  match r.fmt with
  | .R => r.d + 2 ^ 14 * r.s0 + 2 ^ 26 * r.s1 + 2 ^ 38 * r.s2 + 2 ^ 50 * r.s3
  | .I => r.d + 2 ^ 14 * r.s0 + 2 ^ 26 * r.imm
  | .M => r.d + 2 ^ 14 * r.s0 + 2 ^ 26 * r.s1 + 2 ^ 38 * r.off + 2 ^ 54 * r.ord + 2 ^ 56 * r.scope + 2 ^ 59 * r.space
  | .X => r.aux + 2 ^ 14 * r.s0 + 2 ^ 26 * r.boff + 2 ^ 58 * r.bh + 2 ^ 60 * r.sub

/-- The word of raw fields and the three fields no check reads (R18). -/
def packWord (r : Raw) (sos yld : Bool) (hint : Nat) : Nat :=
  r.opc + 2 ^ 10 * tyCode r.ty + 2 ^ 14 * r.ga + 2 ^ 18 * r.gb + (if r.gc then 2 ^ 22 else 0) + (if sos then 2 ^ 23 else 0)
    + (if yld then 2 ^ 24 else 0) + 2 ^ 25 * hint + 2 ^ 28 * r.ch + 2 ^ 30 * fmtCode r.fmt + 2 ^ 32 * bodyOf r

/-- The word of an instruction; an event has none and gives the all-ones word, which decodes to nothing. -/
def encode (i : Instr) : IWord :=
  match opArgs i with
  | some (opc, a) => BitVec.ofNat 96 (packWord (rawOf opc a) a.sos a.yld a.hint.toNat)
  | none => BitVec.allOnes 96

/-- The bytes of a word, lowest address first (R9, R17). -/
def wordBytes (w : IWord) : List Byte := (List.range 12).map fun i => BitVec.ofNat 8 (w.toNat / 2 ^ (8 * i))

/-- The word of twelve bytes. -/
def wordOfBytes (l : List Byte) : IWord := BitVec.ofNat 96 (l.foldr (fun b acc => b.toNat + 256 * acc) 0)

end Sys2Proof.Machine

namespace Sys2Proof

/-- The instruction the decoder reads, at K level, from an instruction whose bits are w (bit 0 the least significant bit of
the first parcel). -/
def decodeTableWord (nbits w : Nat) : Option Instr :=
  match Machine.decode true (Machine.wordOfBytes (Machine.wordBytes (BitVec.ofNat 96 (w % 2 ^ nbits)))) with
  | .ok i => some i
  | .error _ => none

end Sys2Proof
end

