-- ==== Sys2Proof/Machine/Service.lean ====
section
/-! DEFINITION. SVC in its three forms, the reply, and the gondola's choice of the next batch (spec/15 R345, R346; spec/17 R393 to
R395). -/

namespace Sys2Proof.Machine

/-! ## SVC (R395) -/

/-- The number by which a wait names a slot: its place in memory and the die. -/
def slotName (die : Nat) (r : Nat × Nat) (i : Nat) : Nat := slotAddr r.1 i * 4 + die

/-- Lanes of the group that hold a slot of an SVC they executed before: they wait on it again. -/
def keptSlot (s : State) (f : Nat) : Option Wait :=
  (fib s f).waits.find? fun w => match w.kind with
    | .svcKept _ _ _ => w.pc == s.ipc + 12 && (w.lanes &&& s.grp) != 0
    | _ => false

/-- Wait again on a kept slot; its other lanes keep it (R395). -/
def resumeSvc (s : State) (f : Nat) (w : Wait) : State :=
  match w.kind with
  | .svcKept slot form dst =>
    let rest := w.lanes &&& ~~~ s.grp
    let s1 := modFib s f fun x => dropWait x w
    beginWait (if rest = 0 then s1 else addWait s1 f { w with lanes := rest }) (w.lanes &&& s.grp) (.svc slot form dst)
  | _ => s

/-- The bytes of a lane's eight arguments. -/
def svcArgs (s : State) (f lane n : Nat) : List Byte :=
  (List.range 8).flatMap fun j => toBytes 4 (frameGet s f lane ((laneAt (fib s f) lane).fp + n + j)).toNat

/-- Forms 0 and 1: the release, a slot, its record, and the wait; without a free slot the lanes stay at the SVC (R346, R395). -/
def callService (a : Args) (form code : Nat) (trap : Nat) (dst : Nat) (s : State) : Result :=
  let f := s.cur
  let m := active s a
  let die := dieOf (coreOf f)
  let part := (fib s f).part
  match keptSlot s f, ringOf s part die with
  | some w, _ => .next (resumeSvc s f w)
  | none, none => .next (trapLanes (advance s (s.grp &&& ~~~ m)) m cSERVICE 0 code)
  | none, some r =>
    if m = 0 then .next (goOn s)
    else
      let s0 := drainAll s f
      if !(drained s0 f && fibReady s0 f (ringScope r.1)) then retry s0 (ringScope r.1)
      else
        let s1 := reclaim (releaseFence (fibReleased s0 f) f (ringScope r.1))
        match freeSlot s1 part die with
        | none => .next { addWait s1 f { lanes := m, kind := .svcFull die, pc := s.ipc, since := s.tick } with stall := 2 }
        | some i =>
          if hubPinned s1 (slotAddr r.1 i) 2048 true then hold s1
          else
          let h : Header := { fibHeader s1 f (form + 1) with code := code, trap := trap }
          let rest := if form = 0 then (lanesOf m).map fun j => (64 + 32 * j, svcArgs s1 f j (opndNum a.s0)) else []
          let s2 := offerSlot s1 die i f r h.bits (releaseView s1 f (ringScope r.1)) rest
          .next (beginWait (advance s2 (s.grp &&& ~~~ m)) m (.svc (slotName die r i) form dst))

/-- SVC. -/
def execSvc (a : Args) (s : State) : Result := callService a 0 (a.imm.toNat % 2 ^ 24) (active s a).toNat (opndNum a.d.opnd) s

/-- SVC.f: the handled entry, as the handler stack keeps it. -/
def execSvcF (a : Args) (s : State) : Result :=
  match (me s).hstack with
  | [] => .next (trapOpen s cRESERVED none none)
  | l :: _ => callService a 1 0 (trapBits l.entry) (match a.d.opnd with
      | .reg (.s n) _ _ => n.val
      | _ => 32) s

/-- SVC.take: on a gondola core only. -/
def execSvcTake (a : Args) (s : State) : Result :=
  if isGondola s (coreOf s.cur) then .next (beginWait s s.grp (.svcTake (opndNum a.d.opnd) none))
  else .next (trapOpen s cRESERVED none none)

/-! ## The reply (R393, R395) -/

/-- The batch of a fibre's SVC at a slot: it keeps the ring that it was placed in (R380). -/
def batchOf (s : State) (f n : Nat) : Option Batch :=
  s.hub.batches.find? fun b => b.part == (fib s f).part && slotName b.die b.ring b.slot == n

/-- A waiting SVC of a fibre whose slot holds a reply: the wait and the batch. -/
def replied (s : State) (f : Nat) : Option (Wait × Batch) :=
  (fib s f).waits.findSome? fun w => match w.kind with
    | .svc n _ _ => ((batchOf s f n).filter fun b => slotStatus s b.ring b.slot != 0).map fun b => (w, b)
    | _ => none

/-- Free a slot. -/
def dropBatch (s : State) (b : Batch) : State := { s with hub := { s.hub with batches := s.hub.batches.filter fun c => c != b } }

/-- Lanes of a fibre still wait on a slot of its partition's die, or will again. -/
def awaited (s : State) (f n : Nat) : Bool :=
  (fib s f).waits.any fun w => match w.kind with
    | .svc k _ _ => k == n
    | .svcKept k _ _ => k == n
    | _ => false

/-- The four result words of a lane go to its registers; the latches stay (R232). -/
def putResults (s : State) (f lane dst : Nat) (l : List Byte) : State :=
  (List.range 4).foldl (fun t j => frameSet t f lane ((laneAt (fib t f) lane).fp + dst + j) (BitVec.ofNat 32 (ofBytes ((l.drop (4 * j)).take 4)))) s

/-- A fibre's read of bytes of its slot (R112, R395). -/
def slotRead (s : State) (f : Nat) (b : Batch) (off n : Nat) : List Byte × State :=
  let p := hubPiece s (slotAddr b.ring.1 b.slot + off) n b.ring.2
  performRead (arriveAll s (reqOf s f 0 none) false p.key p.mt p.loc n) f p.key p.mt p.loc n 1 true

/-- A read of a slot waits for a tenure that cannot be taken back yet (R117). -/
def slotWaits (s : State) (f : Nat) (b : Batch) : Bool :=
  (linesOf (slotAddr b.ring.1 b.slot) 2048).any fun l => recallWaits s (some f) (coreOf f) l false

/-- The lanes that found no free slot execute their SVC again once there is one (R346, R393). -/
def settleFull (s0 : State) : State :=
  let waits := s0.fibres.any fun p => p.2.waits.any fun w => match w.kind with
    | .svcFull _ => true
    | _ => false
  let s := if waits then reclaim s0 else s0
  let full (die : Nat) (x : Fibre) : Bool := (ringOf s x.part die).isSome && (freeSlot s x.part die).isNone
  let stays (x : Fibre) (w : Wait) : Bool := match w.kind with
    | .svcFull die => full die x
    | _ => true
  if s.fibres.all fun p => p.2.waits.all (stays p.2) then s
  else { s with fibres := s.fibres.map fun p => (p.1, { p.2 with waits := p.2.waits.filter (stays p.2) }) }

/-- The results of an SVC: a lane's words, or the reply. -/
def takeResults (s : State) (f : Nat) (w : Wait) (b : Batch) (status : Nat) : State :=
  match w.kind with
  | .svc _ 0 dst => (lanesOf w.lanes).foldl (fun t j => let r := slotRead t f b (1088 + 16 * j) 16; putResults r.2 f j dst r.1) s
  | .svc _ _ dst => if h : dst < 32 then regSet32 s f 0 (.s ⟨dst, h⟩) 0 (BitVec.ofNat 32 status) else s
  | _ => s

/-- SVC_REPLY: the read of STATUS, the acquire at the ring's scope, the results, and the slot is free unless other lanes of its record have yet
to read it. -/
def execSvcReply (f : Nat) (s : State) : Result :=
  match replied s f with
  | some (w, b) =>
    if slotWaits s f b then .next s
    else
      let r := slotRead s f b 4 4
      let s1 := finishWait (takeResults (acquireFence r.2 f (ringScope b.ring.1)) f w b (ofBytes r.1)) f w
      .next (if awaited s1 f (slotName b.die b.ring b.slot) then s1 else dropBatch s1 b)
  | none => .next s

/-! ## The gondola (R345) -/

/-- The warps of a die that wait in SVC.take: fibre place, wait, destination. -/
def takers (s : State) (die : Nat) : List (Nat × Wait × Nat) :=
  (s.fibres.filter fun p => coreOf p.1 == gondolaCore die).filterMap fun p => p.2.waits.findSome? fun w => match w.kind with
    | .svcTake dst _ => some (p.1, w, dst)
    | _ => none

/-- The waiting warp of a partition that has waited longest. -/
def oldestTaker (s : State) (die part : Nat) : Option (Nat × Wait × Nat) :=
  ((takers s die).filter fun t => (fib s t.1).part == part).foldl (fun b t => match b with
    | some u => if t.2.1.since < u.2.1.since then some t else some u
    | none => some t) none

/-- The partition served next: the least V, then the lowest number, among those with a batch queued and a warp waiting. -/
def nextServed (s : State) (die : Nat) : Option Nat :=
  ((queuedParts s die).filter fun p => (oldestTaker s die p).isSome).foldl (fun b p => match b with
    | some q => if vTime s p die < vTime s q die ∨ (vTime s p die = vTime s q die ∧ p < q) then some p else some q
    | none => some p) none

/-- The oldest batch a partition has queued on a die. -/
def oldestBatch (s : State) (die part : Nat) : Option Batch :=
  s.hub.batches.find? fun b => b.part == part && b.die == die && b.state == 0

/-- SERVICE_DISPATCH: the batch goes to the warp, which acquires and learns the slot's address. -/
def execServiceDispatch (die : Nat) (s : State) : Result :=
  match nextServed s die with
  | none => .next s
  | some p =>
    match oldestBatch s die p, oldestTaker s die p with
    | some b, some (f, w, dst) =>
      let give (c : Batch) : Batch := if c = b then { c with state := 1, owner := f } else c
      let s1 := acquireFence (joinView { s with hub := { s.hub with batches := s.hub.batches.map give } } f b.view) f 3
      let a := slotAddr b.ring.1 b.slot
      let s2 := regSet s1 f 0 true (.s (Fin.ofNat 32 dst)) a
      .next (finishWait s2 f w)
    | _, _ => .next s

end Sys2Proof.Machine
end

