-- ==== Sys2Proof/Machine/Issue.lean ====
section
/-! DEFINITION. What a step does: the choice of the move, the formation of an issue group, fetch, decode and the issue checks
(spec/01 R23, R33; spec/08 R188 to R192; spec/09 R235; spec/15 R341; spec/18 R405, R408; log 1). -/

namespace Sys2Proof.Machine

/-! ## Issue checks -/

/-- The operand fields of a word with the kinds that read them, each with its lowest word bit: D, S0 to S3. -/
def fieldKinds (w : Nat) : List (Nat × Kind × Nat) :=
  let r := rawFields w
  match rowOf r.opc with
  | some row =>
    let k := formatKinds r.fmt (row.kinds r)
    [(32, k.d, r.d % 1024), (46, k.s0, r.s0), (58, k.s1, r.s1), (70, k.s2, r.s2), (82, k.s3, r.s3)]
  | none => []

/-- The register a field names under its kind, with the number of registers it spans: an a register holds 64 bits by itself. -/
def fieldReg (e : Nat × Kind × Nat) : Option (Reg × Nat) :=
  match e.2.1 with
  | .reg al => (regOf (e.2.2 % 4) (e.2.2 / 4 % 256)).map fun r => (r, match r with
      | .a _ => 1
      | _ => al.span)
  | _ => none

/-- The fields that name window registers at or beyond WIN (R23). -/
def windowFails (win w : Nat) : List Nat :=
  (fieldKinds w).filterMap fun e =>
    match fieldReg e with
    | some (.x n, span) => if n.val + span ≤ win then none else some e.1
    | _ => none

/-- The predicates p0 to p6. -/
def allPreds : List (Reg × List Nat) := (List.finRange 7).map fun k => (.p k, [0])

/-- Which of the registers that a field spans an instruction reads: all; MDELTA the values and gates of its tokens from `t0` on (R329). -/
def readOffsets (w t0 : Nat) (e : Nat × Kind × Nat) (span : Nat) : List Nat :=
  let n := rawCode (rawFields w).s2 / 16 % 8 + 1
  if w % 1024 = 0x292 ∧ e.1 = 58 then (List.range n).drop t0
  else if w % 1024 = 0x292 ∧ e.1 = 82 then (List.range (2 * n)).drop (2 * t0)
  else List.range span

/-- The registers an instruction reads, by the first of a field and the places from there on: its source fields (S3 of IDIV, TSPLIT and SHFL
is a destination), D of ACAS, and the predicates that P2S moves (R235, R261). -/
def readRegs (w t0 : Nat) : List (Reg × List Nat) :=
  let opc := w % 1024
  ((fieldKinds w).filter fun e =>
    (e.1 != 32 || opc == 0x18B) && !(e.1 == 82 && (opc == 0x085 || opc == 0x203 || opc == 0x09E))).filterMap (fun e =>
      (fieldReg e).map fun r => (r.1, readOffsets w t0 e r.2))
    ++ (if opc = 0x09C then allPreds else [])

/-- The instruction names a window register. -/
def namesWindow (w : Nat) : Bool := (fieldKinds w).any fun e => match fieldReg e with
  | some (.x _, _) => true
  | _ => false

/-- The poisoned register of a list that a lane would read, as the info field of REGFILE_ERROR (R235, R236). -/
def poisonInfo (s : State) (f lane : Nat) (rs : List (Reg × List Nat)) : Option Nat :=
  rs.findSome? fun p => p.2.findSome? fun j =>
    let word := match p.1 with
      | .v n => some (frameWord s f ((laneAt (fib s f) lane).fp + n.val + j))
      | .x n => some (windowWord s f (n.val + j))
      | _ => none
    match word with
    | some w =>
      if s.ringPoison.contains (ringKey f lane w) then
        some ((regCode p.1 + 4 * j) % 1024 + 2048 * (w - (slotRec s (slotOf f)).ringBase))
      else none
    | none => if (fib s f).poison.contains (poisonCode p.1 lane + 128 * j) then some ((regCode p.1 + 4 * j) % 1024) else none

/-- The guard predicates of a word. -/
def guardRegs (a : Args) : List (Reg × List Nat) :=
  [a.ga, a.gb].filterMap fun g => if h : g.pred.val < 7 then some (.p ⟨g.pred.val, h⟩, [0]) else none

/-- The lanes that meet a parity error in a register the instruction reads (R235). -/
def parityFaults (s : State) (f : Nat) (w : Nat) (a : Args) (g : LaneMask) : List (Nat × Flt) :=
  if s.ringPoison.isEmpty && (fib s f).poison.isEmpty then []
  else
    let s1 : State := { s with cur := f, grp := g }
    let flt (n : Nat) : Flt := { cause := cREGFILE, addr := 0, info := n }
    let bad (m : LaneMask) (rs : List (Reg × List Nat)) : List (Nat × Flt) :=
      (lanesOf m).filterMap fun i => (poisonInfo s f i rs).map fun n => (i, flt n)
    match bad g (guardRegs a) with
    | [] => bad (active s1 a) (readRegs w (progStart (fib s f)))
    | l => l

/-- The lanes in which an instruction reads a bad link record: RET in its active lanes, ERET in the handler's (R235, R241, R360). -/
def badLinks (s : State) (f : Nat) (g : LaneMask) (i : Instr) : LaneMask :=
  let x := fib s f
  let bad (m : LaneMask) : LaneMask := maskOf fun j =>
    m.getLsbD j && !(laneAt x j).links.isEmpty && x.poison.contains (linkCode j ((laneAt x j).depth - 1))
  if x.poison.isEmpty then 0
  else match i with
    | .ret a => bad (active { s with cur := f, grp := g } a)
    | .eret _ => if x.hstack.isEmpty then 0 else bad (x.amask &&& liveMask x)
    | _ => 0

/-- REGFILE_ERROR of a link record: LNK is set; LVL and NUM, for which no register stands, are free (R236; log 17). -/
def linkTrap (s : State) (m : LaneMask) : State :=
  let d := draw s
  trapLanes d.2 m cREGFILE 0 (2 ^ 20 + d.1.toNat % 1024)

/-- The cause and the info field of a word that is no instruction (R33). -/
def decodeCause : DecodeError → Nat × Nat
  | .illegalInsn => (cILLEGAL, 0)
  | .privilege b => (cPRIVILEGE, b)
  | .illegalFormat => (cFORMAT, 30)
  | .reservedField b => (cRESERVED, b)

/-- The trap of a word that is no instruction; no rule gives its address field (R33; log 17). -/
def decodeTrap (s : State) (e : DecodeError) : State := trapOpen s (decodeCause e).1 none (some (decodeCause e).2)

/-- Decode with the check of the declared window, reporting the lowest failing bit (R23, R33). -/
def decodeAt (klvl : Bool) (win : Nat) (w : IWord) : Except DecodeError Instr :=
  match decode klvl w, windowFails win w.toNat with
  | .ok i, [] => .ok i
  | .ok _, b :: l => .error (.reservedField (leastBit l b))
  | .error (.reservedField b), l => .error (.reservedField (leastBit l b))
  | .error e, _ => .error e

/-- What a step is about to do: run an instruction or event, or go to a state at once. -/
inductive Planned where
  | run (i : Instr) (s : State)
  | done (s : State)

/-- The window size of a fibre's slot. -/
def winOf (s : State) (f : Nat) : Nat := (slotRec s (slotOf f)).win

/-- The part of a group in some of its slices. -/
def Group.part (g : Group) (l : List Nat) : Group :=
  { g with slices := l, mask := maskOf fun j => g.mask.getLsbD j && l.contains (j / 4) }

/-- The word that a slice holds for a group's PC: its oldest copy. -/
def heldWord (x : Fibre) (pc : BitVec 64) (k : Nat) : Option IWord := (takeFetched pc (sliceBuf x k)).map (·.1)

/-- The part of a group whose slices hold no word for its PC. -/
def Group.bare (g : Group) (x : Fibre) : Group := g.part (g.slices.filter fun k => (heldWord x g.pc k).isNone)

/-- A word leaves the slices of a group. -/
def useWord (s : State) (f : Nat) (g : Group) : State :=
  let use (m : FMap (List (BitVec 64 × IWord))) (k : Nat) : FMap (List (BitVec 64 × IWord)) :=
    match takeFetched g.pc ((FMap.find m k).getD []) with
    | some r => FMap.put m k r.2
    | none => m
  modFib s f fun x => { x with fetched := g.slices.foldl use x.fetched }

/-- The slices of a group that have its word: each its own held copy, or what a demand fetch of those that hold none brought (R405). DESIGN
CHOICE (log 29): where they differ, those with the lowest slice's word issue it, and the warp so parts. -/
def agreeing (x : Fibre) (g : Group) (demand : Option IWord) : Option (IWord × Group) :=
  let word (k : Nat) : Option IWord := (heldWord x g.pc k).or demand
  (g.slices.head?.bind word).map fun w => (w, g.part (g.slices.filter fun k => word k == some w))

/-- Take the word of a group, and the part of it that issues. The slices that hold no copy fetch on demand; the translation takes effect on A at
the issue, which waits for a tenure that cannot be taken back yet: then none (R57, R117, R405, R408). -/
def takeWord (s : State) (f : Nat) (g : Group) : Except Flt (Option (IWord × Group × State)) :=
  let x := fib s f
  let take (d : Option IWord) (t : State) : Except Flt (Option (IWord × Group × State)) :=
    .ok ((agreeing x g d).map fun r => (r.1, r.2, useWord t f r.2))
  match fetchPieces s f g.pc.toNat false with
  | .ok ps =>
    if (g.bare x).slices.isEmpty then
      (if ps.any fun p => p.leaf.any (leafWaits s (some f) kExec) then .ok none else take none (commitPieces s f kExec false ps))
    else if mustWait s f false ps then .ok none
    else let t := fetchArrive s f false ps; take (some (fetchedWord t ps)) t
  | .error e => if (agreeing x g none).isSome then take none s else .error (fetchFault s f e)

/-! ## Waits for operands (R31, R192, R340; log 49) -/

/-- Whether an instruction that reads registers waits for one of them: the next late point tells, unless its lanes have waited for it. -/
def operandWaits (s : State) (w : Nat) (a : Args) : Bool × State :=
  match s.latePts with
  | b :: r =>
    if (readRegs w 0 ++ guardRegs a).isEmpty || (me s).opWaits.any (fun v => (v.lanes &&& s.grp) != 0) then (false, s)
    else (b, { s with latePts := r })
  | [] => (false, s)

/-- HINT predicts a wait of up to 600 clk or longer (R31). -/
def longHint (a : Args) : Bool := a.hint == 5 || a.hint == 6

/-- The lanes of a group wait for an operand until it returns: with SOS the slot passes on; with HINT 5 or 6 the wait is long (R31, R192,
R340). -/
def waitOperand (s : State) (f : Nat) (m : LaneMask) (a : Args) : State :=
  heldIssue (modFib s f fun x => { x with opWaits := x.opWaits ++ [{ lanes := m, since := s.tick, keeps := !a.sos, long := longHint a, back := false }] })
    f a.sos false

/-- The operand that a lane waits for returns: its wait is over, and its instruction may issue (R192). -/
def operandBack (s : State) (f lane : Nat) : State :=
  modFib s f fun x => { x with opWaits := x.opWaits.map fun w => if w.lanes.getLsbD lane then { w with back := true } else w }

/-! ## The issue -/

/-- A batch that a service warp has in hand: dispatched to it, its STATUS still zero (R345, R395). -/
def inHand (s : State) (f die : Nat) (b : Batch) : Bool :=
  b.owner == f && b.state == 1 && b.die == die && slotStatus s b.ring b.slot == 0

/-- An issue of a fibre is one of a service warp that has a batch in hand. -/
def isCharged (s : State) (f : Nat) : Bool :=
  isGondola s (coreOf f) && s.hub.batches.any (inHand s f (dieOf (coreOf f)))

/-- An issue of a service warp that has a batch in hand is charged to its partition (R345). -/
def chargeIssue (s : State) (f : Nat) : State := if isCharged s f then chargeV s (fib s f).part (dieOf (coreOf f)) else s

/-- An attempt that did not issue is charged nothing; what an entry that it queued did to V stays (R345). `s0` is the state before it. -/
def undoCharge (s0 s : State) (f : Nat) : State :=
  let part := (fib s0 f).part
  let die := dieOf (coreOf f)
  if isCharged s0 f then
    setVTime s part die (vTime (if (queuedParts s die).contains part then wakeV s0 part die else s0) part die)
  else s

/-- Whose turn a slot takes: its sub-core's, on a gondola its partition's there (R341, R343). -/
def turnKey (s : State) (f : Nat) : Nat := subOf f * 64 + (if isGondola s (coreOf f) then 1 + (fib s f).part else 0)

/-- A group issues: the turn of its slot, the count of its fibre, the charge of a service warp (R205, R341, R345). -/
def noteIssue (s : State) (f : Nat) : State :=
  let s1 := chargeIssue s f
  modFib { s1 with lastSlot := FMap.put s1.lastSlot (turnKey s f) (slotOf f % 16) } f fun x => countIssue { dropOpWaits x s.grp with heldLong := false }

/-- The event that delivers the head trap entry, where it is due (R353, R359): U where delegated, else K. -/
def dueDelivery (s : State) (f : Nat) : Option Instr :=
  let x := fib s f
  match x.trapq with
  | [] => none
  | e :: _ =>
    if x.frozen ∨ x.exiting ∨ spillsPending x ∨ x.waits.any (fun w => match w.kind with
        | .fence _ _ store => store
        | _ => false) then none
    else if dueU x e then some (.trapDeliveryU f)
    else if dueK x e then some (.trapDeliveryK f)
    else none

/-- The instruction of a word issues, its checks being made: what it reads of the window has returned, and a parity error stops it before
it writes anything (R136, R235). -/
def issueWord (s0 : State) (f : Nat) (g : LaneMask) (w : Nat) (i : Instr) (a : Args) : Planned :=
  let s := noteIssue (if namesWindow w then settleLate s0 f else s0) f
  match parityFaults s f w a g with
  | [] => if badLinks s f g i = 0 then .run i s else .done (linkTrap s (badLinks s f g i))
  | fs => .done (raise s fs)

/-- The state in which a group of a fibre executes: its lanes, at its PC. -/
def atGroup (s : State) (f : Nat) (g : Group) : State := { s with cur := f, grp := g.mask, ipc := g.pc }

/-- Issue a group of a fibre (R33, R189, R190, R205). -/
def issueFib (s0 : State) (f : Nat) : Planned :=
  match dueDelivery s0 f, issueGroup (triedLanes s0 f) (fib s0 f) with
  | some i, _ => .run i s0
  | none, none => .done s0
  | none, some (g, x) =>
    if watchdogDue x then .run (.watchdog f) s0
    else
    let s1 := modFib s0 f fun _ => x
    match takeWord s1 f g with
    | .error e => .done (trapAll (atGroup s1 f (g.bare (fib s1 f))) e)
    | .ok none => .done (noteTried s0 f g.mask)
    | .ok (some (w, h, t)) =>
      let s2 := atGroup t f h
      match decodeAt x.klvl (winOf s2 f) w with
      | .error e => .done (decodeTrap (noteIssue s2 f) e)
      | .ok i =>
        match opArgs i with
        | some (_, a) =>
          let o := operandWaits s2 w.toNat a
          if o.1 then .done (waitOperand { s0 with latePts := o.2.latePts } f h.mask a) else issueWord o.2 f h.mask w.toNat i a
        | none => .done s2

/-- An active slot whose current fibre is ready, once the slot has passed on where it is not. -/
def issuable (s : State) (slot : Nat) : Bool :=
  match FMap.find s.slots slot with
  | some x => x.active && readyFib s (4 * slot + (slotRec (settleSlot s slot) slot).cur)
  | none => false

/-- The slot's fibre, its slot having passed on where it is not ready, has a group that has not been tried in vain. -/
def freshSlot (s : State) (slot : Nat) : Bool := s.tried.isEmpty || untried s (4 * slot + (slotRec (settleSlot s slot) slot).cur)

/-- The slots of a list that have not been tried in vain, or all where each has. -/
def preferFresh (s : State) (l : List Nat) : List Nat :=
  match l.filter (freshSlot s) with
  | [] => l
  | k :: r => k :: r

/-- The issuable slots of a sub-core, from the one after the last that issued of those that share a turn; a held one lets the others go
first (R341; log 32). -/
def issuableSlots (s : State) (u key : Nat) : List Nat :=
  let last := (FMap.find s.lastSlot key).getD 15
  preferFresh s (((List.range 16).map fun k => u * 16 + (last + 1 + k) % 16).filter (issuable s))

/-- The partition of a slot's current fibre. -/
def slotPart (s : State) (slot : Nat) : Nat := (wgOf s (4 * slot)).part

/-- The partition that issues on a gondola's sub-core: the least V, the lowest number among equals (R343). -/
def leastServed (s : State) (u : Nat) (l : List Nat) : Option Nat :=
  let v (k : Nat) : Nat := vTime s (slotPart s k) (u / 256)
  (l.find? fun k => l.all fun j => decide (v k < v j) || (v k == v j && decide (slotPart s k ≤ slotPart s j))).map (slotPart s)

/-- The slot of a sub-core that issues: the first in turn (R341); on a gondola the first in turn of the partition served (R343). -/
def issueSlot (s : State) (u : Nat) : Option Nat :=
  if isGondola s (u / 4) then
    (leastServed s u (issuableSlots s u (u * 64))).bind fun p => (issuableSlots s u (u * 64 + 1 + p)).find? fun k => slotPart s k == p
  else (issuableSlots s u (u * 64)).head?

/-- A sub-core turns to a slot, which passes to a ready fibre if its current one is not ready (R192); where every group has been tried in
vain, a new round begins. -/
def takeTurn (s : State) (u sl : Nat) : State :=
  let s1 := if freshSlot s sl then s else clearTried s u
  { settleSlot s1 sl with turn := (u + 1) % 1024 }

/-- The issue of a sub-core (R341). -/
def issueAt (s : State) (u : Nat) : Planned :=
  match issueSlot s u with
  | some sl => issueFib (takeTurn s u sl) (sl * 4 + (slotRec (takeTurn s u sl) sl).cur)
  | none => .done { s with turn := (u + 1) % 1024 }

/-- The next sub-core, from the turn on, that can issue. -/
def nextSub (s : State) : Option Nat :=
  let us := ((s.slots.map fun p => p.1 / 16)).eraseDups
  let able := us.filter fun u => (issueSlot s u).isSome
  match able.find? fun u => decide (s.turn ≤ u) with
  | some u => some u
  | none => able.head?

end Sys2Proof.Machine
end

