-- ==== Sys2Proof/Machine/Traps.lean ====
section
/-! DEFINITION. Delivery of traps, ERET, the special registers, TLB invalidation, the stage-2 faults and HALT (spec/02 R66, R70 to
R72; spec/16 R353 to R363, R372). -/

namespace Sys2Proof.Machine

/-! ## Delivery (R353, R358, R359) -/

/-- The entry at the head has no lane left: it is discarded (R352). -/
def discardHead (s : State) (f : Nat) : State := modFib s f fun x => afterPop { x with trapq := x.trapq.drop 1 }

/-- The lanes of an entry that must wait for a demand spill before a delivery that advances by `n`, a lane that waited for a transfer being
undone first (R240). -/
def spillLanes (s : State) (f n : Nat) (e : TrapEntry) : LaneMask :=
  let x := readyLanes (fib s f) e.lmask
  maskOf fun i => e.lmask.getLsbD i && (liveMask x).getLsbD i && spillFirst (slotRec s (slotOf f)).z n (laneAt x i)

/-- Lanes wait for the spills of a delivery. -/
def awaitSpills (s : State) (f n : Nat) (m : LaneMask) : State :=
  modFib s f fun x => modLanes x m fun _ l => { undoTransfer l with wait := .trapSpill n }

/-- The fibre is frozen and its entry leaves it, passed to the device kernel (R358, log 27). -/
def freeze (s : State) (f : Nat) (e : TrapEntry) : State :=
  hardwareEntry (modFib (discardHead s f) f fun x => { x with frozen := true }) (dieOf (coreOf f))
    { fibHeader s f 3 with trap := trapBits (settleEntry (fib s f) e) }

/-- Delivery of the head entry to K, its demand spills first; the limits are tested on lanes undone (R240, R358). -/
def deliverK (s : State) (f : Nat) (e : TrapEntry) : State :=
  if (e.lmask &&& liveMask (fib s f)) = 0 then discardHead s f
  else if undeliverable (slotRec s (slotOf f)).z (readyLanes (fib s f) e.lmask) e then freeze s f e
  else
    let m := spillLanes s f 64 e
    if m = 0 then takeK s f e else awaitSpills s f 64 m

/-- Delivery of the head entry to U; a lane that fails the limits turns it into a delivery to K (R359). -/
def deliverU (s : State) (f : Nat) (e : TrapEntry) : State :=
  let x := readyLanes (fib s f) e.lmask
  if (e.lmask &&& liveMask x) = 0 then discardHead s f
  else if (lanesOf (e.lmask &&& liveMask x)).all (fitsU s f x) then
    let m := spillLanes s f 16 e
    if m = 0 then takeU s f e else awaitSpills s f 16 m
  else deliverK s f e

/-- TRAP_DELIVERY_K (R353). -/
def execTrapDeliveryK (f : Nat) (s : State) : Result :=
  match dueDelivery s f, (fib s f).trapq with
  | some (.trapDeliveryK _), e :: _ => .next (deliverK s f e)
  | _, _ => .next s

/-- TRAP_DELIVERY_U (R359). -/
def execTrapDeliveryU (f : Nat) (s : State) : Result :=
  match dueDelivery s f, (fib s f).trapq with
  | some (.trapDeliveryU _), e :: _ => .next (deliverU s f e)
  | _, _ => .next s

/-! ## ERET (R360) -/

/-- ERET: records that are not resident are refilled on demand first. -/
def execEret (_a : Args) (s : State) : Result :=
  let f := s.cur
  let x := fib s f
  if x.hstack.isEmpty then .next (trapOpen s cRESERVED none none)
  else
    let away := maskOf fun i => (handlerLanes x).contains i && recordAway (laneAt x i)
    if away = 0 then .next (doEret s f s.ipc)
    else .next (modFib s f fun x => modLanes x away fun _ l => { l with wait := .eretRefill })

/-! ## Special registers (R187, R361 to R363) -/

/-- Access of a register as a whole: KRW or KRO (R361). -/
def kAccess (n : Nat) : Bool :=
  [0x013, 0x019, 0x01B, 0x020, 0x021, 0x022, 0x026, 0x027, 0x030, 0x031, 0x032, 0x033, 0x034, 0x036].contains n

/-- %lsw of a lane (R223). -/
def lswOf (x : Fibre) (l : Lane) : Nat := l.links.length % 64 + (if l.sblk then 64 else 0) + l.rb % 2 ^ 24 * 256 + x.lwm % 128 * 2 ^ 32

/-- The value of a special register for a lane of a fibre at a level. -/
def specialGet (s : State) (f lane : Nat) (klvl : Bool) (n : Nat) : Nat :=
  let x := fib s f
  let l := laneAt x lane
  match n with
  | 0x000 => lane
  | 0x001 => lane / 4
  | 0x002 => x.warp
  | 0x003 => x.fibre
  | 0x004 => f / 4 % 64
  | 0x005 => coreOf f % 4
  | 0x006 => quadOf (coreOf f) % 16
  | 0x007 => dieOf (coreOf f)
  | 0x008 => s.hub.pkgid.toNat
  | 0x009 => x.part
  | 0x00A => if x.ganged then 255 else 0
  | 0x00B => s.tick % 2 ^ 64
  | 0x010 => l.depth
  | 0x011 => l.fp % 2 ^ 24
  | 0x012 => lswOf x l
  | 0x013 => x.amask.toNat
  | 0x018 => x.fmode.toNat
  | 0x019 => x.prog.toNat
  | 0x01A => (if klvl then x.wdLimit else 0) + x.wdCount % 2 ^ 32 * 2 ^ 32
  | 0x01B => x.tenmax.toNat
  | 0x020 => x.spb.toNat
  | 0x021 => x.lkb.toNat
  | 0x022 => x.spw + x.lkn * 2 ^ 24
  | 0x023 => x.lpb.toNat
  | 0x024 => x.lpl.toNat
  | 0x025 => x.scratchbase.toNat
  | 0x026 => x.pgroot.toNat
  | 0x027 => (s.hub.colour.getD (dieOf (coreOf f)) 0).toNat
  | 0x030 => x.tcause.toNat
  | 0x031 => x.tpc.toNat
  | 0x032 => x.taddr.toNat
  | 0x033 => x.tinfo.toNat
  | 0x034 => x.ktvec.toNat
  | 0x035 => x.utvec.toNat
  | 0x036 => x.tdeleg.toNat
  | _ => 0

/-- A trap of the active lanes, whose address and info fields no rule gives; the other lanes go on, all of them where none is active (R29;
log 17). -/
def trapActive (s : State) (m : LaneMask) (cause : Nat) : State :=
  if m = 0 then goOn s else { trapOpen { advance s (s.grp &&& ~~~ m) with grp := m } cause none none with grp := s.grp }

/-- MOVSR (R363). -/
def execMovsr (a : Args) (s : State) : Result :=
  let f := s.cur
  let k := (me s).klvl
  let n := a.imm.toNat
  if kAccess n && !k then .next (trapActive s (active s a) cPRIVILEGE)
  else execMap a (a.ty == .b64) (fun i => specialGet s f i k n) s

/-- Write a special register of a fibre; a register or field of Access RO or KRO keeps its value (R363). -/
def specialSet (x : Fibre) (n v : Nat) : Fibre :=
  let w : BitVec 64 := BitVec.ofNat 64 v
  match n with
  | 0x012 => { x with lwm := bits v 32 7 }
  | 0x013 => checkRegang (endEmptyHandler { x with amask := BitVec.ofNat 32 v })
  | 0x018 => { x with fmode := w }
  | 0x019 => { x with prog := w }
  | 0x01A => if x.klvl then { x with wdLimit := v % 2 ^ 32 } else x
  | 0x01B => { x with tenmax := w }
  | 0x020 => { x with spb := w }
  | 0x021 => { x with lkb := w }
  | 0x022 => { x with spw := bits v 0 24, lkn := bits v 24 16 }
  | 0x026 => dropFetched { x with pgroot := w }
  | 0x031 => { x with tpc := w, tcause := x.tcause ||| 0x400 }
  | 0x034 => { x with ktvec := w }
  | 0x035 => { x with utvec := w }
  | 0x036 => { x with tdeleg := w }
  | _ => x

/-- MOVSW (R363): the value of the lowest active lane, or of the uniform source. -/
def execMovsw (a : Args) (s : State) : Result :=
  let f := s.cur
  let n := a.imm.toNat
  if kAccess n && !(me s).klvl then .next (trapActive s (active s a) cPRIVILEGE)
  else match lowest (active s a) with
    | none => .next (goOn s)
    | some i =>
      let v := srcVal s a.ty 0 a.s0 i
      if (v &&& specialRes n) ≠ 0 then .next (trapActive s (active s a) cRESERVED)
      else .next (modFib (goOn s) f fun x => specialSet x n v)

/-! ## TLB invalidation (R70 to R72) -/

/-- TLBINV: the release, and the invalidation is posted. -/
def execTlbinv (a : Args) (s : State) : Result :=
  let f := s.cur
  let ctl := scalar s a.s1
  if ctl % 4 = 3 ∨ bits ctl 2 2 ≠ 0 ∨ bits ctl 17 15 ≠ 0 then .next (trapAll s { cause := cRESERVED, addr := 0, info := ctl })
  else
    let s0 := drainAll s f
    if !drained s0 f then retry s0 4
    else
      let i : Inval :=
        { part := (fib s0 f).part, kind := ctl % 4, asid := bits ctl 4 12, va := addrVal s a.s0 (lane0 s), leafOnly := ctl.testBit 16 }
      .next (goOn (modFib (releaseFence s0 f 4) f fun x => { x with invals := x.invals ++ [i] }))

/-- TLBSYNC: the fibre waits until its invalidations are complete. -/
def execTlbsync (_a : Args) (s : State) : Result :=
  .next (addWait s s.cur { lanes := s.grp, kind := .tlbsync, pc := s.ipc + 12, since := s.tick })

/-- Every queued write of a partition's fibres has been performed (R71, point 2). -/
def partDrained (s : State) (part : Nat) : Bool := s.fibres.all fun p => p.2.part != part || p.2.sq.isEmpty

/-- The fibres of a partition that wait on a word of memory translate it again: WAITA executes again (R71, point 2). -/
def retranslate (s : State) (part : Nat) : State :=
  let far (w : Wait) : Bool := match w.kind with
    | .waita addr _ _ _ _ _ _ _ => addr.any fun p => match p with
        | some q => inMem q.1
        | none => false
    | _ => false
  { s with fibres := s.fibres.map fun p => if p.2.part = part then (p.1, { p.2 with waits := p.2.waits.filter fun w => !far w }) else p }

/-- The entries that invalidations name leave the TLBs and walk caches. -/
def applyInvals (s : State) (l : List Inval) : State :=
  { s with tlb := s.tlb.filter fun e => !l.any fun i => tlbInvalidates i e, walks := s.walks.filter fun e => !l.any fun i => walkInvalidates i e }

/-- The wait of a fibre in TLBSYNC. -/
def tlbsyncWait (x : Fibre) : Option Wait := findWait x fun k => k == .tlbsync

/-- TLBSYNC_COMPLETE (R71): a release at .pkg. -/
def execTlbsyncComplete (f : Nat) (s : State) : Result :=
  match tlbsyncWait (fib s f) with
  | some w =>
    let part := (fib s f).part
    if partDrained s part then
      let s1 := retranslate (applyInvals s (fib s f).invals) part
      .next (finishWait (releaseFence (modFib s1 f fun x => { x with invals := [] }) f 4) f w)
    else .next s
  | none => .next s

/-- STAGE2_INVALIDATE (R70): with the effect of TLBINV and TLBSYNC for the partition, at both stages. -/
def execStage2Invalidate (part : Nat) (s : State) : Result :=
  .next (if partDrained s part then
      retranslate { s with tlb := s.tlb.filter fun e => e.part != part, walks := s.walks.filter fun e => e.part != part } part
    else s)

/-! ## Stage-2 faults (R66) -/

/-- STAGE2_FAULT_SERVICE: the lanes replay, or the fault enters the trap queue. -/
def execStage2FaultService (index : Nat) (repaired : Bool) (s : State) : Result :=
  match s.s2held[index]? with
  | some h =>
    let s1 := { s with s2held := s.s2held.take index ++ s.s2held.drop (index + 1) }
    .next (modFib s1 h.fib fun x =>
      let y := { x with stopped := x.stopped &&& ~~~ h.entry.lmask }
      if repaired then y else queueTrap y h.entry)
  | none => .next s

/-! ## HALT (R372) -/

/-- An event that ends a HALT has happened. -/
def haltOver (s : State) (f : Nat) (deadline : Option Nat) : Bool :=
  let x := fib s f
  !x.trapq.isEmpty || (s.hub.batches.any fun b => b.part == x.part && b.die == dieOf (coreOf f) && b.state == 0)
    || (match deadline with
        | some t => decide (t ≤ s.tick)
        | none => false)

/-- HALT. -/
def execHalt (a : Args) (s : State) : Result :=
  let f := s.cur
  let dl := match a.s0 with
    | .reg .zero _ _ => none
    | o => some (scalar64 s o)
  if haltOver s f dl then .next (goOn (yieldPoint s f)) else .next (beginWait s s.grp (.halt dl))
where
  /-- The 64-bit value of the S0 pair. -/
  scalar64 (s : State) (o : Opnd) : Nat := addrVal s o (lane0 s)

/-- The wait of a fibre in HALT, with its deadline. -/
def haltWait (x : Fibre) : Option (Wait × Option Nat) :=
  x.waits.findSome? fun w => match w.kind with
    | .halt d => some (w, d)
    | _ => none

/-- HALT_WAKE. -/
def execHaltWake (f : Nat) (s : State) : Result :=
  match haltWait (fib s f) with
  | some (w, d) => if haltOver s f d then .next (finishWait s f w) else .next s
  | none => .next s

end Sys2Proof.Machine
end

