-- ==== Sys2Proof/Machine/Agents.lean ====
section
/-! DEFINITION. The choice of the agent that moves (log 1): the head of the agenda, else a fixed policy; and what ends a step. -/

namespace Sys2Proof.Machine

/-! ## What is due -/

/-- An event where a test holds. -/
def dueIf (b : Bool) (i : Instr) : List Instr := if b then [i] else []

/-- What a fibre's waits make due. -/
def dueWaits (s : State) (f : Nat) : List Instr :=
  let x := fib s f
  dueIf ((haltWait x).any fun p => haltOver s f p.2) (.haltWake f)
    ++ dueIf (x.waits.any fun w => match w.kind with
        | .fence _ _ _ => true
        | _ => false) (.fenceComplete f)
    ++ (match waitaOf x with
        | some w => (List.range 32).flatMap fun i => dueIf (waitaWakes s f i w || waitaStirred s i w) (.waitaWake f i)
            ++ dueIf (waitaExpired s i w) (.waitaTimeout f i)
        | none => [])
    ++ dueIf (tacqWait s f).isSome (.tacqGrant f)
    ++ dueIf ((barwaitOf x).any barWoken) (.barwaitWake f)
    ++ (match wwaitOf x with
        | some w => dueIf (wwaitWoken w) (.wwaitWake f) ++ dueIf (wwaitExpired s w) (.wwaitTimeout f)
        | none => [])
    ++ dueIf (replied s f).isSome (.svcReply f)
    ++ dueIf ((tlbsyncWait x).isSome && partDrained s x.part) (.tlbsyncComplete f)
    ++ dueIf (barDue s f).isSome (.barPhaseComplete f)
    ++ dueIf (!(joinsDone x).isEmpty || (qfenceWait x).isSome) (.qfenceJoinComplete f)

/-- What the head of a queue makes due. -/
def dueQueue (s : State) (f q : Nat) : List Instr :=
  match headEntry s f q with
  | some e => match e.kind with
    | .copy _ _ => [.winchChunk f q]
    | .coll _ _ _ => [.collectiveChunk f q []]
    | .flag _ _ _ _ => [.flagEntryWrite f q]
    | .join _ => []
  | none => []

/-- A frame transfer of a lane; the transfers of a frozen fibre stay as they are (R242, R358). -/
def dueTransfer (s : State) (f lane : Nat) : List Instr :=
  if (fib s f).frozen then []
  else match (laneAt (fib s f) lane).wait with
  | .callSpill _ _ | .trapSpill _ => [.ballastDemandSpill f lane]
  | .retRefill | .eretRefill => [.ballastDemandRefill f lane]
  | .trapSpilled _ => []
  | .none => dueIf (spillDue s f lane) (.ballastBackgroundSpill f lane)

/-- What a fibre makes due. -/
def dueFibre (s : State) (f : Nat) : List Instr :=
  (match dueDelivery s f with
    | some i => [i]
    | none => [])
    ++ dueWaits s f ++ dueIf (!(fib s f).sq.isEmpty) (.storeQueueDrain f) ++ ((List.range 4).flatMap (dueQueue s f))
    ++ (List.range 32).flatMap (dueTransfer s f)

/-- What a core's holder table makes due. -/
def dueHolders (s : State) (core : Nat) : List Instr :=
  (holderTable s core).flatMap fun p => dueIf (deadlineDue s core p.1) (.pinnedDeadline core p.1) ++ dueIf (recallDue s core p.1) (.holderSurrender core p.1)

/-- The cores on which the next work of a partition is placed. -/
def workCores (s : State) (w : Work) : List Nat :=
  match w with
  | .restore i => match s.restores[i]? with
    | some r => (restoreCores s r).take 1
    | none => []
  | .group r => (groupCores s r).take 1
  | .head l => (headCores s l).getD []

/-- What the scheduler makes due for a partition. -/
def dueWork (s : State) (part : Nat) : List Instr :=
  match stuckHead s part, nextWork s part with
  | some _, _ => [.workgroupPlace part []]
  | none, some w => [.workgroupPlace part (workCores s w)]
  | none, none => []

/-- What a sub-core makes due. -/
def dueSub (s : State) (u : Nat) : List Instr :=
  dueIf (exchangeDue s u) (.slotExchange u)
    ++ (if tileDemand s u then match oldestParked s u with
        | some k => [.pinnedTileEvict u k]
        | none => []
      else [])

/-- Everything that is due without any outside cause. -/
def dueEvents (s : State) : List Instr :=
  s.fibres.flatMap (fun p => dueFibre s p.1) ++ s.holders.flatMap (fun p => dueHolders s p.1)
    ++ s.slots.flatMap (fun p => dueIf (fbarFull s p.1) (.fbarPhaseComplete p.1))
    ++ (s.slots.map fun p => p.1 / 16).eraseDups.flatMap (dueSub s)
    ++ s.hub.parts.flatMap (fun p => dueWork s p.1)
    ++ s.hub.launches.flatMap (fun l => dueIf (launchOver s l) (.launchComplete l.part l.lid))
    ++ (List.range 4).flatMap (fun d => dueIf (nextServed s d).isSome (.serviceDispatch d))
    ++ (List.range 2).flatMap (fun p => dueIf (!(portAt s p).flights.isEmpty) (.flushCompletion p))
    ++ s.hub.tests.map fun p => .selfTest p true false

/-- The operands that fibres wait for, each by a lane that waits. -/
def dueOperands (s : State) : List Move :=
  s.fibres.flatMap fun p => (p.2.opWaits.filter fun w => !w.back).filterMap fun w => (lowest w.lanes).map (.operandBack p.1)

/-- A relaxed host write that has arrived and is not performed. -/
def inboundDue (s : State) : Option Nat := (List.range 2).find? fun p => !(portAt s p).inbound.isEmpty

/-- A fibre whose loads have data to return (R136). -/
def lateDue (s : State) : Option Nat := (s.fibres.find? fun p => !p.2.late.isEmpty).map (·.1)

/-- What moves when no sub-core issues: a due event or an operand's return in turn, the return of a load's data, a host write, the boot, the
passing of time. -/
def policyEvent (s : State) : Move :=
  let l := (dueEvents s).map .event ++ dueOperands s
  match l[s.beat / 2 % max 1 l.length]?, lateDue s, inboundDue s with
  | some m, _, _ => m
  | none, some f, _ => .windowReturn f
  | none, none, some p => .hostVisible p (portAt s p).relaxed.length
  | none, none, none => if s.hub.boot < 6 then .event (.coldBoot s.hub.identity s.hub.firmware) else .tick 1

/-- The move the agenda or the policy gives, and the state without it: the sub-cores and the due events take turns, so that each
comes to move. -/
def chooseMove (s : State) : Move × State :=
  match s.agenda with
  | m :: r => (m, { s with agenda := r })
  | [] =>
    if s.beat % 2 = 0 then
      match nextSub s with
      | some u => (.issue u, s)
      | none => (policyEvent s, s)
    else (policyEvent s, s)

/-- Remove element `i` of a list. -/
def dropAt {α : Type} (i : Nat) (l : List α) : List α := l.take i ++ l.drop (i + 1)

/-- A relaxed write that a port has accepted is made visible by the host, or, past those, a relaxed host write that has arrived is
performed: each in any order (R158, R161). -/
def makeVisible (s : State) (port i : Nat) : State :=
  let x := portAt s port
  match x.relaxed[i]?, x.inbound[i - x.relaxed.length]? with
  | some w, _ => modPort (showRelaxed port s w) port fun y => { y with relaxed := y.relaxed.filter fun v => v.num != w.num }
  | none, some w =>
    if hostWaits s w.1 w.2.length true then s
    else modPort (hostStore s port w.1 false w.2) port fun y => { y with inbound := dropAt (i - x.relaxed.length) y.inbound }
  | none, none => s

/-- What a self-test of an error at a location covers: the core whose storage it is, or the row of memory (R374). -/
def testPlaceOf (loc : Nat) : TestPlace :=
  if 2 ^ 54 ≤ loc then .coreBank ((loc - 2 ^ 54) / 2 ^ 19)
  else if 2 ^ 53 ≤ loc then .coreBank ((loc - 2 ^ 53) / 2 ^ 20)
  else if 2 ^ 52 ≤ loc then .coreBank ((loc - 2 ^ 52) / 2 ^ 20)
  else .dramRow loc

/-- A word of a cache is found uncorrectable where the cache holds its line: in an L1, or in the L2 (R373). -/
def upsetCached (s : State) (loc : Nat) (l1 : Bool) : State :=
  match SMap.get 0 s.mem.tag (loc / 128), FMap.find s.mem.copies (loc / 128), l1 with
  | 0, _, _ | _, none, true => s
  | _, c, _ =>
    let place := match l1, c with
      | true, some (_, core :: _) => TestPlace.coreBank core
      | _, _ => TestPlace.l2Bank (homeDie loc) 0
    dueTest (irq (logError { s with mem := { s.mem with poison := NSet.add s.mem.poison (loc / 8),
                                                        poisonBy := SMap.set 0 s.mem.poisonBy (loc / 8) (if l1 then 3 else 2) } }
      (.uncorrected loc)) 5 (homeDie loc)) place

/-- A word of memory or of a core's storage is found uncorrectable (R373). -/
def upsetWord (s : State) (loc : Nat) : State :=
  dueTest (irq (logError { s with mem := { s.mem with poison := NSet.add s.mem.poison (loc / 8), poisonBy := SMap.set 0 s.mem.poisonBy (loc / 8) 0 } }
    (.uncorrected loc)) 5 (homeDie loc)) (testPlaceOf loc)

/-- A register-file word whose parity is wrong is restored from its duplicate: no value changes, its dirty bit is set (R235 to R237). -/
def repairWord (s : State) (key : Nat) : State :=
  if s.ringPoison.contains key then s
  else
    let u := key / 8192 / 32
    dueTest (irq (logError { s with ringDirty := NSet.add s.ringDirty (u * 8192 + key % 8192) } (.correctable key)) 5 (u / 256)) (.coreBank (u / 4))

/-- A parity error without a duplicate is found in storage of a core: its bank is to be tested (R236). -/
def upsetBank (s : State) (core : Nat) : State := dueTest s (.coreBank core)

/-- An error that the code corrects (R373, R374). -/
def correctWord (s : State) (die place : Nat) : State := dueTest (irq (logError s (.correctable place)) 5 die) (testPlaceOf place)

/-- The data of the oldest late load of a fibre return to one register of one lane (R136; log 49). -/
def returnLate (s : State) (f : Nat) : State :=
  match (fib s f).late with
  | e :: r => ringSet (modFib s f fun x => { x with late := r }) f e.1 (windowWord s f e.2.1) e.2.2
  | [] => s

/-- A port trains, with CXL.cache or without: while the boot trains the ports, or after it has failed (R162, R378; log 7). -/
def trainPort (s : State) (port : Nat) (on : Bool) : State :=
  if s.hub.boot = 5 ∨ (portAt s port).failed then modPort s port fun x => { x with cxl := on } else s

/-- The pod configuration, which must name the package, is set before programs run (R146; log 7). -/
def setPod (s : State) (pkgid : BitVec 16) (pod : List Nat) : State :=
  if s.hub.boot < 6 ∧ !bootStopped s ∧ pod.contains pkgid.toNat then { s with hub := { s.hub with pkgid := pkgid, pod := pod } } else s

/-- The partition plan and the device kernel that the boot takes are stored: a plan that can be built; a boot that has stopped takes neither
(R8, R13, R14; log 26). -/
def storePlan (s : State) (m : Option (FMap Part)) : State := if bootStopped s || !m.all planOk then s else { s with hub := { s.hub with plan := m } }
def storeKernel (s : State) (k : Option Kernel) : State :=
  if bootStopped s || !k.all (fun k => (k.root.toNat &&& specialRes 0x026) == 0) then s else { s with hub := { s.hub with kernel := k } }

/-- A link to another package of the pod comes up or goes down (R157, R180). -/
def setLink (s : State) (pkg : Nat) (up : Bool) : State :=
  { s with hub := { s.hub with unreached := if up then NSet.del s.hub.unreached pkg else NSet.add s.hub.unreached pkg } }

/-- Carry out a move as far as it runs no instruction. An event is a row of the table without an encoding; an instruction is
never an event. A stopped package issues nothing (R10). -/
def plan (s0 : State) : Planned :=
  let m := chooseMove s0
  let s := m.2
  match m.1 with
  | .event i => if (opArgs i).isNone then .run i s else .done s
  | .issue u => if s.hub.stopped then .done s else issueAt s u
  | .hostVisible p i => .done (makeVisible s p i)
  | .tlbDrop i => .done { s with tlb := dropAt i s.tlb }
  | .walkDrop i => .done { s with walks := dropAt i s.walks }
  | .constDrop c => .done { s with mem := { s.mem with ccache := s.mem.ccache.filter fun p => constCore p.1 != c } }
  | .upsetRing k => .done (upsetBank { s with ringPoison := NSet.add s.ringPoison k } (k / 8192 / 32 / 4))
  | .upsetReg f c => .done (upsetBank (modFib s f fun x => { x with poison := NSet.add x.poison c }) (coreOf f))
  | .upsetMem l => .done (upsetWord s l)
  | .upsetCache l l1 => .done (upsetCached s l l1)
  | .windowReturn f => .done (returnLate s f)
  | .cxlTrain p on => .done (trainPort s p on)
  | .joinPod k pod => .done (setPod s k pod)
  | .storePlan m => .done (storePlan s m)
  | .storeKernel k => .done (storeKernel s k)
  | .corrected d p => .done (correctWord s d p)
  | .repaired k => .done (repairWord s k)
  | .tick n => .done { s with tick := s.tick + n }
  | .hostAtomic p a n op x e => .done (hostAtomic s p a n op x e)
  | .attachMem p n plain => .done (attachMem s p n plain)
  | .linkUp k up => .done (setLink s k up)
  | .linkRefuse n => .done { s with hub := { s.hub with refused := s.hub.refused ++ [n] } }
  | .irqIdentity src c file i => .done (setIrqId s src c file i)
  | .trainFail p => .done (failTraining s p)
  | .operandBack f i => .done (operandBack s f i)

/-- The instruction is YIELD, whose effect YLD would only repeat. -/
def isYield (i : Instr) : Bool := match i with
  | .yield _ => true
  | _ => false

/-- An attempt of a group that could not issue: what the fetch and the issue had taken from the fibre and charged is given back, and the
attempt counts neither as an issue nor as a turn (R192, R205, R341, R345); `s0` is the state before it. -/
def undoIssue (s0 s : State) (f : Nat) : State :=
  let x0 := fib s0 f
  modFib { undoCharge s0 s f with stall := 0, lastSlot := s0.lastSlot } f fun x =>
    { x with fetched := x0.fetched, opWaits := x0.opWaits, wdCount := x0.wdCount, again := x0.again, ganged := x0.ganged, lastSlice := x0.lastSlice }

/-- What follows an instruction that was run: YLD where it has issued, else the hold; and the pass of a slot whose fibre is no longer ready
(R31, R192, R340). -/
def afterIssue (s0 : State) (i : Instr) (f : Nat) (s : State) : State :=
  match opArgs i with
  | some (_, a) =>
    let s1 := if s.stall = 0 then clearTried (if a.yld && !isYield i then doYield s f else s) (subOf f)
      else heldIssue (noteTried (undoIssue s0 s f) f s.grp) f a.sos (s.stall == 2)
    settleSlot s1 (slotOf f)
  | none => { s with stall := 0 }

/-- Time passes: a step takes a number of clocks that the spec does not fix (log 3). -/
def passTime (s0 : State) : State :=
  let s := settleUnits (settleWords (settleNotices (settleFaults (settleFull (observeFlags s0)))))
  trackSlots { s with tick := s.tick + Config.clocks s.free, free := s.free + 1, beat := s.beat + 1 }

/-- The fibre place at which an instruction is put for the host's question. -/
def probeFibre : Fibre :=
  { Fibre.start 0x1000 with klvl := true, part := 0, fetched := [], spw := 4096, lkn := 64, wg := 0, lid := 1 }

/-- The slot of that fibre. -/
def probeSlot : Slot :=
  { cur := 0, nfib := 1, win := 32, ringBase := 0, ringLen := 128, quads := 24, active := true, readySince := none,
    eligibleSince := none, wgKey := wgKey 0 1 0 }

/-- A resident fibre at place 0 whose slices hold the instruction as fetched, at the PC it issues next (log 16). -/
def placeWord (s : State) (w : IWord) : State :=
  let x := { probeFibre with fetched := (List.range 8).map fun k => (k, [((0x1000 : BitVec 64), w)]) }
  { s with agenda := [.issue 0], fibres := FMap.put s.fibres 0 x, slots := FMap.put s.slots 0 probeSlot,
           hub := { s.hub with stopped := false } }

end Sys2Proof.Machine
end

