-- ==== Sys2Proof/Machine/Integer.lean ====
section
/-! DEFINITION. Integer, logic, shift, bit-field, compare, select, move, address and predicate instructions (spec/10). -/

namespace Sys2Proof.Machine

/-! ## Integer arithmetic (R249, R250) -/

/-- The integer a lane's source holds, before any clamp. -/
def intSrc (s : State) (a : Args) (n : Nat) (lane : Nat) : Int :=
  intOf a.ty (match n with
    | 0 => srcVal s a.ty 0 a.s0 lane
    | 1 => src1 s a a.ty lane
    | _ => srcVal s a.ty 0 a.s2 lane)

/-- An integer instruction: the exact value of each lane through Dst. -/
def execInt (a : Args) (x : Int → Int → Int → Int) (s : State) : Result :=
  execMap a (tyIs64 a.ty) (fun i => intResult a.ty a.d.clamp (x (intSrc s a 0 i) (intSrc s a 1 i) (intSrc s a 2 i))) s

/-- IADD (R249). -/
def execIadd (a : Args) (s : State) : Result := execInt a (fun x y _ => x + y) s
/-- ISUB (R249). -/
def execIsub (a : Args) (s : State) : Result := execInt a (fun x y _ => x - y) s
/-- IMUL (R249). -/
def execImul (a : Args) (s : State) : Result := execInt a (fun x y _ => x * y) s
/-- IMAD (R249). -/
def execImad (a : Args) (s : State) : Result := execInt a (fun x y z => x * y + z) s
/-- IMULHI: the high half of the exact product (R249). -/
def execImulhi (a : Args) (s : State) : Result :=
  execInt a (fun x y _ => (x * y) / ((2 ^ tyWidth a.ty : Nat) : Int)) s
/-- IMIN (R249). -/
def execImin (a : Args) (s : State) : Result := execInt a (fun x y _ => min x y) s
/-- IMAX (R249). -/
def execImax (a : Args) (s : State) : Result := execInt a (fun x y _ => max x y) s
/-- IABS (R249). -/
def execIabs (a : Args) (s : State) : Result := execInt a (fun x _ _ => ((x.natAbs : Nat) : Int)) s

/-- Quotient and remainder of IDIV as bits of the type (R250). -/
def idivResult (t : Ty) (clamp : Bool) (a b : Int) : Nat × Nat :=
  let w := tyWidth t
  if b = 0 then (2 ^ w - 1, wrap w a)
  else if tySigned t = true ∧ a = minValue t ∧ b = -1 then (wrap w (if clamp then maxValue t else minValue t), 0)
  else (intResult t clamp (a.tdiv b), wrap w (a.tmod b))

/-- IDIV: the quotient through D, then the remainder through S3 (R24, R250). -/
def execIdiv (a : Args) (s : State) : Result :=
  let m := active s a
  let r (i : Nat) := idivResult a.ty a.d.clamp (intSrc s a 0 i) (intSrc s a 1 i)
  let s1 := writeOpnd s m a.d.opnd (tyIs64 a.ty) fun i => (r i).1
  .next (goOn (writeQuiet s1 m a.s3 (tyIs64 a.ty) fun i => (r i).2))

/-! ## Logic and shifts (R251 to R255) -/

/-- A two-source instruction on the bits of its type. -/
def execBits (a : Args) (x : Nat → Nat → Nat) (s : State) : Result :=
  execMap a (tyIs64 a.ty) (fun i => x (srcVal s a.ty 0 a.s0 i) (src1 s a a.ty i)) s

/-- AND (R251). -/
def execAnd (a : Args) (s : State) : Result := execBits a (fun x y => x &&& y) s
/-- OR (R251). -/
def execOr (a : Args) (s : State) : Result := execBits a (fun x y => x ||| y) s
/-- XOR (R251). -/
def execXor (a : Args) (s : State) : Result := execBits a (fun x y => x ^^^ y) s

/-- The number whose bit k, for k below `w`, is given. -/
def ofBits (w : Nat) (p : Nat → Bool) : Nat := (List.range w).foldl (fun n k => if p k then n + 2 ^ k else n) 0

/-- One bit of a three-input table (R251, R260). -/
def lutBit (lut : Nat) (a b c : Bool) : Bool :=
  lut.testBit ((if a then 1 else 0) + (if b then 2 else 0) + (if c then 4 else 0))

/-- LOP3 (R251). -/
def execLop3 (a : Args) (s : State) : Result :=
  let lut := codeOf a.s3
  execMap a (tyIs64 a.ty) (fun i =>
    let x := srcVal s a.ty 0 a.s0 i
    let y := srcVal s a.ty 0 a.s1 i
    let z := srcVal s a.ty 0 a.s2 i
    ofBits (tyWidth a.ty) fun k => lutBit lut (x.testBit k) (y.testBit k) (z.testBit k)) s

/-- The shift left of a value of a type (R252). -/
def shlResult (t : Ty) (clamp : Bool) (x n : Nat) : Nat :=
  let w := tyWidth t
  if tyIsLogical t then (if n < w then x * 2 ^ n % 2 ^ w else 0)
  else if n < w then intResult t clamp (intOf t x * ((2 ^ n : Nat) : Int))
  else if clamp = true ∧ intOf t x ≠ 0 then wrap w (if intOf t x < 0 then minValue t else maxValue t)
  else 0

/-- SHL (R252). -/
def execShl (a : Args) (s : State) : Result :=
  execMap a (tyIs64 a.ty) (fun i => shlResult a.ty a.d.clamp (srcVal s a.ty 0 a.s0 i) (count1 s a i)) s
/-- SHR (R252). -/
def execShr (a : Args) (s : State) : Result :=
  execMap a (tyIs64 a.ty) (fun i =>
    let n := count1 s a i
    if n < tyWidth a.ty then srcVal s a.ty 0 a.s0 i / 2 ^ n else 0) s
/-- SAR (R252). -/
def execSar (a : Args) (s : State) : Result :=
  execMap a (tyIs64 a.ty) (fun i =>
    let n := min (count1 s a i) (tyWidth a.ty)
    wrap (tyWidth a.ty) (intSrc s a 0 i / ((2 ^ n : Nat) : Int))) s

/-- SHF (R253). -/
def execShf (a : Args) (s : State) : Result :=
  execMap a false (fun i =>
    let v := srcVal s .b32 0 a.s1 i * 2 ^ 32 + srcVal s .b32 0 a.s0 i
    let n := min (srcVal s .n32 0 a.s2 i) 32
    if codeOf a.s3 = 0 then v * 2 ^ n % 2 ^ 64 / 2 ^ 32 else v / 2 ^ n % 2 ^ 32) s

/-- BFE of a value: position and length (R254). -/
def bfeResult (t : Ty) (x p len : Nat) : Nat :=
  let w := tyWidth t
  let l := min len w
  let fld := (intOf t x / ((2 ^ (min p w) : Nat) : Int)) % ((2 ^ l : Nat) : Int)
  if l = 0 then 0 else if tySigned t then wrap w (toSigned l fld.toNat) else fld.toNat

/-- BFE (R254). -/
def execBfe (a : Args) (s : State) : Result :=
  execMap a (tyIs64 a.ty) (fun i => bfeResult a.ty (srcVal s a.ty 0 a.s0 i) (srcVal s .n32 0 a.s1 i) (srcVal s .n32 0 a.s2 i)) s

/-- BFI: base with the low bits of insert put in at a position (R254). -/
def bfiResult (w ins base p len : Nat) : Nat :=
  ofBits w fun k => if p ≤ k ∧ k < p + min len w then ins.testBit (k - p) else base.testBit k

/-- BFI (R254). -/
def execBfi (a : Args) (s : State) : Result :=
  execMap a (tyIs64 a.ty) (fun i =>
    bfiResult (tyWidth a.ty) (srcVal s a.ty 0 a.s0 i) (srcVal s a.ty 0 a.s1 i) (srcVal s .n32 0 a.s2 i) (srcVal s .n32 0 a.s3 i)) s

/-- The number of set bits below `w`. -/
def popCount (w x : Nat) : Nat := ((List.range w).filter fun k => x.testBit k).length

/-- The zero bits above the highest set bit of a `w`-bit value. -/
def leadingZeros (w x : Nat) : Nat := if x = 0 then w else w - 1 - Nat.log2 x

/-- POPC: a 32-bit result (R255). -/
def execPopc (a : Args) (s : State) : Result := execMap a false (fun i => popCount (tyWidth a.ty) (srcVal s a.ty 0 a.s0 i)) s
/-- CLZ: a 32-bit result (R255). -/
def execClz (a : Args) (s : State) : Result := execMap a false (fun i => leadingZeros (tyWidth a.ty) (srcVal s a.ty 0 a.s0 i)) s
/-- BREV (R255). -/
def execBrev (a : Args) (s : State) : Result :=
  execMap a (tyIs64 a.ty) (fun i =>
    let x := srcVal s a.ty 0 a.s0 i
    ofBits (tyWidth a.ty) fun k => x.testBit (tyWidth a.ty - 1 - k)) s

/-! ## Compare, select, move, address (R256 to R259) -/

/-- ISETP (R256). -/
def execIsetp (a : Args) (s : State) : Result :=
  execPred a (fun i => isetpRel a.ty (srcVal s a.ty 0 a.s0 i) (src1 s a a.ty i)) s

/-- A predicate source of a lane, after its modifier (R25). -/
def predSrc (s : State) (o : Opnd) (lane : Nat) : Bool := srcVal s .pred 0 o lane == 1

/-- SEL (R257). -/
def execSel (a : Args) (s : State) : Result :=
  execMap a (tyIs64 a.ty) (fun i => if predSrc s a.s2 i then srcVal s a.ty 0 a.s0 i else srcVal s a.ty 0 a.s1 i) s
/-- MOV (R258). -/
def execMov (a : Args) (s : State) : Result := execMap a (tyIs64 a.ty) (fun i => srcVal s a.ty 0 a.s0 i) s
/-- MOVI (R258). -/
def execMovi (a : Args) (s : State) : Result := execMap a (tyIs64 a.ty) (fun _ => immVal a) s
/-- LEA (R259). -/
def execLea (a : Args) (s : State) : Result :=
  let wide := if a.ty = .s32 then Ty.s64 else Ty.n64
  execMap a true (fun i => wrap 64 ((srcVal s wide 0 a.s0 i : Int) + intOf a.ty (srcVal s a.ty 0 a.s1 i) * ((2 ^ codeOf a.s2 : Nat) : Int))) s

/-! ## Predicate moves (R260, R261) -/

/-- PLOP (R260). -/
def execPlop (a : Args) (s : State) : Result :=
  execPred a (fun i => lutBit (codeOf a.s3) (predSrc s a.s0 i) (predSrc s a.s1 i) (predSrc s a.s2 i)) s
/-- P2S (R261). -/
def execP2s (a : Args) (s : State) : Result :=
  execMap a false (fun i => ofBits 7 fun k => (SMap.get 0 (me s).preds k).getLsbD i) s
/-- S2P (R261). -/
def execS2p (a : Args) (s : State) : Result :=
  let m := active s a
  let mask := codeOf a.s1
  .next (goOn ((List.range 7).foldl (fun t k =>
    if mask.testBit k then
      (lanesOf m).foldl (fun u i => predSet u u.cur i (.p (Fin.ofNat 7 k)) ((srcVal s .b32 0 a.s0 i).testBit k)) t
    else t) s))

end Sys2Proof.Machine
end

