-- ==== Sys2Proof/Machine/CrossLane.lean ====
section
/-! DEFINITION. Cross-lane instructions: SHFL, LANEWR, VOTE, REDUX (spec/10 R262 to R266). -/

namespace Sys2Proof.Machine

/-- The source lane of SHFL for lane `i`, if it lies in the segment: mode, log2 of the width, lane operand (R263). -/
def shflSource (mode wl : Nat) (i : Nat) (l : Int) : Option Nat :=
  let w := 2 ^ wl
  let b := i - i % w
  let ln := l.toNat
  match mode with
  | 0 => some (b + ln % w)
  | 1 => some (b + (i - b + ln) % w)
  | 2 =>
    let j := (i : Int) + l
    if (b : Int) ≤ j ∧ j < ((b + w : Nat) : Int) then some j.toNat else none
  | _ => some (i ^^^ (ln % w))

/-- Mode and width of SHFL: the control word of the I form, the code of the R form (R263). -/
def shflControl (a : Args) : Nat × Nat :=
  if a.fmt = .I then (bits a.imm.toNat 6 2, bits a.imm.toNat 8 3) else (bits (codeOf a.s2) 0 2, bits (codeOf a.s2) 2 3)

/-- The lane operand of SHFL: signed in mode .sft (R263). -/
def shflLane (s : State) (a : Args) (i : Nat) : Int :=
  let mode := (shflControl a).1
  if a.fmt = .I then (if mode = 2 then toSigned 6 (a.imm.toNat % 64) else ((a.imm.toNat % 64 : Nat) : Int))
  else if mode = 2 then toSigned 32 (srcVal s .s32 0 a.s1 i)
  else ((srcVal s .n32 0 a.s1 i : Nat) : Int)

/-- SHFL (R263). -/
def execShfl (a : Args) (s : State) : Result :=
  let m := active s a
  let c := shflControl a
  let from_ (i : Nat) : Option Nat := (shflSource c.1 c.2 i (shflLane s a i)).filter fun j => m.getLsbD j
  let s1 := writeOpnd s m a.d.opnd (tyIs64 a.ty) fun i => srcVal s a.ty 0 a.s0 ((from_ i).getD i)
  .next (goOn (writePred s1 m a.s3 fun i => (from_ i).isSome))

/-- LANEWR: each targeted active lane takes the value of the highest lane that names it (R264). -/
def execLanewr (a : Args) (s : State) : Result :=
  let m := active s a
  let src (j : Nat) : Option Nat := ((lanesOf m).filter fun i => srcVal s .n32 0 a.s1 i % 32 == j).getLast?
  let hit := maskOf fun j => m.getLsbD j && (src j).isSome
  .next (goOn (writeQuiet s hit a.d.opnd (tyIs64 a.ty) fun j => srcVal s a.ty 0 a.s0 ((src j).getD j)))

/-- VOTE (R265). -/
def execVote (a : Args) (s : State) : Result :=
  let m := active s a
  let t := (lanesOf m).filter fun i => predSrc s a.s0 i
  let n := t.length
  let all := (lanesOf m).length
  match codeOf a.s1 with
  | 0 => .next (goOn (writePred s m a.d.opnd fun _ => n == all))
  | 1 => .next (goOn (writePred s m a.d.opnd fun _ => n != 0))
  | 2 => .next (goOn (writeOpnd s m a.d.opnd false fun _ => n))
  | 3 => .next (goOn (writeOpnd s m a.d.opnd false fun _ => t.foldl (fun v i => v + 2 ^ i) 0))
  | _ => .next (goOn (writePred s m a.d.opnd fun _ => n == all || n == 0))

/-- The exact combination of values by an operation of REDUX, from its identity (R266). -/
def reduxFold (t : Ty) (op : Nat) (l : List Nat) : Int :=
  match op with
  | 0 => l.foldl (fun x v => x + intOf t v) 0
  | 1 => l.foldl (fun x v => min x (intOf t v)) (maxValue t)
  | 2 => l.foldl (fun x v => max x (intOf t v)) (minValue t)
  | 3 => ((l.foldl (fun x v => x &&& v) (2 ^ tyWidth t - 1) : Nat) : Int)
  | 4 => ((l.foldl (fun x v => x ||| v) 0 : Nat) : Int)
  | _ => ((l.foldl (fun x v => x ^^^ v) 0 : Nat) : Int)

/-- The result of REDUX as bits of its type: additions through the clamp, the others in range (R266). -/
def reduxResult (t : Ty) (clamp : Bool) (op : Nat) (l : List Nat) : Nat :=
  if op = 0 then intResult t clamp (reduxFold t op l) else wrap (tyWidth t) (reduxFold t op l)

/-- REDUX, whole or as a prefix (R266). -/
def execRedux (a : Args) (s : State) : Result :=
  let m := active s a
  let c := codeOf a.s1
  let vals (p : Nat → Bool) := ((lanesOf m).filter p).map fun i => srcVal s a.ty 0 a.s0 i
  .next (goOn (writeOpnd s m a.d.opnd (tyIs64 a.ty) fun i =>
    reduxResult a.ty a.d.clamp (c % 8) (vals fun j => c < 8 || decide (j < i))))

end Sys2Proof.Machine
end

