-- ==== Sys2Proof/Machine/Fetch.lean ====
section
/-! DEFINITION. Fetch ahead of issue: INSTRUCTION_FETCH and INSTRUCTION_PREFETCH (spec/18 R405 to R408). -/

namespace Sys2Proof.Machine

/-- A slice holds a fetched instruction until it issues it; at most 16 (R405). -/
def holdFetched (s : State) (f slice : Nat) (pc : BitVec 64) (w : IWord) : State :=
  modFib s f fun x =>
    if (sliceBuf x slice).length < 16 then { x with fetched := FMap.put x.fetched slice (sliceBuf x slice ++ [(pc, w)]) } else x

/-- INSTRUCTION_FETCH (R405, R408): the instruction at a slice's selected PC, or FETCH_FAULT for the selected lanes: those of the
whole issue group where the slice is in it. It waits for a pinned tenure (R117). -/
def execInstructionFetch (f slice : Nat) (s : State) : Result :=
  let x := fib s f
  if !hasFib s f then .next s
  else match sliceSelect x (selectable x) slice with
  | none => .next s
  | some (pc, m) =>
    match fetchPieces s f pc.toNat false with
    | .ok ps =>
      if mustWait s f false ps then .next s
      else let t := fetchArrive s f false ps; .next (holdFetched t f slice pc (fetchedWord t ps))
    | .error e =>
      let m := match issueGroup (triedLanes s f) x with
        | some (g, _) => if g.slices.contains slice then g.mask else m
        | none => m
      .next (trapAll { s with cur := f, grp := m, ipc := pc } (fetchFault s f e))

/-- What a prefetch does at the home of a line of code: no access, which would take back a tenure; only the granule is classified (R83, R407). -/
def prefetchTouch (s : State) (f : Nat) (ps : List Piece) : State :=
  ps.foldl (fun t p => if p.mt = 0 ∧ inMem p.loc then touchLine t (reqOf t f 3 p.leaf) p.loc false else t) (commitPieces s f kExec true ps)

/-- A write tenure of another core stands against a prefetch, or its walk would have to wait. -/
def prefetchBarred (s : State) (f : Nat) (ps : List Piece) : Bool :=
  walksWait s f ps || ps.any fun p => inMem p.loc && !(conflicts s (coreOf f) (p.loc / 128) false).isEmpty

/-- INSTRUCTION_PREFETCH (R407): an instruction ahead of the selected PC is fetched, or its line is dropped without a fault. It is no access for
the ordering rules: where a tenure stands against it, it is not made. -/
def execInstructionPrefetch (f slice : Nat) (va : BitVec 64) (s : State) : Result :=
  if !hasFib s f ∨ va.toNat % 4 ≠ 0 ∨ 8 ≤ slice then .next s
  else match fetchPieces s f va.toNat true with
  | .ok ps =>
    if prefetchBarred s f ps then .next s
    else .next (holdFetched (prefetchTouch s f ps) f slice va (fetchedWord s ps))
  | .error e => .next (markDropped s f e.addr)

end Sys2Proof.Machine
end

