-- ==== Sys2Proof/Machine/Float.lean ====
section
/-! DEFINITION. Vector floating-point, conversion and special-function instructions (spec/12). -/

namespace Sys2Proof.Machine

/-- The mode of %fmode.RM (R275). -/
def fmodeRM (s : State) : RMode := RMode.ofCode (me s).fmode.toNat

/-- The scale of D as a power of two (R20). -/
def scaleOf (a : Args) : Int := a.d.scale.toInt

/-- An exact value through D: scale, one rounding, clamp (R26). -/
def dstFloat (s : State) (a : Args) (x : Num) : Nat :=
  roundTo (fmtOf a.ty 0) (.mode (fmodeRM s)) a.d.clamp (x.scaleBy (scaleOf a))

/-! ## Arithmetic on codes, so that packed forms compute each half as the unpacked instruction would (R39, R291) -/

/-- a + b. -/
def fAdd (s : State) (a : Args) (x y _z : Nat) : Nat :=
  dstFloat s a (sumNum (fmodeRM s) [decodeFloat a.ty 0 x, decodeFloat a.ty 0 y])
/-- a · b. -/
def fMul (s : State) (a : Args) (x y _z : Nat) : Nat :=
  dstFloat s a ((decodeFloat a.ty 0 x).mul (decodeFloat a.ty 0 y))
/-- a · b + c, rounded once. -/
def fFma (s : State) (a : Args) (x y z : Nat) : Nat :=
  dstFloat s a (sumNum (fmodeRM s) [(decodeFloat a.ty 0 x).mul (decodeFloat a.ty 0 y), decodeFloat a.ty 0 z])

/-- The clamp on an operand value: an infinity becomes the largest finite value of its sign (R26, R292). -/
def clampInf (t : Ty) (c : Nat) : Nat :=
  match decodeFloat t 0 c with
  | .inf neg => withSign (fmtOf t 0) neg (fmtOf t 0).maxCode
  | _ => c

/-- Minimum or maximum, unrounded (R292). -/
def fMinMax (isMax : Bool) (_s : State) (a : Args) (x y _z : Nat) : Nat :=
  let r := floatMinMax a.ty 0 isMax x y
  if a.d.clamp then clampInf a.ty r else r

/-- An unpacked float instruction. -/
def execFloat (op : State → Args → Nat → Nat → Nat → Nat) (a : Args) (s : State) : Result :=
  execMap a (tyIs64 a.ty) (fun i => op s a (srcVal s a.ty 0 a.s0 i) (src1 s a a.ty i) (srcVal s a.ty 0 a.s2 i)) s

/-- Element `h` of a packed source, with the modifiers on the half (R289). -/
def srcHalf (s : State) (t : Ty) (o : Opnd) (lane h : Nat) : Nat :=
  match o with
  | .reg r neg abs => applyMods t 0 neg abs (regGet s s.cur lane false r / 2 ^ (16 * h))
  | _ => 0

/-- A packed float instruction: both halves independently (R39). -/
def execPacked (op : State → Args → Nat → Nat → Nat → Nat) (a : Args) (s : State) : Result :=
  let half (i h : Nat) := op s a (srcHalf s a.ty a.s0 i h) (srcHalf s a.ty a.s1 i h) (srcHalf s a.ty a.s2 i h)
  execMap a false (fun i => half i 0 + 2 ^ 16 * half i 1) s

/-- FADD (R291). -/
def execFadd (a : Args) (s : State) : Result := execFloat fAdd a s
/-- FMUL (R291). -/
def execFmul (a : Args) (s : State) : Result := execFloat fMul a s
/-- FFMA (R291). -/
def execFfma (a : Args) (s : State) : Result := execFloat fFma a s
/-- FMIN (R292). -/
def execFmin (a : Args) (s : State) : Result := execFloat (fMinMax false) a s
/-- FMAX (R292). -/
def execFmax (a : Args) (s : State) : Result := execFloat (fMinMax true) a s
/-- FADD_PK (R39). -/
def execFaddPk (a : Args) (s : State) : Result := execPacked fAdd a s
/-- FMUL_PK (R39). -/
def execFmulPk (a : Args) (s : State) : Result := execPacked fMul a s
/-- FFMA_PK (R39). -/
def execFfmaPk (a : Args) (s : State) : Result := execPacked fFma a s
/-- FMIN_PK (R39). -/
def execFminPk (a : Args) (s : State) : Result := execPacked (fMinMax false) a s
/-- FMAX_PK (R39). -/
def execFmaxPk (a : Args) (s : State) : Result := execPacked (fMinMax true) a s

/-! ## Compare, convert, round, classify -/

/-- FSETP (R293). -/
def execFsetp (a : Args) (s : State) : Result :=
  execPred a (fun i => fsetpRel (codeOf a.s2) (decodeFloat a.ty 0 (srcVal s a.ty 0 a.s0 i)) (decodeFloat a.ty 0 (srcVal s a.ty 0 a.s1 i))) s

/-- The instruction is of the scalar form of R30. -/
def scalarForm (a : Args) : Bool := uniformOpnd a.d.opnd && uniformOpnd a.s0 && uniformOpnd a.s1 && uniformOpnd a.s2 && uniformOpnd a.s3

/-- The exact value of a source of a type, and its narrow format (R267, R272, R295). -/
def numOf (t : Ty) (nc c : Nat) : Num := if tyIsFloat t then decodeFloat t nc c else Num.ofInt (intOf t c)

/-- An integer in its register: 8- and 16-bit types extended to 32 bits (R289). -/
def placeInt (t : Ty) (x : Int) : Nat := if tyIs64 t then wrap 64 x else wrap 32 x

/-- The result of FCVT (R295). -/
def cvtResult (t : Ty) (dnc : Nat) (rd : Rounding) (clamp : Bool) (scale : Int) (x : Num) : Nat :=
  if tyIsFloat t then roundTo (fmtOf t dnc) rd clamp (x.scaleBy scale) else placeInt t (toIntType t rd x)

/-- FCVT (R294, R295). -/
def execFcvt (a : Args) (s : State) : Result :=
  let c := codeOf a.s1
  let sty := tyOf (c % 16)
  let snc := if sty = .b8 then codeOf a.s3 else 0
  let rd (i : Nat) : Rounding :=
    if c.testBit 4 then
      .stoch (srHash (BitVec.ofNat 64 (match a.s3 with
        | .reg r _ _ => regGet s s.cur i true r
        | _ => 0)) (if scalarForm a then 0 else i) 0)
    else .mode (fmodeRM s)
  execMap a (tyIs64 a.ty) (fun i =>
    cvtResult a.ty (codeOf a.s2) (rd i) a.d.clamp (scaleOf a) (numOf sty snc (srcVal s sty snc a.s0 i))) s

/-- The mode of FRND (R296). -/
def frndMode (s : State) (code : Nat) : RMode := if code = 0 then fmodeRM s else RMode.ofCode (code - 1)

/-- FRND (R296). -/
def execFrnd (a : Args) (s : State) : Result :=
  execMap a (tyIs64 a.ty) (fun i =>
    roundTo (fmtOf a.ty 0) (.mode .rne) false (roundIntegral (frndMode s (codeOf a.s1)) (decodeFloat a.ty 0 (srcVal s a.ty 0 a.s0 i)))) s

/-- FCLASS: a 32-bit mask (R297). -/
def execFclass (a : Args) (s : State) : Result :=
  let nc := codeOf a.s2
  execMap a false (fun i => classMask (fmtOf a.ty nc) (decodeFloat a.ty nc (srcVal s a.ty nc a.s0 i))) s

/-! ## Special functions (R298) -/

/-- An algebraic special function: RoundTo(TY, RNE) of the scaled value. -/
def execAlgebraic (f : Num → Num) (a : Args) (s : State) : Result :=
  execMap a (tyIs64 a.ty) (fun i =>
    roundTo (fmtOf a.ty 0) (.mode .rne) a.d.clamp ((f (decodeFloat a.ty 0 (srcVal s a.ty 0 a.s0 i))).scaleBy (scaleOf a))) s

/-- A transcendental special function. -/
def execTrans (f : Trans) (a : Args) (s : State) : Result :=
  execMap a (tyIs64 a.ty) (fun i => transTo f (fmtOf a.ty 0) a.d.clamp (scaleOf a) (decodeFloat a.ty 0 (srcVal s a.ty 0 a.s0 i))) s

/-- RCP (R298). -/
def execRcp (a : Args) (s : State) : Result := execAlgebraic rcpVal a s
/-- RSQ (R298). -/
def execRsq (a : Args) (s : State) : Result := execAlgebraic rsqVal a s
/-- SQRT (R298). -/
def execSqrt (a : Args) (s : State) : Result := execAlgebraic sqrtVal a s
/-- EX2 (R298). -/
def execEx2 (a : Args) (s : State) : Result := execTrans .ex2 a s
/-- LG2 (R298). -/
def execLg2 (a : Args) (s : State) : Result := execTrans .lg2 a s
/-- SIN (R298). -/
def execSin (a : Args) (s : State) : Result := execTrans .sin a s
/-- COS (R298). -/
def execCos (a : Args) (s : State) : Result := execTrans .cos a s
/-- TANH (R298). -/
def execTanh (a : Args) (s : State) : Result := execTrans .tanh a s

end Sys2Proof.Machine
end

