-- ==== Sys2Proof/Machine/Dispatch.lean ====
section
/-! DEFINITION. The dispatch: one arm per constructor of Instr. -/

namespace Sys2Proof.Machine

/-- The effect of an instruction or event on the state. -/
def exec (i : Instr) (s : State) : Host.Outcome State Fault Refusal :=
  match i with
  | .nop a => Sys2Proof.Machine.execNop a s
  | .bra a => Sys2Proof.Machine.execBra a s
  | .brx a => Sys2Proof.Machine.execBrx a s
  | .call a => Sys2Proof.Machine.execCall a s
  | .callx a => Sys2Proof.Machine.execCallx a s
  | .ret a => Sys2Proof.Machine.execRet a s
  | .exit a => Sys2Proof.Machine.execExit a s
  | .yield a => Sys2Proof.Machine.execYield a s
  | .regang a => Sys2Proof.Machine.execRegang a s
  | .trap a => Sys2Proof.Machine.execTrap a s
  | .bkpt a => Sys2Proof.Machine.execBkpt a s
  | .ipref a => Sys2Proof.Machine.execIpref a s
  | .ifence a => Sys2Proof.Machine.execIfence a s
  | .iadd a => Sys2Proof.Machine.execIadd a s
  | .isub a => Sys2Proof.Machine.execIsub a s
  | .imul a => Sys2Proof.Machine.execImul a s
  | .imad a => Sys2Proof.Machine.execImad a s
  | .imulhi a => Sys2Proof.Machine.execImulhi a s
  | .idiv a => Sys2Proof.Machine.execIdiv a s
  | .imin a => Sys2Proof.Machine.execImin a s
  | .imax a => Sys2Proof.Machine.execImax a s
  | .iabs a => Sys2Proof.Machine.execIabs a s
  | .and a => Sys2Proof.Machine.execAnd a s
  | .or a => Sys2Proof.Machine.execOr a s
  | .xor a => Sys2Proof.Machine.execXor a s
  | .lop3 a => Sys2Proof.Machine.execLop3 a s
  | .shl a => Sys2Proof.Machine.execShl a s
  | .shr a => Sys2Proof.Machine.execShr a s
  | .sar a => Sys2Proof.Machine.execSar a s
  | .shf a => Sys2Proof.Machine.execShf a s
  | .bfe a => Sys2Proof.Machine.execBfe a s
  | .bfi a => Sys2Proof.Machine.execBfi a s
  | .popc a => Sys2Proof.Machine.execPopc a s
  | .clz a => Sys2Proof.Machine.execClz a s
  | .brev a => Sys2Proof.Machine.execBrev a s
  | .isetp a => Sys2Proof.Machine.execIsetp a s
  | .sel a => Sys2Proof.Machine.execSel a s
  | .mov a => Sys2Proof.Machine.execMov a s
  | .movi a => Sys2Proof.Machine.execMovi a s
  | .lea a => Sys2Proof.Machine.execLea a s
  | .plop a => Sys2Proof.Machine.execPlop a s
  | .p2s a => Sys2Proof.Machine.execP2s a s
  | .s2p a => Sys2Proof.Machine.execS2p a s
  | .shfl a => Sys2Proof.Machine.execShfl a s
  | .lanewr a => Sys2Proof.Machine.execLanewr a s
  | .vote a => Sys2Proof.Machine.execVote a s
  | .redux a => Sys2Proof.Machine.execRedux a s
  | .fadd a => Sys2Proof.Machine.execFadd a s
  | .fmul a => Sys2Proof.Machine.execFmul a s
  | .ffma a => Sys2Proof.Machine.execFfma a s
  | .fmin a => Sys2Proof.Machine.execFmin a s
  | .fmax a => Sys2Proof.Machine.execFmax a s
  | .faddPk a => Sys2Proof.Machine.execFaddPk a s
  | .fmulPk a => Sys2Proof.Machine.execFmulPk a s
  | .ffmaPk a => Sys2Proof.Machine.execFfmaPk a s
  | .fminPk a => Sys2Proof.Machine.execFminPk a s
  | .fmaxPk a => Sys2Proof.Machine.execFmaxPk a s
  | .fsetp a => Sys2Proof.Machine.execFsetp a s
  | .fcvt a => Sys2Proof.Machine.execFcvt a s
  | .frnd a => Sys2Proof.Machine.execFrnd a s
  | .fclass a => Sys2Proof.Machine.execFclass a s
  | .rcp a => Sys2Proof.Machine.execRcp a s
  | .rsq a => Sys2Proof.Machine.execRsq a s
  | .sqrt a => Sys2Proof.Machine.execSqrt a s
  | .ex2 a => Sys2Proof.Machine.execEx2 a s
  | .lg2 a => Sys2Proof.Machine.execLg2 a s
  | .sin a => Sys2Proof.Machine.execSin a s
  | .cos a => Sys2Proof.Machine.execCos a s
  | .tanh a => Sys2Proof.Machine.execTanh a s
  | .ld a => Sys2Proof.Machine.execLd a s
  | .st a => Sys2Proof.Machine.execSt a s
  | .ldx a => Sys2Proof.Machine.execLdx a s
  | .stx a => Sys2Proof.Machine.execStx a s
  | .atomAdd a => Sys2Proof.Machine.execAtomAdd a s
  | .atomMin a => Sys2Proof.Machine.execAtomMin a s
  | .atomMax a => Sys2Proof.Machine.execAtomMax a s
  | .atomAnd a => Sys2Proof.Machine.execAtomAnd a s
  | .atomOr a => Sys2Proof.Machine.execAtomOr a s
  | .atomXor a => Sys2Proof.Machine.execAtomXor a s
  | .atomExch a => Sys2Proof.Machine.execAtomExch a s
  | .acas a => Sys2Proof.Machine.execAcas a s
  | .redAdd a => Sys2Proof.Machine.execRedAdd a s
  | .redMin a => Sys2Proof.Machine.execRedMin a s
  | .redMax a => Sys2Proof.Machine.execRedMax a s
  | .redAnd a => Sys2Proof.Machine.execRedAnd a s
  | .redOr a => Sys2Proof.Machine.execRedOr a s
  | .redXor a => Sys2Proof.Machine.execRedXor a s
  | .storeQueueDrain f => Sys2Proof.Machine.execStoreQueueDrain f s
  | .fence a => Sys2Proof.Machine.execFence a s
  | .fenceComplete f => Sys2Proof.Machine.execFenceComplete f s
  | .waita a => Sys2Proof.Machine.execWaita a s
  | .waitaWake f lane => Sys2Proof.Machine.execWaitaWake f lane s
  | .waitaTimeout f lane => Sys2Proof.Machine.execWaitaTimeout f lane s
  | .pref a => Sys2Proof.Machine.execPref a s
  | .cctlWb a => Sys2Proof.Machine.execCctlWb a s
  | .cctlWbi a => Sys2Proof.Machine.execCctlWbi a s
  | .cctlIvc a => Sys2Proof.Machine.execCctlIvc a s
  | .cctlUnclass a => Sys2Proof.Machine.execCctlUnclass a s
  | .topen a => Sys2Proof.Machine.execTopen a s
  | .tacq a => Sys2Proof.Machine.execTacq a s
  | .tacqGrant f => Sys2Proof.Machine.execTacqGrant f s
  | .trel a => Sys2Proof.Machine.execTrel a s
  | .tsplit a => Sys2Proof.Machine.execTsplit a s
  | .tmerge a => Sys2Proof.Machine.execTmerge a s
  | .tclose a => Sys2Proof.Machine.execTclose a s
  | .tquery a => Sys2Proof.Machine.execTquery a s
  | .holderSurrender core entry => Sys2Proof.Machine.execHolderSurrender core entry s
  | .pinnedDeadline core entry => Sys2Proof.Machine.execPinnedDeadline core entry s
  | .xcopy a => Sys2Proof.Machine.execXcopy a s
  | .xgath a => Sys2Proof.Machine.execXgath a s
  | .xscat a => Sys2Proof.Machine.execXscat a s
  | .xcoll a => Sys2Proof.Machine.execXcoll a s
  | .xflag a => Sys2Proof.Machine.execXflag a s
  | .qfence a => Sys2Proof.Machine.execQfence a s
  | .qfenceJoinComplete f => Sys2Proof.Machine.execQfenceJoinComplete f s
  | .xresume a => Sys2Proof.Machine.execXresume a s
  | .winchChunk f q => Sys2Proof.Machine.execWinchChunk f q s
  | .flagEntryWrite f q => Sys2Proof.Machine.execFlagEntryWrite f q s
  | .collectiveChunk f q ranks => Sys2Proof.Machine.execCollectiveChunk f q ranks s
  | .linkAccess who root klvl va len data release => Sys2Proof.Machine.execLinkAccess who root klvl va len data release s
  | .barinit a => Sys2Proof.Machine.execBarinit a s
  | .barexp a => Sys2Proof.Machine.execBarexp a s
  | .bararr a => Sys2Proof.Machine.execBararr a s
  | .barwait a => Sys2Proof.Machine.execBarwait a s
  | .barwaitWake f => Sys2Proof.Machine.execBarwaitWake f s
  | .orsv a => Sys2Proof.Machine.execOrsv a s
  | .orfree a => Sys2Proof.Machine.execOrfree a s
  | .obld a => Sys2Proof.Machine.execObld a s
  | .obst a => Sys2Proof.Machine.execObst a s
  | .mma a => Sys2Proof.Machine.execMma a s
  | .mmaResc a => Sys2Proof.Machine.execMmaResc a s
  | .msmx a => Sys2Proof.Machine.execMsmx a s
  | .mzero a => Sys2Proof.Machine.execMzero a s
  | .mld a => Sys2Proof.Machine.execMld a s
  | .mst a => Sys2Proof.Machine.execMst a s
  | .mread a => Sys2Proof.Machine.execMread a s
  | .mpin a => Sys2Proof.Machine.execMpin a s
  | .munpin a => Sys2Proof.Machine.execMunpin a s
  | .munpinDrop a => Sys2Proof.Machine.execMunpinDrop a s
  | .mdelta a => Sys2Proof.Machine.execMdelta a s
  | .mdeltaC a => Sys2Proof.Machine.execMdeltaC a s
  | .mquery a => Sys2Proof.Machine.execMquery a s
  | .mevict a => Sys2Proof.Machine.execMevict a s
  | .mevictDet a => Sys2Proof.Machine.execMevictDet a s
  | .pinnedTileEvict u entry => Sys2Proof.Machine.execPinnedTileEvict u entry s
  | .bar a => Sys2Proof.Machine.execBar a s
  | .bars a => Sys2Proof.Machine.execBars a s
  | .barPhaseComplete f => Sys2Proof.Machine.execBarPhaseComplete f s
  | .fbar a => Sys2Proof.Machine.execFbar a s
  | .fbarPhaseComplete slot => Sys2Proof.Machine.execFbarPhaseComplete slot s
  | .spawn a => Sys2Proof.Machine.execSpawn a s
  | .spoolDispatch die entry lid core => Sys2Proof.Machine.execSpoolDispatch die entry lid core s
  | .launch a => Sys2Proof.Machine.execLaunch a s
  | .workgroupPlace part cores => Sys2Proof.Machine.execWorkgroupPlace part cores s
  | .launchComplete part lid => Sys2Proof.Machine.execLaunchComplete part lid s
  | .slotExchange u => Sys2Proof.Machine.execSlotExchange u s
  | .watchdog f => Sys2Proof.Machine.execWatchdog f s
  | .ballastBackgroundSpill f lane => Sys2Proof.Machine.execBallastBackgroundSpill f lane s
  | .ballastBackgroundRefill f lane => Sys2Proof.Machine.execBallastBackgroundRefill f lane s
  | .ballastDemandSpill f lane => Sys2Proof.Machine.execBallastDemandSpill f lane s
  | .ballastDemandRefill f lane => Sys2Proof.Machine.execBallastDemandRefill f lane s
  | .instructionFetch f slice => Sys2Proof.Machine.execInstructionFetch f slice s
  | .instructionPrefetch f slice va => Sys2Proof.Machine.execInstructionPrefetch f slice va s
  | .trapDeliveryK f => Sys2Proof.Machine.execTrapDeliveryK f s
  | .trapDeliveryU f => Sys2Proof.Machine.execTrapDeliveryU f s
  | .eret a => Sys2Proof.Machine.execEret a s
  | .movsr a => Sys2Proof.Machine.execMovsr a s
  | .movsw a => Sys2Proof.Machine.execMovsw a s
  | .tlbinv a => Sys2Proof.Machine.execTlbinv a s
  | .tlbsync a => Sys2Proof.Machine.execTlbsync a s
  | .tlbsyncComplete f => Sys2Proof.Machine.execTlbsyncComplete f s
  | .stage2FaultService index repaired => Sys2Proof.Machine.execStage2FaultService index repaired s
  | .stage2Invalidate part => Sys2Proof.Machine.execStage2Invalidate part s
  | .ctxsave a => Sys2Proof.Machine.execCtxsave a s
  | .ctxload a => Sys2Proof.Machine.execCtxload a s
  | .halt a => Sys2Proof.Machine.execHalt a s
  | .haltWake f => Sys2Proof.Machine.execHaltWake f s
  | .wwait a => Sys2Proof.Machine.execWwait a s
  | .wwaitWake f => Sys2Proof.Machine.execWwaitWake f s
  | .wwaitTimeout f => Sys2Proof.Machine.execWwaitTimeout f s
  | .wwake a => Sys2Proof.Machine.execWwake a s
  | .svc a => Sys2Proof.Machine.execSvc a s
  | .svcF a => Sys2Proof.Machine.execSvcF a s
  | .svcTake a => Sys2Proof.Machine.execSvcTake a s
  | .svcReply f => Sys2Proof.Machine.execSvcReply f s
  | .serviceDispatch die => Sys2Proof.Machine.execServiceDispatch die s
  | .launchDoorbell vf record result => Sys2Proof.Machine.execLaunchDoorbell vf record result s
  | .wreqEnrol vf req => Sys2Proof.Machine.execWreqEnrol vf req s
  | .wreqWake vf req => Sys2Proof.Machine.execWreqWake vf req s
  | .wreqCancel vf req => Sys2Proof.Machine.execWreqCancel vf req s
  | .sdone vf value => Sys2Proof.Machine.execSdone vf value s
  | .vfRegisterWrite vf offset size write value => Sys2Proof.Machine.execVfRegisterWrite vf offset size write value s
  | .hostWrite port pa data relaxed => Sys2Proof.Machine.execHostWrite port pa data relaxed s
  | .hostRead port pa len => Sys2Proof.Machine.execHostRead port pa len s
  | .cxlSnoop port pa exclusive => Sys2Proof.Machine.execCxlSnoop port pa exclusive s
  | .flushCompletion port => Sys2Proof.Machine.execFlushCompletion port s
  | .flushTimeout port => Sys2Proof.Machine.execFlushTimeout port s
  | .hostPortFail port aer => Sys2Proof.Machine.execHostPortFail port aer s
  | .hostPortReset port => Sys2Proof.Machine.execHostPortReset port s
  | .spdmRequest vf request => Sys2Proof.Machine.execSpdmRequest vf request s
  | .imsicSeteipnum core file offset value => Sys2Proof.Machine.execImsicSeteipnum core file offset value s
  | .hostNotify vf vector => Sys2Proof.Machine.execHostNotify vf vector s
  | .partitionSettingChange part change => Sys2Proof.Machine.execPartitionSettingChange part change s
  | .keySlotLoad slot key => Sys2Proof.Machine.execKeySlotLoad slot key s
  | .partitionTeardown part => Sys2Proof.Machine.execPartitionTeardown part s
  | .warmReset part => Sys2Proof.Machine.execWarmReset part s
  | .coldBoot dieIdentity image => Sys2Proof.Machine.execColdBoot dieIdentity image s
  | .configRecordReplace record => Sys2Proof.Machine.execConfigRecordReplace record s
  | .coreRetire die quad core => Sys2Proof.Machine.execCoreRetire die quad core s
  | .configSignatureReturn signature => Sys2Proof.Machine.execConfigSignatureReturn signature s
  | .selfTest place pass spare => Sys2Proof.Machine.execSelfTest place pass spare s
  | .powerLimitSet watts => Sys2Proof.Machine.execPowerLimitSet watts s
  | .throttleStep overPower overTemp => Sys2Proof.Machine.execThrottleStep overPower overTemp s
  | .powerLimitUnmet watts => Sys2Proof.Machine.execPowerLimitUnmet watts s
  | .thermalStop die celsius => Sys2Proof.Machine.execThermalStop die celsius s
  | .configurationRequest port => Sys2Proof.Machine.execConfigurationRequest port s

end Sys2Proof.Machine
end

