-- ==== Sys2Proof/Machine/Step.lean ====
section
/-! DEFINITION. One step of the machine: one move of one agent. -/

namespace Sys2Proof.Machine

/-- One step: the planned move; an instruction or event is exec's, followed by what an issue ends with. -/
def step (s : State) : Host.Outcome State Fault Refusal :=
  match plan s with
  | .done t => .next (passTime t)
  | .run i t =>
    match exec i t with
    | .next u => .next (passTime (afterIssue s i t.cur u))
    | .fault r => .fault r
    | .refused r => .refused r

/-- The state with the instruction whose bits are `w` where the next step takes its instruction from. -/
def State.withFetchWord (s : State) (nbits w : Nat) : State := placeWord s (BitVec.ofNat 96 (w % 2 ^ nbits))

end Sys2Proof.Machine
end

