-- ==== Sys2Proof/Safety.lean ====
section
/-! DEFINITION. The words the statements use: what an instruction leaves unchanged, what it writes, the canonical form of memory. -/

namespace Sys2Proof.Claims
open Sys2Proof.Machine

/-! ## What is unchanged -/

/-- The two states differ in the fibres and the register file only. -/
def OnlyRegisters (s t : State) : Prop :=
  t = { s with fibres := t.fibres, ring := t.ring, ringDirty := t.ringDirty, ringPoison := t.ringPoison }

/-- The two states differ in the fibres only. -/
def OnlyFibres (s t : State) : Prop := t = { s with fibres := t.fibres }

/-- Every fibre but one is unchanged. -/
def OtherFibres (s t : State) (f : Nat) : Prop := ∀ g, g ≠ f → FMap.find t.fibres g = FMap.find s.fibres g

/-- The fibre changes in its lanes only: no register outside the register file, no predicate, no special register. -/
def OnlyLanes (s t : State) (f : Nat) : Prop := hasFib t f = hasFib s f ∧ fib t f = { fib s f with lanes := (fib t f).lanes }

/-- No byte of memory, scratchpad or operand buffer reads otherwise, under any key. -/
def SameBytes (s t : State) : Prop := ∀ key loc, readByte t key loc = readByte s key loc

/-! ## Destinations -/

/-- How many words a register operand takes. -/
def words (wide : Bool) : List Nat := if wide then [0, 1] else [0]

/-- The register-file words of registers `js` places on from a register of a lane, and of a register operand (R218, R219, R23). -/
def ringPlaces (s : State) (lane : Nat) (js : List Nat) (r : Reg) : List Nat :=
  match r with
  | .v n => js.map fun j => ringKey s.cur lane (frameWord s s.cur ((laneAt (me s) lane).fp + n.val + j))
  | .x n => js.map fun j => ringKey s.cur lane (windowWord s s.cur (n.val + j))
  | _ => []
def ringWords (s : State) (lane : Nat) (wide : Bool) (r : Reg) : List Nat := ringPlaces s lane (words wide) r

/-- The words of o registers of a lane, by lane · 8 + number. -/
def oPlaces (lane : Nat) (js : List Nat) (r : Reg) : List Nat :=
  match r with
  | .o n => js.map fun j => lane * 8 + n.val + j
  | _ => []
def oWords (lane : Nat) (wide : Bool) (r : Reg) : List Nat := oPlaces lane (words wide) r

/-- The s registers of a register operand. -/
def sWords (wide : Bool) (r : Reg) : List Nat :=
  match r with
  | .s n => (words wide).map fun j => n.val + j
  | _ => []

/-- The a register of a register operand. -/
def aWords (r : Reg) : List Nat :=
  match r with
  | .a n => [n.val]
  | _ => []

/-- A register that holds what is written to it: v, x, o, s, a (R22). Writes to zero and pt are discarded (R23). -/
def holds (r : Reg) : Bool :=
  match r with
  | .v _ | .x _ | .o _ | .s _ | .a _ => true
  | _ => false

/-- A register whose 32-bit writes through D count for the latches (R232). -/
def latched (r : Reg) : Bool :=
  match r with
  | .v _ | .x _ | .o _ => true
  | _ => false

/-- State `t` is state `s` after one value was written to register `r` in the lanes of `m` (once for a uniform register), and nothing
else: `val` is what the value read back must satisfy in each lane. `counts`: the write counts for the latches (R232). -/
structure Wrote (s t : State) (m : LaneMask) (r : Reg) (wide counts : Bool) (val : Nat → Nat → Prop) : Prop where
  value  : ∀ i ∈ dstLanes m r, holds r = true → val i (regGet t s.cur i wide r)
  ring   : ∀ k, (∀ i ∈ dstLanes m r, k ∉ ringWords s i wide r) → SMap.get 0 t.ring k = SMap.get 0 s.ring k
  oregs  : ∀ k, (∀ i ∈ dstLanes m r, k ∉ oWords i wide r) → SMap.get 0 (me t).oregs k = SMap.get 0 (me s).oregs k
  sregs  : ∀ k, ((dstLanes m r).isEmpty ∨ k ∉ sWords wide r) → SMap.get 0 (me t).sregs k = SMap.get 0 (me s).sregs k
  aregs  : ∀ k, ((dstLanes m r).isEmpty ∨ k ∉ aWords r) → SMap.get 0 (me t).aregs k = SMap.get 0 (me s).aregs k
  lanes  : ∀ i < 32, laneAt (me t) i =
    if counts && !wide && latched r && m.getLsbD i then
      { laneAt (me s) i with l0 := BitVec.ofNat 32 (regGet t s.cur i false r), l1 := (laneAt (me s) i).l0 }
    else laneAt (me s) i
  fibre  : hasFib t s.cur = hasFib s s.cur ∧
    me t = { me s with lanes := (me t).lanes, oregs := (me t).oregs, sregs := (me t).sregs, aregs := (me t).aregs,
                       poison := (me t).poison, dirty := (me t).dirty }
  others : OtherFibres s t s.cur
  rest   : OnlyRegisters s t

/-- State `t` is state `s` after one predicate bit was written in each lane of `m`, and nothing else (R22, R28). -/
structure WrotePred (s t : State) (m : LaneMask) (r : Reg) (val : Nat → Bool) : Prop where
  bits   : ∀ n : Fin 7, ∀ i < 32, (SMap.get 0 (me t).preds n.val).getLsbD i =
    if r = .p n ∧ m.getLsbD i = true then val i else (SMap.get 0 (me s).preds n.val).getLsbD i
  fibre  : hasFib t s.cur = hasFib s s.cur ∧
    me t = { me s with preds := (me t).preds, poison := (me t).poison, dirty := (me t).dirty }
  others : OtherFibres s t s.cur
  rest   : OnlyFibres s t

/-- State `t` is state `u` with the PC of the lanes of a mask set, and nothing else. -/
structure WentTo (u t : State) (f : Nat) (m : LaneMask) (pc : Nat → BitVec 64) : Prop where
  lanes  : ∀ i < 32, laneAt (fib t f) i = if m.getLsbD i then { laneAt (fib u f) i with pc := pc i } else laneAt (fib u f) i
  fibre  : OnlyLanes u t f
  others : OtherFibres u t f
  rest   : OnlyFibres u t

/-- The lanes of the issue group are at the next instruction (R188), and nothing else has changed since `u`. -/
def WentOn (s u t : State) : Prop := WentTo u t s.cur s.grp fun _ => s.ipc + 12

/-! ## Numbers -/

/-- A register value is an exact integer through the clamp of D (R26, R37): held to the range of its type, or its low bits. -/
def IntThroughD (t : Ty) (clamp : Bool) (e : Int) (v : Nat) : Prop :=
  v < 2 ^ tyWidth t ∧
  (if clamp then intOf t v = max (minValue t) (min (maxValue t) e) else (v : Int) = e % ((2 ^ tyWidth t : Nat) : Int))

end Sys2Proof.Claims

namespace Sys2Proof.Machine

/-- The canonical form of memory: rising addresses, no listed byte equal to what an unlisted address reads as; the dirty bytes of the
caches by rising address. -/
abbrev Memory.wf (st : Store) : Prop := SMap.wf 0 st.cells = true ∧ FMap.sortedFrom 0 st.dirty = true

end Sys2Proof.Machine

namespace Sys2Proof.Claims
open Sys2Proof.Machine

/-! ## Shapes of statements -/

/-- The instruction completes wherever its fibre is resident: it writes one value through D in each active lane, of which `val` holds,
changes nothing else, and its lanes go on. -/
def Computes (i : Args → Instr) (wide : Args → Bool) (val : Args → State → Nat → Nat → Prop) : Prop :=
  ∀ (a : Args) (s : State) (r : Reg) (neg abs : Bool), hasFib s s.cur = true → a.d.opnd = .reg r neg abs →
    ∃ u t, exec (i a) s = .next t ∧ Wrote s u (active s a) r (wide a) true (val a s) ∧ WentOn s u t

/-- The instruction completes wherever its fibre is resident: it writes one predicate bit in each active lane, changes nothing else,
and its lanes go on. -/
def Decides (i : Args → Instr) (val : Args → State → Nat → Bool) : Prop :=
  ∀ (a : Args) (s : State) (r : Reg) (neg abs : Bool), hasFib s s.cur = true → a.d.opnd = .reg r neg abs →
    ∃ u t, exec (i a) s = .next t ∧ WrotePred s u (active s a) r (val a s) ∧ WentOn s u t

/-- The operands of TY are 64 bits wide. -/
def wideTy (a : Args) : Bool := tyIs64 a.ty
/-- The result is one 32-bit register. -/
def narrow (_ : Args) : Bool := false

/-- Source 0, 1 and 2 of a lane as bit patterns of TY (R25, R27). -/
def src0 (a : Args) (s : State) (i : Nat) : Nat := srcVal s a.ty 0 a.s0 i
def srcB (a : Args) (s : State) (i : Nat) : Nat := src1 s a a.ty i
def srcC (a : Args) (s : State) (i : Nat) : Nat := srcVal s a.ty 0 a.s2 i

/-- The integer a bit pattern of TY stands for. -/
def int0 (a : Args) (s : State) (i : Nat) : Int := intOf a.ty (src0 a s i)
def int1 (a : Args) (s : State) (i : Nat) : Int := intOf a.ty (srcB a s i)
def int2 (a : Args) (s : State) (i : Nat) : Int := intOf a.ty (srcC a s i)

/-- An integer instruction of R249: the exact result through D. -/
def ComputesInt (i : Args → Instr) (x : Ty → Int → Int → Int → Int) : Prop :=
  Computes i wideTy fun a s l v => IntThroughD a.ty a.d.clamp (x a.ty (int0 a s l) (int1 a s l) (int2 a s l)) v

/-- A bitwise instruction of R251. -/
def ComputesBits (i : Args → Instr) (b : Bool → Bool → Bool) : Prop :=
  Computes i wideTy fun a s l v => ∀ k < (if tyIs64 a.ty then 64 else 32), v.testBit k = b ((src0 a s l).testBit k) ((srcB a s l).testBit k)

/-- A bit of a field of BFE: beyond the width stands the sign of a signed operand, else 0 (R254). -/
def bitBeyond (t : Ty) (x k : Nat) : Bool :=
  if k < tyWidth t then x.testBit k else tySigned t && x.testBit (tyWidth t - 1)

/-- The rounding mode of %fmode (R275). -/
def rm (s : State) : Rounding := .mode (RMode.ofCode (me s).fmode.toNat)

/-- An exact value through D (R26): scale, one rounding, clamp. -/
def floatThroughD (a : Args) (rd : Rounding) (x : Machine.Num) : Nat := roundTo (fmtOf a.ty 0) rd a.d.clamp (x.scaleBy a.d.scale.toInt)

/-- A float instruction of R291 on the exact values of its operands. -/
def ComputesFloat (i : Args → Instr) (x : RMode → Machine.Num → Machine.Num → Machine.Num → Machine.Num) : Prop :=
  Computes i wideTy fun a s l v =>
    v = floatThroughD a (rm s) (x (RMode.ofCode (me s).fmode.toNat) (decodeFloat a.ty 0 (src0 a s l)) (decodeFloat a.ty 0 (srcB a s l))
      (decodeFloat a.ty 0 (srcC a s l)))

/-- Half `h` of a packed source of a lane, after its modifiers (R289). -/
def halfOf (s : State) (t : Ty) (o : Opnd) (i h : Nat) : Nat :=
  match o with
  | .reg r neg abs => applyMods t 0 neg abs (regGet s s.cur i false r / 2 ^ (16 * h))
  | _ => 0

/-- A packed float instruction: each half is what the unpacked instruction would give (R39). -/
def ComputesPacked (i : Args → Instr) (x : Args → State → Nat → Nat → Nat → Nat → Prop) : Prop :=
  Computes i narrow fun a s l v => ∀ h < 2, a.ty = .f16 ∨ a.ty = .bf16 →
    x a s (halfOf s a.ty a.s0 l h) (halfOf s a.ty a.s1 l h) (halfOf s a.ty a.s2 l h) (v / 2 ^ (16 * h) % 2 ^ 16)

/-- The lane SHFL reads for lane `i`, for mode, segment width and lane operand (R263): its number and whether it is valid. -/
def shuffleFrom (mode w i : Nat) (l : Int) : Int × Bool :=
  let b : Int := i - i % w
  match mode with
  | 0 => (b + l % w, true)
  | 1 => (b + (i - b + l) % w, true)
  | 2 => (i + l, decide (b ≤ i + l ∧ i + l < b + w))
  | _ => (((i ^^^ (l % w).toNat : Nat) : Int), true)

/-- SHFL finds an active source for lane `i` (R263). -/
def shuffleOk (a : Args) (s : State) (i : Nat) : Bool :=
  let f := shuffleFrom (shflControl a).1 (2 ^ (shflControl a).2) i (shflLane s a i)
  f.2 && decide (0 ≤ f.1) && (active s a).getLsbD f.1.toNat

/-- The lanes REDUX combines for lane `i`: the active ones, or those below it for a prefix (R266). -/
def reduxLanes (a : Args) (s : State) (i : Nat) : List Nat :=
  (lanesOf (active s a)).filter fun j => decide (codeOf a.s1 < 8) || decide (j < i)

/-- The result of REDUX (R266). -/
def ReduxOf (a : Args) (s : State) (i v : Nat) : Prop :=
  let L := reduxLanes a s i
  v < 2 ^ tyWidth a.ty ∧
  match codeOf a.s1 % 8 with
  | 0 => IntThroughD a.ty a.d.clamp (L.map (int0 a s)).sum v
  | 1 => (∀ j ∈ L, intOf a.ty v ≤ int0 a s j) ∧ ((∃ j ∈ L, intOf a.ty v = int0 a s j) ∨ L = [] ∧ intOf a.ty v = maxValue a.ty)
  | 2 => (∀ j ∈ L, int0 a s j ≤ intOf a.ty v) ∧ ((∃ j ∈ L, intOf a.ty v = int0 a s j) ∨ L = [] ∧ intOf a.ty v = minValue a.ty)
  | 3 => ∀ k < tyWidth a.ty, v.testBit k = L.all fun j => (src0 a s j).testBit k
  | 4 => ∀ k < tyWidth a.ty, v.testBit k = L.any fun j => (src0 a s j).testBit k
  | _ => ∀ k < tyWidth a.ty, v.testBit k = decide ((L.countP fun j => (src0 a s j).testBit k) % 2 = 1)

/-- The class of a value (R297): the mask FCLASS writes. -/
def classOf (f : FloatFmt) (x : Machine.Num) : Nat :=
  match x with
  | .nan => 2 ^ 8
  | .inf neg => if neg then 2 ^ 0 else 2 ^ 7
  | .fin neg m e =>
    if m = 0 then (if neg then 2 ^ 3 else 2 ^ 4)
    else if m * 2 ^ (e - f.qmin).toNat < 2 ^ (f.prec - 1) then (if neg then 2 ^ 2 else 2 ^ 5)
    else (if neg then 2 ^ 1 else 2 ^ 6)

/-- The rounding FCVT uses in a lane: %fmode.RM, or stochastic with the seed of S3 (R278, R295). -/
def cvtRounding (a : Args) (s : State) (i : Nat) : Rounding :=
  if (codeOf a.s1).testBit 4 then
    .stoch (srHash (BitVec.ofNat 64 (addrVal s a.s3 i)) (if scalarForm a then 0 else i) 0)
  else rm s

/-- The exact value FCVT converts (R295). -/
def cvtSource (a : Args) (s : State) (i : Nat) : Machine.Num :=
  let sty := tyOf (codeOf a.s1 % 16)
  let snc := if sty = .b8 then codeOf a.s3 else 0
  let c := srcVal s sty snc a.s0 i
  if tyIsFloat sty then decodeFloat sty snc c else Machine.Num.ofInt (intOf sty c)

/-- The results of special operands of RCP, RSQ, SQRT, EX2, LG2, SIN, COS, TANH, numbered 0 to 7 (R298's table); none where the
function has a finite non-zero value to round. -/
def specialValue (fn : Nat) (x : Machine.Num) : Option Machine.Num :=
  match fn, x with
  | _, .nan => some .nan
  | 0, .inf n => some (.fin n 0 0)
  | 1, .inf n => some (if n then .nan else .fin false 0 0)
  | 2, .inf n => some (if n then .nan else .inf false)
  | 3, .inf n => some (if n then .fin false 0 0 else .inf false)
  | 4, .inf n => some (if n then .nan else .inf false)
  | 5, .inf _ => some .nan
  | 6, .inf _ => some .nan
  | 7, .inf n => some (.fin n 1 0)
  | 0, .fin n 0 _ => some (.inf n)
  | 1, .fin n 0 _ => some (.inf n)
  | 2, .fin n 0 _ => some (.fin n 0 0)
  | 3, .fin _ 0 _ => some (.fin false 1 0)
  | 4, .fin _ 0 _ => some (.inf true)
  | 5, .fin n 0 _ => some (.fin n 0 0)
  | 6, .fin _ 0 _ => some (.fin false 1 0)
  | 7, .fin n 0 _ => some (.fin n 0 0)
  | 1, .fin true _ _ => some .nan
  | 2, .fin true _ _ => some .nan
  | 4, .fin true _ _ => some .nan
  | _, _ => none

/-- A special function: the value the model computes, which for a special operand is the table's through D with RNE (R298). -/
def ComputesSpecial (i : Args → Instr) (fn : Nat) (val : Args → Machine.Num → Nat) : Prop :=
  Computes i wideTy fun a s l v =>
    v = val a (decodeFloat a.ty 0 (src0 a s l)) ∧
    ∀ y, specialValue fn (decodeFloat a.ty 0 (src0 a s l)) = some y → v = floatThroughD a (.mode .rne) y

/-- What FMIN and FMAX write for two codes (R279, R292): an operand's code, the other one's where one is NaN; an infinity becomes
the largest finite value where the clamp is set. -/
def MinMaxOf (isMax : Bool) (a : Args) (x y v : Nat) : Prop :=
  ∃ c, (match decodeFloat a.ty 0 x, decodeFloat a.ty 0 y with
    | .nan, .nan => c = (fmtOf a.ty 0).nan
    | .nan, _ => c = y
    | _, .nan => c = x
    | p, q => (c = x ∨ c = y) ∧ (if isMax then numLt (decodeFloat a.ty 0 c) p = false ∧ numLt (decodeFloat a.ty 0 c) q = false
        else numLt p (decodeFloat a.ty 0 c) = false ∧ numLt q (decodeFloat a.ty 0 c) = false)) ∧
    (v = c ∨ a.d.clamp = true) ∧
    (a.d.clamp = true → match decodeFloat a.ty 0 c with
      | .inf neg => v = withSign (fmtOf a.ty 0) neg (fmtOf a.ty 0).maxCode
      | _ => v = c)

/-! ## Control -/

/-- State `t` is state `s` with the lanes of the current fibre as given, and nothing else (but for the fibre's dirty bits, and the parity of the
link records it pushes, R235, R237). -/
structure LanesBecome (s t : State) (lane : Nat → Lane) : Prop where
  lanes  : ∀ i < 32, laneAt (me t) i = lane i
  fibre  : hasFib t s.cur = hasFib s s.cur ∧ me t = { me s with lanes := (me t).lanes, dirty := (me t).dirty, poison := (me t).poison }
  others : OtherFibres s t s.cur
  rest   : OnlyFibres s t

/-- The lane goes on to the next instruction if it is in the issue group, and is otherwise as it was. -/
def onward (s : State) (i : Nat) : Lane :=
  if s.grp.getLsbD i then { laneAt (me s) i with pc := s.ipc + 12 } else laneAt (me s) i

/-- The target of a label (R247): PC + 12 + 12 · boff, modulo 2^64. -/
def labelOf (a : Args) (s : State) : BitVec 64 := BitVec.ofInt 64 (s.ipc.toNat + 12 + 12 * a.boff.toInt)

/-- A frame of `adv` words more fits a lane's stack, its sub-ring and its link records, so that CALL pushes at once (R228, R240). -/
def callFits (s : State) (adv i : Nat) : Bool :=
  let l := laneAt (me s) i
  decide (l.fp + adv + 64 ≤ (me s).spw) && decide (l.depth + 1 ≤ (me s).lkn)
    && decide (l.fp + adv + 64 - l.rb ≤ (slotRec s (slotOf s.cur)).z) && decide (l.links.length + 1 ≤ 32)

/-- A lane after a CALL with advance `adv` to a target (R240). -/
def called (s : State) (adv : Nat) (target : BitVec 64) (l : Lane) : Lane :=
  { l with links := { rpc := s.ipc + 12, adv := adv, hnd := false, cfp := l.fp } :: l.links, fp := l.fp + adv, depth := l.depth + 1,
           pc := target }

/-- A lane returns at once with RET: its newest record is resident, no handler record, and its frame is resident (R241). -/
def returns (l : Lane) : Bool :=
  match l.links with
  | r :: _ => decide (0 < l.depth) && !r.hnd && decide (l.rb ≤ l.fp - r.adv)
  | [] => false

/-- A lane after RET (R241). A PC is a multiple of 4 (R17), as every record that CALL pushes holds one; the low two bits of another are dropped
(log 52). -/
def returned (l : Lane) : Lane :=
  match l.links with
  | r :: rest => { l with fp := r.cfp, depth := l.depth - 1, pc := BitVec.ofNat 64 (r.rpc.toNat / 4 * 4), rb := min l.rb r.cfp, links := rest, wait := .none }
  | [] => l

/-- The trap queue has a place for a synchronous entry of the current fibre (R352). -/
def queueRoom (s : State) : Bool := decide ((me s).trapq.length < 7)

/-- The trap queue with a synchronous entry: behind the others, at the head where a K handler raised it (R351, R356). -/
def queuedWith (s : State) (e : TrapEntry) : List TrapEntry :=
  if (me s).klvl && !(me s).hstack.isEmpty then e :: (me s).trapq else (me s).trapq ++ [e]

/-- State `t` is state `s` with one synchronous entry queued and the lanes as given, and nothing else (R351). -/
structure Queued (s t : State) (e : TrapEntry) (lane : Nat → Lane) : Prop where
  lanes  : ∀ i < 32, laneAt (me t) i = lane i
  queue  : (me t).trapq = queuedWith s e
  fibre  : hasFib t s.cur = hasFib s s.cur ∧ me t = { me s with lanes := (me t).lanes, trapq := (me t).trapq }
  others : OtherFibres s t s.cur
  rest   : OnlyFibres s t

/-- The entry of a trap of the executing instruction (R350). -/
def entryOf (s : State) (m : LaneMask) (cause : Nat) (pc : BitVec 64) (addr info : Nat) (own : List (BitVec 64)) : TrapEntry :=
  { lmask := m, cause := cause, async := false, klvl := (me s).klvl, pc := pc, addr := BitVec.ofNat 64 addr, info := BitVec.ofNat 32 info,
    laneAddr := own, level := (me s).hstack.length }

/-! ## Memory accesses -/

/-- The checks of a lane's access of `n` bytes (R85 to R87). -/
def checked (a : Args) (s : State) (n kind : Nat) (cls : AccClass) (i : Nat) : Except Flt (List Piece) :=
  checkAccess s s.cur i a.space.toNat (effAddr s a i) n n kind cls false

/-- Every leaf of the pieces already has the A and D bits that an access of a kind sets (R57). -/
def leavesSet (kind : Nat) (ps : List Piece) : Prop := ∀ p ∈ ps, ∀ l, p.leaf = some l → withAD l.leaf kind = l.leaf

/-- No tenure is taken back by the reads of the walks that pieces were translated by (R112). -/
def walkClear (s : State) (ps : List Piece) : Prop :=
  ∀ p ∈ ps, ∀ l, p.leaf = some l → ∀ e ∈ l.path, conflicts s hubCore (e.at_ / 128) false = []

/-- No write tenure stands that a reader would take back (R112). -/
def noWriteTenure (s : State) : Prop := ∀ core line, conflicts s core line false = []

/-- No tenure stands that an access would take back (R112). -/
def noTenure (s : State) : Prop := ∀ core line write, conflicts s core line write = []

/-- No tenure is taken back by an access of a core to pieces, nor by the walks that they were translated by (R112). -/
def undisturbed (s : State) (core : Nat) (write : Bool) (ps : List Piece) : Prop :=
  walkClear s ps ∧ ∀ p ∈ ps, inMem p.loc = true → ∀ l ∈ p.loc / 128 :: linesOf p.loc p.n, conflicts s core l write = []

/-- The access needs no further step: no leaf needs A or D set (R57), no piece is a device register, no tenure stands against it (R112,
R117), and no relaxed read of an earlier value is at hand (R149). -/
def plainPieces (s : State) (kind : Nat) (write : Bool) (ps : List Piece) : Prop :=
  (∀ p ∈ ps, p.mt ≠ 3 ∧ ∀ l, p.leaf = some l → withAD l.leaf kind = l.leaf) ∧ undisturbed s (coreOf s.cur) write ps ∧ s.readPts = []

/-- The bytes of a load: memory's, under the fibre's own queued writes (R133); in the constant space the line of normal memory that the core's
constant cache holds goes before memory's (R97). -/
def loadBytes (s : State) (space : Nat) (ps : List Piece) : List Byte :=
  ps.flatMap fun p =>
    if space = 6 ∧ p.mt = 0 then
      (((FMap.find s.mem.ccache (constKey (coreOf s.cur) (p.loc / 128) p.key)).getD (readBytes s p.key (p.loc / 128 * 128) 128)).drop (p.loc % 128)).take p.n
    else forward (me s) p.key p.loc (readBytes s p.key p.loc p.n)

/-- The lanes that make an access, as a mask. -/
def accessMask (s : State) (a : Args) : LaneMask := maskOf fun l => (accessLanes s a).contains l

/-- The state in which the loads of an instruction begin: one of .sc order has ended the release that came before it (R131). -/
def scBegun (s : State) (a : Args) : State := if a.ord.toNat = 3 ∧ accessLanes s a ≠ [] then fibReleased s s.cur else s

/-- What a .sc access finds: an empty queue, and no flush to wait for before it nor after it (R131, R160). -/
def scClear (s : State) (a : Args) : Prop :=
  a.ord.toNat = 3 → (me s).sq = [] ∧ fibReady s s.cur a.scope.toNat = true ∧ releaseReady s a.scope.toNat [] = true

/-- The value a register takes from loaded bytes (R85). -/
def loadedValue (t : Ty) (l : List Byte) : Nat :=
  if t = .s8 then wrap 32 (toSigned 8 (ofBytes l)) else if t = .s16 then wrap 32 (toSigned 16 (ofBytes l)) else ofBytes l

/-- The store-queue entry of a lane's write or reduction: one, however many parts its bytes have (R94, R127, R132). -/
def laneEntry (a : Args) (s : State) (red : Option (Nat × Ty × Bool)) (bytes : List Byte) (i : Nat) : List Piece → List SqEntry
  | [] => []
  | p :: r => [{ loc := p.loc, bytes := bytes, red := red, more := r.map fun q => (q.loc, q.n, q.key), ord := a.ord.toNat, scope := a.scope.toNat,
                 key := p.key, mt := p.mt, ch := a.ch.toNat, sh := (p.leaf.map fun l => l.leaf2.testBit 9).getD false, lane := i,
                 va := BitVec.ofNat 64 (effAddr s a i) }]

/-- The entries of a store of more than 32 bytes: one for each access of R127, in order (R315). -/
def storeEntries (a : Args) (s : State) (i : Nat) : List (List Piece) → List Byte → List SqEntry
  | [], _ => []
  | g :: r, l => laneEntry a s none (l.take (g.map (·.n)).sum) i g ++ storeEntries a s i r (l.drop (g.map (·.n)).sum)

/-- The data of a store of one register, and of a block of registers (R89, R90). -/
def storeData (a : Args) (s : State) (i : Nat) : List Byte := toBytes (tyWidth a.ty / 8) (srcVal s a.ty 0 a.s1 i)
def storeBlock (a : Args) (s : State) (i : Nat) : List Byte :=
  match a.s1 with
  | .reg r _ _ => (List.range (if a.ty = .b64 then 8 else 4)).flatMap fun j => toBytes 4 (regGet32 s s.cur i r j).toNat
  | _ => []

/-- A store or reduction completes: its lanes' entries join the store queue in lane order, its lanes go on, and no register and no byte changes. -/
def Stores (i : Args → Instr) (n : Args → Nat) (kind : Nat) (cls : Args → AccClass) (red : Args → Option (Nat × Ty × Bool))
    (bytes : Args → State → Nat → List Byte) : Prop :=
  ∀ (a : Args) (s : State) (ps : Nat → List Piece), hasFib s s.cur = true → a.ord.toNat ≠ 3 →
    (∀ l ∈ accessLanes s a, checked a s (n a) kind (cls a) l = .ok (ps l) ∧ leavesSet kind (ps l) ∧ walkClear s (ps l)) →
    ∃ t, exec (i a) s = .next t
      ∧ (me t).sq = (me s).sq ++ (accessLanes s a).flatMap (fun l => laneEntry a s (red a) (bytes a s l) l (ps l))
      ∧ (∀ l < 32, laneAt (me t) l = onward s l) ∧ me t = { me s with lanes := (me t).lanes, sq := (me t).sq }
      ∧ SameBytes s t ∧ t.ring = s.ring ∧ OtherFibres s t s.cur

/-- An atomic completes with an empty store queue: its lowest lane receives the old value, and where it is the only lane the new value
stands in memory and no other byte changes (R91, R92). -/
def Atomics (i : Args → Instr) (op : Nat) : Prop :=
  ∀ (a : Args) (s : State) (ps : Nat → List Piece) (r : Reg) (n b : Bool) (l : Nat) (rest : List Nat), hasFib s s.cur = true →
    (me s).sq = [] → a.ord.toNat = 0 → a.d.opnd = .reg r n b → accessLanes s a = l :: rest → (regUniform r = true → rest = []) → s.objs = [] →
    (∀ j ∈ accessLanes s a, checked a s (tyWidth a.ty / 8) kRmw (if pcieForm op a.ty then .pcie else .other) j = .ok (ps j)
      ∧ plainPieces s kRmw true (ps j) ∧ ∀ p ∈ ps j, (isHost p.loc && inMem p.loc) = false) →
    ∃ t, exec (i a) s = .next t ∧ (∀ j < 32, (laneAt (me t) j).pc = (onward s j).pc)
      ∧ ∀ p, ps l = [p] → p.loc / 128 = (p.loc + p.n - 1) / 128 → p.n = tyWidth a.ty / 8 →
        (holds r = true → regGet t s.cur l (tyIs64 a.ty) r = ofBytes (readBytes s p.key p.loc p.n))
        ∧ (rest = [] → readBytes t p.key p.loc p.n = toBytes p.n (atomNew op a.ty a.d.clamp (ofBytes (readBytes s p.key p.loc p.n))
              (srcVal s a.ty 0 a.s1 l) (srcVal s a.ty 0 a.d.opnd l))
            ∧ ∀ loc, (loc < p.loc ∨ p.loc + p.n ≤ loc) → readByte t p.key loc = readByte s p.key loc)

/-- Every lane that makes an access of `n` bytes is misaligned: all its active lanes stop with MISALIGN and nothing is accessed (R85). -/
def Misaligns (i : Args → Instr) (n : Args → Nat) (kind : Nat) : Prop :=
  ∀ (a : Args) (s : State), hasFib s s.cur = true → queueRoom s = true → active s a ≠ 0 → (me s).sq = [] → s.readPts = [] → a.ord.toNat ≠ 3 →
    (me s).marks = [] → (windowDst a.d.opnd ≠ none → s.latePts = []) → (uniformOpnd a.d.opnd && uniformOpnd a.s0 && uniformOpnd a.s1) = false →
    (∀ l ∈ lanesOf (active s a), effAddr s a l % n a ≠ 0) →
    ∃ t addr own, exec (i a) s = .next t ∧ (∀ l ∈ lanesOf (active s a), own[l]? = some (BitVec.ofNat 64 (effAddr s a l))) ∧
      Queued s t (entryOf s (active s a) cMISALIGN s.ipc addr (4 * kind + 16 * Nat.log2 (n a)) own) fun l =>
        if (active s a).getLsbD l then laneAt (me s) l else onward s l

/-- A cache-control instruction completes when its lines have no queued stores: no byte reads otherwise, no register changes, its lanes go on. -/
def CacheControl (i : Args → Instr) (space : Args → Nat) : Prop :=
  ∀ (a : Args) (s : State), hasFib s s.cur = true → (me s).sq = [] →
    (∀ l ∈ accessLanes s a, ∃ ps, locate s s.cur l (space a) (effAddr s a l) 1 kRead true = .ok ps ∧ walkClear s ps) →
    ∃ t, exec (i a) s = .next t ∧ SameBytes s t ∧ (∀ l < 32, laneAt (me t) l = onward s l) ∧ me t = { me s with lanes := (me t).lanes }
      ∧ t.ring = s.ring ∧ OtherFibres s t s.cur

/-- The wait of a fibre in WAITA ends, and no wait of other lanes: `done` gives each lane's result. -/
def waitEnds (s t : State) (f : Nat) (w : Wait) (dst : Option Nat) (done : List (Option Bool)) : Prop :=
  (∀ i < 32, (laneAt (fib t f) i) = if w.lanes.getLsbD i then { laneAt (fib s f) i with pc := w.pc } else laneAt (fib s f) i)
    ∧ w ∉ (fib t f).waits ∧ (fib t f).waits.filter (fun v => v.lanes != w.lanes) = (fib s f).waits.filter (fun v => v.lanes != w.lanes)
    ∧ ∀ k, dst = some k → k < 7 → ∀ i < 32, (SMap.get 0 (fib t f).preds k).getLsbD i =
        ((done.getD i none).getD ((SMap.get 0 (fib s f).preds k).getLsbD i))

/-! ## Tiles and barrier objects -/

/-- The lanes of the issue group are at the next instruction. -/
def GoesOn (s t : State) : Prop := ∀ i < 32, (laneAt (me t) i).pc = (onward s i).pc

/-- A predicate destination holds one bit in every lane of the issue group (nothing where the field names none). -/
def predHolds (s t : State) (o : Opnd) (b : Bool) : Prop :=
  ∀ n : Fin 7, predDst o = some n.val → ∀ i < 32, s.grp.getLsbD i = true → (SMap.get 0 (me t).preds n.val).getLsbD i = b

/-- The s register a field names holds a value; a field that names zero holds nothing (R23). -/
def uniformHolds (t : State) (o : Opnd) (v : Nat) : Prop :=
  ∀ (n : Fin 32) (ng ab : Bool), o = .reg (.s n) ng ab → SMap.get 0 (me t).sregs n.val = BitVec.ofNat 32 v

/-- The state after a fibre has read the pieces of an access. -/
def afterRead (s : State) (space : Nat) (ps : List Piece) : State :=
  (loadPieces (commitPieces s s.cur kRead false ps) s.cur space 1 false 0 ps).2

/-- A request of a fibre for a tile that can be granted at once with a new holder entry `i` (R111 to R113, R118): the tile is open and of
normal memory that translates, no tenure conflicts, the fibre holds none on it, the entry is free, and its
walks take no tenure back. -/
structure Grantable (s : State) (f : Nat) (q : TileReq) (y : Home) (i : Nat) : Prop where
  home    : homeOf s q.h = some y
  open_   : y.kind ≠ 1 ∧ tooLarge y.desc = false
  mapped  : (mapTile s (fibCtx s f) y.desc q.wr).fault = none ∧ (mapTile s (fibCtx s f) y.desc q.wr).normal = true
  free    : tenureConflicts s f q.h (mapTile s (fibCtx s f) y.desc q.wr).lines q.wr = []
  mine    : myHolder s f q.h = none
  entry   : pickEntry s (coreOf f) [] = some i ∧ holderAt s (coreOf f) i = none
  walks   : ∀ l ∈ tileLines y.desc, ∀ p, globalPiece s (fibCtx s f) (l * 128 % 2 ^ 64) 1 (if q.wr then kRmw else kRead) true = .ok p →
    walkClear s [p]

/-- The request was granted: entry `i` of the core's holder table holds the tile for the fibre, at the head of the tile's list (R110, R120). -/
def Granted (s t : State) (f : Nat) (q : TileReq) (y : Home) (i : Nat) : Prop :=
  (∃ x, holderAt t (coreOf f) i = some x ∧ x.wr = q.wr ∧ x.handle = q.h ∧ x.fib = f % 256 ∧ x.cont = true ∧ x.rvk = false ∧ x.brk = false
      ∧ x.granted = s.tick ∧ (x.pin = true ↔ q.pin = true ∧ (fib s f).tenmax.toNat % 2 ^ 32 ≠ 0))
    ∧ ∃ z, FMap.find t.homes (homeOfHandle q.h) = some z ∧ z.holders = (coreOf f, i) :: y.holders ∧ z.desc = y.desc

/-- Entry `i` of the core's holder table holds a child of a divided tile for the fibre, in the parent's mode and with its pin, alone in the
child's list (R110, R122). -/
def ChildHeld (s t : State) (x : Holder) (n i : Nat) (cont : Bool) : Prop :=
  (∃ c, holderAt t (coreOf s.cur) i = some c ∧ c.handle = handleOf s n ∧ c.fib = x.fib ∧ c.wr = x.wr ∧ c.pin = x.pin ∧ c.rvk = false ∧ c.cont = cont)
    ∧ (FMap.find t.homes n).map (·.holders) = some [(coreOf s.cur, i)]

/-- The barrier object of an instruction passes its checks (R186), and nothing has to be waited for. -/
structure ObjReady (a : Args) (s : State) (kind loc : Nat) : Prop where
  check  : objCheck s s.cur (lane0 s) a.space.toNat (effAddr s a (lane0 s)) kind = .ok loc
  place  : loc % 16 = 0 ∧ 2 ^ 52 ≤ loc ∧ loc + 16 ≤ 2 ^ 53
  clean  : kind = kWrite ∨ poisoned s.mem loc 16 = false
  queue  : (me s).sq = []
  scope  : a.ord.toNat = 1 → fibReady s s.cur a.scope.toNat = true

/-- The object an instruction names, as it finds it. -/
def objFound (s : State) (loc : Nat) : Nat := objBits (nameObj s (coreOf s.cur) loc) loc

/-! ## Engine queues -/

/-- One entry joined a queue of the executing fibre and its lanes went on; nothing else of the fibre changed, nor any other fibre. -/
structure Enqueued (s t : State) (q : Nat) (e : QEntry) : Prop where
  entry  : queueAt (me t) q = { queueAt (me s) q with entries := (queueAt (me s) q).entries ++ [e] }
  queues : ∀ p < 4, p ≠ q → queueAt (me t) p = queueAt (me s) p
  lanes  : ∀ i < 32, laneAt (me t) i = onward s i
  fibre  : me t = { me s with lanes := (me t).lanes, queues := (me t).queues }
  others : OtherFibres s t s.cur
  bytes  : SameBytes s t

/-- A transfer instruction whose record passes its checks adds its entry to the named queue and goes on (R165, R168, R170). -/
def Transfers (i : Args → Instr) (kind : Nat) : Prop :=
  ∀ (a : Args) (s : State) (v : Nat) (d : BitVec 512) (e : QEntry), hasFib s s.cur = true → (me s).sq = [] → s.readPts = [] →
    opndNum a.s0 < 4 → Machine.queueRoom (me s) (opndNum a.s0) = true → scratchRecord s (scalar s a.s1) 64 = .ok v → d = BitVec.ofNat 512 v →
    copyTrap s kind (scalar s a.s1) d = none →
    e = { kind := .copy d kind, prog := 0, root := (me s).pgroot, klvl := (me s).klvl, ch := a.ch.toNat,
          tile := tileDescOf s (if (copyOf d).shnd = 0 then (copyOf d).dhnd else (copyOf d).shnd), sent := false, view := [], marks := [] } →
    ∃ t, exec (i a) s = .next t ∧ GoesOn s t
      ∧ (queueAt (me t) (opndNum a.s0)).entries = (queueAt (me s) (opndNum a.s0)).entries ++ [e]
      ∧ ((copyOf d).bobj = 0xFFFFFFFF → Enqueued s t (opndNum a.s0) e)

/-- The state with the root and the level an entry froze in force (R67). -/
def inEntry (s : State) (f : Nat) (e : QEntry) : State := modFib s f fun y => { y with pgroot := e.root, klvl := e.klvl }

/-- The chunk at hand of a transfer and the state after its index was read (R171). -/
def ChunkAt (s : State) (f : Nat) (e : QEntry) (d : BitVec 512) (kind : Nat) (k : Chunk) (u : State) : Prop :=
  ∃ i : Int, k = chunkOf (copyOf d) kind e.tile e.prog i
    ∧ (kind = 0 ∧ u = inEntry s f e
      ∨ kind ≠ 0 ∧ ∃ l, chunkIndex (inEntry s f e) f e (copyOf d) = .got l u ∧ i = toSigned (8 * l.length) (ofBytes l))

/-- The one piece that an agent of a core writes to is plain memory in one line on which no tenure stands against it, or a core's own storage that
holds no barrier object. -/
structure PlainTarget (s : State) (core : Nat) (p : Piece) : Prop where
  memory : p.mt ≠ 3 ∧ (isHost p.loc && inMem p.loc) = false
  line   : 0 < p.n ∧ p.loc / 128 = (p.loc + p.n - 1) / 128
  leaf   : leavesSet kWrite [p]
  clear  : undisturbed s core true [p]
  objs   : s.objs = [] ∨ p.loc + p.n ≤ 2 ^ 52

/-- Bytes stand at a piece, and every other byte under its key is as it was in `u`. -/
def PutAt (u t : State) (p : Piece) (l : List Byte) : Prop :=
  readBytes t p.key p.loc p.n = l ∧ ∀ loc, (loc < p.loc ∨ p.loc + p.n ≤ loc) → readByte t p.key loc = readByte u p.key loc

/-- The completion object of an entry, where it names one, is a barrier object that can count `n` bytes more (R177). -/
def Countable (s : State) (f bobj n : Nat) : Prop :=
  bobj ≠ 0xFFFFFFFF → ∀ loc v, loc = bobjLoc s f bobj → v = objBits s loc →
    loc % 16 = 0 ∧ 2 ^ 52 ≤ loc ∧ loc + 16 ≤ 2 ^ 53 ∧ s.objs.contains (objIndex loc) = true ∧ poisoned s.mem loc 16 = false ∧ objRes v = none
      ∧ -(2 ^ 31) ≤ toSigned 32 (bits v 0 32) - (n : Int)

/-- Bytes stand at a piece, the completion object has counted them and was evaluated, and every other byte is as it was in `u` (R174, R177). -/
def PutAndCounted (u t : State) (f bobj : Nat) (p : Piece) (l : List Byte) : Prop :=
  readBytes t p.key p.loc p.n = l
    ∧ (bobj ≠ 0xFFFFFFFF → ∀ loc v, loc = bobjLoc u f bobj → v = objBits u loc →
        objBits t loc = objEval (setBits v 0 32 (wrap 32 (toSigned 32 (bits v 0 32) - (p.n : Int)))))
    ∧ ∀ loc, (loc < p.loc ∨ p.loc + p.n ≤ loc) → (bobj ≠ 0xFFFFFFFF → loc < bobjLoc u f bobj ∨ bobjLoc u f bobj + 16 ≤ loc) →
        readByte t p.key loc = readByte u p.key loc

/-- The head entry of a queue is done with one unit of `total`: it leaves after its last, else its progress is one greater. -/
def Progressed (s t : State) (f q total : Nat) (e : QEntry) : Prop :=
  ∃ v, (queueAt (fib t f) q).entries =
    if total ≤ e.prog + 1 then (queueAt (fib s f) q).entries.drop 1
    else { e with prog := e.prog + 1, sent := false, marks := [], view := v } :: (queueAt (fib s f) q).entries.drop 1

/-! ## Tiles of accumulators -/

/-- A logical tile of the executing fibre is at hand in physical tile `p`: mapped, and resident where it is pinned (R299, R324). -/
def TileReady (s : State) (t p : Nat) : Prop :=
  physTile s s.cur t = .ok p ∧ ∀ k e, pinOf s s.cur t = some (k, e) → e.res = true

/-- An element of a physical tile. -/
def accAt (s : State) (u p i j : Nat) : Nat := (SMap.get 0 s.acc (elemKey u p i j)).toNat

/-- No element outside the rows of a mask of a physical tile is changed. -/
def OtherRows (s t : State) (u p : Nat) (m : LaneMask) : Prop :=
  ∀ k, (∀ i ∈ lanesOf m, ∀ j < 64, k ≠ elemKey u p i j) → SMap.get 0 t.acc k = SMap.get 0 s.acc k

/-- The side registers of every row outside a mask of a physical tile are unchanged. -/
def OtherSides (s t : State) (u p : Nat) (m : LaneMask) : Prop :=
  ∀ k, (∀ i ∈ lanesOf m, k ≠ rowKey u p i) → SMap.get sideReset t.side k = SMap.get sideReset s.side k

/-- An element of C after a number of k-steps over the products of a row of A and a row of B; `g` is the factor of the first (R283, R284). -/
def mmaElem (g : Option Nat) (x y : Nat → List Machine.Num) (c : Nat) : Nat → Nat
  | 0 => c
  | k + 1 =>
    let old := numF32 (mmaElem g x y c k)
    roundF32 (sumNum .rne ((match k, g with
      | 0, some v => old.mul (numF32 v)
      | _, _ => old) :: List.zipWith Machine.Num.mul (x k) (y k)))

/-- What MMA needs to run to its end (R280, R308, R312): its names and tile at hand, no instruction stopped, no pre-emption, nothing queued,
and operands that can be read: `x` k-step by row of A, `y` k-step by row of B. -/
structure MmaReady (a : Args) (s : State) (p : Nat) (ra rb : Reservation) (x y : Nat → Nat → List Machine.Num) : Prop where
  fibre : hasFib s s.cur = true ∧ (me s).sq = [] ∧ s.readPts = [] ∧ s.stopPts = [] ∧ progValid (me s) = false ∧ active s a ≠ 0
  tile  : TileReady s (codeOf a.s2 % 16) p
  names : FMap.find (me s).obs (obName a.s0) = some ra ∧ FMap.find (me s).obs (obName a.s1) = some rb
  sizes : ra.rows = 32 ∧ rb.rows = 64 ∧ ra.klen = rb.klen ∧ 16 ≤ ra.klen
  clean : ∀ i ∈ lanesOf (active s a), rowPoisoned s (subOf s.cur) p i = false
  rowsA : ∀ k < ra.klen / 16, ∀ i ∈ lanesOf (active s a), stepElems s s.cur ra k i = .ok (x k i)
  rowsB : ∀ k < ra.klen / 16, ∀ j < 64, stepElems s s.cur rb k j = .ok (y k j)

/-- What an accumulator instruction leaves: its fibre but for its lanes, the other fibres, the registers, every byte of memory. -/
structure TileOnly (s t : State) : Prop where
  lanes  : ∀ l < 32, laneAt (me t) l = onward s l
  fibre  : me t = { me s with lanes := (me t).lanes }
  others : OtherFibres s t s.cur
  ring   : t.ring = s.ring
  bytes  : SameBytes s t

/-- The pieces of a row's access, and the conditions under which it is made at once. -/
def rowPieces (a : Args) (s : State) (n kind : Nat) (l : Nat) : Except Flt (List Piece) := checked a s n kind .wide l

/-- Register r of MREAD's block (R316): f32 elements or side registers, or pairs of bf16. -/
def readOut (t : Ty) (sel : Nat) (elem : Nat → Nat) (d : Word × Word × Word × Bool) (r : Nat) : Nat :=
  if t = .f32 then
    if sel < 8 then elem (8 * sel + r)
    else if r = 0 then d.1.toNat else if r = 1 then d.2.1.toNat else if r = 2 then d.2.2.1.toNat else if r = 3 then d.2.2.2.toNat else 0
  else toBf16 (elem (16 * sel + 2 * r)) + 65536 * toBf16 (elem (16 * sel + 2 * r + 1))

/-- What MDELTA of `n` tokens needs to run to its end (R308, R329): its tile at hand, no pre-emption, and nothing poisoned. -/
structure DeltaReady (a : Args) (s : State) (p n : Nat) : Prop where
  fibre  : hasFib s s.cur = true ∧ s.stopPts = [] ∧ s.readPts = [] ∧ progValid (me s) = false ∧ active s a ≠ 0
  tokens : n = codeOf a.s2 / 16 % 8 + 1
  tile   : TileReady s (codeOf a.s2 % 16) p
  clean  : ∀ l ∈ lanesOf (active s a), rowPoisoned s (subOf s.cur) p l = false

/-- A row of a lane after `n` tokens with keys `k` (R286, R287, R329). -/
def afterTokens (a : Args) (s : State) (p : Nat) (k : Nat → List Nat) (l n : Nat) : List Nat :=
  (List.range n).foldl (fun row t => deltaRow row (k t) (blockReg s a.s1 l t) (blockReg s a.s3 l (2 * t)) (blockReg s a.s3 l (2 * t + 1)))
    (tileRow s (subOf s.cur) p l)

/-- No register of `n` from an operand on is one of the `k` from `d` on, in any lane of a mask. -/
def Apart (s : State) (m : LaneMask) (o : Opnd) (n : Nat) (d : Reg) (k : Nat) : Prop :=
  ∀ r g b, o = .reg r g b → ∀ l ∈ lanesOf m, ∀ j ∈ lanesOf m,
    (∀ w ∈ ringPlaces s l (List.range n) r, w ∉ ringPlaces s j (List.range k) d) ∧ ∀ w ∈ oPlaces l (List.range n) r, w ∉ oPlaces j (List.range k) d

/-- The eviction of an entry of a table, whose blocks are written (R322): the entry with the next EPOCH. -/
def nextEpoch (e : OwnEntry) : OwnEntry := { e with epoch := (e.epoch + 1) % 2 ^ 32 }

/-- The image of an entry is written for a fibre, or for none, and every write succeeds; `w` is the state after the writes (R321, R322). -/
def ImageWritten (s : State) (f : Option Nat) (u : Nat) (e : OwnEntry) (w : State) : Prop :=
  imageWaits s f (u / 4) e true = false ∧ writeBlocks f (u / 4) (nextEpoch e) (imageBlocks s u (nextEpoch e)) s = (w, none)

/-! ## Waits, launches and traps -/

/-- The lanes of the issue group wait, and will go on at the next instruction. -/
def Waits (s t : State) (k : WaitKind) : Prop :=
  ∃ w, (me t).waits = (me s).waits ++ [w] ∧ w.lanes = s.grp ∧ w.pc = s.ipc + 12 ∧ w.kind = k ∧ ∀ i < 32, laneAt (me t) i = laneAt (me s) i

/-- A wait of a fibre is over: it is gone, and its lanes are at its PC. -/
def Departed (s t : State) (f : Nat) (w : Wait) : Prop :=
  w ∉ (fib t f).waits ∧ ∀ i < 32, (laneAt (fib t f) i).pc = if w.lanes.getLsbD i then w.pc else (laneAt (fib s f) i).pc

/-- The continuation record a lane of SPAWN makes (R216). -/
def spawnRecord (a : Args) (s : State) (i : Nat) : SpoolRec :=
  { die := dieOf (coreOf s.cur), part := (me s).part, lid := (me s).lid, entry := BitVec.ofNat 64 (addrVal s a.s0 i),
    args := (List.range 12).map fun j => frameGet s s.cur i ((laneAt (me s) i).fp + opndNum a.s1 + j), time := s.tick, view := releaseView s s.cur 3 }

/-- The records of a partition, and of all, in a die's spool. -/
def spoolHeld (s : State) (die part : Nat) : Nat := (s.spool.filter fun r => r.die == die && r.part == part).length
def spoolTotal (s : State) (die : Nat) : Nat := (s.spool.filter fun r => r.die == die).length

/-- A fibre as it begins: every lane at the entry with an empty frame stack, none exited, parked or masked, its queues empty, its latches and the
registers outside the register file as R199 gives them. -/
structure Fresh (x : Fibre) (entry : BitVec 64) : Prop where
  lanes  : ∀ i < 32, laneAt x i = { laneAt x i with pc := entry, fp := 0, depth := 0, rb := 0, links := [], sblk := false, wait := .none, l0 := 0, l1 := 0 }
  masks  : x.parked = 0 ∧ x.stopped = 0 ∧ x.held = [] ∧ x.again = [] ∧ x.ganged = true
  empty  : x.waits = [] ∧ x.trapq = [] ∧ x.pendingAsync = [] ∧ x.hstack = [] ∧ x.sq = [] ∧ x.fetched = [] ∧ x.obs = []
  queues : ∀ q < 4, (queueAt x q).entries = [] ∧ (queueAt x q).stopped = false
  wdog   : x.wdLimit = 2 ^ 24 ∧ x.wdCount = 0
  regs   : x.fmode = 0 ∧ x.prog = 0 ∧ x.utvec = 0 ∧ x.tcause = 0 ∧ x.tpc = 0 ∧ x.taddr = 0 ∧ x.tinfo = 0
  preds  : ∀ n, SMap.get 0 x.preds n = 0
  others : (∀ n, SMap.get 0 x.aregs n = 0) ∧ ∀ n, SMap.get 0 x.oregs n = 0

/-- What the launch of a fibre writes (R198, R199, R349): its identity, its stack, its tables, and s0 to s15; the other s registers hold 0. -/
structure Launched (s : State) (x : Fibre) (l : Launch) (g s2 s3 : Nat) : Prop where
  ident  : x.part = l.part ∧ x.lid = l.lid ∧ x.klvl = l.klvl ∧ x.pgroot = l.root
  stack  : x.spb = BitVec.ofNat 64 (rf l.record 512 64 + g * (128 * kSpw l.kdesc + 512 * kLkn l.kdesc))
    ∧ x.lkb = x.spb + BitVec.ofNat 64 (128 * kSpw l.kdesc) ∧ x.spw = kSpw l.kdesc ∧ x.lkn = kLkn l.kdesc
  own    : x.lpb = BitVec.ofNat 64 (rf l.record 448 64 + 128 * kPriv l.kdesc * g) ∧ x.lpl = BitVec.ofNat 64 (4 * kPriv l.kdesc)
  set    : x.ktvec = (partOf s l.part).ktvec ∧ x.tdeleg = (partOf s l.part).tdeleg ∧ x.tenmax = (partOf s l.part).tenmax
  sregs  : SMap.get 0 x.sregs 0 = BitVec.ofNat 32 (rf l.record 128 32) ∧ SMap.get 0 x.sregs 1 = BitVec.ofNat 32 (rf l.record 160 32)
    ∧ SMap.get 0 x.sregs 2 = BitVec.ofNat 32 s2 ∧ SMap.get 0 x.sregs 3 = BitVec.ofNat 32 s3
    ∧ (∀ j < 12, SMap.get 0 x.sregs (4 + j) = BitVec.ofNat 32 (rf l.record (576 + 32 * j) 32)) ∧ ∀ j, 16 ≤ j → SMap.get 0 x.sregs j = 0

/-- The register file of a fibre as it begins (R199): its window is 0, and frame word `j` of lane `i` holds `v i j`, in a sub-ring of at least `need`
words. -/
def StartFrames (t : State) (f need : Nat) (v : Nat → Nat → Word) : Prop :=
  need ≤ (slotRec t (slotOf f)).z → ∀ i < 32, (∀ j < (slotRec t (slotOf f)).z, frameGet t f i j = v i j)
    ∧ ∀ j < (slotRec t (slotOf f)).win, ringGet t f i (windowWord t f j) = 0

/-- v registers at a fibre's start: v7 is the top of the lane-private space, the others are 0 (R199). -/
def startV (k : BitVec 512) (_ j : Nat) : Word := if j = 7 then BitVec.ofNat 32 (4 * kPriv k) else 0

/-- v registers at the start of a spawned warp: the ARG words of lane i's record in v0 to v6 and v8 to v12 (R203). -/
def spawnV (k : BitVec 512) (g : List SpoolRec) (i j : Nat) : Word :=
  if j = 7 then BitVec.ofNat 32 (4 * kPriv k)
  else match g[i]? with
    | some r => if j < 7 then r.args.getD j 0 else if j < 13 then r.args.getD (j - 1) 0 else 0
    | none => 0

/-- Words of a frame and its record on their way to memory: the pieces of the transfer stand ready to be written, apart from each other,
under one key, and no write of the fibre is queued (R224, R226, R227). -/
structure TransferReady (s : State) (f : Nat) (ps : List Piece) : Prop where
  plain : ∀ p ∈ ps, p.mt ≠ 3 ∧ (isHost p.loc && inMem p.loc) = false ∧ 0 < p.n ∧ p.loc / 128 = (p.loc + p.n - 1) / 128 ∧ ∀ q ∈ ps, q.key = p.key
  apart : ps.Pairwise fun p q => p.loc + p.n ≤ q.loc ∨ q.loc + q.n ≤ p.loc
  leaf  : leavesSet kWrite ps
  free  : undisturbed s (coreOf f) true ps ∧ (fib s f).sq = []
  objs  : s.objs = []

/-- The bytes at pieces, in order. -/
def bytesAt (s : State) (ps : List Piece) : List Byte := ps.flatMap fun p => readBytes s p.key p.loc p.n

/-- What the delivery of a trap entry to K leaves of the fibre's registers (R353 to R356): `m` its lanes, `pc` its resume PC. -/
structure TakenK (x y : Fibre) (e : TrapEntry) (m : LaneMask) (pc : BitVec 64) : Prop where
  level  : ∃ h, y.hstack = h :: x.hstack ∧ h.amask = x.amask ∧ h.klvl = x.klvl ∧ h.ganged = x.ganged ∧ h.tcause = x.tcause ∧ h.tpc = x.tpc
    ∧ h.taddr = x.taddr ∧ h.tinfo = x.tinfo ∧ h.entry = { e with pc := pc }
  mode   : y.klvl = true ∧ y.amask = m ∧ y.ganged = true
  cause  : y.tcause = BitVec.ofNat 64 (e.cause + 256 * x.klvl.toNat + 512 * e.async.toNat + 2048 * (x.hstack.length % 4))
  saved  : y.tpc = pc ∧ y.taddr = e.addr ∧ y.tinfo = e.info
  queue  : y.trapq = x.trapq.drop 1
  rest   : y.ktvec = x.ktvec ∧ y.utvec = x.utvec ∧ y.tdeleg = x.tdeleg ∧ y.fmode = x.fmode ∧ y.prog = x.prog ∧ y.pgroot = x.pgroot
    ∧ y.preds = x.preds ∧ y.sregs = x.sregs ∧ y.aregs = x.aregs ∧ y.oregs = x.oregs ∧ y.sq = x.sq ∧ y.queues = x.queues ∧ y.exited = x.exited

/-- A fibre whose head entry can be delivered at once: nothing waits, no frame has to move, every lane within its limits. -/
structure Deliverable (s : State) (f adv : Nat) (e : TrapEntry) (m : LaneMask) : Prop where
  head   : (fib s f).trapq.head? = some e ∧ m = e.lmask &&& liveMask (fib s f) ∧ m ≠ 0
  quiet  : (fib s f).waits = [] ∧ (fib s f).pendingAsync = []
  lanes  : ∀ i < 32, e.lmask.getLsbD i = true → (laneAt (fib s f) i).wait = .none ∧ (laneAt (fib s f) i).rb ≤ (laneAt (fib s f) i).fp
    ∧ spillFirst (slotRec s (slotOf f)).z adv (laneAt (fib s f) i) = false
  ring   : 64 ≤ (slotRec s (slotOf f)).z ∧ (slotRec s (slotOf f)).z ≤ 512

/-- The resume PC of an entry: its own, or that of its lowest lane where it is asynchronous (R350). -/
def resumePc (x : Fibre) (e : TrapEntry) (m : LaneMask) : BitVec 64 :=
  if e.async then (laneAt x ((lowest m).getD 0)).pc else e.pc

/-- A lane as a delivery enters the handler's frame (R353, R359). -/
def entered (adv : Nat) (hnd : Bool) (vec : BitVec 64) (l n : Lane) : Prop :=
  n.fp = l.fp + adv ∧ n.depth = l.depth + 1 ∧ n.pc = BitVec.ofNat 64 (vec.toNat / 4 * 4)
    ∧ n.links = { rpc := l.pc, adv := 16, hnd := hnd, cfp := l.fp } :: l.links

/-- A lane as ERET leaves the handler's frame (R360); a PC is a multiple of 4 (R17; log 52). -/
def handedBack (tpc : Option (BitVec 64)) (l n : Lane) : Prop :=
  ∃ r rest, l.links = r :: rest ∧ n.fp = r.cfp ∧ n.depth = l.depth - 1 ∧ n.links = rest ∧ n.pc = BitVec.ofNat 64 ((tpc.getD r.rpc).toNat / 4 * 4)

/-- The values of the special registers that a lane reads (R361). -/
def specialHolds (s : State) (f l n v : Nat) : Prop :=
  (n = 0x000 → v = l) ∧ (n = 0x001 → v = l / 4) ∧ (n = 0x010 → v = (laneAt (fib s f) l).depth) ∧ (n = 0x011 → v = (laneAt (fib s f) l).fp % 2 ^ 24)
    ∧ (n = 0x013 → v = (fib s f).amask.toNat) ∧ (n = 0x018 → v = (fib s f).fmode.toNat) ∧ (n = 0x019 → v = (fib s f).prog.toNat)
    ∧ (n = 0x026 → v = (fib s f).pgroot.toNat) ∧ (n = 0x030 → v = (fib s f).tcause.toNat) ∧ (n = 0x031 → v = (fib s f).tpc.toNat)
    ∧ (n = 0x032 → v = (fib s f).taddr.toNat) ∧ (n = 0x033 → v = (fib s f).tinfo.toNat) ∧ (n = 0x034 → v = (fib s f).ktvec.toNat)
    ∧ (n = 0x035 → v = (fib s f).utvec.toNat) ∧ (n = 0x036 → v = (fib s f).tdeleg.toNat) ∧ (n = 0x00B → v = s.tick % 2 ^ 64)
    ∧ (n = 0x009 → v = (fib s f).part) ∧ (n = 0x00A → (fib s f).ganged = true → v = 255)

/-- A trap of some executing lanes whose address and info no rule gives (log 17); the others go on. -/
def Refused (s t : State) (m : LaneMask) (cause : Nat) : Prop :=
  ∃ addr info, (me t).trapq = queuedWith s (entryOf s m cause s.ipc addr info [])
    ∧ (∀ i < 32, laneAt (me t) i = if m.getLsbD i then laneAt (me s) i else onward s i)
    ∧ OtherFibres s t s.cur ∧ t.ring = s.ring ∧ SameBytes s t

/-! ## The host's side -/

/-- The function is bound to a partition behind a port that is up, nothing that arrived on the port waits to be performed, the hub owes no host
a word, and no host holds a copy through a window. -/
def Bound (s : State) (vf part : Nat) : Prop :=
  vfLive s vf = some part ∧ (portAt s (vfPort vf)).inbound = [] ∧ s.hub.owed = [] ∧ ∀ x ∈ s.hub.ports, x.lines = []

/-- The relaxed writes that a port has accepted and not sent leave it, in order, before what it sends next (R158; log 57). -/
def leaving (s : State) (port : Nat) : List Output :=
  ((portAt s port).relaxed.filter fun w => !w.sent).map fun w => .hostWrite port w.pa w.data true

/-- Something is sent on the ordered channel of a port. -/
def Sent (s t : State) (port : Nat) (o : Output) : Prop := t.hub.outputs = s.hub.outputs ++ leaving s port ++ [o]

/-- The number that the next enrolment gets: one above every one that stands. -/
def nextSeq (s : State) : Nat := s.hub.waiters.foldl (fun n w => max n (w.seq + 1)) 0

/-- A byte of the host's memory after relaxed writes, in order. -/
def shown (l : List RelaxedWrite) (pa : Nat) (b : Byte) : Byte :=
  l.foldl (fun b w => if w.pa ≤ pa then (w.data[pa - w.pa]?).getD b else b) b

/-- The word a request or a doorbell writes in host memory (R379, R388). -/
def wordWritten (vf pa v : Nat) : Output := .hostWrite (vfPort vf) pa (toBytes 8 v) false

/-- The waiters a wake takes off a key: all for 0, else the oldest of them (R389). -/
def wokenOf (s : State) (part key count : Nat) : List WaitEntry :=
  if count = 0 then s.hub.waiters.filter (onKey part key) else (s.hub.waiters.filter (onKey part key)).take count

/-- The key under which a host's access reaches an address (R60). -/
def hostKey (s : State) (pa : Nat) : Nat := (hubPiece s pa 1 0).key

/-- The bytes a write arriving on a port leaves at its address, and those it does not touch. -/
def PutHome (s t : State) (pa : Nat) (l : List Byte) : Prop :=
  readBytes t (hostKey s pa) pa l.length = l
    ∧ ∀ loc, (loc < pa ∨ pa + l.length ≤ loc) → readByte t (hostKey s pa) loc = readByte s (hostKey s pa) loc

/-- A port after its failure: what it had accepted and not sent is lost, and no other byte of memory changes (R378). -/
structure Failed (s t : State) (port : Nat) : Prop where
  down   : (portAt t port).failed = true ∧ (portAt t port).relaxed = (portAt s port).relaxed.filter (·.sent) ∧ (portAt t port).flights = []
    ∧ (portAt t port).inbound = []
  told   : t.hub.errors = s.hub.errors ++ [.hostPort port false] ∧ t.hub.outputs = s.hub.outputs ++ [.signal (1 - port) sigPort]
  bytes  : ∀ loc, (∀ w ∈ (portAt s port).relaxed, w.sent = false → loc < w.pa ∨ w.pa + w.data.length ≤ loc) → rawByte t.mem loc = rawByte s.mem loc

/-- The lines that the caches hold under a key ID of a partition's window (R61, R381). -/
def linesOfPart (s : State) (part : Nat) : List Nat := partLines s part

/-- What a partition had running is gone, and every other partition's fibres and record are as they were. -/
structure Cleared (s t : State) (part : Nat) : Prop where
  fibres  : ∀ f x, (f, x) ∈ t.fibres ↔ (f, x) ∈ s.fibres ∧ x.part ≠ part
  tlb     : ∀ e, e ∈ t.tlb ↔ e ∈ s.tlb ∧ e.part ≠ part
  walks   : ∀ e, e ∈ t.walks ↔ e ∈ s.walks ∧ e.part ≠ part
  waiters : ∀ e, e ∈ t.hub.waiters ↔ e ∈ s.hub.waiters ∧ e.part ≠ part
  batches : ∀ b, b ∈ t.hub.batches ↔ b ∈ s.hub.batches ∧ b.part ≠ part
  pins    : ∀ u l, FMap.find t.own u = some l → ∀ e, some e ∈ l → e.part ≠ part
  parts   : ∀ q, q ≠ part → FMap.find t.hub.parts q = FMap.find s.hub.parts q

/-! ## The step -/

/-- Fibre `f` issues the group `g`, a part of the group whose turn it is (the slices that have the word `w`): no trap entry is delivered first, the
watchdog is not due, the word is at hand; `t` is the state in which the word is decoded (R190, R205, R405). -/
structure Issues (s : State) (f : Nat) (g : Group) (w : IWord) (t : State) : Prop where
  quiet : dueDelivery s f = none
  group : ∃ g0 x v, issueGroup (triedLanes s f) (fib s f) = some (g0, x) ∧ watchdogDue x = false
    ∧ takeWord (modFib s f fun _ => x) f g0 = .ok (some (w, g, v)) ∧ t = atGroup v f g

/-- An instruction's checks at its issue pass: it waits for no operand, and no register or link record that it reads holds a parity error
(R31, R235); `u` is the state in which it runs, its window complete and its issue counted (R136, R205, R341, R345). -/
structure Issued (t : State) (f : Nat) (g : Group) (w : IWord) (i : Instr) (u : State) : Prop where
  now    : ∃ a v, (opArgs i).map (·.2) = some a ∧ operandWaits t w.toNat a = (false, v)
    ∧ u = noteIssue (if namesWindow w.toNat then settleLate v f else v) f ∧ parityFaults u f w.toNat a g.mask = []
  links  : badLinks u f g.mask i = 0

/-- The move at hand is an issue of sub-core `u`, by fibre `f`: `t` is the state at its issue (R192, R341). -/
def Turn (s : State) (u f : Nat) (t : State) : Prop :=
  ∃ r sl, s.agenda = .issue u :: r ∧ s.hub.stopped = false ∧ issueSlot ({ s with agenda := r } : State) u = some sl
    ∧ t = takeTurn { s with agenda := r } u sl ∧ f = sl * 4 + (slotRec t sl).cur

/-- A slot has a time since when it is ready exactly where it is pending and ready, and one since when it is eligible exactly where it is active and
eligible for exchange (R339, R340). -/
def slotTimes (s : State) (k : Nat) (x : Slot) : Prop :=
  (x.readySince.isSome = true ↔ x.active = false ∧ slotReady s k = true)
    ∧ (x.eligibleSince.isSome = true ↔ x.active = true ∧ eligible s k = true)

end Sys2Proof.Claims
end

