-- ==== Sys2Proof/Certificates/Slice0/Obligations.lean ====
section
/-! DEFINITION. The statements for the provers. -/

open Sys2Proof Sys2Proof.Machine Sys2Proof.Claims

/-! ## Integer and logic instructions (spec/10) -/

/-- R249: the exact integer result of IADD, ISUB, IMUL, IMAD, IMULHI, IMIN, IMAX and IABS, wrapped or clamped to TY, is what D holds
afterwards; nothing else changes (R24, R29, R37). -/
def Sys2Proof.Claims.IntegerResults : Prop :=
  ComputesInt .iadd (fun _ x y _ => x + y) ∧ ComputesInt .isub (fun _ x y _ => x - y) ∧ ComputesInt .imul (fun _ x y _ => x * y)
    ∧ ComputesInt .imad (fun _ x y z => x * y + z) ∧ ComputesInt .imulhi (fun t x y _ => (x * y).fdiv ((2 ^ tyWidth t : Nat) : Int))
    ∧ ComputesInt .imin (fun _ x y _ => if x ≤ y then x else y) ∧ ComputesInt .imax (fun _ x y _ => if x ≤ y then y else x)
    ∧ ComputesInt .iabs (fun _ x _ _ => |x|)

/-- R250: IDIV writes the quotient through D and then the remainder through S3, with the two defined corners. -/
def Sys2Proof.Claims.IntegerDivide : Prop :=
  ∀ (a : Args) (s : State) (r q : Reg) (n b n' b' : Bool), hasFib s s.cur = true → a.d.opnd = .reg r n b → a.s3 = .reg q n' b' →
    ∃ u w t, exec (.idiv a) s = .next t
      ∧ Wrote s u (active s a) r (tyIs64 a.ty) true (fun l v =>
          if int1 a s l = 0 then v = 2 ^ tyWidth a.ty - 1
          else IntThroughD a.ty a.d.clamp ((int0 a s l).tdiv (int1 a s l)) v)
      ∧ Wrote u w (active s a) q (tyIs64 a.ty) false (fun l v =>
          IntThroughD a.ty false (int0 a s l - (int0 a s l).tdiv (int1 a s l) * int1 a s l) v)
      ∧ WentOn s w t

/-- R249, R250: the exact result of the integer instructions through D; IDIV's quotient and remainder with their two corners. -/
def Obligations.IntegerArithmetic : Prop := Claims.IntegerResults ∧ Claims.IntegerDivide

/-- R251: the bits of AND, OR, XOR and LOP3. -/
def Sys2Proof.Claims.BitwiseLogic : Prop :=
  ComputesBits .and (fun x y => x && y) ∧ ComputesBits .or (fun x y => x || y) ∧ ComputesBits .xor (fun x y => x != y)
    ∧ Computes .lop3 wideTy fun a s l v => v < 2 ^ tyWidth a.ty ∧ ∀ k < tyWidth a.ty,
        v.testBit k = (codeOf a.s3).testBit (((src0 a s l).testBit k).toNat + 2 * ((srcVal s a.ty 0 a.s1 l).testBit k).toNat
          + 4 * ((srcC a s l).testBit k).toNat)

/-- R252, R253: the shifts, with any count. -/
def Sys2Proof.Claims.Shifts : Prop :=
  Computes .shl wideTy (fun a s l v =>
      if tyIsLogical a.ty then v = src0 a s l * 2 ^ count1 s a l % 2 ^ tyWidth a.ty
      else IntThroughD a.ty a.d.clamp (int0 a s l * 2 ^ count1 s a l) v)
    ∧ Computes .shr wideTy (fun a s l v => v = if count1 s a l < tyWidth a.ty then src0 a s l / 2 ^ count1 s a l else 0)
    ∧ Computes .sar wideTy (fun a s l v => v < 2 ^ tyWidth a.ty ∧ intOf a.ty v = (int0 a s l).fdiv (2 ^ count1 s a l))
    ∧ Computes .shf narrow (fun a s l v =>
      ∀ hi lo n, hi = srcVal s .b32 0 a.s1 l → lo = srcVal s .b32 0 a.s0 l → n = min (srcVal s .n32 0 a.s2 l) 32 →
        v = if codeOf a.s3 = 0 then ((hi * 2 ^ 32 + lo) * 2 ^ n / 2 ^ 32) % 2 ^ 32 else ((hi * 2 ^ 32 + lo) / 2 ^ n) % 2 ^ 32)

/-- R254, R255: the bits of BFE and BFI, the counts of POPC and CLZ, and BREV. -/
def Sys2Proof.Claims.BitFields : Prop :=
  Computes .bfe wideTy (fun a s l v => ∀ p n, p = srcVal s .n32 0 a.s1 l → n = min (srcVal s .n32 0 a.s2 l) (tyWidth a.ty) →
      v < 2 ^ tyWidth a.ty ∧ ∀ k < tyWidth a.ty, v.testBit k =
        if n = 0 then false else if k < n then bitBeyond a.ty (src0 a s l) (p + k) else tySigned a.ty && bitBeyond a.ty (src0 a s l) (p + n - 1))
    ∧ Computes .bfi wideTy (fun a s l v => ∀ p n, p = srcVal s .n32 0 a.s2 l → n = min (srcVal s .n32 0 a.s3 l) (tyWidth a.ty) →
      v < 2 ^ tyWidth a.ty ∧ ∀ k < tyWidth a.ty, v.testBit k =
        if p ≤ k ∧ k < p + n then (src0 a s l).testBit (k - p) else (srcVal s a.ty 0 a.s1 l).testBit k)
    ∧ Computes .popc narrow (fun a s l v => v = (List.range (tyWidth a.ty)).countP fun k => (src0 a s l).testBit k)
    ∧ Computes .clz narrow (fun a s l v => (src0 a s l = 0 → v = tyWidth a.ty) ∧
      (∀ k < tyWidth a.ty, (src0 a s l).testBit k = true → (∀ j < tyWidth a.ty, k < j → (src0 a s l).testBit j = false) →
        v = tyWidth a.ty - 1 - k))
    ∧ Computes .brev wideTy (fun a s l v => v < 2 ^ tyWidth a.ty ∧ ∀ k < tyWidth a.ty, v.testBit (tyWidth a.ty - 1 - k) = (src0 a s l).testBit k)

/-- R251 to R255: the bits of the logic instructions, the shifts with any count, the fields and counts of bits. -/
def Obligations.LogicShiftsAndBits : Prop := Claims.BitwiseLogic ∧ Claims.Shifts ∧ Claims.BitFields

/-- R256 to R259: ISETP, SEL, MOV, MOVI and LEA. -/
def Sys2Proof.Claims.CompareSelect : Prop :=
  Decides .isetp (fun a s l => if a.ty = .b32 ∨ a.ty = .b64 then src0 a s l == srcB a s l else decide (int0 a s l < int1 a s l))
    ∧ Computes .sel wideTy (fun a s l v => v = if srcVal s .pred 0 a.s2 l = 1 then src0 a s l else srcVal s a.ty 0 a.s1 l)
    ∧ Computes .mov wideTy (fun a s l v => v = src0 a s l)
    ∧ Computes .movi wideTy (fun a _ _ v => a.ty ≠ .f64 → if a.ty = .s64 then intOf .s64 v = a.imm.toInt else v = a.imm.toNat)
    ∧ Computes .lea (fun _ => true) (fun a s l v => ((v : Int) - (srcVal s (if a.ty = .s32 then .s64 else .n64) 0 a.s0 l
        + intOf a.ty (srcVal s a.ty 0 a.s1 l) * 2 ^ codeOf a.s2)) % 2 ^ 64 = 0 ∧ v < 2 ^ 64)

/-- R260, R261: PLOP, P2S and S2P move predicates; S2P changes the predicates of its mask only. -/
def Sys2Proof.Claims.PredicateMoves : Prop :=
  Decides .plop (fun a s l => (codeOf a.s3).testBit ((srcVal s .pred 0 a.s0 l == 1).toNat + 2 * (srcVal s .pred 0 a.s1 l == 1).toNat
      + 4 * (srcVal s .pred 0 a.s2 l == 1).toNat))
    ∧ Computes .p2s narrow (fun _ s l v => v < 2 ^ 7 ∧ ∀ k < 7, v.testBit k = (SMap.get 0 (me s).preds k).getLsbD l)
    ∧ ∀ (a : Args) (s : State), hasFib s s.cur = true → ∃ t, exec (.s2p a) s = .next t
      ∧ (∀ k < 7, ∀ l < 32, (SMap.get 0 (me t).preds k).getLsbD l =
          if (codeOf a.s1).testBit k ∧ (active s a).getLsbD l = true then (srcVal s .b32 0 a.s0 l).testBit k
          else (SMap.get 0 (me s).preds k).getLsbD l)
      ∧ (∀ l < 32, laneAt (me t) l = if s.grp.getLsbD l then { laneAt (me s) l with pc := s.ipc + 12 } else laneAt (me s) l)
      ∧ me t = { me s with lanes := (me t).lanes, preds := (me t).preds, poison := (me t).poison, dirty := (me t).dirty }
      ∧ OtherFibres s t s.cur ∧ OnlyFibres s t

/-- R256 to R261: ISETP, SEL, MOV, MOVI, LEA, PLOP, P2S, S2P. -/
def Obligations.CompareSelectMove : Prop := Claims.CompareSelect ∧ Claims.PredicateMoves

/-! ## Cross-lane instructions (spec/10) -/

/-- R263: SHFL reads the source lane of its mode within the segment, or its own lane where that is not active, and writes the validity. -/
def Sys2Proof.Claims.Shuffle : Prop :=
  ∀ (a : Args) (s : State) (r : Reg) (n b : Bool), hasFib s s.cur = true → a.d.opnd = .reg r n b →
    ∃ u w t, exec (.shfl a) s = .next t
      ∧ Wrote s u (active s a) r (tyIs64 a.ty) true (fun i v =>
          v = src0 a s (if shuffleOk a s i then (shuffleFrom (shflControl a).1 (2 ^ (shflControl a).2) i (shflLane s a i)).1.toNat else i))
      ∧ (∀ q n' b', a.s3 = .reg q n' b' → WrotePred u w (active s a) q (shuffleOk a s))
      ∧ ((∀ q n' b', a.s3 ≠ .reg q n' b') → w = u)
      ∧ WentOn s w t

/-- R264: LANEWR gives each targeted active lane the value of the highest active lane that names it, and leaves the latches. -/
def Sys2Proof.Claims.LaneWrite : Prop :=
  ∀ (a : Args) (s : State) (r : Reg) (n b : Bool), hasFib s s.cur = true → a.d.opnd = .reg r n b →
    ∃ (hit : LaneMask) (u t : State), exec (.lanewr a) s = .next t
      ∧ (∀ j < 32, hit.getLsbD j = true ↔ (active s a).getLsbD j = true ∧ ∃ i ∈ lanesOf (active s a), srcVal s .n32 0 a.s1 i % 32 = j)
      ∧ Wrote s u hit r (tyIs64 a.ty) false (fun j v => ∀ i ∈ lanesOf (active s a), srcVal s .n32 0 a.s1 i % 32 = j →
          (∀ k ∈ lanesOf (active s a), srcVal s .n32 0 a.s1 k % 32 = j → k ≤ i) → v = src0 a s i)
      ∧ WentOn s u t

/-- R265: VOTE over the predicates of the active lanes. -/
def Sys2Proof.Claims.Vote : Prop :=
  ∀ (a : Args) (s : State) (r : Reg) (n b : Bool), hasFib s s.cur = true → a.d.opnd = .reg r n b →
    ∃ u t, exec (.vote a) s = .next t ∧ WentOn s u t
      ∧ (codeOf a.s1 = 0 → WrotePred s u (active s a) r fun _ => (lanesOf (active s a)).all fun i => srcVal s .pred 0 a.s0 i == 1)
      ∧ (codeOf a.s1 = 1 → WrotePred s u (active s a) r fun _ => (lanesOf (active s a)).any fun i => srcVal s .pred 0 a.s0 i == 1)
      ∧ (codeOf a.s1 = 2 → Wrote s u (active s a) r false true fun _ v => v = (lanesOf (active s a)).countP fun i => srcVal s .pred 0 a.s0 i == 1)
      ∧ (codeOf a.s1 = 3 → Wrote s u (active s a) r false true fun _ v => v < 2 ^ 32 ∧ ∀ i < 32,
          v.testBit i = ((active s a).getLsbD i && srcVal s .pred 0 a.s0 i == 1))
      ∧ (codeOf a.s1 = 4 → WrotePred s u (active s a) r fun _ =>
          ((lanesOf (active s a)).all fun i => srcVal s .pred 0 a.s0 i == 1) || (lanesOf (active s a)).all fun i => !(srcVal s .pred 0 a.s0 i == 1))

/-- R266: REDUX combines the active lanes, or those below each lane, with the identity where there are none. -/
def Sys2Proof.Claims.Reduce : Prop := Computes .redux wideTy ReduxOf

/-- R263 to R266: SHFL, LANEWR, VOTE, REDUX. -/
def Obligations.CrossLane : Prop := Claims.Shuffle ∧ Claims.LaneWrite ∧ Claims.Vote ∧ Claims.Reduce

/-! ## Floating point (spec/11, spec/12) -/

/-- R291, R26, R39: FADD, FMUL and FFMA round the exact result once under %fmode, scaled and clamped; the packed forms treat each half so. -/
def Obligations.FloatArithmetic : Prop :=
  ComputesFloat .fadd (fun m x y _ => sumNum m [x, y]) ∧ ComputesFloat .fmul (fun _ x y _ => x.mul y)
    ∧ ComputesFloat .ffma (fun m x y z => sumNum m [x.mul y, z])
    ∧ ComputesPacked .faddPk (fun a s x y _ v => v = floatThroughD a (rm s) (sumNum (RMode.ofCode (me s).fmode.toNat)
        [decodeFloat a.ty 0 x, decodeFloat a.ty 0 y]))
    ∧ ComputesPacked .fmulPk (fun a s x y _ v => v = floatThroughD a (rm s) ((decodeFloat a.ty 0 x).mul (decodeFloat a.ty 0 y)))
    ∧ ComputesPacked .ffmaPk (fun a s x y z v => v = floatThroughD a (rm s) (sumNum (RMode.ofCode (me s).fmode.toNat)
        [(decodeFloat a.ty 0 x).mul (decodeFloat a.ty 0 y), decodeFloat a.ty 0 z]))

/-- R279, R292: FMIN and FMAX give an operand, the number where the other is NaN. -/
def Sys2Proof.Claims.FloatMinMax : Prop :=
  Computes .fmin wideTy (fun a s l v => MinMaxOf false a (src0 a s l) (srcB a s l) v)
    ∧ Computes .fmax wideTy (fun a s l v => MinMaxOf true a (src0 a s l) (srcB a s l) v)
    ∧ ComputesPacked .fminPk (fun a _ x y _ v => MinMaxOf false a x y v)
    ∧ ComputesPacked .fmaxPk (fun a _ x y _ v => MinMaxOf true a x y v)

/-- R293, R297: FSETP's eight relations on values, and FCLASS's one-hot mask. -/
def Sys2Proof.Claims.FloatCompareClassify : Prop :=
  Decides .fsetp (fun a s l =>
      let x := decodeFloat a.ty 0 (src0 a s l)
      let y := decodeFloat a.ty 0 (srcVal s a.ty 0 a.s1 l)
      if codeOf a.s2 = 6 then x != .nan && y != .nan
      else if x = .nan ∨ y = .nan then codeOf a.s2 == 5 || codeOf a.s2 ≥ 7
      else match codeOf a.s2 with
        | 0 => numEq x y
        | 1 => numLess x y
        | 2 => numLess x y || numEq x y
        | 3 => numLess y x
        | 4 => numLess y x || numEq x y
        | 5 => !numEq x y
        | _ => false)
    ∧ Computes .fclass narrow (fun a s l v =>
      v = classOf (fmtOf a.ty (codeOf a.s2)) (decodeFloat a.ty (codeOf a.s2) (srcVal s a.ty (codeOf a.s2) a.s0 l)))

/-- R279, R292, R293, R297: FMIN, FMAX, FSETP, FCLASS. -/
def Obligations.FloatSelection : Prop := Claims.FloatMinMax ∧ Claims.FloatCompareClassify

/-- R295, R296: FCVT rounds once to a float, or to an integer held to its range with 0 for NaN; FRND keeps the format. -/
def Sys2Proof.Claims.FloatConvert : Prop :=
  Computes .fcvt wideTy (fun a s l v =>
      if tyIsFloat a.ty then v = roundTo (fmtOf a.ty (codeOf a.s2)) (cvtRounding a s l) a.d.clamp ((cvtSource a s l).scaleBy a.d.scale.toInt)
      else (intOf a.ty v = toIntType a.ty (cvtRounding a s l) (cvtSource a s l))
        ∧ (cvtSource a s l = .nan → v = 0) ∧ minValue a.ty ≤ intOf a.ty v ∧ intOf a.ty v ≤ maxValue a.ty
        ∧ (tyIs64 a.ty = false → intOf (if tySigned a.ty then .s32 else .n32) v = intOf a.ty v))
    ∧ Computes .frnd wideTy (fun a s l v => v = roundTo (fmtOf a.ty 0) (.mode .rne) false
        (roundIntegral (if codeOf a.s1 = 0 then RMode.ofCode (me s).fmode.toNat else RMode.ofCode (codeOf a.s1 - 1)) (decodeFloat a.ty 0 (src0 a s l))))

/-- R298: the special functions, with the table of special operands; every result is rounded under RNE whatever %fmode holds. -/
def Sys2Proof.Claims.SpecialFunctions : Prop :=
  ComputesSpecial .rcp 0 (fun a x => floatThroughD a (.mode .rne) (rcpVal x)) ∧ ComputesSpecial .rsq 1 (fun a x => floatThroughD a (.mode .rne) (rsqVal x))
    ∧ ComputesSpecial .sqrt 2 (fun a x => floatThroughD a (.mode .rne) (sqrtVal x))
    ∧ ComputesSpecial .ex2 3 (fun a x => transTo .ex2 (fmtOf a.ty 0) a.d.clamp a.d.scale.toInt x)
    ∧ ComputesSpecial .lg2 4 (fun a x => transTo .lg2 (fmtOf a.ty 0) a.d.clamp a.d.scale.toInt x)
    ∧ ComputesSpecial .sin 5 (fun a x => transTo .sin (fmtOf a.ty 0) a.d.clamp a.d.scale.toInt x)
    ∧ ComputesSpecial .cos 6 (fun a x => transTo .cos (fmtOf a.ty 0) a.d.clamp a.d.scale.toInt x)
    ∧ ComputesSpecial .tanh 7 (fun a x => transTo .tanh (fmtOf a.ty 0) a.d.clamp a.d.scale.toInt x)

/-- R295, R296, R298: FCVT, FRND and the special functions. -/
def Obligations.FloatConversion : Prop := Claims.FloatConvert ∧ Claims.SpecialFunctions

/-! ## Exact values and rounding (spec/11) -/

/-- The rational value of a finite number. -/
def Sys2Proof.Claims.ratOf (x : Machine.Num) : ℚ :=
  match x with
  | .fin neg m e => (if neg then -1 else 1) * (m : ℚ) * (2 : ℚ) ^ e
  | _ => 0

/-- The number is finite. -/
def Sys2Proof.Claims.finite (x : Machine.Num) : Prop := ∃ neg m e, x = .fin neg m e

/-- R270, R283, R291: products and sums of finite values are exact; a zero sum is the zero of its terms where they are all zeros of one sign,
and else −0 under RDN and +0 in the other modes. -/
def Sys2Proof.Claims.ExactArithmetic : Prop :=
  (∀ x y : Machine.Num, finite x → finite y → finite (x.mul y) ∧ ratOf (x.mul y) = ratOf x * ratOf y)
    ∧ (∀ (m : RMode) (l : List Machine.Num), (∀ x ∈ l, finite x) → finite (sumNum m l) ∧ ratOf (sumNum m l) = (l.map ratOf).sum)
    ∧ (∀ (m : RMode) (l : List Machine.Num), (∀ x ∈ l, finite x) → (l.map ratOf).sum = 0 →
        (∀ n : Bool, ∃ x ∈ l, ∀ e, x ≠ .fin n 0 e) → sumNum m l = .fin (m == .rdn) 0 0)
    ∧ (∀ (m : RMode) (n : Bool) (l : List Machine.Num), l ≠ [] → (∀ x ∈ l, ∃ e, x = .fin n 0 e) → sumNum m l = .fin n 0 0)
    ∧ (∀ (m : RMode) (x : Machine.Num), finite x → sumNum m [.inf false, x] = .inf false ∧ sumNum m [.inf true, x] = .inf true
        ∧ sumNum m [.inf false, .inf true] = .nan ∧ sumNum m [.nan, x] = .nan)

/-- R279, R293: the order of values is that of the rationals; −0 equals +0, and lies below it for FMIN and FMAX only. -/
def Sys2Proof.Claims.ValueOrder : Prop :=
  (∀ x y : Machine.Num, finite x → finite y → (numEq x y = true ↔ ratOf x = ratOf y) ∧ (numLess x y = true ↔ ratOf x < ratOf y))
    ∧ (∀ x : Machine.Num, finite x → numLess x (.inf false) = true ∧ numLess (.inf true) x = true ∧ numLess x (.inf true) = false)
    ∧ (∀ e f : Int, numLt (.fin true 0 e) (.fin false 0 f) = true ∧ numEq (.fin true 0 e) (.fin false 0 f) = true)

/-- R270, R279, R283, R291, R293: exact products and sums, and the order of values. -/
def Obligations.ExactValues : Prop := Claims.ExactArithmetic ∧ Claims.ValueOrder

/-- The formats of R268 and R271: the wide ones, and a narrow one of a format code. -/
def Sys2Proof.Claims.FormatOf (t : Ty) (nc : Nat) : Prop := t ∈ [Ty.f16, Ty.bf16, Ty.f32, Ty.f64] ∨ t = .b8 ∧ nc % 8 ≠ 0

/-- R268, R272, R277: rounding a value that a code of a format holds gives that code back, in every mode. -/
def Sys2Proof.Claims.RoundingKeepsCodes : Prop :=
  ∀ (t : Ty) (nc c : Nat) (m : RMode), Claims.FormatOf t nc → c < 2 ^ tyWidth t → decodeFloat t nc c ≠ .nan →
    roundTo (fmtOf t nc) (.mode m) false (decodeFloat t nc c) = c

/-- R277: RNE gives a nearest value, and RTZ never one of greater magnitude, over every finite code of the format; RTZ of a finite value is
finite, but for a negative one in an unsigned format. -/
def Sys2Proof.Claims.RoundingIsNearest : Prop :=
  ∀ (t : Ty) (nc : Nat) (x : Machine.Num), Claims.FormatOf t nc → finite x →
    (finite (decodeFloat t nc (roundTo (fmtOf t nc) (.mode .rne) false x)) → ∀ c, c < 2 ^ tyWidth t → finite (decodeFloat t nc c) →
      |ratOf (decodeFloat t nc (roundTo (fmtOf t nc) (.mode .rne) false x)) - ratOf x| ≤ |ratOf (decodeFloat t nc c) - ratOf x|)
    ∧ (t ≠ .b8 ∨ nc / 8 % 2 = 0 ∨ 0 ≤ ratOf x → finite (decodeFloat t nc (roundTo (fmtOf t nc) (.mode .rtz) false x)))
    ∧ |ratOf (decodeFloat t nc (roundTo (fmtOf t nc) (.mode .rtz) false x))| ≤ |ratOf x|

/-- R268, R272, R277: rounding to a wide or a narrow format keeps what the format holds, and otherwise gives a nearest or a no greater value. -/
def Obligations.Rounding : Prop := Claims.RoundingKeepsCodes ∧ Claims.RoundingIsNearest

/-! ## Control (spec/08, spec/09, spec/10) -/

/-- R246, R247: NOP only goes on; BRA and BRX send the active lanes to their targets, the others on. -/
def Sys2Proof.Claims.BranchTargets : Prop :=
  (∀ (a : Args) (s : State), hasFib s s.cur = true → ∃ t, exec (.nop a) s = .next t ∧ WentOn s s t)
    ∧ (∀ (a : Args) (s : State), hasFib s s.cur = true → ∃ t, exec (.bra a) s = .next t ∧
        WentTo s t s.cur s.grp fun i => if (active s a).getLsbD i then labelOf a s else s.ipc + 12)
    ∧ (∀ (a : Args) (s : State), hasFib s s.cur = true → (∀ i ∈ lanesOf (active s a), addrVal s a.s0 i % 4 = 0) →
        ∃ t, exec (.brx a) s = .next t ∧
        WentTo s t s.cur s.grp fun i => if (active s a).getLsbD i then BitVec.ofNat 64 (addrVal s a.s0 i) else s.ipc + 12)

/-- R247, R65: lanes of BRX whose target is no multiple of 4 stop with MISALIGN (KIND 2, LSZ 2) and each its own address; the others go on. -/
def Sys2Proof.Claims.MisalignedBranch : Prop :=
  ∀ (a : Args) (s : State) (m : LaneMask), hasFib s s.cur = true → queueRoom s = true →
    (∀ i < 32, m.getLsbD i = true ↔ (active s a).getLsbD i = true ∧ addrVal s a.s0 i % 4 ≠ 0) → m ≠ 0 →
    ∃ t addr own, exec (.brx a) s = .next t ∧ (∀ i < 32, m.getLsbD i = true → own[i]? = some (BitVec.ofNat 64 (addrVal s a.s0 i))) ∧
      Queued s t (entryOf s m cMISALIGN s.ipc addr (4 * kExec + 16 * 2) own) fun i =>
        if m.getLsbD i then laneAt (me s) i
        else if (active s a).getLsbD i then { laneAt (me s) i with pc := BitVec.ofNat 64 (addrVal s a.s0 i) } else onward s i

/-- R65, R246, R247: NOP, BRA and BRX, and the MISALIGN of a register target. -/
def Obligations.Branches : Prop := Claims.BranchTargets ∧ Claims.MisalignedBranch

/-- R240: CALL and CALLX push the link record, move FP and depth, and go to the target, in lanes whose frames fit. -/
def Sys2Proof.Claims.CallFrames : Prop :=
  (∀ (a : Args) (s : State), hasFib s s.cur = true → (∀ i ∈ lanesOf (active s a), callFits s (a.aux.toNat % 64) i = true) →
      ∃ t, exec (.call a) s = .next t ∧ LanesBecome s t fun i =>
        if (active s a).getLsbD i then called s (a.aux.toNat % 64) (labelOf a s) (laneAt (me s) i) else onward s i)
    ∧ ∀ (a : Args) (s : State), hasFib s s.cur = true →
      (∀ i ∈ lanesOf (active s a), callFits s (a.aux.toNat % 64) i = true ∧ addrVal s a.s0 i % 4 = 0) →
      ∃ t, exec (.callx a) s = .next t ∧ LanesBecome s t fun i =>
        if (active s a).getLsbD i then called s (a.aux.toNat % 64) (BitVec.ofNat 64 (addrVal s a.s0 i)) (laneAt (me s) i) else onward s i

/-- R228: a CALL past the word limit traps STACK_OVERFLOW with LIM 0, past the link limit with LIM 1; nothing is pushed. -/
def Sys2Proof.Claims.StackOverflow : Prop :=
  ∀ (a : Args) (s : State) (lim : Nat), hasFib s s.cur = true → queueRoom s = true → active s a ≠ 0 →
    (∀ i ∈ lanesOf (active s a), if lim = 0 then (me s).spw < (laneAt (me s) i).fp + a.aux.toNat % 64 + 64
      else lim = 1 ∧ (laneAt (me s) i).fp + a.aux.toNat % 64 + 64 ≤ (me s).spw ∧ (me s).lkn < (laneAt (me s) i).depth + 1) →
    ∃ t, exec (.call a) s = .next t ∧ Queued s t (entryOf s (active s a) cSTACK s.ipc 0 lim []) fun i =>
      if (active s a).getLsbD i then laneAt (me s) i else onward s i

/-- R228, R240: CALL and CALLX push a frame, or trap STACK_OVERFLOW. -/
def Obligations.Calls : Prop := Claims.CallFrames ∧ Claims.StackOverflow

/-- R241: RET restores FP, depth and PC from the newest record and releases it. A PC taken from a record loses its low two bits, the model's
choice (log 52). -/
def Sys2Proof.Claims.Returns : Prop :=
  ∀ (a : Args) (s : State), hasFib s s.cur = true → (∀ i ∈ lanesOf (active s a), returns (laneAt (me s) i) = true) →
    ∃ t, exec (.ret a) s = .next t ∧ LanesBecome s t fun i => if (active s a).getLsbD i then returned (laneAt (me s) i) else onward s i

/-- R211: EXIT ends the active lanes; when none is left and nothing is outstanding, the fibre's place is free. RET at depth 0 does the same (R241). -/
def Sys2Proof.Claims.Exits : Prop :=
  (∀ (a : Args) (s : State), hasFib s s.cur = true → liveMask (me s) &&& ~~~ active s a ≠ 0 →
      ∃ t, exec (.exit a) s = .next t ∧ (me t).exited = (me s).exited ||| active s a ∧ OtherFibres s t s.cur ∧ OnlyFibres s t)
    ∧ (∀ (a : Args) (s : State), hasFib s s.cur = true → active s a ≠ 0 → liveMask (me s) &&& ~~~ active s a = 0 → (me s).sq = [] →
      (∀ q < 4, (queueAt (me s) q).entries = [] ∨ (queueAt (me s) q).stopped = true) →
      ∃ t, exec (.exit a) s = .next t ∧ hasFib t s.cur = false)
    ∧ (∀ (a : Args) (s : State), hasFib s s.cur = true → (∀ i ∈ lanesOf (active s a), (laneAt (me s) i).depth = 0) →
      exec (.ret a) s = exec (.exit a) s)

/-- R211, R241: RET pops a frame, EXIT ends lanes; the low two bits of a record's PC are dropped (log 52). -/
def Obligations.ReturnsAndExits : Prop := Claims.Returns ∧ Claims.Exits

/-- R212, R192: YIELD clears the watchdog's count, goes on, and passes the slot to another ready fibre where there is one. -/
def Sys2Proof.Claims.Yields : Prop :=
  ∀ (a : Args) (s : State), hasFib s s.cur = true → (slotRec s (slotOf s.cur)).cur < 4 →
    ∃ t, exec (.yield a) s = .next t ∧ (∀ i < 32, laneAt (me t) i = onward s i)
      ∧ me t = { me s with lanes := (me t).lanes, wdCount := 0 } ∧ OtherFibres s t s.cur ∧ t = { s with fibres := t.fibres, slots := t.slots }
      ∧ (∀ k < 4, k ≠ (slotRec s (slotOf s.cur)).cur → k < (slotRec s (slotOf s.cur)).nfib → slotOf s.cur * 4 + k ≠ s.cur →
          (FMap.find s.slots (slotOf s.cur)).isSome = true → readyFib s (slotOf s.cur * 4 + k) = true →
          (slotRec t (slotOf s.cur)).cur ≠ (slotRec s (slotOf s.cur)).cur ∧ (slotRec t (slotOf s.cur)).cur < (slotRec s (slotOf s.cur)).nfib)

/-- R213: REGANG parks its lanes at its PC; with the last live lane every parked lane goes on and the warp is ganged. -/
def Sys2Proof.Claims.Regangs : Prop :=
  ∀ (a : Args) (s : State), hasFib s s.cur = true → (me s).parked &&& (s.grp &&& ~~~ active s a) = 0 →
    (∀ i < 32, (active s a).getLsbD i = true → (laneAt (me s) i).pc = s.ipc) →
    ∃ t, exec (.regang a) s = .next t ∧ OtherFibres s t s.cur ∧ OnlyFibres s t
      ∧ (liveMask (me s) &&& ~~~ ((me s).parked ||| active s a) ≠ 0 → (me t).parked = (me s).parked ||| active s a ∧ (me t).ganged = (me s).ganged
          ∧ ∀ i < 32, laneAt (me t) i = if (active s a).getLsbD i then laneAt (me s) i else onward s i)
      ∧ (liveMask (me s) ≠ 0 → (me s).amask = BitVec.allOnes 32 → liveMask (me s) &&& ~~~ ((me s).parked ||| active s a) = 0 →
          (me t).parked = 0 ∧ (me t).ganged = true
          ∧ ∀ i < 32, ((me s).parked ||| active s a).getLsbD i = true → (laneAt (me t) i).pc = (laneAt (me s) i).pc + 12)

/-- R192, R212, R213: YIELD and REGANG. -/
def Obligations.YieldsAndRegangs : Prop := Claims.Yields ∧ Claims.Regangs

/-- R248: TRAP queues SERVICE_CALL with its code and 0xFF above it, its lanes past it; BKPT queues BREAKPOINT, its lanes at it. -/
def Obligations.TrapInstructions : Prop :=
  (∀ (a : Args) (s : State), hasFib s s.cur = true → queueRoom s = true → active s a ≠ 0 →
      ∃ t, exec (.trap a) s = .next t ∧
        Queued s t (entryOf s (active s a) cSERVICE (s.ipc + 12) 0 (a.imm.toNat % 2 ^ 24 + 255 * 2 ^ 24) []) (onward s))
    ∧ ∀ (a : Args) (s : State), hasFib s s.cur = true → queueRoom s = true → active s a ≠ 0 →
      ∃ t, exec (.bkpt a) s = .next t ∧ Queued s t (entryOf s (active s a) cBREAK s.ipc 0 (a.imm.toNat % 2 ^ 24) []) fun i =>
        if (active s a).getLsbD i then laneAt (me s) i else onward s i

/-- R409, R410: IPREF changes no register and no byte of memory; IFENCE, once the fibre's stores are performed, discards every fetched
instruction of its slices. Both go on. -/
def Sys2Proof.Claims.FetchControl : Prop :=
  (∀ (a : Args) (s : State), hasFib s s.cur = true → noWriteTenure s → ∃ t, exec (.ipref a) s = .next t ∧ (∀ i < 32, laneAt (me t) i = onward s i)
      ∧ t.ring = s.ring ∧ SameBytes s t ∧ me t = { me s with lanes := (me t).lanes } ∧ OtherFibres s t s.cur)
    ∧ ∀ (a : Args) (s : State), hasFib s s.cur = true → (me s).sq = [] → ∃ t, exec (.ifence a) s = .next t ∧ (∀ i < 32, laneAt (me t) i = onward s i)
      ∧ me t = { me s with lanes := (me t).lanes, fetched := [] } ∧ OtherFibres s t s.cur ∧ OnlyFibres s t

/-! ## Memory (spec/02, spec/03, spec/05) -/

/-- R85, R89: LD places the bytes at the lane's address, the fibre's own queued writes seen, in D; no byte and no other register changes. An
.sc load also asks for an empty store queue and no flush to wait for (R131, R160); a load into the window, that its data return at its issue
(R136). -/
def Sys2Proof.Claims.RegisterLoads : Prop :=
  ∀ (a : Args) (s : State) (ps : Nat → List Piece) (r : Reg) (n b : Bool), hasFib s s.cur = true → scClear s a →
    (windowDst a.d.opnd ≠ none → s.latePts.head? ≠ some true) →
    a.d.opnd = .reg r n b → (regUniform r = true → (accessLanes s a).length ≤ 1) →
    (∀ l ∈ accessLanes s a, checked a s (tyWidth a.ty / 8) kRead .single l = .ok (ps l) ∧ plainPieces s kRead false (ps l)
      ∧ loadDrains (me s) (ps l) = false) →
    ∃ u t, exec (.ld a) s = .next t
      ∧ Wrote (scBegun s a) u (accessMask s a) r (tyIs64 a.ty) true (fun l v => v = loadedValue a.ty (loadBytes s a.space.toNat (ps l))
          % 2 ^ (if tyIs64 a.ty || !(aWords r).isEmpty then 64 else 32))
      ∧ WentOn s u { u with fibres := t.fibres } ∧ t.ring = u.ring ∧ SameBytes s t

/-- R90: LDX places the words of a 16- or 32-byte block in successive registers; no byte and no other register changes. -/
def Sys2Proof.Claims.BlockLoads : Prop :=
  ∀ (a : Args) (s : State) (ps : Nat → List Piece) (r : Reg) (n b : Bool) (k : Nat), hasFib s s.cur = true → scClear s a →
    (windowDst a.d.opnd ≠ none → s.latePts.head? ≠ some true) → k = (if a.ty = .b64 then 8 else 4) →
    a.d.opnd = .reg r n b → latched r = true → 8 ≤ (slotRec s (slotOf s.cur)).z → (slotRec s (slotOf s.cur)).z ≤ 512 → (∀ q, r = .o q → q.val = 0 ∨ q.val = 4 ∧ k = 4) →
    (∀ l ∈ accessLanes s a, checked a s (4 * k) kRead .wide l = .ok (ps l) ∧ plainPieces s kRead false (ps l) ∧ loadDrains (me s) (ps l) = false) →
    ∃ t, exec (.ldx a) s = .next t
      ∧ (∀ l ∈ accessLanes s a, ∀ j < k, (regGet32 t s.cur l r j).toNat = ofBytes (((loadBytes s a.space.toNat (ps l)).drop (4 * j)).take 4))
      ∧ (∀ w, (∀ l ∈ accessLanes s a, w ∉ ringPlaces s l (List.range k) r) → SMap.get 0 t.ring w = SMap.get 0 s.ring w)
      ∧ (∀ w, (∀ l ∈ accessLanes s a, w ∉ oPlaces l (List.range k) r) → SMap.get 0 (me t).oregs w = SMap.get 0 (me s).oregs w)
      ∧ (∀ l < 32, laneAt (me t) l = onward s l)
      ∧ me t = { me (scBegun s a) with lanes := (me t).lanes, oregs := (me t).oregs, poison := (me t).poison, dirty := (me t).dirty }
      ∧ SameBytes s t ∧ OtherFibres s t s.cur

/-- R136: a load into the window whose data return later goes on with the old value in the register; when they return, or the fibre fences,
the register takes the word loaded. -/
def Sys2Proof.Claims.LateLoads : Prop :=
  (∀ (a : Args) (s : State) (ps : Nat → List Piece) (x : Fin 32) (n b : Bool) (r : List Bool), hasFib s s.cur = true → a.ord.toNat ≠ 3 →
      a.ty = .b32 → a.d.opnd = .reg (.x x) n b → s.latePts = true :: r →
      (∀ l ∈ accessLanes s a, checked a s 4 kRead .single l = .ok (ps l) ∧ plainPieces s kRead false (ps l)
        ∧ loadDrains (me s) (ps l) = false) →
      ∃ t, exec (.ld a) s = .next t ∧ t.ring = s.ring ∧ (∀ l < 32, (laneAt (me t) l).pc = (onward s l).pc) ∧ SameBytes s t
        ∧ (me t).late = (me s).late ++ (accessLanes s a).map fun l => (l, x.val, BitVec.ofNat 32 (ofBytes (loadBytes s a.space.toNat (ps l)))))
    ∧ ∀ (s : State) (f l j : Nat) (v : Word), hasFib s f = true → (fib s f).late = [(l, j, v)] →
      ringGet (settleLate s f) f l (windowWord s f j) = v ∧ (fib (settleLate s f) f).late = []

/-- R85, R89, R90, R136: loads and block loads, and window loads whose data return later. Which window loads return later is data of the
state, the model's own (log 49). -/
def Obligations.Loads : Prop := Claims.RegisterLoads ∧ Claims.BlockLoads ∧ Claims.LateLoads

/-- R89, R90, R94, R132: ST, STX and the reductions queue their writes in lane order; memory changes only when the queue drains. -/
def Sys2Proof.Claims.StoresQueue : Prop :=
  Stores .st (fun a => tyWidth a.ty / 8) kWrite (fun _ => .single) (fun _ => none) storeData
    ∧ Stores .stx (fun a => if a.ty = .b64 then 32 else 16) kWrite (fun _ => .wide) (fun _ => none) storeBlock
    ∧ Stores .redAdd (fun a => tyWidth a.ty / 8) kRmw (fun a => if pcieForm 0 a.ty then .pcie else .other)
      (fun a => some (0, a.ty, a.d.clamp)) storeData
    ∧ Stores .redMin (fun a => tyWidth a.ty / 8) kRmw (fun a => if pcieForm 1 a.ty then .pcie else .other)
      (fun a => some (1, a.ty, a.d.clamp)) storeData
    ∧ Stores .redMax (fun a => tyWidth a.ty / 8) kRmw (fun a => if pcieForm 2 a.ty then .pcie else .other)
      (fun a => some (2, a.ty, a.d.clamp)) storeData
    ∧ Stores .redAnd (fun a => tyWidth a.ty / 8) kRmw (fun a => if pcieForm 3 a.ty then .pcie else .other)
      (fun a => some (3, a.ty, a.d.clamp)) storeData
    ∧ Stores .redOr (fun a => tyWidth a.ty / 8) kRmw (fun a => if pcieForm 4 a.ty then .pcie else .other)
      (fun a => some (4, a.ty, a.d.clamp)) storeData
    ∧ Stores .redXor (fun a => tyWidth a.ty / 8) kRmw (fun a => if pcieForm 5 a.ty then .pcie else .other)
      (fun a => some (5, a.ty, a.d.clamp)) storeData

/-- R132, R94: the oldest entry of a store queue is performed: its bytes, or for a reduction the operation on what stood there, and no
other byte under its key; the rest of the queue stays. -/
def Sys2Proof.Claims.StoreDrains : Prop :=
  ∀ (s : State) (f : Nat) (e : SqEntry) (rest : List SqEntry), hasFib s f = true → (fib s f).sq = e :: rest → (fib s f).exiting = false →
    e.more = [] → e.bytes ≠ [] → e.loc / 128 = (e.loc + e.bytes.length - 1) / 128 →
    (e.ord ≠ 0 → fibReady s f e.scope = true) → e.mt ≠ 3 → (isHost e.loc && inMem e.loc) = false →
    (inMem e.loc = true → conflicts s (coreOf f) (e.loc / 128) true = []) → s.objs = [] →
    (e.red.isSome = true → poisoned s.mem e.loc e.bytes.length = false) →
    ∃ t, exec (.storeQueueDrain f) s = .next t ∧ (fib t f).sq = rest
      ∧ readBytes t e.key e.loc e.bytes.length = (match e.red with
          | some (op, ty, clamp) => toBytes e.bytes.length (atomNew op ty clamp (ofBytes (readBytes s e.key e.loc e.bytes.length)) (ofBytes e.bytes) 0)
          | none => e.bytes)
      ∧ ∀ loc, (loc < e.loc ∨ e.loc + e.bytes.length ≤ loc) → readByte t e.key loc = readByte s e.key loc

/-- R89, R90, R94, R132: stores and reductions join the store queue and leave it in order. -/
def Obligations.Stores : Prop := Claims.StoresQueue ∧ Claims.StoreDrains

/-- R91, R92: ATOM and ACAS return the old value and leave the new one. -/
def Obligations.AtomicUpdates : Prop :=
  Atomics .atomAdd 0 ∧ Atomics .atomMin 1 ∧ Atomics .atomMax 2 ∧ Atomics .atomAnd 3 ∧ Atomics .atomOr 4 ∧ Atomics .atomXor 5
    ∧ Atomics .atomExch 6 ∧ Atomics .acas 7

/-- R85, R87: a misaligned access of every active lane traps MISALIGN, with its kind and size, and accesses nothing. -/
def Obligations.MisalignedAccess : Prop :=
  Misaligns .ld (fun a => tyWidth a.ty / 8) kRead ∧ Misaligns .st (fun a => tyWidth a.ty / 8) kWrite
    ∧ Misaligns .ldx (fun a => if a.ty = .b64 then 32 else 16) kRead ∧ Misaligns .stx (fun a => if a.ty = .b64 then 32 else 16) kWrite
    ∧ Misaligns .atomAdd (fun a => tyWidth a.ty / 8) kRmw ∧ Misaligns .acas (fun a => tyWidth a.ty / 8) kRmw
    ∧ Misaligns .redAdd (fun a => tyWidth a.ty / 8) kRmw

/-- R95, R96: PREF changes no byte and no register. CCTL writes lines back or drops copies: every byte reads as before. -/
def Obligations.PrefetchAndCacheControl : Prop :=
  (∀ (a : Args) (s : State), hasFib s s.cur = true → noWriteTenure s → ∃ t, exec (.pref a) s = .next t ∧ SameBytes s t ∧ (∀ l < 32, laneAt (me t) l = onward s l)
      ∧ me t = { me s with lanes := (me t).lanes } ∧ t.ring = s.ring ∧ OtherFibres s t s.cur)
    ∧ CacheControl .cctlWb (fun a => a.space.toNat) ∧ CacheControl .cctlWbi (fun a => a.space.toNat) ∧ CacheControl .cctlUnclass (fun _ => 1)
    ∧ ∀ (a : Args) (s : State), hasFib s s.cur = true → ∃ t, exec (.cctlIvc a) s = .next t ∧ WentOn s { s with mem := t.mem } t
        ∧ t.mem = { s.mem with ccache := t.mem.ccache } ∧ ∀ k, FMap.find t.mem.ccache k = if constCore k = coreOf s.cur then none else FMap.find s.mem.ccache k

/-- R136, R140, R160: FENCE goes on at once when the fibre's stores are performed and its release waits for no flush, and the data of its window
loads have returned; else its lanes wait for what the ports had accepted, and FENCE_COMPLETE lets them go on under the same condition. -/
def Sys2Proof.Claims.Fences : Prop :=
  (∀ (a : Args) (s : State), hasFib s s.cur = true → (me s).sq = [] → s.readPts = [] → fibReady s s.cur a.scope.toNat = true →
      ∃ u t, exec (.fence a) s = .next t ∧ WentOn s u t ∧ me u = { me s with late := [], marks := [] } ∧ OtherFibres s u s.cur ∧ SameBytes s u
        ∧ ((me s).late = [] → u.ring = s.ring))
    ∧ (∀ (a : Args) (s : State), hasFib s s.cur = true → (me s).sq = [] → fibReady s s.cur a.scope.toNat = false →
      ∃ t, exec (.fence a) s = .next t ∧ me t = { me s with late := [], marks := marksOf s (me s).marks, waits := (me s).waits ++
        [{ lanes := s.grp, kind := .fence a.scope.toNat (decide (a.ord.toNat = 3)) false, pc := s.ipc + 12, since := s.tick }] })
    ∧ ∀ (f : Nat) (s : State) (w : Wait) (scope : Nat) (sc store : Bool), hasFib s f = true → (fib s f).sq = [] → s.readPts = [] →
      (fib s f).waits = [w] → w.kind = .fence scope sc store → fibReady s f scope = true →
      ∃ t, exec (.fenceComplete f) s = .next t ∧ (fib t f).waits = [] ∧ OnlyFibres s t ∧ OtherFibres s t f
        ∧ ∀ i < 32, laneAt (fib t f) i = if w.lanes.getLsbD i then { laneAt (fib s f) i with pc := w.pc } else laneAt (fib s f) i

/-- R142, R143: WAITA is done at once in lanes whose word differs from the expected value, else its lanes wait; a waiting lane is done
with 1 when its word differs, with 0 at its deadline, and the instruction ends with its last lane. -/
def Sys2Proof.Claims.WaitOnAddress : Prop :=
  (∀ (a : Args) (s : State) (p : Nat → Piece) (n : Fin 7) (ng ab : Bool), hasFib s s.cur = true → a.d.opnd = .reg (.p n) ng ab →
      (∀ l ∈ accessLanes s a, checked a s 4 kRead .monitor l = .ok [p l] ∧ plainPieces s kRead false [p l] ∧ loadDrains (me s) [p l] = false) →
      ∃ t, exec (.waita a) s = .next t ∧ SameBytes s t ∧ OtherFibres s t s.cur
        ∧ ((∀ l ∈ accessLanes s a, ofBytes (loadBytes s a.space.toNat [p l]) ≠ wordVal s a.s1 l % 2 ^ 32) →
            (∀ l < 32, laneAt (me t) l = onward s l) ∧ ∀ l < 32, (SMap.get 0 (me t).preds n.val).getLsbD l =
              (decide (l ∈ accessLanes s a) || (SMap.get 0 (me s).preds n.val).getLsbD l))
        ∧ ((∃ l ∈ accessLanes s a, ofBytes (loadBytes s a.space.toNat [p l]) = wordVal s a.s1 l % 2 ^ 32) →
            (∀ l < 32, laneAt (me t) l = laneAt (me s) l) ∧ ∃ w, (me t).waits = (me s).waits ++ [w] ∧ w.lanes = s.grp ∧ w.pc = s.ipc + 12))
    ∧ (∀ (f lane : Nat) (s : State) (w : Wait) (addr : List (Option (Nat × Nat))) (exp : List Word) (dl : List (Option Nat)) (reads : List Nat)
        (done : List (Option Bool)) (dst : Option Nat) (scope : Nat), hasFib s f = true → s.readPts = [] → lane < 32 → done.length = 32 → addr.length = 32 →
        waitaOf (fib s f) = some w → w.kind = .waita addr exp dl reads done dst false scope →
        (∀ i < 32, i ≠ lane → addr.getD i none ≠ none → done.getD i none ≠ none) →
        (waitaWakes s f lane w = true → (∀ p, waitaWord lane w = some p → inMem p.1 = true → conflicts s (coreOf f) (p.1 / 128) false = []) →
          ∃ t, exec (.waitaWake f lane) s = .next t ∧ waitEnds s t f w dst (done.set lane (some true)))
        ∧ (waitaExpired s lane w = true → ∃ t, exec (.waitaTimeout f lane) s = .next t ∧ waitEnds s t f w dst (done.set lane (some false))))

/-- R140, R142, R143: FENCE and WAITA. -/
def Obligations.FencesAndWaits : Prop := Claims.Fences ∧ Claims.WaitOnAddress

/-! ## Tiles (spec/04) -/

/-- R119: TOPEN makes an open home entry of the descriptor it reads and returns its handle. -/
def Sys2Proof.Claims.TileOpens : Prop :=
  ∀ (a : Args) (s : State) (ps : List Piece) (d : BitVec 512) (p : Piece) (n : Nat), hasFib s s.cur = true →
    checkAccess s s.cur (lane0 s) a.space.toNat (effAddr s a (lane0 s)) 64 64 kRead .wide false = .ok ps → plainPieces s kRead false ps →
    loadDrains (me s) ps = false → d = BitVec.ofNat 512 (ofBytes (loadBytes s a.space.toNat ps)) → tileInvalid d = false →
    globalPiece (afterRead s a.space.toNat ps) (myCtx s) (tileBase d) 1 kRead true = .ok p → walkClear s [p] → isDevice p.loc = false → tooLarge d = false →
    freeEntry s (homeDie p.loc) (homeSlice p.loc) = some n →
    ∃ t, exec (.topen a) s = .next t ∧ GoesOn s t ∧ SameBytes s t ∧ uniformHolds t a.d.opnd (handleOf s n)
      ∧ (∃ z, FMap.find t.homes n = some z ∧ z.kind = 0 ∧ z.part = (me s).part ∧ z.held = 0 ∧ z.exact = tileExact d ∧ z.pinned = false
          ∧ z.desc = d ∧ z.holders = [])
      ∧ ∀ m, m ≠ n → (FMap.find t.homes m).map (·.desc) = (FMap.find s.homes m).map (·.desc)

/-- R120, R112: TACQ grants an unconflicted request at once and says so in its predicate; else its lanes wait in arrival order, and
TACQ_GRANT grants the oldest waiting request when its conflicts are gone. -/
def Sys2Proof.Claims.TenureGranted : Prop :=
  (∀ (a : Args) (s : State) (q : TileReq) (y : Home) (i : Nat), hasFib s s.cur = true → q.h = scalar s a.s0 → scalar s a.s1 < 4 →
      q.wr = (scalar s a.s1).testBit 0 → q.pin = (scalar s a.s1).testBit 1 → y.part = (me s).part → tileTurn s s.cur q.h = true → Grantable s s.cur q y i →
      ∃ t, exec (.tacq a) s = .next t ∧ GoesOn s t ∧ predHolds s t a.d.opnd true ∧ Granted s t s.cur q y i)
    ∧ (∀ (a : Args) (s : State) (q : TileReq) (y : Home), hasFib s s.cur = true → q.h = scalar s a.s0 → scalar s a.s1 < 4 →
      q.wr = (scalar s a.s1).testBit 0 → q.pin = (scalar s a.s1).testBit 1 → homeOf s q.h = some y → y.part = (me s).part → y.kind ≠ 1 →
      tooLarge y.desc = false → (mapTile s (myCtx s) y.desc q.wr).fault = none → (mapTile s (myCtx s) y.desc q.wr).normal = true →
      myHolder s s.cur q.h = none → (pickEntry s (coreOf s.cur) []).isSome = true →
      tenureConflicts s s.cur q.h (mapTile s (myCtx s) y.desc q.wr).lines q.wr ≠ [] →
      ∃ t, exec (.tacq a) s = .next t ∧ t.tacqs = s.tacqs ++ [{ who := s.cur, h := q.h, wr := q.wr }] ∧ ∃ w, (me t).waits = (me s).waits ++ [w] ∧ w.lanes = s.grp ∧ w.pc = s.ipc + 12)
    ∧ ∀ (f : Nat) (s : State) (w : Wait) (q : TileReq) (dst : Option Nat) (y : Home) (i : Nat), hasFib s f = true →
      tacqWait s f = some (w, q, dst) → tileTurn s f q.h = true → Grantable s f q y i →
      ∃ t, exec (.tacqGrant f) s = .next t ∧ Granted s t f q y i ∧ (∀ g ∈ t.tacqs, g.who ≠ f)
        ∧ (∀ j < 32, (laneAt (fib t f) j).pc = if w.lanes.getLsbD j then w.pc else (laneAt (fib s f) j).pc)
        ∧ ∀ n : Fin 7, dst = some n.val → ∀ j < 32, w.lanes.getLsbD j = true → (SMap.get 0 (fib t f).preds n.val).getLsbD j = true

/-- R121: TREL frees the fibre's holder entry and answers whether the tenure was continuous; handle 0 answers 1. -/
def Sys2Proof.Claims.TenureReleased : Prop :=
  ∀ (a : Args) (s : State), hasFib s s.cur = true → (me s).sq = [] → s.readPts = [] → checkHandle s (me s).part (scalar s a.s0) = none →
    ∃ t, exec (.trel a) s = .next t ∧ GoesOn s t ∧ SameBytes s t
      ∧ (∀ i x, myHolder s s.cur (scalar s a.s0) = some (i, x) → holderAt t (coreOf s.cur) i = none
          ∧ predHolds s t a.d.opnd (x.cont && !x.brk && scalar s a.s0 != 0))
      ∧ (myHolder s s.cur (scalar s a.s0) = none → predHolds s t a.d.opnd (scalar s a.s0 == 0))

/-- R122: TSPLIT makes the tile a container of two children with their own descriptors, both held by the fibre in the parent's mode, with its
pin and with CONT where the parent's entry, which is freed, has it then; it returns their handles. -/
def Sys2Proof.Claims.TileSplits : Prop :=
  ∀ (a : Args) (s : State) (n m : Fin 32) (g1 g2 g3 g4 : Bool) (y : Home) (i n0 n1 : Nat) (x : Holder), hasFib s s.cur = true →
    a.d.opnd = .reg (.s n) g1 g2 → a.s3 = .reg (.s m) g3 g4 → n ≠ m → checkHandle s (me s).part (scalar s a.s0) = none →
    scalar s a.s1 < 2 ^ 26 → homeOf s (scalar s a.s0) = some y → y.kind ≠ 1 → myHolder s s.cur (scalar s a.s0) = some (i, x) → x.rvk = false →
    scalar s a.s1 % 4 < tileDims y.desc → 0 < scalar s a.s1 / 4 → scalar s a.s1 / 4 < tileExt y.desc (scalar s a.s1 % 4) →
    freeEntry s (homeOfHandle (scalar s a.s0) / 16384) (homeOfHandle (scalar s a.s0) / 512 % 32) = some n0 →
    freeEntry { s with homes := FMap.put s.homes n0 y } (homeOfHandle (scalar s a.s0) / 16384) (homeOfHandle (scalar s a.s0) / 512 % 32) = some n1 →
    twoEntries s (coreOf s.cur) i = true → FMap.sortedFrom 0 (holderTable s (coreOf s.cur)) = true →
    ∃ t z i0 i1 cont, exec (.tsplit a) s = .next t ∧ GoesOn s t
      ∧ i0 ≠ i1 ∧ ChildHeld s t x n0 i0 cont ∧ ChildHeld s t x n1 i1 cont ∧ holderAt t (coreOf s.cur) i = none ∧ (cont = true → x.cont = true)
      ∧ (holdersOf s (scalar s a.s0) = [(coreOf s.cur, i)] → (∀ g, hasFib s g = true → coreOf g = coreOf s.cur → (fib s g).sq = []) → cont = x.cont)
      ∧ FMap.find t.homes (homeOfHandle (scalar s a.s0)) = some z ∧ z.kind = 1 ∧ z.holders = [] ∧ z.child0 = n0 ∧ z.child1 = n1
      ∧ z.axis = scalar s a.s1 % 4 ∧ z.at_ = scalar s a.s1 / 4
      ∧ uniformHolds t a.d.opnd (handleOf s n0) ∧ uniformHolds t a.s3 (handleOf s n1)
      ∧ ((FMap.find t.homes n0).map (·.desc) = some (childDescs y.desc (scalar s a.s1 % 4) (scalar s a.s1 / 4)).1)
      ∧ ((FMap.find t.homes n1).map (·.desc) = some (childDescs y.desc (scalar s a.s1 % 4) (scalar s a.s1 / 4)).2)

/-- R123, R124, R107: TMERGE closes a container's children and opens it again; TCLOSE frees the entry, and its handle is no longer live. -/
def Sys2Proof.Claims.TilesClose : Prop :=
  (∀ (a : Args) (s : State) (y : Home), hasFib s s.cur = true → checkHandle s (me s).part (scalar s a.s0) = none →
      homeOf s (scalar s a.s0) = some y → y.kind = 1 →
      homeOfHandle (scalar s a.s0) ∉ (childrenOf s (homeOfHandle (scalar s a.s0))).flatMap (tileTree s 48) →
      ∃ t z, exec (.tmerge a) s = .next t ∧ FMap.find t.homes (homeOfHandle (scalar s a.s0)) = some z ∧ z.kind = 0
        ∧ ∀ c ∈ childrenOf s (homeOfHandle (scalar s a.s0)), FMap.find t.homes c = none)
    ∧ ∀ (a : Args) (s : State) (y : Home), hasFib s s.cur = true → (me s).sq = [] → homeOf s (scalar s a.s0) = some y → scalar s a.s0 ≠ 0 →
      y.part = (me s).part →
      ∃ t, exec (.tclose a) s = .next t ∧ FMap.find t.homes (homeOfHandle (scalar s a.s0)) = none ∧ handleLive t (scalar s a.s0) = false

/-- R107, R122 to R124: TSPLIT, TMERGE, TCLOSE. -/
def Obligations.TileShapes : Prop := Claims.TileSplits ∧ Claims.TilesClose

/-- R125: TQUERY answers 0 for a handle that is not live, else the status word. That MINE and PIN read 0 in an entry that is revoked is the
model's reading (log 34). -/
def Sys2Proof.Claims.TileQuery : Prop :=
  ∀ (a : Args) (s : State), hasFib s s.cur = true →
    (homeOf s (scalar s a.s0) = none → ∃ t, exec (.tquery a) s = .next t ∧ GoesOn s t ∧ uniformHolds t a.d.opnd 0)
    ∧ ∀ y, homeOf s (scalar s a.s0) = some y → y.part = (me s).part → y.kind < 4 →
      ∃ t v, exec (.tquery a) s = .next t ∧ GoesOn s t ∧ uniformHolds t a.d.opnd v ∧ v < 2 ^ 26 ∧ v % 2 = 1 ∧ v / 2 % 4 = y.kind
        ∧ (∀ i x, myHolder s s.cur (scalar s a.s0) = some (i, x) → v.testBit 3 = (!x.rvk && !x.wr) ∧ v.testBit 4 = (!x.rvk && x.wr)
            ∧ v.testBit 5 = x.cont ∧ v.testBit 6 = (!x.rvk && x.pin) ∧ v.testBit 7 = x.rvk)
        ∧ v.testBit 8 = y.exact ∧ v / 2 ^ 10 = y.holders.length % 65536

/-- R119, R125: TOPEN and TQUERY, with the model's reading of MINE and PIN in a revoked entry (log 34). -/
def Obligations.TileHandles : Prop := Claims.TileOpens ∧ Claims.TileQuery

/-- R114, R117: a recalled holder is revoked and unlinked; a pinned tenure at its deadline is broken, and TENURE_BROKEN is queued. -/
def Sys2Proof.Claims.TenureRecalled : Prop :=
  (∀ (core e : Nat) (s : State) (x : Holder), holderAt s core e = some x → x.rvk = false → recallDue s core e = true →
      ∃ t, exec (.holderSurrender core e) s = .next t ∧ holderAt t core e = some { x with rvk := true, cont := false, brk := x.brk || x.pin, freed := s.tick }
        ∧ ∀ z, FMap.find t.homes (homeOfHandle x.handle) = some z → (core, e) ∉ z.holders)
    ∧ ∀ (core e : Nat) (s : State) (x : Holder), holderAt s core e = some x → deadlineDue s core e = true →
      (∀ g, hasFib s g = true → coreOf g = core → (fib s g).sq = []) →
      ∃ t, exec (.pinnedDeadline core e) s = .next t ∧ holderAt t core e = some { x with rvk := true, cont := false, brk := true, freed := s.tick }
        ∧ (hasFib s (holderFib core x) = true → liveMask (fib s (holderFib core x)) ≠ 0 → (fib s (holderFib core x)).trapq.length < 8 →
            ∃ en, (fib t (holderFib core x)).trapq = (fib s (holderFib core x)).trapq ++ [en] ∧ en.cause = cTENURE ∧ en.async = true
              ∧ en.lmask = liveMask (fib s (holderFib core x)))

/-- R112, R114, R117, R120, R121: a tenure is granted, released, recalled. -/
def Obligations.Tenure : Prop := Claims.TenureGranted ∧ Claims.TenureReleased ∧ Claims.TenureRecalled

/-! ## Barrier objects (spec/07) -/

/-- R174: Evaluate flips PHASE and reloads ARR exactly when the object counts, nothing is outstanding and its reserved bits are 0; else it
leaves the object. -/
def Sys2Proof.Claims.BarrierEvaluate : Prop :=
  ∀ v : Nat, v < 2 ^ 128 →
    (objRes v = none → v.testBit 62 = true → bits v 32 16 = 0 → bits v 0 32 = 0 →
      (objEval v).testBit 63 = !v.testBit 63 ∧ bits (objEval v) 32 16 = bits v 64 16 ∧ bits (objEval v) 64 16 = bits v 64 16
        ∧ bits (objEval v) 0 32 = 0 ∧ ((objEval v).testBit 62 = true ↔ bits v 64 16 ≠ 0))
    ∧ ((objRes v ≠ none ∨ v.testBit 62 = false ∨ bits v 32 16 ≠ 0 ∨ bits v 0 32 ≠ 0) → objEval v = v)

/-- R186: BARINIT writes the object, BAREXP moves the expected bytes, BARARR counts arrivals and answers the old phase, each followed by
Evaluate. -/
def Sys2Proof.Claims.BarrierUpdates : Prop :=
  (∀ (a : Args) (s : State) (loc : Nat), hasFib s s.cur = true → srcVal s .n32 0 a.s1 (lane0 s) < 65536 → ObjReady a s kWrite loc →
      ∃ t, exec (.barinit a) s = .next t ∧ objBits t loc = (let n := srcVal s .n32 0 a.s1 (lane0 s)
        n * 2 ^ 32 + n * 2 ^ 64 + (if n = 0 then 0 else 2 ^ 62)))
    ∧ (∀ (a : Args) (s : State) (loc : Nat), hasFib s s.cur = true → ObjReady a s kRmw loc → objRes (objFound s loc) = none →
      -(2 ^ 31) ≤ toSigned 32 (bits (objFound s loc) 0 32) + toSigned 32 (srcVal s .s32 0 a.s1 (lane0 s)) →
      toSigned 32 (bits (objFound s loc) 0 32) + toSigned 32 (srcVal s .s32 0 a.s1 (lane0 s)) < 2 ^ 31 →
      ∃ t, exec (.barexp a) s = .next t ∧ objBits t loc = objEval (setBits (objFound s loc) 0 32
        (wrap 32 (toSigned 32 (bits (objFound s loc) 0 32) + toSigned 32 (srcVal s .s32 0 a.s1 (lane0 s))))))
    ∧ ∀ (a : Args) (s : State) (loc : Nat), hasFib s s.cur = true → ObjReady a s kRmw loc → objRes (objFound s loc) = none →
      arrCount s a.s1 ≤ bits (objFound s loc) 32 16 →
      ∃ t, exec (.bararr a) s = .next t ∧ objBits t loc = objEval (setBits (objFound s loc) 32 16 (bits (objFound s loc) 32 16 - arrCount s a.s1))
        ∧ predHolds s t a.d.opnd ((objFound s loc).testBit 63)

/-- R174, R186: the evaluation of a barrier object, and the instructions that update it. -/
def Obligations.BarrierObjects : Prop := Claims.BarrierEvaluate ∧ Claims.BarrierUpdates

/-- R186, R176: BARWAIT goes on when PHASE differs from its parity, else its lanes wait; a woken waiter goes on. -/
def Obligations.BarrierWaits : Prop :=
  (∀ (a : Args) (s : State) (loc : Nat), hasFib s s.cur = true → s.readPts = [] → ObjReady a s kRead loc → objRes (objFound s loc) = none →
      ((objFound s loc).testBit 63 ≠ (srcVal s .pred 0 a.s1 (lane0 s) == 1) → ∃ t, exec (.barwait a) s = .next t ∧ GoesOn s t)
      ∧ ((objFound s loc).testBit 63 = (srcVal s .pred 0 a.s1 (lane0 s) == 1) → s.objs.contains (objIndex loc) = true →
          ∃ t w, exec (.barwait a) s = .next t ∧ (me t).waits = (me s).waits ++ [w] ∧ w.lanes = s.grp ∧ w.pc = s.ipc + 12
            ∧ w.kind = .barwait loc (effAddr s a (lane0 s)) (srcVal s .pred 0 a.s1 (lane0 s) == 1) (decide (a.ord.toNat = 1)) a.scope.toNat false))
    ∧ ∀ (f : Nat) (s : State) (w : Wait) (loc addr scope : Nat) (parity acq : Bool), hasFib s f = true → s.readPts = [] →
      barwaitOf (fib s f) = some w → w.kind = .barwait loc addr parity acq scope true →
      ∃ t, exec (.barwaitWake f) s = .next t ∧ (fib t f).waits = (fib s f).waits.filter (fun v => v != w)
        ∧ ∀ i < 32, laneAt (fib t f) i = if w.lanes.getLsbD i then { laneAt (fib s f) i with pc := w.pc } else laneAt (fib s f) i

/-! ## Engine queues (spec/07) -/

/-- R165, R168, R170, R181, R183, R184: the queueing instructions add one entry to the queue they name and go on; QFENCE adds a join to
every queue of its mask, and with W its lanes wait for it. An entry keeps its tile's descriptor as it stands at the enqueue (DEDUCED, log 36);
a collective takes the partition's count (R182). -/
def Sys2Proof.Claims.EngineEnqueues : Prop :=
  Transfers .xcopy 0 ∧ Transfers .xgath 1 ∧ Transfers .xscat 2
    ∧ (∀ (a : Args) (s : State) (v : Nat) (d : BitVec 512) (e : QEntry), hasFib s s.cur = true → (me s).sq = [] → s.readPts = [] →
      opndNum a.s0 < 4 → Machine.queueRoom (me s) (opndNum a.s0) = true → scratchRecord s (scalar s a.s1) 64 = .ok v → d = BitVec.ofNat 512 v →
      collInvalid (collRanks s (me s).part).length d = false → bobjFault s (collOf d).bobj = none →
      e = { kind := .coll d (partOf s (me s).part).collCount (collRanks s (me s).part), prog := 0, root := (me s).pgroot, klvl := (me s).klvl, ch := a.ch.toNat, tile := 0,
            sent := false, view := [], marks := [] } →
      ∃ t, exec (.xcoll a) s = .next t ∧ GoesOn s t
        ∧ (queueAt (me t) (opndNum a.s0)).entries = (queueAt (me s) (opndNum a.s0)).entries ++ [e]
        ∧ (partOf t (me s).part).collCount = (partOf s (me s).part).collCount + 1
        ∧ ((collOf d).bobj = 0xFFFFFFFF → Enqueued s t (opndNum a.s0) e))
    ∧ (∀ (a : Args) (s : State) (e : QEntry), hasFib s s.cur = true → (me s).sq = [] → s.readPts = [] → opndNum a.s0 < 4 →
      Machine.queueRoom (me s) (opndNum a.s0) = true → scalar s a.s3 < 32 → scalar s a.s3 % 8 ≠ 7 → scalar s a.s3 / 8 ≠ 3 →
      addrVal s a.s1 (lane0 s) % 4 = 0 →
      (scalar s a.s3 / 8 = 1 ∨ ∃ ps, locateIn s s.cur (lane0 s) (if scalar s a.s3 / 8 = 0 then 2 else 5) (addrVal s a.s1 (lane0 s))
        (addrVal s a.s1 (lane0 s)) 4 kWrite false = .ok ps) →
      e = { kind := .flag (BitVec.ofNat 64 (addrVal s a.s1 (lane0 s))) (BitVec.ofNat 32 (srcVal s .b32 0 a.s2 (lane0 s)))
              (if scalar s a.s3 % 8 = 0 then 1 else scalar s a.s3 % 8) (scalar s a.s3 / 8),
            prog := 0, root := (me s).pgroot, klvl := (me s).klvl, ch := 0, tile := 0, sent := false, view := [], marks := [] } →
      ∃ t, exec (.xflag a) s = .next t ∧ Enqueued s t (opndNum a.s0) e)
    ∧ ∀ (a : Args) (s : State) (c : Nat), hasFib s s.cur = true → c = scalar s a.s0 → c < 32 →
      (∀ q < 4, c.testBit q = true → Machine.queueRoom (me s) q = true) →
      ∃ t, exec (.qfence a) s = .next t
        ∧ (∀ q < 4, (queueAt (me t) q).entries = (queueAt (me s) q).entries ++ (if c.testBit q then
            [{ kind := .join s.joinId, prog := 0, root := (me s).pgroot, klvl := (me s).klvl, ch := 0, tile := 0, sent := false, view := [], marks := [] }] else []))
        ∧ ((c.testBit 4 = false ∨ c % 16 = 0) → ∀ l < 32, laneAt (me t) l = onward s l)
        ∧ (c.testBit 4 = true → c % 16 ≠ 0 → ∃ w, (me t).waits = (me s).waits ++ [w] ∧ w.lanes = s.grp ∧ w.pc = s.ipc + 12
            ∧ w.kind = .qfence s.joinId (c % 16))

/-- R184, R185: a fibre that waits in QFENCE goes on when its join is at the head of every queue that still holds it; XRESUME answers all
ones for a queue that runs, else the head entry's progress, and the queue runs again, without its head where DROP is set. -/
def Sys2Proof.Claims.EngineJoinsAndResumes : Prop :=
  (∀ (f id m : Nat) (s : State) (w : Wait), hasFib s f = true → s.readPts = [] → (fib s f).exiting = false → qfenceWait (fib s f) = some (w, id, m) →
      (∀ q < 4, holdsJoin (queueAt (fib s f) q) id = true → ((queueAt (fib s f) q).entries.head?.map (·.kind)) = some (.join id)) →
      ∃ t, exec (.qfenceJoinComplete f) s = .next t ∧ (∀ q < 4, holdsJoin (queueAt (fib t f) q) id = false)
        ∧ (fib t f).waits = (fib s f).waits.filter (fun v => v != w)
        ∧ ∀ i < 32, laneAt (fib t f) i = if w.lanes.getLsbD i then { laneAt (fib s f) i with pc := w.pc } else laneAt (fib s f) i)
    ∧ ∀ (a : Args) (s : State), hasFib s s.cur = true → scalar s a.s1 < 2 → opndNum a.s0 < 4 →
      ((queueAt (me s) (opndNum a.s0)).stopped = false → ∃ t, exec (.xresume a) s = .next t ∧ GoesOn s t
          ∧ uniformHolds t a.d.opnd 0xFFFFFFFF ∧ (me t).queues = (me s).queues)
      ∧ ((queueAt (me s) (opndNum a.s0)).stopped = true → ∃ t, exec (.xresume a) s = .next t ∧ GoesOn s t
          ∧ (∀ e r, (queueAt (me s) (opndNum a.s0)).entries = e :: r → uniformHolds t a.d.opnd e.prog)
          ∧ queueAt (me t) (opndNum a.s0) = { queueAt (me s) (opndNum a.s0) with stopped := false, entries := if scalar s a.s1 = 1 then (queueAt (me s) (opndNum a.s0)).entries.drop 1
              else (queueAt (me s) (opndNum a.s0)).entries })

/-- R165, R168, R170, R181 to R185: entries join an engine queue; QFENCE and XRESUME. That an entry keeps the tile's descriptor of the enqueue is
the model's reading (log 36). -/
def Obligations.EngineQueues : Prop := Claims.EngineEnqueues ∧ Claims.EngineJoinsAndResumes

/-- R169, R171, R172, R174, R177, R178: WINCH_CHUNK copies the bytes of one chunk and counts it, on the entry's completion object too where it
names one; a transfer of no chunks is complete at once; FLAG_ENTRY_WRITE writes the flag's word and completes the entry. -/
def Obligations.EngineMoves : Prop :=
  (∀ (f q : Nat) (s u : State) (e : QEntry) (d : BitVec 512) (kind : Nat) (k : Chunk) (ps : List Piece) (p : Piece),
      headEntry s f q = some e → e.kind = .copy d kind → e.sent = false → (fib s f).exiting = false → chunkCount (copyOf d) kind e.tile ≠ 0 →
      (engineTenure (inEntry s f e) f q (copyOf d).shnd false).1 = some (inEntry s f e) →
      (engineTenure (inEntry s f e) f q (copyOf d).dhnd true).1 = some (inEntry s f e) →
      ChunkAt s f e d kind k u → k.ssp ≠ 4 → k.dsp ≠ 4 → Countable u f (copyOf d).bobj k.n → releaseReady u (cscScope (copyOf d).csc) e.marks = true →
      engineCheck u f 0 k.ssp k.src k.n k.align kRead = .ok ps → (∀ x ∈ ps, x.mt ≠ 3) → leavesSet kRead ps → undisturbed u (coreOf f) false ps →
      (ps.map (·.n)).sum = k.n →
      engineCheck (entryRead u f e ps).2 f (copyOf d).obn k.dsp k.dst k.n k.align kWrite = .ok [p] → p.n = k.n →
      PlainTarget (entryRead u f e ps).2 (coreOf f) p →
      ∃ t, exec (.winchChunk f q) s = .next t ∧ PutAndCounted u t f (copyOf d).bobj p (ps.flatMap fun x => readBytes u x.key x.loc x.n)
        ∧ Progressed s t f q (chunkCount (copyOf d) kind e.tile) e)
    ∧ (∀ (f q : Nat) (s : State) (e : QEntry) (d : BitVec 512) (kind : Nat), headEntry s f q = some e → e.kind = .copy d kind →
      (fib s f).exiting = false → chunkCount (copyOf d) kind e.tile = 0 →
      ∃ t, exec (.winchChunk f q) s = .next t ∧ (queueAt (fib t f) q).entries = (queueAt (fib s f) q).entries.drop 1 ∧ OnlyFibres s t
        ∧ OtherFibres s t f)
    ∧ ∀ (f q : Nat) (s : State) (e : QEntry) (addr : BitVec 64) (v : Word) (scope sp : Nat) (p : Piece), headEntry s f q = some e →
      e.kind = .flag addr v scope sp → (fib s f).exiting = false → releaseReady s scope e.marks = true →
      engineCheck (inEntry s f e) f 0 (if sp = 0 then 1 else if sp = 1 then 0 else 2) addr.toNat 4 4 kWrite = .ok [p] → p.n = 4 →
      PlainTarget (inEntry s f e) (coreOf f) p →
      ∃ t, exec (.flagEntryWrite f q) s = .next t ∧ PutAt s t p (toBytes 4 v.toNat)
        ∧ (queueAt (fib t f) q).entries = (queueAt (fib s f) q).entries.drop 1

/-- R157, R179, R182: a collective's chunk writes the block's bytes of the rank's output; ranks that disagree stop the queue with ECAUSE 6;
an access carried over a link is performed in the partition's translation, its bytes or the cause of its failure answered to its package. -/
def Obligations.CollectivesAndLinks : Prop :=
  (∀ (f q k own n lo hi : Nat) (dom : List Nat) (ranks rs : List RankInput) (s u : State) (e : QEntry) (d : BitVec 512) (c : Coll) (m : FMap Nat) (p : Piece),
      headEntry s f q = some e → e.kind = .coll d k dom → e.sent = false → (fib s f).exiting = false → c = collOf d →
      n = dom.length → own = dom.idxOf s.hub.pkgid.toNat →
      rs = (if n = 1 then [{ op := c.op, red := c.red, ety := c.ety, count := c.count, root := c.root, elems := [] }] else ranks) → rs.length = n →
      collMismatch c own rs = false → collChunks c n ≠ 0 → c.bobj = 0xFFFFFFFF →
      lo = max c.dst ((c.dst / 128 + e.prog) * 128) → hi = min (c.dst + collBytes c n) ((c.dst / 128 + e.prog + 1) * 128) →
      collRead (inEntry s f e) f e c (((List.range ((hi - 1 - c.dst) / collSize c + 1 - (lo - c.dst) / collSize c)).map
        (· + (lo - c.dst) / collSize c)).flatMap (collNeeds c own own)) = .got m u →
      releaseReady u (cscScope c.csc) e.marks = true → engineCheck u f 0 0 lo (hi - lo) 1 kWrite = .ok [p] → p.n = hi - lo → PlainTarget u 256 p →
      ∃ t, exec (.collectiveChunk f q ranks) s = .next t ∧ Progressed s t f q (collChunks c n) e
        ∧ ∀ b < hi - lo, (readBytes t p.key p.loc p.n)[b]? = (toBytes (collSize c) (collElem c n own
            (fun r i => if r = own then (FMap.find m i).getD 0 else ((rs[r]?).map fun x => x.elems.getD i 0).getD 0)
            ((lo - c.dst + b) / collSize c)))[(lo - c.dst + b) % collSize c]?)
    ∧ (∀ (f q k : Nat) (dom : List Nat) (ranks : List RankInput) (s : State) (e : QEntry) (d : BitVec 512), headEntry s f q = some e → e.kind = .coll d k dom →
      (fib s f).exiting = false → dom.length ≠ 1 → ranks.length = dom.length →
      collMismatch (collOf d) (dom.idxOf s.hub.pkgid.toNat) ranks = true → liveMask (fib s f) ≠ 0 →
      (fib s f).trapq.length < 8 →
      ∃ t en, exec (.collectiveChunk f q ranks) s = .next t ∧ (queueAt (fib t f) q).stopped = true
        ∧ (queueAt (fib t f) q).entries = (queueAt (fib s f) q).entries ∧ (fib t f).trapq = (fib s f).trapq ++ [en]
        ∧ en.cause = cENGINE ∧ en.async = true ∧ en.lmask = liveMask (fib s f) ∧ en.info = BitVec.ofNat 32 (q + 4 * 6 + 65536))
    ∧ (∀ (pkg part len : Nat) (root : BitVec 64) (k rel : Bool) (va : BitVec 64) (data : Option (List Byte)) (s : State) (x : Flt),
      (spans va.toNat (data.elim len List.length)).mapM (fun p => globalPiece s { part := part, root := root, klvl := k } (p.1 % 2 ^ 64) p.2
        (if data.isSome then kWrite else kRead) false) = .error x →
      ∃ t, exec (.linkAccess (pkg, part) root k va len data rel) s = .next t ∧ t = { s with hub := t.hub }
        ∧ t.hub = { s.hub with outputs := s.hub.outputs ++ [.linkFault pkg x.cause x.info] })
    ∧ ∀ (pkg part len : Nat) (root : BitVec 64) (k rel : Bool) (va : BitVec 64) (data : Option (List Byte)) (s : State) (p : Piece),
      (spans va.toNat (data.elim len List.length)).mapM (fun p => globalPiece s { part := part, root := root, klvl := k } (p.1 % 2 ^ 64) p.2
        (if data.isSome then kWrite else kRead) false) = .ok [p] →
      undisturbed s 256 data.isSome [p] → p.mt ≠ 3 → (isHost p.loc && inMem p.loc) = false →
      0 < p.n → p.loc / 128 = (p.loc + p.n - 1) / 128 → leavesSet (if data.isSome then kWrite else kRead) [p] → s.objs = [] →
      ∃ t, exec (.linkAccess (pkg, part) root k va len data rel) s = .next t
        ∧ (∀ l, data = some l → p.n = l.length → PutAt s t p l)
        ∧ (data = none → SameBytes s t ∧ t.hub.outputs = s.hub.outputs ++ [.linkData pkg (readBytes s p.key p.loc p.n)])

/-! ## The matrix unit (spec/13, spec/14) -/

/-- R310, R311: ORSV binds a name to a valid record and ORFREE frees it; OBLD places blocks of memory in the operand buffer, OBST queues
the store of blocks of it. -/
def Obligations.Reservations : Prop :=
  (∀ (a : Args) (s : State) (v : Nat), hasFib s s.cur = true → (me s).sq = [] → scratchRecord s (scalar s a.s0) 32 = .ok v →
      recordInvalid v = false →
      ((recordOf v).rmt = true ∨ (recordOf v).off + (recordOf v).rows * (recordOf v).rstr ≤ (wgOf s s.cur).obSize
        ∧ (recordOf v).soff + (recordOf v).rows * (recordOf v).sstr ≤ (wgOf s s.cur).obSize) →
      ∃ t, exec (.orsv a) s = .next t ∧ OnlyFibres s t ∧ OtherFibres s t s.cur ∧ (∀ l < 32, laneAt (me t) l = onward s l)
        ∧ me t = { me s with lanes := (me t).lanes, obs := (me t).obs }
        ∧ ∀ k, FMap.find (me t).obs k = if k = obName a.d.opnd then some (recordOf v) else FMap.find (me s).obs k)
    ∧ (∀ (a : Args) (s : State), hasFib s s.cur = true →
      ∃ t, exec (.orfree a) s = .next t ∧ OnlyFibres s t ∧ OtherFibres s t s.cur ∧ (∀ l < 32, laneAt (me t) l = onward s l)
        ∧ me t = { me s with lanes := (me t).lanes, obs := (me t).obs }
        ∧ ∀ k, FMap.find (me t).obs k = if k = obName a.s0 then none else FMap.find (me s).obs k)
    ∧ (∀ (a : Args) (s : State) (n : Nat) (ps : Nat → List Piece) (q : Nat → Piece), hasFib s s.cur = true → a.ord.toNat ≠ 3 → (me s).sq = [] →
      n = (if a.ty = .b64 then 32 else 16) → active s a ≠ 0 → (FMap.find (me s).obs (obName a.d.opnd)).isSome = true →
      (∀ l ∈ accessLanes s a, checked a s n kRead .wide l = .ok (ps l) ∧ plainPieces s kRead false (ps l) ∧ loadDrains (me s) (ps l) = false
        ∧ ((ps l).map (·.n)).sum = n ∧ (∀ x ∈ ps l, x.loc + x.n ≤ 2 ^ 53)
        ∧ obBlock s s.cur (obName a.d.opnd) (srcVal s .n32 0 a.s1 l) n = .ok (q l)) →
      ∃ t, exec (.obld a) s = .next t ∧ (∀ l < 32, laneAt (me t) l = onward s l) ∧ me t = { me s with lanes := (me t).lanes } ∧ t.ring = s.ring
        ∧ (∀ l ∈ accessLanes s a, (∀ j ∈ accessLanes s a, j ≠ l → (q j).loc + n ≤ (q l).loc ∨ (q l).loc + n ≤ (q j).loc) →
            readBytes t 0 (q l).loc n = loadBytes s a.space.toNat (ps l))
        ∧ ∀ key loc, (∀ l ∈ accessLanes s a, loc < (q l).loc ∨ (q l).loc + n ≤ loc) → readByte t key loc = readByte s key loc)
    ∧ ∀ (a : Args) (s : State) (n : Nat) (ps : Nat → List Piece) (q : Nat → Piece), hasFib s s.cur = true → a.ord.toNat ≠ 3 → s.readPts = [] →
      n = (if a.ty = .b64 then 32 else 16) → active s a ≠ 0 → (FMap.find (me s).obs (obName a.d.opnd)).isSome = true →
      (∀ l ∈ accessLanes s a, checked a s n kWrite .wide l = .ok (ps l) ∧ leavesSet kWrite (ps l) ∧ walkClear s (ps l)
        ∧ obBlock s s.cur (obName a.d.opnd) (srcVal s .n32 0 a.s1 l) n = .ok (q l) ∧ poisoned s.mem (q l).loc n = false) →
      ∃ t, exec (.obst a) s = .next t ∧ (∀ l < 32, laneAt (me t) l = onward s l) ∧ me t = { me s with lanes := (me t).lanes, sq := (me t).sq }
        ∧ (me t).sq = (me s).sq ++ (accessLanes s a).flatMap (fun l => laneEntry a s none (readBytes s 0 (q l).loc n) l (ps l))
        ∧ SameBytes s t ∧ t.ring = s.ring

/-- R283, R284, R312: MMA adds to each element of its active rows the products of a row of A and a row of B, one rounding a k-step; MMA.resc
multiplies the element by the row's factor in the first k-step and uses the factor up. No other element changes. -/
def Sys2Proof.Claims.MatrixProducts : Prop :=
  (∀ (a : Args) (s : State) (p : Nat) (ra rb : Reservation) (x y : Nat → Nat → List Machine.Num), MmaReady a s p ra rb x y →
      ∃ t, exec (.mma a) s = .next t ∧ TileOnly s t ∧ t.side = s.side ∧ OtherRows s t (subOf s.cur) p (active s a)
        ∧ ∀ i ∈ lanesOf (active s a), ∀ j < 64, accAt t (subOf s.cur) p i j =
            mmaElem none (fun k => x k i) (fun k => y k j) (accAt s (subOf s.cur) p i j) (ra.klen / 16))
    ∧ ∀ (a : Args) (s : State) (p : Nat) (ra rb : Reservation) (x y : Nat → Nat → List Machine.Num), MmaReady a s p ra rb x y →
      ∃ t, exec (.mmaResc a) s = .next t ∧ TileOnly s t ∧ OtherRows s t (subOf s.cur) p (active s a) ∧ OtherSides s t (subOf s.cur) p (active s a)
        ∧ ∀ i ∈ lanesOf (active s a),
          (∀ j < 64, accAt t (subOf s.cur) p i j = mmaElem (some (if (sideOf s (subOf s.cur) p i).2.2.2 then (sideOf s (subOf s.cur) p i).2.2.1.toNat
              else 0x3F800000)) (fun k => x k i) (fun k => y k j) (accAt s (subOf s.cur) p i j) (ra.klen / 16))
          ∧ sideOf t (subOf s.cur) p i = ((sideOf s (subOf s.cur) p i).1, (sideOf s (subOf s.cur) p i).2.1, 0x3F800000, false)

/-- R285, R313: MSMX writes the probabilities of each active row to the reservation, and M, l and the armed factor to the output tile's side
registers; no element changes. -/
def Sys2Proof.Claims.SoftmaxStep : Prop :=
  ∀ (a : Args) (s : State) (ps po b : Nat) (r : Reservation), hasFib s s.cur = true → (me s).sq = [] → s.readPts = [] → active s a ≠ 0 →
    b = codeOf a.s3 → TileReady s (codeOf a.s2 % 16) ps → TileReady s (codeOf a.s2 / 16) po → softTarget s (obName a.s0) b = .ok r →
    128 * (b + 1) ≤ r.rstr → (∀ i ∈ lanesOf (active s a), rowPoisoned s (subOf s.cur) ps i = false) →
    ∃ t, exec (.msmx a) s = .next t ∧ t.acc = s.acc ∧ OtherSides s t (subOf s.cur) po (active s a)
      ∧ (∀ l < 32, laneAt (me t) l = onward s l) ∧ me t = { me s with lanes := (me t).lanes } ∧ t.ring = s.ring
      ∧ (∀ i ∈ lanesOf (active s a), ∀ x, x = softRow (tileRow s (subOf s.cur) ps i) (sideOf s (subOf s.cur) po i).1.toNat
            (sideOf s (subOf s.cur) po i).2.1.toNat (srcVal s .f32 0 a.s1 0) →
          readBytes t 0 (obLoc (subOf s.cur) (obBaseOf s s.cur + r.off + i * r.rstr + 128 * b)) 128 = x.p.flatMap (toBytes 2)
          ∧ sideOf t (subOf s.cur) po i = (BitVec.ofNat 32 x.m, BitVec.ofNat 32 x.l, BitVec.ofNat 32 (if (sideOf s (subOf s.cur) po i).2.2.2 then
              mulF32 (sideOf s (subOf s.cur) po i).2.2.1.toNat x.g else x.g), true))
      ∧ ∀ key loc, (∀ i ∈ lanesOf (active s a), loc < obLoc (subOf s.cur) (obBaseOf s s.cur + r.off + i * r.rstr + 128 * b)
          ∨ obLoc (subOf s.cur) (obBaseOf s s.cur + r.off + i * r.rstr + 128 * b) + 128 ≤ loc) → readByte t key loc = readByte s key loc

/-- R283 to R285, R312, R313: MMA and MSMX. -/
def Obligations.MatrixMultiply : Prop := Claims.MatrixProducts ∧ Claims.SoftmaxStep

/-- R314, R315, R316: MZERO makes the active rows fresh, MLD loads them, MST queues their store, MREAD reads a block of eight words. -/
def Obligations.TileData : Prop :=
  (∀ (a : Args) (s : State) (p : Nat), hasFib s s.cur = true → active s a ≠ 0 → TileReady s (codeOf a.s0 % 16) p →
      ∃ t, exec (.mzero a) s = .next t ∧ TileOnly s t ∧ OtherRows s t (subOf s.cur) p (active s a) ∧ OtherSides s t (subOf s.cur) p (active s a)
        ∧ ∀ i ∈ lanesOf (active s a), (∀ j < 64, accAt t (subOf s.cur) p i j = 0)
            ∧ sideOf t (subOf s.cur) p i = (0xFF800000, 0, 0x3F800000, false))
    ∧ (∀ (a : Args) (s : State) (p : Nat) (qs : Nat → List Piece), hasFib s s.cur = true → active s a ≠ 0 → TileReady s (codeOf a.s1 % 16) p →
      a.ord.toNat ≠ 3 → a.space.toNat ≠ 6 →
      (∀ l ∈ lanesOf (active s a), rowPieces a s 256 kRead l = .ok (qs l) ∧ plainPieces s kRead false (qs l) ∧ loadDrains (me s) (qs l) = false
        ∧ ((qs l).map (·.n)).sum = 256) →
      ∃ t, exec (.mld a) s = .next t ∧ TileOnly s t ∧ t.side = s.side ∧ OtherRows s t (subOf s.cur) p (active s a)
        ∧ ∀ i ∈ lanesOf (active s a), ∀ j < 64, accAt t (subOf s.cur) p i j = ofBytes (((loadBytes s a.space.toNat (qs i)).drop (4 * j)).take 4))
    ∧ (∀ (a : Args) (s : State) (p n : Nat) (qs : Nat → List Piece), hasFib s s.cur = true → active s a ≠ 0 → TileReady s (codeOf a.s1 % 16) p →
      a.ord.toNat ≠ 3 → n = (if a.ty = .f32 then 256 else 128) →
      (∀ l ∈ lanesOf (active s a), rowPieces a s n kWrite l = .ok (qs l) ∧ leavesSet kWrite (qs l) ∧ walkClear s (qs l) ∧ rowPoisoned s (subOf s.cur) p l = false) →
      ∃ t, exec (.mst a) s = .next t ∧ t.acc = s.acc ∧ t.side = s.side ∧ SameBytes s t ∧ t.ring = s.ring
        ∧ (∀ l < 32, laneAt (me t) l = onward s l) ∧ me t = { me s with lanes := (me t).lanes, sq := (me t).sq }
        ∧ (me t).sq = (me s).sq ++ (lanesOf (active s a)).flatMap (fun l => storeEntries a s l (atomGroups (qs l))
            ((List.range 64).flatMap fun j => if a.ty = .f32 then toBytes 4 (accAt s (subOf s.cur) p l j)
              else toBytes 2 (toBf16 (accAt s (subOf s.cur) p l j)))))
    ∧ ∀ (a : Args) (s : State) (p sel : Nat) (r : Reg) (n b : Bool), hasFib s s.cur = true → active s a ≠ 0 → TileReady s (codeOf a.s0 % 16) p →
      sel = codeOf a.s0 / 16 → a.d.opnd = .reg r n b → latched r = true → (∀ k, r = .o k → k.val = 0) → 8 ≤ (slotRec s (slotOf s.cur)).z →
      (slotRec s (slotOf s.cur)).z ≤ 512 →
      (sel ≠ 8 → ∀ i ∈ lanesOf (active s a),
        colsPoisoned s (subOf s.cur) p i (if a.ty = .f32 then 8 * sel else 16 * sel) (if a.ty = .f32 then 8 else 16) = false) → (if a.ty = .f32 then sel < 9 else sel < 4) →
      ∃ t, exec (.mread a) s = .next t ∧ t.acc = s.acc ∧ t.side = s.side ∧ SameBytes s t ∧ (∀ l < 32, laneAt (me t) l = onward s l)
        ∧ ∀ i ∈ lanesOf (active s a), ∀ k < 8, (regGet32 t s.cur i r k).toNat =
            readOut a.ty sel (accAt s (subOf s.cur) p i) (sideOf s (subOf s.cur) p i) k % 2 ^ 32

/-- R327, R328: a new pinning takes a free entry and answers 1; a tile pinned under another key answers 0 and nothing changes; a state that its
workgroup already owns under that tile answers 1 and nothing changes; a parked one that is resident here is adopted, and the tile takes its place.
MUNPIN frees the entry and keeps the rows, MUNPIN.drop frees it and leaves a fresh tile. -/
def Sys2Proof.Claims.Pinning : Prop :=
  (∀ (a : Args) (s : State) (p k : Nat), hasFib s s.cur = true → addrVal s a.s0 (lane0 s) ≠ 0 → physTile s s.cur (codeOf a.s2 % 16) = .ok p →
      pinOf s s.cur (codeOf a.s2 % 16) = none → findKey s (coreOf s.cur) (wgOf s s.cur).part (addrVal s a.s0 (lane0 s)) = none →
      (codeOf a.s2).testBit 4 = false → freeOwn s (subOf s.cur) = some k → (ownTable s (subOf s.cur)).length = 16 →
      addrVal s a.s1 (lane0 s) % 64 = 0 → canonical (addrVal s a.s1 (lane0 s)) = true →
      ∃ t e, exec (.mpin a) s = .next t ∧ GoesOn s t ∧ predHolds s t a.d.opnd true ∧ ownAt t (subOf s.cur) k = some e
        ∧ e.res = true ∧ e.owned = true ∧ e.ef = false ∧ e.ltile = codeOf a.s2 % 16 ∧ e.tile = p ∧ e.key = addrVal s a.s0 (lane0 s)
        ∧ e.spa = addrVal s a.s1 (lane0 s) ∧ e.pgr = (me s).pgroot ∧ e.dmask = BitVec.allOnes 32 ∧ e.epoch = 0 ∧ e.part = (me s).part
        ∧ e.olid = (wgOf s s.cur).lid ∧ e.owg = (wgOf s s.cur).wg ∧ (∀ j, j ≠ k → ownAt t (subOf s.cur) j = ownAt s (subOf s.cur) j)
        ∧ t.acc = s.acc ∧ SameBytes s t)
    ∧ (∀ (a : Args) (s : State) (p k : Nat) (e : OwnEntry), hasFib s s.cur = true → addrVal s a.s0 (lane0 s) ≠ 0 →
      physTile s s.cur (codeOf a.s2 % 16) = .ok p → pinOf s s.cur (codeOf a.s2 % 16) = some (k, e) → e.key ≠ addrVal s a.s0 (lane0 s) →
      ∃ t, exec (.mpin a) s = .next t ∧ GoesOn s t ∧ predHolds s t a.d.opnd false ∧ t.own = s.own ∧ t.acc = s.acc ∧ SameBytes s t)
    ∧ (∀ (a : Args) (s : State) (p u k : Nat) (e : OwnEntry), hasFib s s.cur = true → addrVal s a.s0 (lane0 s) ≠ 0 →
      physTile s s.cur (codeOf a.s2 % 16) = .ok p → (∀ j x, pinOf s s.cur (codeOf a.s2 % 16) = some (j, x) → x.key = addrVal s a.s0 (lane0 s)) →
      findKey s (coreOf s.cur) (wgOf s s.cur).part (addrVal s a.s0 (lane0 s)) = some (u, k, e) →
      (ownsEntry (wgOf s s.cur) u e = true → e.ltile = codeOf a.s2 % 16 →
        ∃ t, exec (.mpin a) s = .next t ∧ GoesOn s t ∧ predHolds s t a.d.opnd true ∧ t.own = s.own ∧ t.acc = s.acc ∧ SameBytes s t)
      ∧ (u = subOf s.cur → e.owned = false → e.res = true → (codeOf a.s2).testBit 5 = false →
        ∃ t, exec (.mpin a) s = .next t ∧ GoesOn s t ∧ predHolds s t a.d.opnd true ∧ physTile t s.cur (codeOf a.s2 % 16) = .ok e.tile
          ∧ ownAt t u k = some { e with owned := true, olid := (wgOf s s.cur).lid, owg := (wgOf s s.cur).wg, ltile := codeOf a.s2 % 16, lastUse := s.tick }
          ∧ (∀ j, j ≠ k → ownAt t u j = ownAt s u j) ∧ t.acc = s.acc ∧ SameBytes s t))
    ∧ (∀ (a : Args) (s : State) (p k : Nat) (e : OwnEntry), hasFib s s.cur = true → physTile s s.cur (codeOf a.s0 % 16) = .ok p →
      pinOf s s.cur (codeOf a.s0 % 16) = some (k, e) → e.res = true →
      ∃ t, exec (.munpin a) s = .next t ∧ TileOnly s t ∧ ownAt t (subOf s.cur) k = none ∧ t.acc = s.acc ∧ t.side = s.side)
    ∧ ∀ (a : Args) (s : State) (p k : Nat) (e : OwnEntry), hasFib s s.cur = true → physTile s s.cur (codeOf a.s0 % 16) = .ok p →
      pinOf s s.cur (codeOf a.s0 % 16) = some (k, e) →
      ∃ t, exec (.munpinDrop a) s = .next t ∧ TileOnly s t ∧ ownAt t (subOf s.cur) k = none ∧ OtherRows s t (subOf s.cur) p (BitVec.allOnes 32)
        ∧ ∀ i < 32, (∀ j < 64, accAt t (subOf s.cur) p i j = 0) ∧ sideOf t (subOf s.cur) p i = (0xFF800000, 0, 0x3F800000, false)

/-- R286, R287, R329, R331: MDELTA and MDELTA.c apply their tokens to each active row in order, and with Q answer after each the row's product with
the token's query; MQUERY answers the row's sum of products and changes no element. -/
def Obligations.FastWeights : Prop :=
  (∀ (i : Args → Instr) (a : Args) (s : State) (p n : Nat) (r : Reservation) (k : Nat → List Nat), (i = .mdelta ∨ i = .mdeltaC) →
      DeltaReady a s p n → (codeOf a.s2).testBit 7 = false → fastSource s (obName a.s0) n = .ok r → (∀ t < n, rowVector s s.cur r t = .ok (k t)) →
      ∃ t, exec (i a) s = .next t ∧ TileOnly s t ∧ t.side = s.side ∧ OtherRows s t (subOf s.cur) p (active s a)
        ∧ ∀ l ∈ lanesOf (active s a), tileRow t (subOf s.cur) p l = afterTokens a s p k l n)
    ∧ (∀ (i : Args → Instr) (a : Args) (s : State) (p n : Nat) (r : Reservation) (k q : Nat → List Nat) (d : Reg) (g b : Bool),
      (i = .mdelta ∨ i = .mdeltaC) → DeltaReady a s p n → (codeOf a.s2).testBit 7 = true → fastSource s (obName a.s0) (8 + n) = .ok r →
      (∀ t < n, rowVector s s.cur r t = .ok (k t) ∧ rowVector s s.cur r (8 + t) = .ok (q t)) → a.d.opnd = .reg d g b → latched d = true →
      (∀ k, d = .o k → k.val = 0) → 8 ≤ (slotRec s (slotOf s.cur)).z → (slotRec s (slotOf s.cur)).z ≤ 512 →
      Apart s (active s a) a.s1 n d n → Apart s (active s a) a.s3 (2 * n) d n →
      ∃ t, exec (i a) s = .next t ∧ t.side = s.side ∧ OtherRows s t (subOf s.cur) p (active s a) ∧ SameBytes s t ∧ OtherFibres s t s.cur
        ∧ (∀ l < 32, laneAt (me t) l = onward s l)
        ∧ (∀ w, (∀ l ∈ lanesOf (active s a), w ∉ ringPlaces s l (List.range n) d) → SMap.get 0 t.ring w = SMap.get 0 s.ring w)
        ∧ ∀ l ∈ lanesOf (active s a), tileRow t (subOf s.cur) p l = afterTokens a s p k l n
          ∧ ∀ j < n, (regGet32 t s.cur l d j).toNat = rowDot (afterTokens a s p k l (j + 1)) (q j) % 2 ^ 32)
    ∧ ∀ (a : Args) (s : State) (p : Nat) (r : Reservation) (q : List Nat) (d : Reg) (n b : Bool), hasFib s s.cur = true → s.readPts = [] →
      active s a ≠ 0 →
      TileReady s (codeOf a.s2 % 16) p → fastSource s (obName a.s0) (codeOf a.s1 + 1) = .ok r → rowVector s s.cur r (codeOf a.s1) = .ok q →
      (∀ l ∈ lanesOf (active s a), rowPoisoned s (subOf s.cur) p l = false) → a.d.opnd = .reg d n b → latched d = true →
      ∃ t, exec (.mquery a) s = .next t ∧ t.acc = s.acc ∧ t.side = s.side ∧ SameBytes s t ∧ GoesOn s t
        ∧ ∀ l ∈ lanesOf (active s a), regGet t s.cur l false d = rowDot (tileRow s (subOf s.cur) p l) q % 2 ^ 32

/-- R322, R324, R332: MEVICT writes the image of a resident tile, whose entry takes the next EPOCH and no dirty rows; MEVICT.det parks the state and
leaves a fresh tile; the eviction of a parked tile frees its physical tile. An entry whose state is not here is only parked by MEVICT.det. -/
def Sys2Proof.Claims.Evictions : Prop :=
  (∀ (a : Args) (s w : State) (p k : Nat) (e : OwnEntry), hasFib s s.cur = true → (me s).sq = [] → physTile s s.cur (codeOf a.s0 % 16) = .ok p →
      pinOf s s.cur (codeOf a.s0 % 16) = some (k, e) → e.res = true → ImageWritten s (some s.cur) (subOf s.cur) e w →
      (∃ t, exec (.mevict a) s = .next t ∧ GoesOn s t ∧ SameBytes w t ∧ t.acc = s.acc ∧ t.side = s.side
        ∧ ownAt t (subOf s.cur) k = some { nextEpoch e with dmask := 0, ef := false, lastUse := s.tick })
      ∧ ∃ t, exec (.mevictDet a) s = .next t ∧ GoesOn s t ∧ SameBytes w t
        ∧ ownAt t (subOf s.cur) k = some { nextEpoch e with dmask := 0, ef := false, lastUse := s.tick, owned := false, res := false }
        ∧ ∀ i < 32, (∀ j < 64, accAt t (subOf s.cur) p i j = 0) ∧ sideOf t (subOf s.cur) p i = (0xFF800000, 0, 0x3F800000, false))
    ∧ (∀ (a : Args) (s : State) (p k : Nat) (e : OwnEntry), hasFib s s.cur = true → (me s).sq = [] → physTile s s.cur (codeOf a.s0 % 16) = .ok p →
      pinOf s s.cur (codeOf a.s0 % 16) = some (k, e) → e.res = false →
      (∃ t, exec (.mevict a) s = .next t ∧ TileOnly s t ∧ t.own = s.own ∧ t.acc = s.acc)
      ∧ ∃ t, exec (.mevictDet a) s = .next t ∧ TileOnly s t
        ∧ ownAt t (subOf s.cur) k = some { e with owned := false, res := false, lastUse := s.tick })
    ∧ ∀ (u k : Nat) (s w : State) (e : OwnEntry), ownAt s u k = some e → tileDemand s u = true → oldestParked s u = some k →
      ImageWritten s none u e w →
      ∃ t, exec (.pinnedTileEvict u k) s = .next t ∧ SameBytes w t ∧ t.acc = s.acc
        ∧ ownAt t u k = some { nextEpoch e with dmask := 0, ef := false, lastUse := s.tick, res := false }

/-- R322, R324, R327, R328, R332: pinned states and their eviction. -/
def Obligations.PinsAndEvictions : Prop := Claims.Pinning ∧ Claims.Evictions

/-! ## Barriers of the tether tree, launches, scheduling (spec/08, spec/15) -/

/-- R207, R208, R214, R215: BAR and FBAR arrive with the issue group's slices and wait, BARS arrives and goes on; when every participant has
arrived the phase completes and every waiter departs; before, nothing happens. -/
def Obligations.TetherBarriers : Prop :=
  (∀ (a : Args) (s : State) (c scope key : Nat), hasFib s s.cur = true → c = scalar s a.s0 → controlFails s s.cur c = false → (me s).sq = [] →
      s.readPts = [] → (me s).arrivals = [] → scope = (if c % 8 = 0 then 1 else c % 8) → key = phaseKey s s.cur scope (c / 8 % 8) →
      (∃ t, exec (.bar a) s = .next t ∧ Waits s t (.bar key scope)
        ∧ (me t).arrivals = [{ key := key, slices := slicesOf s.grp, phase := phasesDone s key, kept := 0, view := releaseView s s.cur scope }])
      ∧ ∃ t, exec (.bars a) s = .next t ∧ (∀ i < 32, laneAt (me t) i = onward s i)
        ∧ (me t).arrivals = [{ key := key, slices := slicesOf s.grp, phase := phasesDone s key, kept := 0, view := releaseView s s.cur scope }])
    ∧ (∀ (f key : Nat) (s : State), barDue s f = some key →
      ∃ t, exec (.barPhaseComplete f) s = .next t ∧ phasesDone t key = phasesDone s key + 1
        ∧ ∀ g w tag, hasFib s g = true → (fib s g).waits = [w] → w.kind = .bar key tag → Departed s t g w)
    ∧ (∀ (f : Nat) (s : State), barDue s f = none → exec (.barPhaseComplete f) s = .next s)
    ∧ (∀ (a : Args) (s : State), hasFib s s.cur = true → (me s).fbarPass &&& slicesOf s.grp = 0 → (me s).sq = [] → s.readPts = [] →
      ∃ t, exec (.fbar a) s = .next t ∧ Waits s t .fbar ∧ (me t).fbar = (me s).fbar ||| slicesOf s.grp)
    ∧ (∀ (slot : Nat) (s : State), fbarFull s slot = true →
      ∃ t, exec (.fbarPhaseComplete slot) s = .next t ∧ ∀ f ∈ slotFibres s slot, (fib t f).fbar = 0
        ∧ ∀ w, (fib s f).waits = [w] → w.kind = .fbar → Departed s t f w)
    ∧ ∀ (slot : Nat) (s : State), fbarFull s slot = false → exec (.fbarPhaseComplete slot) s = .next s

/-- R216, R217: LAUNCH enqueues a valid record under the next launch number and answers it, or answers 0 where its queue is full; SPAWN puts
one record for each active lane in its die's spool where the share has room, and answers 1 there, else 0. `u` is the state after the record and its
descriptor have been read. -/
def Sys2Proof.Claims.Launches : Prop :=
  (∀ (a : Args) (s u : State) (r : BitVec 1024) (k : BitVec 512) (q n : Nat), hasFib s s.cur = true → (me s).sq = [] → s.readPts = [] →
      readLaunch s (myCtx s) (some s.cur) (addrVal s a.s0 (lane0 s)) = (u, .ok (some (r, k))) → hasFib u u.cur = true → launchFails r k = none →
      q = rf r 196 6 → n = launchNumber (partOf u (me s).part).nextLid →
      (256 ≤ (queueOf u (me s).part q).length → ∃ t, exec (.launch a) s = .next t ∧ GoesOn u t ∧ uniformHolds t a.d.opnd 0 ∧ t.hub = u.hub)
      ∧ ((queueOf u (me s).part q).length < 256 → (rDep r = true → rf r 256 32 ≠ 0 ∧ rf r 256 32 < (partOf u (me s).part).nextLid) →
          (isKQueue (partOf u (me s).part) q = true → (me s).klvl = true) → 6 ≤ u.hub.boot →
          ∃ t l, exec (.launch a) s = .next t ∧ GoesOn u t ∧ uniformHolds t a.d.opnd n ∧ t.hub.launches = u.hub.launches ++ [l]
            ∧ l.part = (me s).part ∧ l.lid = n ∧ l.queue = q ∧ l.prio = rf r 192 3 ∧ l.record = r ∧ l.kdesc = k ∧ l.root = (me s).pgroot
            ∧ l.started = [] ∧ l.view = releaseView s s.cur 4 ∧ (l.klvl = true ↔ isKQueue (partOf u (me s).part) q = true)
            ∧ (partOf t (me s).part).nextLid = (partOf u (me s).part).nextLid + 1))
    ∧ ∀ (a : Args) (s : State) (l : Launch) (n : Fin 7) (ng ab : Bool), hasFib s s.cur = true → (me s).sq = [] → s.readPts = [] →
      a.d.opnd = .reg (.p n) ng ab → launchOf s (me s).part (me s).lid = some l → rNspn l.record ≠ 0 →
      (∀ i ∈ lanesOf (active s a), addrVal s a.s0 i % 4 = 0) →
      (spoolHeld s (dieOf (coreOf s.cur)) (me s).part + (lanesOf (active s a)).length ≤ spoolShareOf s (me s).part →
        spoolTotal s (dieOf (coreOf s.cur)) + (lanesOf (active s a)).length ≤ 8192 →
        ∃ t, exec (.spawn a) s = .next t ∧ GoesOn s t ∧ t.spool = s.spool ++ (lanesOf (active s a)).map (spawnRecord a s)
          ∧ ∀ i ∈ lanesOf (active s a), (SMap.get 0 (me t).preds n.val).getLsbD i = true)
      ∧ (spoolShareOf s (me s).part ≤ spoolHeld s (dieOf (coreOf s.cur)) (me s).part →
        ∃ t, exec (.spawn a) s = .next t ∧ GoesOn s t ∧ t.spool = s.spool
          ∧ ∀ i ∈ lanesOf (active s a), (SMap.get 0 (me t).preds n.val).getLsbD i = false)

/-- R198, R199, R202, R203, R333: WORKGROUP_PLACE starts the next workgroup of the record that is due on the core given, every fibre in the
state of R199; SPOOL_DISPATCH starts a warp on up to 32 records of a group, which leave the spool, each lane with its record's words. -/
def Sys2Proof.Claims.WorkStarts : Prop :=
  (∀ (part c n : Nat) (s : State) (l : Launch) (w : Wg), stuckHead s part = none → nextWork s part = some (.head l) → isCor l = false →
      nextWgOf l = some n → (coresFor s l.part l.klvl).contains c = true → allocate s (nextOf l n) c = some w → w.fibres.Nodup →
      launchOf s l.part l.lid = some l →
      ∃ t, exec (.workgroupPlace part [c]) s = .next t ∧ FMap.find t.wgs (keyOf w) = some w ∧ w.core = c ∧ w.wg = n
        ∧ (∃ m, launchOf t l.part l.lid = some m ∧ FMap.find m.started (n / tileWg l) = some ((FMap.find l.started (n / tileWg l)).getD 0 + 1))
        ∧ ∀ j f, w.fibres[j]? = some f → hasFib t f = true ∧ Fresh (fib t f) (BitVec.ofNat 64 (kf l.kdesc 0 64)) ∧ (fib t f).exited = 0
          ∧ (fib t f).amask = BitVec.allOnes 32 ∧ (fib t f).wg = n ∧ (fib t f).warp = j ∧ (fib t f).spawned = false
          ∧ Launched s (fib t f) l (n * w.nwarp + j) n (rNwg l.record) ∧ (slotOf f ∈ w.slots → StartFrames t f 8 (startV l.kdesc)))
    ∧ ∀ (die lid core f : Nat) (entry : BitVec 64) (s : State) (r : SpoolRec) (l : Launch) (w : Wg) (g : List SpoolRec),
      (s.spool.find? fun r => r.die == die && r.entry == entry && r.lid == lid && nextWork s r.part == some (.group r)) = some r →
      launchOf s r.part r.lid = some l → (groupCores s r).contains core = true → allocate s (spawnedOf l) core = some w → w.fibres = [f] →
      g = (s.spool.filter (sameGroup r.die r.entry r.part r.lid)).take 32 → (∀ q ∈ g, q.args.length = 12) →
      ∃ t, exec (.spoolDispatch die entry lid core) s = .next t ∧ hasFib t f = true ∧ Fresh (fib t f) r.entry ∧ (fib t f).spawned = true
        ∧ (∀ i < 32, (fib t f).exited.getLsbD i = decide (g.length ≤ i)) ∧ (fib t f).amask = ~~~ (fib t f).exited
        ∧ Launched s (fib t f) l (rNwg l.record * kf l.kdesc 64 6 + freeSpawn l) 0xFFFFFFFF g.length
        ∧ StartFrames t f 16 (spawnV l.kdesc g)
        ∧ t.spool = takeGroup (sameGroup r.die r.entry r.part r.lid) g.length s.spool
        ∧ ∃ m, launchOf t r.part r.lid = some m ∧ freeSpawn l ∈ m.spawnUsed

/-- R198, R199, R202, R203, R216, R217, R333: launches and spawns are enqueued and their work starts. -/
def Obligations.LaunchesAndWork : Prop := Claims.Launches ∧ Claims.WorkStarts

/-- R200, R192, R205, R340: a launch whose work is over writes its number to DONE and leaves the hub; an exchange makes the ready pending slot
active in place of the eligible one; the watchdog queues its entry and its count is 0 again. That a ready pending slot becomes active at once where
the active set has room is the model's reading (log 32). -/
def Obligations.SchedulerEvents : Prop :=
  (∀ (part lid : Nat) (s : State) (l : Launch), launchOf s part lid = some l → launchOver s l = true →
      (rDone l.record = 0 → ∃ t, exec (.launchComplete part lid) s = .next t ∧ launchOf t part lid = none ∧ SameBytes s t)
      ∧ ∀ p, rDone l.record ≠ 0 → releaseReady s 6 l.marks = true →
        globalPiece s { part := part, root := l.root, klvl := l.doneK, keys := l.keys } (rDone l.record) 4 kWrite false = .ok p →
        undisturbed s hubCore true [p] → p.mt ≠ 3 → (isHost p.loc && inMem p.loc) = false →
        p.loc / 128 = (p.loc + 3) / 128 → leavesSet kWrite [p] → s.objs = [] →
        ∃ t, exec (.launchComplete part lid) s = .next t ∧ launchOf t part lid = none ∧ PutAt s t p (toBytes 4 lid))
    ∧ (∀ (u p : Nat) (s : State), FMap.sortedFrom 0 s.slots = true → readyPending s u = some p →
      (∀ k, activeRoom s u = false → exchangeable s u none = some k →
        ∃ t, exec (.slotExchange u) s = .next t ∧ (FMap.find t.slots p).map (·.active) = some true ∧ (FMap.find t.slots k).map (·.active) = some false
          ∧ ∀ j, j ≠ p → j ≠ k → FMap.find t.slots j = FMap.find s.slots j)
      ∧ (activeRoom s u = true → ∃ t, exec (.slotExchange u) s = .next t ∧ (FMap.find t.slots p).map (·.active) = some true
          ∧ ∀ j, j ≠ p → FMap.find t.slots j = FMap.find s.slots j))
    ∧ (∀ (f : Nat) (s : State) (m : LaneMask), hasFib s f = true → watchdogDue (fib s f) = true → m = liveMask (fib s f) &&& ~~~ stoppedMask (fib s f) →
      m ≠ 0 → (fib s f).trapq.length < 8 →
      ∃ t e, exec (.watchdog f) s = .next t ∧ (fib t f).trapq = (fib s f).trapq ++ [e] ∧ e.cause = cWATCHDOG ∧ e.async = true ∧ e.lmask = m
        ∧ (fib t f).wdCount = 0 ∧ (∀ i < 32, laneAt (fib t f) i = laneAt (fib s f) i) ∧ OtherFibres s t f ∧ OnlyFibres s t)
    ∧ ∀ (f : Nat) (s : State), watchdogDue (fib s f) = false → exec (.watchdog f) s = .next s

/-! ## Frames, fetch, traps, special registers, translation (spec/09, spec/16, spec/18, spec/02) -/

/-- R224, R240, R241: a demand spill writes the oldest resident frame and its record, and RB moves past it; a CALL that fits goes to its
target; a refill puts the youngest spilled frame back, and a RET that waited for it returns. A PC taken from a record loses its low two
bits, the model's choice (log 52). -/
def Obligations.BallastTransfers : Prop :=
  (∀ (i : Nat → Nat → Instr) (f lane : Nat) (s : State) (r : Link) (ps : List Piece) (n : Nat), hasFib s f = true → lane < 32 →
      (i = .ballastBackgroundSpill ∧ spillDue s f lane = true
        ∨ i = .ballastDemandSpill ∧ (∃ target fp, (laneAt (fib s f) lane).wait = .callSpill target fp)
            ∧ needsSpill (slotRec s (slotOf f)).z (laneAt (fib s f) lane) = true ∧ (laneAt (fib s f) lane).sblk = false ∧ (fib s f).frozen = false) →
      (laneAt (fib s f) lane).links.getLast? = some r → n = (if r.hnd then 64 else r.adv) → s.ringPoison = [] → (fib s f).poison = [] →
      transferPieces s f lane kWrite ((List.range n).map (fun j => (wordVa (fib s f) lane ((laneAt (fib s f) lane).rb + j), 4))
        ++ [(linkVa (fib s f) lane ((laneAt (fib s f) lane).depth - (laneAt (fib s f) lane).links.length), 16)]) = .ok ps →
      (ps.map (·.n)).sum = 4 * n + 16 → TransferReady s f ps →
      ∃ t, exec (i f lane) s = .next t ∧ laneAt (fib t f) lane = { laneAt (fib s f) lane with
            rb := (laneAt (fib s f) lane).rb + n, links := (laneAt (fib s f) lane).links.dropLast }
        ∧ (∀ j < 32, j ≠ lane → laneAt (fib t f) j = laneAt (fib s f) j) ∧ t.ring = s.ring
        ∧ bytesAt t ps = (List.range n).flatMap (fun j => toBytes 4 (frameGet s f lane ((laneAt (fib s f) lane).rb + j)).toNat)
            ++ toBytes 16 (r.rpc.toNat + r.adv * 2 ^ 64 + r.hnd.toNat * 2 ^ 70 + r.cfp % 2 ^ 24 * 2 ^ 72))
    ∧ (∀ (f lane fp : Nat) (target : BitVec 64) (s : State), hasFib s f = true → lane < 32 → (laneAt (fib s f) lane).wait = .callSpill target fp →
      needsSpill (slotRec s (slotOf f)).z (laneAt (fib s f) lane) = false → (fib s f).frozen = false →
      ∃ t, exec (.ballastDemandSpill f lane) s = .next t ∧ laneAt (fib t f) lane = { laneAt (fib s f) lane with pc := target, wait := .none }
        ∧ (∀ j < 32, j ≠ lane → laneAt (fib t f) j = laneAt (fib s f) j) ∧ OtherFibres s t f ∧ OnlyFibres s t)
    ∧ ∀ (ret : Bool) (f lane : Nat) (s u : State) (r : Link) (words : List Word), hasFib s f = true → hasFib u f = true → (fib s f).frozen = false →
      lane < 32 → readFrame s f lane ret = .got r words u → (slotRec u (slotOf f)).z ≤ 512 → words.length ≤ (slotRec u (slotOf f)).z →
      (ret = false → (fib s f).exited.getLsbD lane = false → (laneAt (fib s f) lane).wait = .none → (laneAt (fib s f) lane).links.length < 2 →
        (laneAt (fib s f) lane).links.length < (laneAt (fib s f) lane).depth →
        (threshold (slotRec s (slotOf f)).z (fib s f) : Int) ≤ roomOf (slotRec s (slotOf f)).z (laneAt (fib s f) lane) - frameLen r →
        ∃ t, exec (.ballastBackgroundRefill f lane) s = .next t ∧ laneAt (fib t f) lane = { laneAt (fib u f) lane with
              rb := r.cfp, links := (laneAt (fib u f) lane).links ++ [r] }
          ∧ (∀ j (h : j < words.length), frameGet t f lane (r.cfp + j) = words[j]) ∧ SameBytes u t)
      ∧ (ret = true → (laneAt (fib s f) lane).wait = .retRefill → (laneAt (fib u f) lane).links = [] → r.hnd = false
        ∧ ∃ t, exec (.ballastDemandRefill f lane) s = .next t ∧ laneAt (fib t f) lane = { laneAt (fib u f) lane with
              fp := r.cfp, depth := (laneAt (fib u f) lane).depth - 1, pc := BitVec.ofNat 64 (r.rpc.toNat / 4 * 4), rb := r.cfp, links := [], wait := .none }
          ∧ (∀ j (h : j < words.length), frameGet t f lane (r.cfp + j) = words[j]) ∧ SameBytes u t)

/-- R405, R407, R408: INSTRUCTION_FETCH adds the word at a slice's selected PC to what the slice holds, or traps its lanes; a prefetch adds the
word at its address, or the core marks the line as dropped and no lane traps. -/
def Sys2Proof.Claims.FetchAhead : Prop :=
  (∀ (f slice : Nat) (s : State) (pc : BitVec 64) (m : LaneMask), hasFib s f = true → sliceSelect (fib s f) (selectable (fib s f)) slice = some (pc, m) →
      (∀ ps, fetchPieces s f pc.toNat false = .ok ps → leavesSet kExec ps → undisturbed s (coreOf f) false ps → (sliceBuf (fib s f) slice).length < 16 →
        ∃ t, exec (.instructionFetch f slice) s = .next t ∧ sliceBuf (fib t f) slice = sliceBuf (fib s f) slice ++ [(pc, fetchedWord s ps)]
          ∧ (∀ k, k ≠ slice → sliceBuf (fib t f) k = sliceBuf (fib s f) k) ∧ (∀ i < 32, laneAt (fib t f) i = laneAt (fib s f) i)
          ∧ SameBytes s t ∧ OtherFibres s t f)
      ∧ ∀ e g x, fetchPieces s f pc.toNat false = .error e → e.s2 = false → issueGroup (triedLanes s f) (fib s f) = some (g, x) → slice ∈ g.slices → g.mask ≠ 0 →
        (fib s f).hstack = [] → (fib s f).trapq.length < 7 → e.cause = cPAGE →
        ∃ t en, exec (.instructionFetch f slice) s = .next t ∧ (fib t f).trapq = (fib s f).trapq ++ [en] ∧ en.cause = cFETCH ∧ en.lmask = g.mask
          ∧ en.pc = pc ∧ en.addr = BitVec.ofNat 64 e.addr ∧ (∀ i < 32, laneAt (fib t f) i = laneAt (fib s f) i) ∧ OtherFibres s t f)
    ∧ ∀ (f slice : Nat) (va : BitVec 64) (s : State), hasFib s f = true → va.toNat % 4 = 0 → slice < 8 →
      (∀ ps, fetchPieces s f va.toNat true = .ok ps → undisturbed s (coreOf f) false ps → (sliceBuf (fib s f) slice).length < 16 →
        ∃ t, exec (.instructionPrefetch f slice va) s = .next t ∧ sliceBuf (fib t f) slice = sliceBuf (fib s f) slice ++ [(va, fetchedWord s ps)]
          ∧ (fib t f).trapq = (fib s f).trapq)
      ∧ ∀ e, fetchPieces s f va.toNat true = .error e → ∃ t, exec (.instructionPrefetch f slice va) s = .next t ∧ wasDropped t f e.addr = true
        ∧ t = { s with dropped := t.dropped }

/-- R405, R407 to R410: IPREF, IFENCE, and fetch ahead of issue. -/
def Obligations.Fetch : Prop := Claims.FetchControl ∧ Claims.FetchAhead

/-- R353 to R356: delivery to K saves the cause, the resume PC, the address and info, stacks what was in force, masks every lane but those of
the entry, raises the level, and starts each of its lanes at the vector in a frame 64 words on whose first words are the trap block. -/
def Obligations.TrapToK : Prop :=
  ∀ (f : Nat) (s : State) (e : TrapEntry) (m : LaneMask), hasFib s f = true → dueDelivery s f = some (.trapDeliveryK f) → Deliverable s f 64 e m →
    (fib s f).ktvec ≠ 0 → (fib s f).hstack.length < 4 →
    (∀ i ∈ lanesOf m, (laneAt (fib s f) i).fp + 128 ≤ (fib s f).spw ∧ (laneAt (fib s f) i).depth + 1 ≤ (fib s f).lkn) →
    ∃ t, exec (.trapDeliveryK f) s = .next t ∧ TakenK (fib s f) (fib t f) e m (resumePc (fib s f) e m) ∧ OtherFibres s t f ∧ SameBytes s t
      ∧ ∀ i < 32, (m.getLsbD i = false → (laneAt (fib t f) i).pc = (laneAt (fib s f) i).pc ∧ (laneAt (fib t f) i).fp = (laneAt (fib s f) i).fp)
        ∧ (m.getLsbD i = true → entered 64 true (fib s f).ktvec (laneAt (fib s f) i) (laneAt (fib t f) i)
          ∧ ∀ j < 16, frameGet t f i ((laneAt (fib s f) i).fp + 64 + j) = ([BitVec.ofNat 32 (handlerAddr e i).toNat,
              BitVec.ofNat 32 ((handlerAddr e i).toNat / 2 ^ 32), e.info, BitVec.ofNat 32 (fib t f).tcause.toNat,
              BitVec.ofNat 32 (laneAt (fib s f) i).pc.toNat, BitVec.ofNat 32 ((laneAt (fib s f) i).pc.toNat / 2 ^ 32), e.lmask] : List Word).getD j 0)

/-- R359, R360: delivery to U enters the handler as a call 16 words on, at the same level and mask; ERET restores what the delivery
stacked and sends each lane back to where it was, or to %tpc where that was written; outside a handler it is RESERVED_FIELD. A PC taken
from %tpc or a record loses its low two bits, the model's choice (log 52). -/
def Obligations.TrapToUAndReturn : Prop :=
  (∀ (f : Nat) (s : State) (e : TrapEntry) (m : LaneMask), hasFib s f = true → dueDelivery s f = some (.trapDeliveryU f) → Deliverable s f 16 e m →
      (∀ i ∈ lanesOf m, fitsU s f (fib s f) i = true) →
      ∃ t, exec (.trapDeliveryU f) s = .next t ∧ OtherFibres s t f ∧ SameBytes s t ∧ (fib t f).trapq = (fib s f).trapq.drop 1
        ∧ (fib t f).klvl = (fib s f).klvl ∧ (fib t f).amask = (fib s f).amask ∧ (fib t f).hstack = (fib s f).hstack
        ∧ (fib t f).tcause = (fib s f).tcause ∧ (fib t f).tpc = (fib s f).tpc
        ∧ ∀ i ∈ lanesOf m, entered 16 false (fib s f).utvec (laneAt (fib s f) i) (laneAt (fib t f) i)
          ∧ frameGet t f i ((laneAt (fib s f) i).fp + 16) = BitVec.ofNat 32 (e.cause + 256 * (fib s f).klvl.toNat + 512 * e.async.toNat)
          ∧ frameGet t f i ((laneAt (fib s f) i).fp + 17) = e.info
          ∧ frameGet t f i ((laneAt (fib s f) i).fp + 18) = BitVec.ofNat 32 (handlerAddr e i).toNat
          ∧ frameGet t f i ((laneAt (fib s f) i).fp + 19) = BitVec.ofNat 32 ((handlerAddr e i).toNat / 2 ^ 32))
    ∧ (∀ (a : Args) (s : State) (h : HandlerLevel) (r : List HandlerLevel), hasFib s s.cur = true → (me s).hstack = h :: r → (me s).parked = 0 →
      (me s).waits = [] → (∀ i ∈ handlerLanes (me s), ∃ k l, (laneAt (me s) i).links = k :: l ∧ k.hnd = true ∧ (laneAt (me s) i).wait = .none) →
      ∃ t, exec (.eret a) s = .next t ∧ OtherFibres s t s.cur ∧ OnlyFibres s t ∧ (me t).hstack = r ∧ (me t).amask = h.amask ∧ (me t).klvl = h.klvl
        ∧ (me t).ganged = h.ganged ∧ (me t).tcause = h.tcause ∧ (me t).tpc = h.tpc ∧ (me t).taddr = h.taddr ∧ (me t).tinfo = h.tinfo
        ∧ (∀ i ∈ handlerLanes (me s), handedBack (if (me s).tcause.getLsbD 10 then some (me s).tpc else none) (laneAt (me s) i) (laneAt (me t) i))
        ∧ ∀ i < 32, i ∉ handlerLanes (me s) → laneAt (me t) i = laneAt (me s) i)
    ∧ ∀ (a : Args) (s : State), hasFib s s.cur = true → (me s).hstack = [] → queueRoom s = true → s.grp ≠ 0 →
      ∃ t, exec (.eret a) s = .next t ∧ Refused s t s.grp cRESERVED

/-- R361, R363: MOVSR reads a register and MOVSW writes it; a K register at U traps PRIVILEGE and a reserved bit RESERVED_FIELD. A write of %tpc sets
bit 10 of %tcause; no other register changes, so that one that is read only keeps its value. That %gangmask is all ones while the warp is ganged
is the model's reading (log 31). -/
def Obligations.SpecialRegisters : Prop :=
  (∀ (a : Args) (s : State) (r : Reg) (n b : Bool), hasFib s s.cur = true → a.d.opnd = .reg r n b →
      (kAccess a.imm.toNat = true → (me s).klvl = true) →
      ∃ u t, exec (.movsr a) s = .next t ∧ WentOn s u t ∧ Wrote s u (active s a) r (a.ty == .b64) true fun l v =>
        ∃ w, v = w % 2 ^ (if a.ty == .b64 || !(aWords r).isEmpty then 64 else 32) ∧ specialHolds s s.cur l a.imm.toNat w)
    ∧ (∀ (i : Args → Instr) (a : Args) (s : State), (i = .movsr ∨ i = .movsw) → hasFib s s.cur = true → kAccess a.imm.toNat = true →
      (me s).klvl = false →
      (active s a ≠ 0 → queueRoom s = true → ∃ t, exec (i a) s = .next t ∧ Refused s t (active s a) cPRIVILEGE)
      ∧ (active s a = 0 → ∃ t, exec (i a) s = .next t ∧ WentOn s s t))
    ∧ ∀ (a : Args) (s : State) (l v : Nat) (w : BitVec 64), hasFib s s.cur = true → (kAccess a.imm.toNat = true → (me s).klvl = true) →
      lowest (active s a) = some l → v = srcVal s a.ty 0 a.s0 l → w = BitVec.ofNat 64 v →
      (v &&& specialRes a.imm.toNat ≠ 0 → queueRoom s = true → ∃ t, exec (.movsw a) s = .next t ∧ Refused s t (active s a) cRESERVED)
      ∧ (v &&& specialRes a.imm.toNat = 0 → ∃ t, exec (.movsw a) s = .next t ∧ OtherFibres s t s.cur ∧ OnlyFibres s t
        ∧ (a.imm.toNat ≠ 0x013 → (∀ i < 32, laneAt (me t) i = onward s i) ∧ me t = { me s with
            lanes := (me t).lanes, fetched := (me t).fetched,
            lwm := if a.imm.toNat = 0x012 then v / 2 ^ 32 % 128 else (me s).lwm, fmode := if a.imm.toNat = 0x018 then w else (me s).fmode,
            prog := if a.imm.toNat = 0x019 then w else (me s).prog, wdLimit := if a.imm.toNat = 0x01A ∧ (me s).klvl = true then v % 2 ^ 32 else (me s).wdLimit,
            tenmax := if a.imm.toNat = 0x01B then w else (me s).tenmax, spb := if a.imm.toNat = 0x020 then w else (me s).spb,
            lkb := if a.imm.toNat = 0x021 then w else (me s).lkb, spw := if a.imm.toNat = 0x022 then v % 2 ^ 24 else (me s).spw,
            lkn := if a.imm.toNat = 0x022 then v / 2 ^ 24 % 2 ^ 16 else (me s).lkn, pgroot := if a.imm.toNat = 0x026 then w else (me s).pgroot,
            tpc := if a.imm.toNat = 0x031 then w else (me s).tpc, tcause := if a.imm.toNat = 0x031 then (me s).tcause ||| 0x400 else (me s).tcause,
            ktvec := if a.imm.toNat = 0x034 then w else (me s).ktvec, utvec := if a.imm.toNat = 0x035 then w else (me s).utvec,
            tdeleg := if a.imm.toNat = 0x036 then w else (me s).tdeleg })
        ∧ (a.imm.toNat = 0x013 → BitVec.ofNat 32 v &&& liveMask (me s) ≠ 0 → me t = { me s with
            lanes := (me t).lanes, amask := BitVec.ofNat 32 v,
            parked := (me t).parked, ganged := (me t).ganged, lastSlice := (me t).lastSlice }))

/-- R66, R70, R71: TLBINV posts an invalidation and TLBSYNC waits; when the partition's writes are performed the named entries are gone and the
wait ends. A stage-2 invalidation removes the partition's entries. A held stage-2 fault replays once repaired, else it is queued. -/
def Obligations.TranslationUpkeep : Prop :=
  (∀ (a : Args) (s : State) (c : Nat), hasFib s s.cur = true → c = scalar s a.s1 → c % 4 ≠ 3 → c / 4 % 4 = 0 → c / 2 ^ 17 % 2 ^ 15 = 0 → (me s).sq = [] →
      s.readPts = [] →
      ∃ t, exec (.tlbinv a) s = .next t ∧ (∀ i < 32, laneAt (me t) i = onward s i) ∧ me t = { me s with lanes := (me t).lanes, invals := (me t).invals }
        ∧ (me t).invals = (me s).invals ++ [{ part := (me s).part, kind := c % 4, asid := c / 16 % 2 ^ 12, va := addrVal s a.s0 (lane0 s), leafOnly := c.testBit 16 }]
        ∧ OtherFibres s t s.cur ∧ OnlyFibres s t)
    ∧ (∀ (a : Args) (s : State), hasFib s s.cur = true → ∃ t, exec (.tlbsync a) s = .next t ∧ Waits s t .tlbsync)
    ∧ (∀ (f : Nat) (s : State) (w : Wait), hasFib s f = true → s.readPts = [] → (fib s f).waits = [w] → w.kind = .tlbsync →
      partDrained s (fib s f).part = true →
      ∃ t, exec (.tlbsyncComplete f) s = .next t ∧ Departed s t f w ∧ (fib t f).invals = []
        ∧ (∀ e, e ∈ t.tlb ↔ e ∈ s.tlb ∧ ∀ i ∈ (fib s f).invals, tlbInvalidates i e = false)
        ∧ (∀ e, e ∈ t.walks ↔ e ∈ s.walks ∧ ∀ i ∈ (fib s f).invals, walkInvalidates i e = false) ∧ SameBytes s t)
    ∧ (∀ (part : Nat) (s : State), partDrained s part = true →
      ∃ t, exec (.stage2Invalidate part) s = .next t ∧ (∀ e ∈ t.tlb, e ∈ s.tlb ∧ e.part ≠ part) ∧ (∀ e ∈ t.walks, e ∈ s.walks ∧ e.part ≠ part) ∧ SameBytes s t)
    ∧ ∀ (k : Nat) (repaired : Bool) (s : State) (h : Held2), s.s2held[k]? = some h → hasFib s h.fib = true → (fib s h.fib).trapq.length < 7 →
      (fib s h.fib).hstack = [] → h.entry.async = false →
      ∃ t, exec (.stage2FaultService k repaired) s = .next t ∧ t.s2held = s.s2held.eraseIdx k
        ∧ (fib t h.fib).stopped = (fib s h.fib).stopped &&& ~~~ h.entry.lmask
        ∧ (fib t h.fib).trapq = (fib s h.fib).trapq ++ (if repaired then [] else [h.entry]) ∧ OtherFibres s t h.fib ∧ SameBytes s t

/-! ## Contexts, waiting, services (spec/16, spec/17) -/

/-- R366, R367, R371: CTXSAVE writes the area of a resident workgroup, its header with the next SEQ, answers 1, and unless it keeps the workgroup
frees everything it held; for a workgroup that is not resident it answers 0 and writes nothing. -/
def Sys2Proof.Claims.ContextSave : Prop :=
  (∀ (a : Args) (s : State) (va : Nat), hasFib s s.cur = true → (me s).sq = [] → s.readPts = [] → va = effAddr s a (lane0 s) → va % 1024 = 0 →
      residentWg s (me s).part (scalar s a.s1) (pairHigh s a.s1 (lane0 s)) = none →
      ∃ t, exec (.ctxsave a) s = .next t ∧ GoesOn s t ∧ predHolds s t a.d.opnd false ∧ OnlyFibres s t ∧ OtherFibres s t s.cur)
    ∧ ∀ (a : Args) (s : State) (va key : Nat) (w : Wg) (p : Piece) (ps : List Piece), hasFib s s.cur = true → (me s).sq = [] → s.readPts = [] →
      va = effAddr s a (lane0 s) → va % 1024 = 0 → residentWg s (me s).part (scalar s a.s1) (pairHigh s a.s1 (lane0 s)) = some (key, w) →
      s.cur ∉ w.fibres → (∀ g ∈ wgFibres s w, (fib s g).sq = []) → residentPins s w = [] → w.lid < 2 ^ 32 → w.wg < 2 ^ 32 →
      areaPieces (stopWg s w) (myCtx s) va (areaBlocks w) kWrite = .ok (p :: ps) → unitWaits (stopWg s w) s.cur true (p :: ps) = false →
      p.mt ≠ 3 → inMem p.loc = true → isHost p.loc = false → leavesSet kWrite (p :: ps) → noTenure s → s.objs = [] → p.loc + 1024 ≤ 2 ^ 52 →
      ∃ t, exec (.ctxsave a) s = .next t ∧ GoesOn s t ∧ predHolds s t a.d.opnd true
        ∧ (a.ord.toNat = 1 → (FMap.find t.wgs key).isSome = true ∧ ∀ g ∈ wgFibres s w, hasFib t g = true)
        ∧ (a.ord.toNat ≠ 1 → FMap.find t.wgs key = none ∧ (FMap.find t.saved key).isSome = true ∧ ∀ g ∈ w.fibres, hasFib t g = false)
        ∧ bits (blockNow t p) 64 32 = 0x58435453 ∧ bits (blockNow t p) 96 16 = 1 ∧ bits (blockNow t p) 112 5 = w.part % 32
        ∧ (blockNow t p).testBit 117 = false ∧ ((blockNow t p).testBit 118 = true ↔ a.ord.toNat = 1)
        ∧ bits (blockNow t p) 128 32 = w.lid ∧ bits (blockNow t p) 160 32 = w.wg
        ∧ bits (blockNow t p) 192 32 = (bits (blockNow (stopWg s w) p) 192 32 + 1) % 2 ^ 32
        ∧ bits (blockNow t p) 8128 64 = blockTag (saveKey s w.part) va (blockNow t p % 2 ^ 8128)

/-- R368, R369, R371: CTXLOAD of a good area queues its context and answers 1, or 0 where its workgroup is resident or queued; a header that fails
is RESTORE_INTEGRITY, an area whose shape does not fit RESTORE_SHAPE, a reserved field that is not 0 RESERVED_FIELD. -/
def Sys2Proof.Claims.ContextLoad : Prop :=
  (∀ (a : Args) (s : State) (va v : Nat) (p : Piece) (ps : List Piece), hasFib s s.cur = true → (me s).sq = [] → s.readPts = [] →
      va = effAddr s a (lane0 s) → va % 1024 = 0 → blockPiece s (myCtx s) va kRead = .ok p → noTenure s → leavesSet kRead ps →
      v = blockNow s p → blockGood s (me s).part va 0 (bits v 192 32) (bits v 224 32) p = true → headerGood (me s).part v = true →
      v.testBit 117 = false → areaPieces s (myCtx s) va (max 1 (bits v 256 16)) kRead = .ok ps →
      (∀ i q, ps[i]? = some q → blockGood s (me s).part va i (bits v 192 32) (bits v 224 32) q = true) →
      ((∃ i q, ps[i]? = some q ∧ blockRes (blockNow s q) i = true) → queueRoom s = true → s.grp ≠ 0 →
        ∃ t, exec (.ctxload a) s = .next t ∧ Refused s t s.grp cRESERVED ∧ t.restores = s.restores)
      ∧ ((∀ i q, ps[i]? = some q → blockRes (blockNow s q) i = false) →
        (∀ n, headerShape s (me s).part v = some n → queueRoom s = true → s.grp ≠ 0 →
          ∃ t, exec (.ctxload a) s = .next t ∧ (me t).trapq = queuedWith s (entryOf s s.grp cRESTSHAPE s.ipc va n []) ∧ t.restores = s.restores)
        ∧ ∀ z : Save, headerShape s (me s).part v = none →
          (s.saves.find? fun z => z.blocks == ps.map fun p => BitVec.ofNat 8192 (blockNow s p)) = some z →
          (shapeFails s (me s).part z.ctx = none → residentOrQueued s (me s).part (bits v 128 32) (bits v 160 32) = false →
            ∃ t, exec (.ctxload a) s = .next t ∧ GoesOn s t ∧ predHolds s t a.d.opnd true
              ∧ t.restores = s.restores ++ [{ z.ctx with wgRec := { z.ctx.wgRec with saveArea := va + 1, saveSeq := bits v 192 32 } }])
          ∧ (shapeFails s (me s).part z.ctx = none → residentOrQueued s (me s).part (bits v 128 32) (bits v 160 32) = true →
            ∃ t, exec (.ctxload a) s = .next t ∧ GoesOn s t ∧ predHolds s t a.d.opnd false ∧ t.restores = s.restores)
          ∧ ∀ n, shapeFails s (me s).part z.ctx = some n → queueRoom s = true → s.grp ≠ 0 →
            ∃ t, exec (.ctxload a) s = .next t ∧ (me t).trapq = queuedWith s (entryOf s s.grp cRESTSHAPE s.ipc va n []) ∧ t.restores = s.restores))
    ∧ ∀ (a : Args) (s : State) (va v : Nat) (p : Piece), hasFib s s.cur = true → (me s).sq = [] → s.readPts = [] → queueRoom s = true → s.grp ≠ 0 →
      va = effAddr s a (lane0 s) → va % 1024 = 0 → blockPiece s (myCtx s) va kRead = .ok p → noTenure s →
      v = blockNow s p → (blockGood s (me s).part va 0 (bits v 192 32) (bits v 224 32) p && headerGood (me s).part v) = false → s.objs = [] →
      ∃ t, exec (.ctxload a) s = .next t ∧ (me t).trapq = queuedWith s (entryOf s s.grp cRESTINT s.ipc va 0 []) ∧ t.restores = s.restores

/-- R366 to R369, R371: CTXSAVE and CTXLOAD. The payload of an area and the form of its tag are the model's (logs 10 and 13). -/
def Obligations.Contexts : Prop := Claims.ContextSave ∧ Claims.ContextLoad

/-- R372, R387, R389, R390, R391: HALT and WWAIT wait or go on; the event each waits for ends it, with its answer; WWAKE wakes the oldest waiters of a
key and answers their number. -/
def Obligations.WaitAndWake : Prop :=
  (∀ (a : Args) (s : State) (dl : Option Nat), hasFib s s.cur = true → dl = (if a.s0 = .reg .zero false false then none else some (addrVal s a.s0 (lane0 s))) →
      (∀ n b, a.s0 = .reg .zero n b → n = false ∧ b = false) →
      (haltOver s s.cur dl = true → ∃ t, exec (.halt a) s = .next t ∧ (∀ i < 32, laneAt (me t) i = onward s i) ∧ OnlyFibres s t ∧ OtherFibres s t s.cur)
      ∧ (haltOver s s.cur dl = false → ∃ t, exec (.halt a) s = .next t ∧ Waits s t (.halt dl)))
    ∧ (∀ (f : Nat) (s : State) (w : Wait) (d : Option Nat), hasFib s f = true → haltWait (fib s f) = some (w, d) → haltOver s f d = true →
      ∃ t, exec (.haltWake f) s = .next t ∧ Departed s t f w ∧ OnlyFibres s t ∧ OtherFibres s t f)
    ∧ (∀ (a : Args) (s : State) (va e tm : Nat) (ps : List Piece), hasFib s s.cur = true → va = effAddr s a (lane0 s) →
      checkAccess s s.cur (lane0 s) a.space.toNat va 4 4 kRead .monitor false = .ok ps → plainPieces s kRead false ps → loadDrains (me s) ps = false →
      e = (if isZeroOpnd a.s1 then 0 else wordVal s a.s1 (lane0 s)) → tm = (if isZeroOpnd a.s1 then 0 else pairHigh s a.s1 (lane0 s)) →
      (ofBytes (loadBytes s a.space.toNat ps) ≠ e → ∃ t, exec (.wwait a) s = .next t ∧ GoesOn s t ∧ predHolds s t a.d.opnd false ∧ t.hub = s.hub)
      ∧ (ofBytes (loadBytes s a.space.toNat ps) = e → waitersHeld s (me s).part < wshOf s (me s).part → s.hub.waiters.length < 4096 →
          ∃ t, exec (.wwait a) s = .next t ∧ t.hub.waiters = s.hub.waiters ++ [{ part := (me s).part, key := va, who := .fibre s.cur, seq := nextSeq s }]
            ∧ Waits s t (.wwait va (if tm = 0 then none else some (s.tick + tm)) false (predDst a.d.opnd) (decide (a.ord.toNat = 1)) a.scope.toNat))
      ∧ (ofBytes (loadBytes s a.space.toNat ps) = e → wshOf s (me s).part ≤ waitersHeld s (me s).part →
          ∃ t, exec (.wwait a) s = .next t ∧ GoesOn s t ∧ predHolds s t a.d.opnd false ∧ t.hub = s.hub))
    ∧ (∀ (f key scope : Nat) (s : State) (w : Wait) (d : Option Nat) (dst : Option Nat) (woken acq : Bool), hasFib s f = true → s.readPts = [] →
      wwaitOf (fib s f) = some w → w.kind = .wwait key d woken dst acq scope → (∀ k, dst = some k → k < 7) →
      (woken = true → ∃ t, exec (.wwaitWake f) s = .next t ∧ Departed s t f w
        ∧ ∀ k, dst = some k → ∀ i < 32, w.lanes.getLsbD i = true → (SMap.get 0 (fib t f).preds k).getLsbD i = true)
      ∧ (∀ tm, woken = false → d = some tm → tm ≤ s.tick → ∃ t, exec (.wwaitTimeout f) s = .next t ∧ Departed s t f w
        ∧ (∀ e ∈ t.hub.waiters, e.who ≠ .fibre f)
        ∧ ∀ k, dst = some k → ∀ i < 32, w.lanes.getLsbD i = true → (SMap.get 0 (fib t f).preds k).getLsbD i = false))
    ∧ ∀ (a : Args) (s : State) (va c : Nat) (l : List WaitEntry), hasFib s s.cur = true → s.readPts = [] → (me s).sq = [] →
      va = effAddr s a (lane0 s) → va % 4 = 0 → c = scalar s a.s1 → (l.any hostWaiter = true ∨ 6 ≤ a.scope.toNat → fibReady s s.cur 6 = true) →
      (l.any hostWaiter = true → noTenure s) →
      l = (if c = 0 then s.hub.waiters.filter (onKey (me s).part va) else (s.hub.waiters.filter (onKey (me s).part va)).take c) →
      ∃ t, exec (.wwake a) s = .next t ∧ GoesOn s t ∧ uniformHolds t a.d.opnd l.length ∧ t.hub.waiters = s.hub.waiters.filter (fun w => !l.contains w)
        ∧ ∀ e ∈ l, ∀ f w key d dst acq scope woken, e.who = .fibre f → f ≠ s.cur → hasFib s f = true → (fib s f).waits = [w] →
            w.kind = .wwait key d woken dst acq scope → (fib t f).waits = [{ w with kind := .wwait key d true dst acq scope }]

/-- R345, R346, R393, R395: without a ring SVC is SERVICE_CALL; with one it fills a slot and its lanes wait for the reply, whose results
they then hold. SVC.f is RESERVED_FIELD outside a handler and SVC.take away from a gondola; SERVICE_DISPATCH gives the oldest batch to the
waiting warp. That the ring lies in device or host memory as the model reads it is log 24. -/
def Obligations.Services : Prop :=
  (∀ (a : Args) (s : State), hasFib s s.cur = true → keptSlot s s.cur = none → ringOf s (me s).part (dieOf (coreOf s.cur)) = none → queueRoom s = true →
      active s a ≠ 0 →
      ∃ t, exec (.svc a) s = .next t ∧ Queued s t (entryOf s (active s a) cSERVICE s.ipc 0 (a.imm.toNat % 2 ^ 24) []) fun i =>
        if (active s a).getLsbD i then laneAt (me s) i else onward s i)
    ∧ (∀ (i : Args → Instr) (a : Args) (s : State) (r : Nat × Nat) (k form : Nat), hasFib s s.cur = true →
      (i = .svc ∧ form = 0 ∨ i = .svcF ∧ form = 1 ∧ (me s).hstack ≠ []) → keptSlot s s.cur = none →
      ringOf s (me s).part (dieOf (coreOf s.cur)) = some r → active s a ≠ 0 → (me s).sq = [] → s.readPts = [] → fibReady s s.cur (ringScope r.1) = true →
      freeSlot (reclaim s) (me s).part (dieOf (coreOf s.cur)) = some k → s.objs = [] →
      (me s).part < 32 → (∀ q ∈ linesOf (slotAddr r.1 k) 2048, conflicts s hubCore q true = []) →
      ∃ t b w, exec (i a) s = .next t ∧ t.hub.batches = (reclaim s).hub.batches ++ [b] ∧ b.part = (me s).part ∧ b.die = dieOf (coreOf s.cur)
        ∧ b.slot = k ∧ b.ring = r ∧ b.kind = form + 1 ∧ b.owner = s.cur ∧ b.state = (if isHost r.1 then 2 else 0) ∧ b.header.toNat % 256 = form + 1
        ∧ (me t).waits = (me s).waits ++ [w] ∧ w.lanes = active s a ∧ w.pc = s.ipc + 12
        ∧ ∀ i < 32, laneAt (me t) i = if (active s a).getLsbD i then laneAt (me s) i else onward s i)
    ∧ (∀ (a : Args) (s : State), hasFib s s.cur = true → (me s).hstack = [] → queueRoom s = true → s.grp ≠ 0 →
      ∃ t, exec (.svcF a) s = .next t ∧ Refused s t s.grp cRESERVED)
    ∧ (∀ (a : Args) (s : State), hasFib s s.cur = true →
      (isGondola s (coreOf s.cur) = true → ∃ t, exec (.svcTake a) s = .next t ∧ Waits s t (.svcTake (opndNum a.d.opnd) none))
      ∧ (isGondola s (coreOf s.cur) = false → queueRoom s = true → s.grp ≠ 0 → ∃ t, exec (.svcTake a) s = .next t ∧ Refused s t s.grp cRESERVED))
    ∧ (∀ (f n dst : Nat) (b : Batch) (s : State) (w : Wait), hasFib s f = true → s.readPts = [] → replied s f = some (w, b) →
      (∀ q ∈ linesOf (slotAddr b.ring.1 b.slot) 2048, conflicts s (coreOf f) q false = []) →
      (w.kind = .svc n 0 dst → 4 ≤ (slotRec s (slotOf f)).z → (slotRec s (slotOf f)).z ≤ 512 →
        ∃ t, exec (.svcReply f) s = .next t ∧ Departed s t f w ∧ ((fib s f).waits = [w] → b ∉ t.hub.batches)
          ∧ ∀ l ∈ lanesOf w.lanes, ∀ j < 4, (frameGet t f l ((laneAt (fib s f) l).fp + dst + j)).toNat =
              ofBytes (((hubRead s (slotAddr b.ring.1 b.slot + 1088 + 16 * l) b.ring.2 16).drop (4 * j)).take 4))
      ∧ (w.kind = .svc n 1 dst → dst < 32 → ∃ t, exec (.svcReply f) s = .next t ∧ Departed s t f w
          ∧ ((fib s f).waits = [w] → b ∉ t.hub.batches) ∧ SMap.get 0 (fib t f).sregs dst = BitVec.ofNat 32 (slotStatus s b.ring b.slot)))
    ∧ ∀ (die p f dst : Nat) (b : Batch) (w : Wait) (s : State), s.readPts = [] → nextServed s die = some p → oldestBatch s die p = some b →
      oldestTaker s die p = some (f, w, dst) → hasFib s f = true → dst < 31 →
      ∃ t, exec (.serviceDispatch die) s = .next t ∧ Departed s t f w ∧ { b with state := 1, owner := f } ∈ t.hub.batches
        ∧ SMap.get 0 (fib t f).sregs dst = BitVec.ofNat 32 (slotAddr b.ring.1 b.slot)
        ∧ SMap.get 0 (fib t f).sregs (dst + 1) = BitVec.ofNat 32 (slotAddr b.ring.1 b.slot / 2 ^ 32)

/-! ## The host and the hub (spec/06, spec/17) -/

/-- R378, R379, R388, R389, R393: a function behind a failed port accepts nothing, one of no partition answers Unsupported Request. A
doorbell enqueues the record it reads at K, or answers 0; SDONE frees the served slots; a request enrols, wakes or cancels, and answers at
NPA; one with a res bit is logged. -/
def Obligations.FunctionRequests : Prop :=
  (∀ (vf off size : Nat) (wr : Bool) (x y : BitVec 64) (z : BitVec 128) (q : BitVec 256) (i : Instr) (s : State), vfLive s vf = none →
      i ∈ [Instr.launchDoorbell vf x y, .sdone vf x, .wreqEnrol vf q, .wreqWake vf q, .wreqCancel vf q, .vfRegisterWrite vf off size wr z] →
      exec i s = .next (if (portAt s (vfPort vf)).failed then s else output s (.completion cplUnsupported)))
    ∧ (∀ (vf part : Nat) (va res : BitVec 64) (s u : State) (rec : BitVec 1024) (k : BitVec 512), Bound s vf part →
      readLaunch s { part := part, root := SMap.get 0 (partOf s part).lctx vf, klvl := true } none va.toNat = (u, .ok (some (rec, k))) →
      (∀ q ∈ linesOf (res.toNat % 2 ^ 52) 8, conflicts u hubCore q true = []) → Bound u vf part →
      ((launchFails rec k).isSome = true → ∃ t, exec (.launchDoorbell vf va res) s = .next t ∧ t.hub.launches = u.hub.launches
        ∧ Sent u t (vfPort vf) (wordWritten vf (res.toNat % 2 ^ 52) 0))
      ∧ (launchFails rec k = none → (queueOf u part (rf rec 196 6)).length < 256 → rDep rec = false → 6 ≤ u.hub.boot →
        ∃ t l, exec (.launchDoorbell vf va res) s = .next t ∧ t.hub.launches = u.hub.launches ++ [l]
          ∧ Sent u t (vfPort vf) (wordWritten vf (res.toNat % 2 ^ 52) l.lid)
          ∧ l.part = part ∧ l.lid = launchNumber (partOf u part).nextLid ∧ l.record = rec ∧ l.kdesc = k ∧ l.queue = rf rec 196 6 ∧ l.prio = rf rec 192 3
          ∧ l.root = SMap.get 0 (partOf s part).lctx vf ∧ l.doneK = true ∧ l.klvl = isKQueue (partOf u part) (rf rec 196 6)))
    ∧ (∀ (vf part : Nat) (v : BitVec 64) (s : State), Bound s vf part → v.toNat < 2 ^ 16 →
      exec (.sdone vf v) s = .next { s with hub := { s.hub with batches := s.hub.batches.filter fun b => !spent s b } })
    ∧ (∀ (vf part : Nat) (q : BitVec 256) (s : State), Bound s vf part → bits q.toNat 66 14 = 0 → bits q.toNat 180 12 = 0 → noTenure s →
      (wreqOp q = 0 → waitersHeld s part < wshOf s part → s.hub.waiters.length < 4096 → ∃ t, exec (.wreqEnrol vf q) s = .next t
        ∧ t.hub.waiters = s.hub.waiters ++ [{ part := part, key := wreqKey q, who := .host (vfPort vf) (wreqToken q) (wreqNpa q) (wreqNval q), seq := nextSeq s }]
        ∧ t.hub.outputs = s.hub.outputs)
      ∧ (wreqOp q = 0 → wshOf s part ≤ waitersHeld s part → wreqNpa q ≠ 0 → ∃ t, exec (.wreqEnrol vf q) s = .next t
        ∧ t.hub.waiters = s.hub.waiters ∧ Sent s t (vfPort vf) (wordWritten vf (wreqNpa q) (~~~ wreqNval q).toNat))
      ∧ (wreqOp q = 1 → ∃ t, exec (.wreqWake vf q) s = .next t
        ∧ t.hub.waiters = s.hub.waiters.filter (fun w => !(wokenOf s part (wreqKey q) (wreqCount q)).contains w)
        ∧ (wreqNpa q ≠ 0 → t.hub.outputs.getLast? = some (wordWritten vf (wreqNpa q) ((wokenOf s part (wreqKey q) (wreqCount q)).length % 2 ^ 64))))
      ∧ (wreqOp q = 2 → ∃ t, exec (.wreqCancel vf q) s = .next t ∧ t.hub.outputs = s.hub.outputs
        ∧ ∀ w, w ∈ t.hub.waiters ↔ w ∈ s.hub.waiters ∧ ¬ (w.part = part ∧ w.key = wreqKey q ∧ ∃ p n v, w.who = .host p (wreqToken q) n v)))
    ∧ (∀ (vf part : Nat) (q : BitVec 256) (i : Instr) (s : State), Bound s vf part → i ∈ [Instr.wreqEnrol vf q, .wreqWake vf q, .wreqCancel vf q] →
      (bits q.toNat 66 14 ≠ 0 ∨ bits q.toNat 180 12 ≠ 0 ∨ wreqOp q = 3) → exec i s = .next (logError s (.dropped (wreqOp q))))
    ∧ ∀ (vf part off size : Nat) (z : BitVec 128) (s : State), Bound s vf part →
      (off < 0x3000 → exec (.vfRegisterWrite vf off size false z) s = .next (output s (.completion cplUnsupported)))
      ∧ (msixAccess off size = true → off < 0x3800 → ∃ t, exec (.vfRegisterWrite vf off size false z) s = .next t
        ∧ t = output s (.readData (vfPort vf) off ((List.range size).map fun j => msixByte s vf (off - 0x3000 + j))))
      ∧ (msixAccess off size = true → off < 0x3800 → ∃ t, exec (.vfRegisterWrite vf off size true z) s = .next t
        ∧ ∀ g o, o < 4096 → msixByte t g o =
            if g = vf ∧ off - 0x3000 ≤ o ∧ o < off - 0x3000 + size then (toBytes size z.toNat).getD (o - (off - 0x3000)) 0 else msixByte s g o)

/-- R117, R158, R160, R161, R162, R378: an ordered host write is at its home when it is performed, a relaxed one joins those still to be
performed; a read answers what stands there; both wait for a pinned tenure; a snoop hands over a dirty line; a flush makes the relaxed
writes accepted before it visible in order; a port that fails loses those it has not sent. That host accesses have no key, and when a relaxed
write leaves its port, is the model's reading (logs 47 and 57). -/
def Obligations.HostAccesses : Prop :=
  (∀ (port pa : Nat) (l : List Byte) (s : State), (portAt s port).failed = false → hostReaches s port pa l.length = true → pa + l.length ≤ 2 ^ 52 →
      s.objs = [] → port < s.hub.ports.length →
      (noTenure s → ∃ t, exec (.hostWrite port pa l false) s = .next t ∧ (portAt t port).inbound = []
        ∧ readBytes t (hostKey s pa) pa l.length = l ∧ ((portAt s port).inbound = [] → PutHome s t pa l))
      ∧ ((inboundWaits s port || hostWaits s pa l.length true) = true → exec (.hostWrite port pa l false) s = .next s)
      ∧ ∃ t, exec (.hostWrite port pa l true) s = .next t ∧ (portAt t port).inbound = (portAt s port).inbound ++ [(pa, l)] ∧ SameBytes s t)
    ∧ (∀ (port pa n : Nat) (s : State), (portAt s port).failed = false → hostReaches s port pa n = true → pa + n ≤ 2 ^ 52 →
      (noTenure s → (portAt s port).inbound = [] → ∃ t, exec (.hostRead port pa n) s = .next t
        ∧ t.hub.outputs = s.hub.outputs ++ [.readData port pa (readBytes s (hostKey s pa) pa n)] ∧ SameBytes s t)
      ∧ ((inboundWaits s port || hostWaits s pa n false) = true → exec (.hostRead port pa n) s = .next s))
    ∧ (∀ (port pa : Nat) (ex : Bool) (s : State), (portAt s port).failed = false → (portAt s port).cxl = true → isHost pa = true → portOf pa = port →
      noTenure s →
      ∃ t, exec (.cxlSnoop port pa ex) s = .next t ∧ SameBytes s t ∧ (ex = true → FMap.find t.mem.copies (pa / 128) = none)
        ∧ ((∃ i < 128, (FMap.find s.mem.dirty (pa / 128 * 128 + i)).isSome = true) →
            t.hub.outputs = s.hub.outputs ++ [.snoopAnswer port pa (readBytes s 0 (pa / 128 * 128) 128)])
        ∧ ((∀ i < 128, FMap.find s.mem.dirty (pa / 128 * 128 + i) = none) → t.hub.outputs = s.hub.outputs ++ [.snoopAnswer port pa []]))
    ∧ (∀ (port n : Nat) (r : List Nat) (s : State), port < s.hub.ports.length → (portAt s port).flights = n :: r →
      ((portAt s port).relaxed.Pairwise (fun v w => v.num < w.num) →
        ∃ t, exec (.flushCompletion port) s = .next t ∧ (portAt t port).relaxed = (portAt s port).relaxed.filter (fun w => decide (n ≤ w.num))
          ∧ (portAt t port).flights = r ∧ (portAt t port).flushed = max (portAt s port).flushed n ∧ SameBytes s t
          ∧ (∀ pa, SMap.get 0 t.hub.hostMem pa = shown ((portAt s port).relaxed.filter fun w => decide (w.num < n)) pa (SMap.get 0 s.hub.hostMem pa))
          ∧ t.hub.outputs = s.hub.outputs ++ ((portAt s port).relaxed.filter fun w => !w.sent && decide (w.num < n)).map fun w =>
              .hostWrite port w.pa w.data true)
      ∧ ∃ t, exec (.flushTimeout port) s = .next t ∧ Failed s t port)
    ∧ (∀ (port : Nat) (aer : Bool) (s : State), port < s.hub.ports.length → (portAt s port).failed = false →
      ∃ t, exec (.hostPortFail port aer) s = .next t ∧ Failed s t port)
    ∧ ∀ (port : Nat) (s : State), port < s.hub.ports.length → (portAt s port).failed = true →
      (∀ pa l rx n, exec (.hostWrite port pa l rx) s = .next s ∧ exec (.hostRead port pa n) s = .next s)
      ∧ ∃ t, exec (.hostPortReset port) s = .next t ∧ (portAt t port).failed = false ∧ t.hub.errors = s.hub.errors ++ [.hostPort port true]

/-- R14, R379, R384, R386: a configuration request gets Retry Status until boot is complete; a store of an identity to an interrupt file
makes it pending; a store to a notify page raises the vector as a release at .sys, after the flushes that it begins, or leaves it pending
where it is masked. -/
def Obligations.InterruptsAndConfiguration : Prop :=
  (∀ (port : Nat) (s : State), (portAt s port).failed = false → 5 ≤ s.hub.boot →
      exec (.configurationRequest port) s = .next (output s (.completion (if s.hub.boot = 5 then cplRetry else cplOk))))
    ∧ (∀ (core file off : Nat) (v : BitVec 32) (s : State), core < 8 → file ≤ 24 →
      (∀ n, (off = 0 ∧ n = v.toNat ∨ off = 4 ∧ toBytes 4 n = (toBytes 4 v.toNat).reverse ∧ n < 2 ^ 32) → 1 ≤ n → n ≤ 2047 →
        ∃ t, exec (.imsicSeteipnum core file off v) s = .next t ∧ ∀ k, k ∈ t.hub.imsic ↔ k = imsicKey core file n ∨ k ∈ s.hub.imsic)
      ∧ ((off ≠ 0 ∧ off ≠ 4 ∨ off = 0 ∧ (v.toNat = 0 ∨ 2047 < v.toNat)) → exec (.imsicSeteipnum core file off v) s = .next s))
    ∧ ∀ (vf n part : Nat) (s : State), FMap.find s.hub.vfPart vf = some part →
      (32 ≤ n → exec (.hostNotify vf n) s = .next s)
      ∧ (n < 32 → (msixByte s vf (16 * n + 12)).getLsbD 0 = true → ∃ t, exec (.hostNotify vf n) s = .next t
        ∧ t.hub.outputs = s.hub.outputs ∧ ∀ k < 32, (SMap.get 0 t.hub.msix vf).getLsbD k = (decide (k = n) || (SMap.get 0 s.hub.msix vf).getLsbD k))
      ∧ (n < 32 → (msixByte s vf (16 * n + 12)).getLsbD 0 = false →
        (s.hub.notices = [] → releaseReady s 6 [] = true → (portAt s (vfPort vf)).failed = false →
          ∃ t, exec (.hostNotify vf n) s = .next t ∧ Sent s t (vfPort vf) (.msix vf n))
        ∧ (s.hub.notices ≠ [] ∨ releaseReady s 6 [] = false → ∃ t, exec (.hostNotify vf n) s = .next t
          ∧ t.hub.notices = s.hub.notices ++ [(vf, n, s.hub.ports.map (·.accepted))]
          ∧ ∀ p < s.hub.ports.length, flushOwed (portAt s p) (portAt s p).accepted = true → (portAt t p).flights ≠ []))

/-- R344, R380, R381: the monitor changes one setting within its range, and nothing outside it; a key slot from 1 to 4095 is loaded. R382,
R383: a function sees the device's blocks and its own partition's. -/
def Obligations.PartitionSettings : Prop :=
  (∀ (part : Nat) (c : SettingChange) (s : State), 6 ≤ s.hub.boot → part < 24 → settingOk s part c = true → c ≠ .build →
      (∀ pa v, c = .stage2Entry pa v → noTenure s) →
      (FMap.find s.hub.parts part).isSome = true → (partOf s part).qmask.length = 4 →
      ∃ t, exec (.partitionSettingChange part c) s = .next (ringBegins s t part c) ∧ (∀ q, q ≠ part → FMap.find t.hub.parts q = FMap.find s.hub.parts q)
        ∧ (∀ d m, c = .qmask d m → (partOf t part).qmask.getD d 0 = m) ∧ (∀ kb kn, c = .keys kb kn → (partOf t part).kb = kb ∧ (partOf t part).kn = kn)
        ∧ (∀ k, c = .skey k → (partOf t part).skey = k) ∧ (∀ v, c = .ktvec v → (partOf t part).ktvec = v)
        ∧ (∀ v, c = .tdeleg v → (partOf t part).tdeleg = v) ∧ (∀ v, c = .tenmax v → (partOf t part).tenmax = v)
        ∧ (∀ n, c = .kq n → (partOf t part).kq = n) ∧ (∀ n, c = .weight n → (partOf t part).weight = n)
        ∧ (∀ n, c = .spoolShare n → spoolShareOf t part = n) ∧ (∀ n, c = .batchLimit n → (partOf t part).batchLimit = n)
        ∧ (∀ n, c = .wsh n → wshOf t part = n) ∧ (∀ r n, c = .gondolaShare r n → FMap.find (partOf t part).gondola r = some n)
        ∧ (∀ d v, c = .ring d v → FMap.find (partOf t part).ring d = v) ∧ (∀ vf v, c = .lctx vf v → SMap.get 0 (partOf t part).lctx vf = v)
        ∧ (∀ l, c = .cdom l → (partOf t part).cdom = l) ∧ (∀ v on, c = .bindVf v on → FMap.find t.hub.vfPart v = if on then some part else none)
        ∧ (∀ pa, c = .stage2Root pa → (partOf t part).stage2 = pa)
        ∧ (∀ pa v, c = .stage2Entry pa v → pa + 8 ≤ 2 ^ 52 → readBytes t 0 pa 8 = toBytes 8 v.toNat)
        ∧ (∀ p b n, c = .cxlWindow p b n → (part, b, n) ∈ (portAt t p).windows)
        ∧ ((∀ pa v, c ≠ .stage2Entry pa v) → t = { s with hub := t.hub, free := t.free })
        ∧ ((∀ d v, c ≠ .ring d v) ∨ s.hub.kernel = none → ringBegins s t part c = t))
    ∧ (∀ (part : Nat) (c : SettingChange) (s : State), settingOk s part c = false → exec (.partitionSettingChange part c) s = .next s)
    ∧ (∀ (part : Nat) (s : State), 6 ≤ s.hub.boot → part < 24 → FMap.find s.hub.parts part = none →
      ∃ t, exec (.partitionSettingChange part .build) s = .next t ∧ (FMap.find t.hub.parts part).isSome = true ∧ (partOf t part).measure = 0)
    ∧ (∀ (slot key : Nat) (s : State), s.hub.boot = 6 → 1 ≤ slot → slot ≤ 4095 → key ≠ 0 →
      ∃ t, exec (.keySlotLoad slot key) s = .next t ∧ (∀ k, SMap.get 0 t.hub.keySlots k = if k = slot then key else SMap.get 0 s.hub.keySlots k)
        ∧ t = { s with hub := t.hub })
    ∧ (∀ (key : Nat) (s : State), exec (.keySlotLoad 0 key) s = .next s)
    ∧ (∀ (v : Option Nat) (q : SpdmRequest) (s : State), bootStopped s = true → exec (.spdmRequest v q) s = .next s)
    ∧ ∀ (vf part n : Nat) (s : State), vfLive s vf = some part → bootStopped s = false →
      ∃ l, exec (.spdmRequest (some vf) (.measurements n)) s = .next (output s (.spdm l))
        ∧ (∀ b ∈ l, (1 ≤ b.1 ∧ b.1 ≤ 4 ∧ b.2 = SMap.get 0 s.hub.measures b.1) ∨ b.1 = 16 + part)
        ∧ ∀ i, 1 ≤ i → i ≤ 4 → (n = 255 ∨ n = i) → (i, SMap.get 0 s.hub.measures i) ∈ l

/-- R15, R61, R82, R381: after a teardown the partition has no slot, no function, no entry, no ring, its lines are in memory and in no
cache; after a warm reset its lines are in no cache, a byte in memory is the old one or an evicted one, its record is built again, and its
device kernel is loaded. What a teardown removes beyond the rules' list, and the form of the plan and kernel that a warm reset uses, are
the model's reading (log 26), as is that its measurement goes on (log 8); what an evicted line leaves is free (log 14). -/
def Obligations.TeardownAndWarmReset : Prop :=
  ∀ (part : Nat) (s : State), (FMap.find s.hub.parts part).isSome = true →
    (∃ t, exec (.partitionTeardown part) s = .next t ∧ Cleared s t part ∧ FMap.find t.hub.parts part = none
      ∧ (∀ k, SMap.get 0 t.hub.keySlots k =
          if (partOf s part).kb ≤ k ∧ k < (partOf s part).kb + (partOf s part).kn then 0 else SMap.get 0 s.hub.keySlots k)
      ∧ (∀ e ∈ t.hub.vfPart, e.2 ≠ part) ∧ (∀ loc, rawByte t.mem loc = rawByte s.mem loc)
      ∧ ∀ loc, loc / 128 ∈ linesOfPart s part → FMap.find t.mem.dirty loc = none)
    ∧ ∃ u p, exec (.warmReset part) s = .next (loadKernel u part) ∧ Cleared s u part
      ∧ (p = partOf s part ∨ ∃ m, s.hub.plan = some m ∧ FMap.find m part = some p)
      ∧ (∃ n : BitVec 64, partOf u part = { p with
          nextLid := 1, rrServed := [], collCount := 0, kMeasured := (partOf s part).kMeasured,
          measure := Config.sha384 (toBytes 48 (partOf s part).measure.toNat ++ toBytes 8 n.toNat) })
      ∧ (∀ loc, loc / 128 ∉ linesOfPart s part → rawByte u.mem loc = rawByte s.mem loc)
      ∧ ∀ loc, loc / 128 ∈ linesOfPart s part → FMap.find u.mem.dirty loc = none
          ∧ (rawByte u.mem loc = SMap.get 0 s.mem.cells loc ∨ rawByte u.mem loc = rawByte s.mem loc)

/-- R13, R14: cold boot goes through its steps in order, each where the one before has ended, and stops where the firmware or both records
are refused; the record in use is an accepted one, of two the later. One event performs one step of R14 (log 16); the signature checks are
uninterpreted (log 10). That memory lists nothing after the scrub is log 6's choice, that the event carries the image and the identity log 7's, and
what measurement 1 is taken of log 8's; when a stored plan counts as one that can be built is log 26's. -/
def Obligations.ColdBoot : Prop :=
  (∀ (id : BitVec 64) (img : List Byte) (s : State), (s.hub.boot = 0 ∨ s.hub.boot = 6) →
      ∃ t, exec (.coldBoot id img) s = .next t ∧ t.fibres = [] ∧ t.hub.parts = [] ∧ t.hub.launches = [] ∧ t.hub.keySlots = [] ∧ t.hub.firmware = img
        ∧ t.hub.records = s.hub.records ∧ t.hub.identity = id
        ∧ if Config.signatureOk img then t.hub.boot = 1 ∧ SMap.get 0 t.hub.measures 1 = Config.sha384 img else t.hub.boot = 0)
    ∧ (∀ (id : BitVec 64) (img : List Byte) (s : State), s.hub.boot = 1 →
      ∃ t, exec (.coldBoot id img) s = .next t ∧ match usedCopy s.hub.identity s.hub.records with
        | some i => t.hub.boot = 2 ∧ t.hub.inUse = some (s.hub.records.getD i 0)
          ∧ SMap.get 0 t.hub.measures 3 = Config.sha384 (toBytes 160 (s.hub.records.getD i 0).toNat)
        | none => t = s)
    ∧ (∀ (id : BitVec 64) (l : List (BitVec 1280)), match usedCopy id l with
      | some i => i < 2 ∧ recordOk id (l.getD i 0) = true
        ∧ (recordOk id (l.getD (1 - i) 0) = true → (i = 1 ↔ laterSeq (recSeq (l.getD 1 0)) (recSeq (l.getD 0 0)) = true))
      | none => recordOk id (l.getD 0 0) = false ∧ recordOk id (l.getD 1 0) = false)
    ∧ (∀ (id : BitVec 64) (img : List Byte) (s : State), 2 ≤ s.hub.boot → s.hub.boot ≤ 4 →
      ∃ t, exec (.coldBoot id img) s = .next t ∧ t.hub.boot = s.hub.boot + 1 ∧ (s.hub.boot = 2 → t.mem = Store.reset ∧ t.hub.keySlots = []))
    ∧ ∀ (id : BitVec 64) (img : List Byte) (s : State), s.hub.boot = 5 → s.hub.kernel = none →
      ∃ t, exec (.coldBoot id img) s = .next t ∧ t.hub.boot = 6
        ∧ (∀ m, s.hub.plan = some m → planOk m = true → t.hub.parts = (m.filter fun p => (List.range 4).all fun d => (List.range 16).all fun q =>
            !(p.2.qmask.getD d 0).getLsbD q || quadExists s (16 * d + q)).map fun p => (p.1, newPart p.2))
        ∧ ((∀ m, s.hub.plan = some m → planOk m = false) → (FMap.find t.hub.parts 0).isSome = true ∧ (partOf t 0).kn = 4095
          ∧ (partOf t 0).qmask = (List.range 4).map fun d => BitVec.ofNat 16 (2 ^ (quadsOf s.hub.units d).length - 1))

/-- R13, R16, R374: with no accepted record copy 0 is replaced by one that is (log 7); a core whose workgroups have been saved leaves service at
once, and a record without it asks to be signed, which a good signature puts over the copy not in use; one with work there waits and takes no
more; a failing place without a spare is reported, disabled or retired. When the remaining cores take their new numbers is log 46's reading, that a
later signing request takes an earlier one's place log 55's; what a self-test waits for, and the frames of a row, are log 56's. -/
def Obligations.RecordsAndRetirement : Prop :=
  (∀ (l : List Byte) (s : State), bootStopped s = true → l.length = 160 → s.hub.records.length = 2 →
      ∃ t, exec (.configRecordReplace l) s = .next t ∧ if recordOk s.hub.identity (BitVec.ofNat 1280 (ofBytes l)) then
          t.hub.records = [BitVec.ofNat 1280 (ofBytes l), s.hub.records.getD 1 0] ∧ t = { s with hub := t.hub }
        else t = s)
    ∧ (∀ (l : List Byte) (s : State), bootStopped s = false ∨ l.length ≠ 160 → exec (.configRecordReplace l) s = .next s)
    ∧ (∀ (die quad core c e : Nat) (r : BitVec 1280) (s : State), c = 64 * die + 4 * quad + core → c < 256 → s.hub.inUse = some r →
      physicalOf s.hub.units c = some e →
      (((leaving r e).filterMap (logicalOf s.hub.units)).any (coreBusy s) = true →
        ∃ t, exec (.coreRetire die quad core) s = .next t ∧ t = { s with hub := { s.hub with retiring := t.hub.retiring, excluded := t.hub.excluded } }
          ∧ e ∈ t.hub.retiring ∧ ∀ k, logicalOf s.hub.units e = some k → k ∈ t.hub.excluded)
      ∧ (((leaving r e).filterMap (logicalOf s.hub.units)).any (coreBusy s) = false →
        ∃ t b, exec (.coreRetire die quad core) s = .next t ∧ t.hub.pendingSign = some b ∧ t.hub.errors = s.hub.errors ++ [.signing b]
          ∧ e ∈ t.hub.retired ∧ (∀ k, logicalOf t.hub.units e = some k → k ∈ t.hub.excluded)
          ∧ t.hub.units = (if (renumbered s.hub.units (unitsLeft t)).any (coreBusy s) then s.hub.units else unitsLeft t)
          ∧ bits b.toNat 48 16 = (recSeq r + 1) % 2 ^ 16 ∧ b.toNat.testBit (128 + 72 * (e / 128) + 4 * bits e 2 5 + e % 4) = false)
      ∧ (s.hub.tests.any (samePlace (.coreBank c)) = true → exec (.selfTest (.coreBank c) false false) s =
          exec (.coreRetire die quad core) { s with hub := { s.hub with tests := s.hub.tests.filter fun p => !samePlace p (.coreBank c) } }))
    ∧ (∀ (l : List Byte) (b : BitVec 512) (r : BitVec 1280) (s : State), s.hub.pendingSign = some b → l.length = 96 →
      r = BitVec.ofNat 1280 (b.toNat + ofBytes l * 2 ^ 512) → s.hub.records.length = 2 →
      ∃ t, exec (.configSignatureReturn l) s = .next t ∧ if recordOk s.hub.identity r then t.hub.pendingSign = none
          ∧ t.hub.records[1 - (usedCopy s.hub.identity s.hub.records).getD 0]? = some r
          ∧ t.hub.records[(usedCopy s.hub.identity s.hub.records).getD 0]? = s.hub.records[(usedCopy s.hub.identity s.hub.records).getD 0]?
        else t = s)
    ∧ ∀ (p : TestPlace) (s : State), (s.hub.tests.any (samePlace p) = false → ∀ pass spare, exec (.selfTest p pass spare) s = .next s)
      ∧ (s.hub.tests.any (samePlace p) = true →
        (∀ pass spare, (pass || spare) = true → exec (.selfTest p pass spare) s =
            .next { s with hub := { s.hub with tests := s.hub.tests.filter fun q => !samePlace q p } })
        ∧ (∀ die ways, p = .l2Bank die ways → die < s.hub.l2ways.length → ∃ t, exec (.selfTest p false false) s = .next t
          ∧ t.hub.l2ways.getD die 0 = s.hub.l2ways.getD die 0 - ways)
        ∧ ∀ pa part, p = .dramRow pa → part = lineOwner s pa → (partOf s part).ring = [] → part < 32 → s.hub.faults = [] →
          ∃ t, exec (.selfTest p false false) s = .next t ∧ t.hub.errors = s.hub.errors ++ (pa / 32768 * 32768 :: Config.rowFrames pa).map fun a =>
            .service (Header.bits { kind := 7, part := part, lid := 0, wg := 0, fib := 0, place := 0, code := 0, trap := 0, aux := a }))

/-- R10: the power limit takes multiples of 100 W from 2,400 to 5,400; the firmware lowers the clock in steps of 25 MHz to 1.0 GHz and
then the duty to 1 in 16, and raises them in the other order; what cannot be met is logged and signalled; at 115 °C issue stops. The order
in which clock and duty rise again is the model's choice (log 55). -/
def Obligations.PowerAndHeat : Prop :=
  (∀ (w : Nat) (s : State), exec (.powerLimitSet w) s =
        .next (if bootStopped s = false ∧ 2400 ≤ w ∧ w ≤ 5400 ∧ w % 100 = 0 then { s with hub := { s.hub with limit := w } } else s))
    ∧ (∀ (p h : Bool) (s : State), ∃ t, exec (.throttleStep p h) s = .next t ∧ t = { s with hub := { s.hub with clock := t.hub.clock, duty := t.hub.duty } }
      ∧ ((p || h) = true → 1000 < s.hub.clock → t.hub.clock = s.hub.clock - 25 ∧ t.hub.duty = s.hub.duty)
      ∧ ((p || h) = true → s.hub.clock ≤ 1000 → t.hub.clock = s.hub.clock ∧ t.hub.duty = (if 1 < s.hub.duty then s.hub.duty - 1 else s.hub.duty))
      ∧ ((p || h) = false → s.hub.duty < 16 → t.hub.clock = s.hub.clock ∧ t.hub.duty = s.hub.duty + 1)
      ∧ ((p || h) = false → 16 ≤ s.hub.duty → t.hub.duty = s.hub.duty ∧ t.hub.clock = if s.hub.clock < 2500 then s.hub.clock + 25 else s.hub.clock))
    ∧ (∀ (w : Nat) (s : State), (s.hub.clock ≤ 1000 ∧ s.hub.duty ≤ 1 ∧ s.hub.limit < w → ∃ t, exec (.powerLimitUnmet w) s = .next t
        ∧ t.hub.errors = s.hub.errors ++ [.power w] ∧ t.hub.outputs = s.hub.outputs ++ [.signal 0 sigPower, .signal 1 sigPower])
      ∧ (¬ (s.hub.clock ≤ 1000 ∧ s.hub.duty ≤ 1 ∧ s.hub.limit < w) → exec (.powerLimitUnmet w) s = .next s))
    ∧ (∀ (die c : Nat) (s : State), (115 ≤ c → ∃ t, exec (.thermalStop die c) s = .next t ∧ t.hub.stopped = true
        ∧ t.hub.errors = s.hub.errors ++ [.thermal die] ∧ t.hub.outputs = s.hub.outputs ++ [.signal 0 sigThermal, .signal 1 sigThermal])
      ∧ (c < 115 → exec (.thermalStop die c) s = .next s))
    ∧ ∀ (u : Nat) (r : List Move) (s : State), s.hub.stopped = true → s.agenda = .issue u :: r → step s = .next (passTime { s with agenda := r })

/-! ## Encoding, issue, reset, invariants -/

/-- R18 to R23, R33: decoding the encoded word of a well-formed instruction gives it back, with every operand. -/
def Sys2Proof.Claims.RoundTrip : Prop := ∀ i : Instr, wfInstr i = true → decode true (encode i) = .ok i

/-- R33: what U level decodes, K level decodes alike; what only K may issue is PRIVILEGE at U. -/
def Sys2Proof.Claims.LevelsOfDecode : Prop :=
  (∀ (w : IWord) (i : Instr), decode false w = .ok i → decode true w = .ok i)
    ∧ (∀ (w : IWord) (b : Nat), decode true w ≠ .error (.privilege b))
    ∧ ∀ (w : IWord) (i : Instr), decode true w = .ok i → (∃ b, decode false w = .error (.privilege b)) ∨ decode false w = .ok i

/-- R18 to R23, R33: decoding the encoded word of a well-formed instruction gives it back; what only K may issue is PRIVILEGE at U. -/
def Obligations.DecodeEncode : Prop := Claims.RoundTrip ∧ Claims.LevelsOfDecode

/-- R17, R18, R28: sample words of every format decode to the instructions they stand for. -/
def Obligations.SampleWords : Prop :=
  (∃ a, decode false (parcels 0x001DC000 0 0) = .ok (.nop a))
    ∧ (∃ a, decode false (parcels 0x401DC496 0x28020307 0) = .ok (.isetp a) ∧ a.ty = .s32 ∧ a.fmt = .I ∧ a.imm = 10 ∧ a.d.opnd = .reg (.p 1) false false
        ∧ a.s0 = .reg (.v 2) false false)
    ∧ (∃ a, decode false (parcels 0x001DC4A1 0x80010018 0) = .ok (.redux a) ∧ a.ty = .s32 ∧ a.d.opnd = .reg (.v 6) false false
        ∧ a.s0 = .reg (.v 1) false false ∧ a.s1 = .code 8)
    ∧ (∃ a, decode false (parcels 0x001DD909 0x000A0020 0) = .ok (.rcp a) ∧ a.ty = .f64 ∧ a.d.opnd = .reg (.v 8) false false)
    ∧ (∃ a, decode false (parcels 0x801DC180 0x00060020 0x0B401000) = .ok (.ld a) ∧ a.ord = 1 ∧ a.scope = 3 ∧ a.space = 1 ∧ a.off = 0x40)
    ∧ ∃ a, decode false (parcels 0xC01DC001 0x0C000000 0x04000000) = .ok (.bra a) ∧ a.boff = 3 ∧ a.bh = 1

/-- R28: a lane executes where it is in the issue group and its guard holds: A AND B, or A OR B. -/
def Obligations.Guards : Prop :=
  ∀ (a : Args) (s : State) (i : Nat), i < 32 →
    ((active s a).getLsbD i = true ↔ s.grp.getLsbD i = true ∧
      let bit (g : Guard) : Prop := (g.pred.val = 7 ∨ (SMap.get 0 (me s).preds g.pred.val).getLsbD i = true) ↔ g.neg = false
      if a.gc then bit a.ga ∨ bit a.gb else bit a.ga ∧ bit a.gb)

/-- R33, R189, R190: a sub-core's issue runs the instruction that the word of its fibre's issue group decodes to, in the lanes and at the
PC of the group; a word that is none traps for the whole group. Without a copy held ahead the word is the twelve bytes at the PC, as the
fibre's key reads them. The choice of the slot and the order of agents is the model's (log 1). -/
def Obligations.StepRunsDecoded : Prop :=
  (∀ (s v t : State) (u f : Nat) (g : Group) (w : IWord), Turn s u f v → Issues v f g w t →
      (∀ (i : Instr) (x n : State), decodeAt (fib v f).klvl (winOf t f) w = .ok i → Issued t f g w i x → exec i x = .next n →
        step s = .next (passTime (afterIssue s i f n)) ∧ x.grp = g.mask ∧ x.ipc = g.pc ∧ x.cur = f)
      ∧ (∀ e : DecodeError, decodeAt (fib v f).klvl (winOf t f) w = .error e → step s = .next (passTime (decodeTrap (noteIssue t f) e))))
    ∧ ∀ (s : State) (f : Nat) (g : Group) (ps : List Piece), g.slices ≠ [] → (∀ k ∈ g.slices, takeFetched g.pc (sliceBuf (fib s f) k) = none) →
      fetchPieces s f g.pc.toNat false = .ok ps → leavesSet kExec ps → undisturbed s (coreOf f) false ps →
      ∃ t, takeWord s f g = .ok (some (BitVec.ofNat 96 (ofBytes (ps.flatMap fun p => readBytes s p.key p.loc p.n)), g.part g.slices, t)) ∧ SameBytes s t

/-- R2, R10, R14, R68: after reset no boot step has run, no fibre exists, memory lists nothing; the limit is 4,800 W, the clock 2,500 MHz,
%colourhash names the default hash. That memory lists nothing is the model's choice (log 6). -/
def Obligations.ResetValues : Prop :=
  State.reset.hub.boot = 0 ∧ State.reset.fibres = [] ∧ State.reset.mem.cells = [] ∧ State.reset.mem.dirty = [] ∧ State.reset.hub.limit = 4800
    ∧ State.reset.hub.clock = 2500 ∧ State.reset.hub.stopped = false
    ∧ (∀ c ∈ State.reset.hub.colour, bits c.toNat 0 6 = 22 ∧ bits c.toNat 6 6 = 15 ∧ bits c.toNat 12 6 = 21 ∧ bits c.toNat 18 5 = 16)
    ∧ (∀ r ∈ State.reset.hub.records, bits r.toNat 0 32 = 0x5A4B4352 ∧ bits r.toNat 32 16 = 1) ∧ Memory.wf State.reset.mem

/-- Every step keeps the canonical form of memory. Rests on the model's own form of memory (log 6). -/
def Obligations.MemoryStaysCanonical : Prop := ∀ s t : State, Memory.wf s.mem → step s = .next t → Memory.wf t.mem

/-- R339, R340: after every step a slot has a time since when it is ready exactly where it is pending and ready, and one since when it is
eligible exactly where it is active and eligible for exchange. The two times are the model's own record of what R339 and R340 count from
(DEDUCED, log 32). -/
def Obligations.SlotTimes : Prop := ∀ s t : State, step s = .next t → ∀ k x, FMap.find t.slots k = some x → slotTimes t k x
end

