-- ==== Sys2Proof/Laws/FMap.lean ====
section
/-! SUPPORT. Read-after-write and canonical-form lemmas of the sparse maps. -/

namespace Sys2Proof.Laws
open Sys2Proof.Machine

theorem sortedFrom_mono {α : Type} (m : FMap α) {lo hi : Nat} (h : lo ≤ hi) :
    FMap.sortedFrom hi m = true → FMap.sortedFrom lo m = true := by
  cases m with
  | nil => simp [FMap.sortedFrom]
  | cons e m => obtain ⟨k, v⟩ := e; simp only [FMap.sortedFrom, Bool.and_eq_true, decide_eq_true_eq]; exact fun g => ⟨by omega, g.2⟩

@[simp] theorem find_put_same {α : Type} (m : FMap α) (i : Nat) (x : α) : FMap.find (FMap.put m i x) i = some x := by
  induction m with
  | nil => simp [FMap.put, FMap.find]
  | cons e m ih =>
    obtain ⟨k, v⟩ := e
    simp only [FMap.put]
    split
    · simp [FMap.find]
    · split
      · simp [FMap.find]
      · rwa [FMap.find, if_neg ‹_›]

theorem find_put_other {α : Type} (m : FMap α) {i j : Nat} (x : α) (h : j ≠ i) :
    FMap.find (FMap.put m i x) j = FMap.find m j := by
  induction m with
  | nil => simp [FMap.put, FMap.find, h]
  | cons e m ih =>
    obtain ⟨k, v⟩ := e
    simp only [FMap.put]
    split
    · simp [FMap.find, h]
    · split
      · subst i; simp [FMap.find, h]
      · simp only [FMap.find, ih]

theorem find_del_other {α : Type} (m : FMap α) {i j : Nat} (h : j ≠ i) : FMap.find (FMap.del m i) j = FMap.find m j := by
  induction m with
  | nil => rfl
  | cons e m ih =>
    obtain ⟨k, v⟩ := e
    unfold FMap.del at ih ⊢
    by_cases hk : k = i
    · subst k; simp [FMap.find, h, ih]
    · simp [FMap.find, hk, ih]

@[simp] theorem find_del_same {α : Type} (m : FMap α) (i : Nat) : FMap.find (FMap.del m i) i = none := by
  induction m with
  | nil => rfl
  | cons e m ih =>
    obtain ⟨k, v⟩ := e
    unfold FMap.del at ih ⊢
    by_cases hk : k = i
    · subst k; simp [ih]
    · simp [FMap.find, hk, Ne.symm hk, ih]

/-- The later of two values at a key stands. -/
@[simp] theorem put_put_same {α : Type} (m : FMap α) (i : Nat) (x y : α) : FMap.put (FMap.put m i x) i y = FMap.put m i y := by
  induction m with
  | nil => simp [FMap.put]
  | cons e m ih =>
    obtain ⟨k, v⟩ := e
    simp only [FMap.put]
    split
    · simp [FMap.put]
    · split
      · simp [FMap.put]
      · rename_i h1 h2; simp [FMap.put, h1, h2, ih]

theorem sorted_put {α : Type} (m : FMap α) {lo i : Nat} (x : α) (h : lo ≤ i) (hs : FMap.sortedFrom lo m = true) :
    FMap.sortedFrom lo (FMap.put m i x) = true := by
  induction m generalizing lo with
  | nil => simp [FMap.put, FMap.sortedFrom, h]
  | cons e m ih =>
    obtain ⟨k, v⟩ := e
    simp only [FMap.sortedFrom, Bool.and_eq_true, decide_eq_true_eq] at hs
    simp only [FMap.put]
    split
    · simp only [FMap.sortedFrom, Bool.and_eq_true, decide_eq_true_eq]; exact ⟨h, by omega, hs.2⟩
    · split
      · subst i; simp only [FMap.sortedFrom, Bool.and_eq_true, decide_eq_true_eq]; exact ⟨h, hs.2⟩
      · simp only [FMap.sortedFrom, Bool.and_eq_true, decide_eq_true_eq]; exact ⟨hs.1, ih (by omega) hs.2⟩

theorem sorted_del {α : Type} (m : FMap α) {lo : Nat} (i : Nat) (hs : FMap.sortedFrom lo m = true) :
    FMap.sortedFrom lo (FMap.del m i) = true := by
  induction m generalizing lo with
  | nil => exact hs
  | cons e m ih =>
    obtain ⟨k, v⟩ := e
    simp only [FMap.sortedFrom, Bool.and_eq_true, decide_eq_true_eq] at hs
    have := ih hs.2
    unfold FMap.del at this ⊢
    by_cases hk : k = i
    · subst k; simp only [List.filter]; simpa using sortedFrom_mono _ (by omega) this
    · simp [FMap.sortedFrom, hk, hs.1, this]

theorem mem_put {α : Type} {m : FMap α} {i : Nat} {x : α} {e : Nat × α} (h : e ∈ FMap.put m i x) : e = (i, x) ∨ e ∈ m := by
  induction m with
  | nil => simpa [FMap.put] using h
  | cons k m ih =>
    obtain ⟨k, v⟩ := k
    simp only [FMap.put] at h
    split at h
    · simpa using h
    · split at h
      · rcases List.mem_cons.1 h with h | h
        · exact .inl h
        · exact .inr (List.mem_cons_of_mem _ h)
      · rcases List.mem_cons.1 h with h | h
        · exact .inr (h ▸ List.mem_cons_self)
        · rcases ih h with h | h
          · exact .inl h
          · exact .inr (List.mem_cons_of_mem _ h)

theorem mem_del {α : Type} {m : FMap α} {i : Nat} {e : Nat × α} (h : e ∈ FMap.del m i) : e ∈ m := (List.mem_filter.1 h).1

/-- Reading back what was written. -/
@[simp] theorem smap_get_set_same {α : Type} [DecidableEq α] (d : α) (m : SMap α) (i : Nat) (x : α) :
    SMap.get d (SMap.set d m i x) i = x := by
  unfold SMap.get SMap.set
  split <;> simp_all

/-- A write leaves every other key alone. -/
theorem smap_get_set_other {α : Type} [DecidableEq α] (d : α) (m : SMap α) {i j : Nat} (x : α) (hn : j ≠ i) :
    SMap.get d (SMap.set d m i x) j = SMap.get d m j := by
  unfold SMap.get SMap.set
  split
  · rw [find_del_other m hn]
  · rw [find_put_other m x hn]

/-- A write keeps the canonical form. -/
theorem smap_wf_set {α : Type} [DecidableEq α] (d : α) (m : SMap α) (i : Nat) (x : α) (h : SMap.wf d m = true) :
    SMap.wf d (SMap.set d m i x) = true := by
  simp only [SMap.wf, Bool.and_eq_true, List.all_eq_true, decide_eq_true_eq] at h ⊢
  unfold SMap.set
  split
  · exact ⟨sorted_del m i h.1, fun e he => h.2 e (mem_del he)⟩
  · refine ⟨sorted_put m x (by omega) h.1, fun e he => ?_⟩
    rcases mem_put he with rfl | he
    · assumption
    · exact h.2 e he

end Sys2Proof.Laws
end

