-- ==== Sys2Proof/Laws/State.lean ====
section
/-! SUPPORT. What the named updates of State leave unchanged: one lemma per field per update. -/

namespace Sys2Proof.Laws
open Sys2Proof.Machine

@[simp] theorem modFib_tick (s : State) (f : Nat) (g : Fibre → Fibre) : (modFib s f g).tick = s.tick := by unfold modFib; split <;> rfl
@[simp] theorem modFib_free (s : State) (f : Nat) (g : Fibre → Fibre) : (modFib s f g).free = s.free := by unfold modFib; split <;> rfl
@[simp] theorem modFib_agenda (s : State) (f : Nat) (g : Fibre → Fibre) : (modFib s f g).agenda = s.agenda := by unfold modFib; split <;> rfl
@[simp] theorem modFib_readPts (s : State) (f : Nat) (g : Fibre → Fibre) : (modFib s f g).readPts = s.readPts := by unfold modFib; split <;> rfl
@[simp] theorem modFib_stopPts (s : State) (f : Nat) (g : Fibre → Fibre) : (modFib s f g).stopPts = s.stopPts := by unfold modFib; split <;> rfl
@[simp] theorem modFib_latePts (s : State) (f : Nat) (g : Fibre → Fibre) : (modFib s f g).latePts = s.latePts := by unfold modFib; split <;> rfl
@[simp] theorem modFib_turn (s : State) (f : Nat) (g : Fibre → Fibre) : (modFib s f g).turn = s.turn := by unfold modFib; split <;> rfl
@[simp] theorem modFib_beat (s : State) (f : Nat) (g : Fibre → Fibre) : (modFib s f g).beat = s.beat := by unfold modFib; split <;> rfl
@[simp] theorem modFib_cur (s : State) (f : Nat) (g : Fibre → Fibre) : (modFib s f g).cur = s.cur := by unfold modFib; split <;> rfl
@[simp] theorem modFib_grp (s : State) (f : Nat) (g : Fibre → Fibre) : (modFib s f g).grp = s.grp := by unfold modFib; split <;> rfl
@[simp] theorem modFib_ipc (s : State) (f : Nat) (g : Fibre → Fibre) : (modFib s f g).ipc = s.ipc := by unfold modFib; split <;> rfl
@[simp] theorem modFib_stall (s : State) (f : Nat) (g : Fibre → Fibre) : (modFib s f g).stall = s.stall := by unfold modFib; split <;> rfl
@[simp] theorem modFib_mem (s : State) (f : Nat) (g : Fibre → Fibre) : (modFib s f g).mem = s.mem := by unfold modFib; split <;> rfl
@[simp] theorem modFib_tlb (s : State) (f : Nat) (g : Fibre → Fibre) : (modFib s f g).tlb = s.tlb := by unfold modFib; split <;> rfl
@[simp] theorem modFib_walks (s : State) (f : Nat) (g : Fibre → Fibre) : (modFib s f g).walks = s.walks := by unfold modFib; split <;> rfl
@[simp] theorem modFib_scr (s : State) (f : Nat) (g : Fibre → Fibre) : (modFib s f g).scr = s.scr := by unfold modFib; split <;> rfl
@[simp] theorem modFib_obuf (s : State) (f : Nat) (g : Fibre → Fibre) : (modFib s f g).obuf = s.obuf := by unfold modFib; split <;> rfl
@[simp] theorem modFib_objs (s : State) (f : Nat) (g : Fibre → Fibre) : (modFib s f g).objs = s.objs := by unfold modFib; split <;> rfl
@[simp] theorem modFib_acc (s : State) (f : Nat) (g : Fibre → Fibre) : (modFib s f g).acc = s.acc := by unfold modFib; split <;> rfl
@[simp] theorem modFib_side (s : State) (f : Nat) (g : Fibre → Fibre) : (modFib s f g).side = s.side := by unfold modFib; split <;> rfl
@[simp] theorem modFib_ring (s : State) (f : Nat) (g : Fibre → Fibre) : (modFib s f g).ring = s.ring := by unfold modFib; split <;> rfl
@[simp] theorem modFib_ringDirty (s : State) (f : Nat) (g : Fibre → Fibre) : (modFib s f g).ringDirty = s.ringDirty := by unfold modFib; split <;> rfl
@[simp] theorem modFib_ringPoison (s : State) (f : Nat) (g : Fibre → Fibre) : (modFib s f g).ringPoison = s.ringPoison := by unfold modFib; split <;> rfl
@[simp] theorem modFib_wgs (s : State) (f : Nat) (g : Fibre → Fibre) : (modFib s f g).wgs = s.wgs := by unfold modFib; split <;> rfl
@[simp] theorem modFib_slots (s : State) (f : Nat) (g : Fibre → Fibre) : (modFib s f g).slots = s.slots := by unfold modFib; split <;> rfl
@[simp] theorem modFib_lastSlot (s : State) (f : Nat) (g : Fibre → Fibre) : (modFib s f g).lastSlot = s.lastSlot := by unfold modFib; split <;> rfl
@[simp] theorem modFib_tried (s : State) (f : Nat) (g : Fibre → Fibre) : (modFib s f g).tried = s.tried := by unfold modFib; split <;> rfl
@[simp] theorem modFib_own (s : State) (f : Nat) (g : Fibre → Fibre) : (modFib s f g).own = s.own := by unfold modFib; split <;> rfl
@[simp] theorem modFib_holders (s : State) (f : Nat) (g : Fibre → Fibre) : (modFib s f g).holders = s.holders := by unfold modFib; split <;> rfl
@[simp] theorem modFib_homes (s : State) (f : Nat) (g : Fibre → Fibre) : (modFib s f g).homes = s.homes := by unfold modFib; split <;> rfl
@[simp] theorem modFib_homeGen (s : State) (f : Nat) (g : Fibre → Fibre) : (modFib s f g).homeGen = s.homeGen := by unfold modFib; split <;> rfl
@[simp] theorem modFib_tacqs (s : State) (f : Nat) (g : Fibre → Fibre) : (modFib s f g).tacqs = s.tacqs := by unfold modFib; split <;> rfl
@[simp] theorem modFib_phases (s : State) (f : Nat) (g : Fibre → Fibre) : (modFib s f g).phases = s.phases := by unfold modFib; split <;> rfl
@[simp] theorem modFib_saved (s : State) (f : Nat) (g : Fibre → Fibre) : (modFib s f g).saved = s.saved := by unfold modFib; split <;> rfl
@[simp] theorem modFib_spool (s : State) (f : Nat) (g : Fibre → Fibre) : (modFib s f g).spool = s.spool := by unfold modFib; split <;> rfl
@[simp] theorem modFib_restores (s : State) (f : Nat) (g : Fibre → Fibre) : (modFib s f g).restores = s.restores := by unfold modFib; split <;> rfl
@[simp] theorem modFib_saves (s : State) (f : Nat) (g : Fibre → Fibre) : (modFib s f g).saves = s.saves := by unfold modFib; split <;> rfl
@[simp] theorem modFib_fused (s : State) (f : Nat) (g : Fibre → Fibre) : (modFib s f g).fused = s.fused := by unfold modFib; split <;> rfl
@[simp] theorem modFib_s2held (s : State) (f : Nat) (g : Fibre → Fibre) : (modFib s f g).s2held = s.s2held := by unfold modFib; split <;> rfl
@[simp] theorem modFib_joinId (s : State) (f : Nat) (g : Fibre → Fibre) : (modFib s f g).joinId = s.joinId := by unfold modFib; split <;> rfl
@[simp] theorem modFib_hub (s : State) (f : Nat) (g : Fibre → Fibre) : (modFib s f g).hub = s.hub := by unfold modFib; split <;> rfl

@[simp] theorem ringSet_tick (s : State) (f lane word : Nat) (v : Word) : (ringSet s f lane word v).tick = s.tick := rfl
@[simp] theorem ringSet_free (s : State) (f lane word : Nat) (v : Word) : (ringSet s f lane word v).free = s.free := rfl
@[simp] theorem ringSet_agenda (s : State) (f lane word : Nat) (v : Word) : (ringSet s f lane word v).agenda = s.agenda := rfl
@[simp] theorem ringSet_readPts (s : State) (f lane word : Nat) (v : Word) : (ringSet s f lane word v).readPts = s.readPts := rfl
@[simp] theorem ringSet_stopPts (s : State) (f lane word : Nat) (v : Word) : (ringSet s f lane word v).stopPts = s.stopPts := rfl
@[simp] theorem ringSet_latePts (s : State) (f lane word : Nat) (v : Word) : (ringSet s f lane word v).latePts = s.latePts := rfl
@[simp] theorem ringSet_turn (s : State) (f lane word : Nat) (v : Word) : (ringSet s f lane word v).turn = s.turn := rfl
@[simp] theorem ringSet_beat (s : State) (f lane word : Nat) (v : Word) : (ringSet s f lane word v).beat = s.beat := rfl
@[simp] theorem ringSet_cur (s : State) (f lane word : Nat) (v : Word) : (ringSet s f lane word v).cur = s.cur := rfl
@[simp] theorem ringSet_grp (s : State) (f lane word : Nat) (v : Word) : (ringSet s f lane word v).grp = s.grp := rfl
@[simp] theorem ringSet_ipc (s : State) (f lane word : Nat) (v : Word) : (ringSet s f lane word v).ipc = s.ipc := rfl
@[simp] theorem ringSet_stall (s : State) (f lane word : Nat) (v : Word) : (ringSet s f lane word v).stall = s.stall := rfl
@[simp] theorem ringSet_mem (s : State) (f lane word : Nat) (v : Word) : (ringSet s f lane word v).mem = s.mem := rfl
@[simp] theorem ringSet_tlb (s : State) (f lane word : Nat) (v : Word) : (ringSet s f lane word v).tlb = s.tlb := rfl
@[simp] theorem ringSet_walks (s : State) (f lane word : Nat) (v : Word) : (ringSet s f lane word v).walks = s.walks := rfl
@[simp] theorem ringSet_scr (s : State) (f lane word : Nat) (v : Word) : (ringSet s f lane word v).scr = s.scr := rfl
@[simp] theorem ringSet_obuf (s : State) (f lane word : Nat) (v : Word) : (ringSet s f lane word v).obuf = s.obuf := rfl
@[simp] theorem ringSet_objs (s : State) (f lane word : Nat) (v : Word) : (ringSet s f lane word v).objs = s.objs := rfl
@[simp] theorem ringSet_acc (s : State) (f lane word : Nat) (v : Word) : (ringSet s f lane word v).acc = s.acc := rfl
@[simp] theorem ringSet_side (s : State) (f lane word : Nat) (v : Word) : (ringSet s f lane word v).side = s.side := rfl
@[simp] theorem ringSet_fibres (s : State) (f lane word : Nat) (v : Word) : (ringSet s f lane word v).fibres = s.fibres := rfl
@[simp] theorem ringSet_wgs (s : State) (f lane word : Nat) (v : Word) : (ringSet s f lane word v).wgs = s.wgs := rfl
@[simp] theorem ringSet_slots (s : State) (f lane word : Nat) (v : Word) : (ringSet s f lane word v).slots = s.slots := rfl
@[simp] theorem ringSet_lastSlot (s : State) (f lane word : Nat) (v : Word) : (ringSet s f lane word v).lastSlot = s.lastSlot := rfl
@[simp] theorem ringSet_tried (s : State) (f lane word : Nat) (v : Word) : (ringSet s f lane word v).tried = s.tried := rfl
@[simp] theorem ringSet_own (s : State) (f lane word : Nat) (v : Word) : (ringSet s f lane word v).own = s.own := rfl
@[simp] theorem ringSet_holders (s : State) (f lane word : Nat) (v : Word) : (ringSet s f lane word v).holders = s.holders := rfl
@[simp] theorem ringSet_homes (s : State) (f lane word : Nat) (v : Word) : (ringSet s f lane word v).homes = s.homes := rfl
@[simp] theorem ringSet_homeGen (s : State) (f lane word : Nat) (v : Word) : (ringSet s f lane word v).homeGen = s.homeGen := rfl
@[simp] theorem ringSet_tacqs (s : State) (f lane word : Nat) (v : Word) : (ringSet s f lane word v).tacqs = s.tacqs := rfl
@[simp] theorem ringSet_phases (s : State) (f lane word : Nat) (v : Word) : (ringSet s f lane word v).phases = s.phases := rfl
@[simp] theorem ringSet_saved (s : State) (f lane word : Nat) (v : Word) : (ringSet s f lane word v).saved = s.saved := rfl
@[simp] theorem ringSet_spool (s : State) (f lane word : Nat) (v : Word) : (ringSet s f lane word v).spool = s.spool := rfl
@[simp] theorem ringSet_restores (s : State) (f lane word : Nat) (v : Word) : (ringSet s f lane word v).restores = s.restores := rfl
@[simp] theorem ringSet_saves (s : State) (f lane word : Nat) (v : Word) : (ringSet s f lane word v).saves = s.saves := rfl
@[simp] theorem ringSet_fused (s : State) (f lane word : Nat) (v : Word) : (ringSet s f lane word v).fused = s.fused := rfl
@[simp] theorem ringSet_s2held (s : State) (f lane word : Nat) (v : Word) : (ringSet s f lane word v).s2held = s.s2held := rfl
@[simp] theorem ringSet_joinId (s : State) (f lane word : Nat) (v : Word) : (ringSet s f lane word v).joinId = s.joinId := rfl
@[simp] theorem ringSet_hub (s : State) (f lane word : Nat) (v : Word) : (ringSet s f lane word v).hub = s.hub := rfl

@[simp] theorem modSlot_tick (s : State) (k : Nat) (g : Slot → Slot) : (modSlot s k g).tick = s.tick := by unfold modSlot; split <;> rfl
@[simp] theorem modSlot_free (s : State) (k : Nat) (g : Slot → Slot) : (modSlot s k g).free = s.free := by unfold modSlot; split <;> rfl
@[simp] theorem modSlot_agenda (s : State) (k : Nat) (g : Slot → Slot) : (modSlot s k g).agenda = s.agenda := by unfold modSlot; split <;> rfl
@[simp] theorem modSlot_readPts (s : State) (k : Nat) (g : Slot → Slot) : (modSlot s k g).readPts = s.readPts := by unfold modSlot; split <;> rfl
@[simp] theorem modSlot_stopPts (s : State) (k : Nat) (g : Slot → Slot) : (modSlot s k g).stopPts = s.stopPts := by unfold modSlot; split <;> rfl
@[simp] theorem modSlot_latePts (s : State) (k : Nat) (g : Slot → Slot) : (modSlot s k g).latePts = s.latePts := by unfold modSlot; split <;> rfl
@[simp] theorem modSlot_turn (s : State) (k : Nat) (g : Slot → Slot) : (modSlot s k g).turn = s.turn := by unfold modSlot; split <;> rfl
@[simp] theorem modSlot_beat (s : State) (k : Nat) (g : Slot → Slot) : (modSlot s k g).beat = s.beat := by unfold modSlot; split <;> rfl
@[simp] theorem modSlot_cur (s : State) (k : Nat) (g : Slot → Slot) : (modSlot s k g).cur = s.cur := by unfold modSlot; split <;> rfl
@[simp] theorem modSlot_grp (s : State) (k : Nat) (g : Slot → Slot) : (modSlot s k g).grp = s.grp := by unfold modSlot; split <;> rfl
@[simp] theorem modSlot_ipc (s : State) (k : Nat) (g : Slot → Slot) : (modSlot s k g).ipc = s.ipc := by unfold modSlot; split <;> rfl
@[simp] theorem modSlot_stall (s : State) (k : Nat) (g : Slot → Slot) : (modSlot s k g).stall = s.stall := by unfold modSlot; split <;> rfl
@[simp] theorem modSlot_mem (s : State) (k : Nat) (g : Slot → Slot) : (modSlot s k g).mem = s.mem := by unfold modSlot; split <;> rfl
@[simp] theorem modSlot_tlb (s : State) (k : Nat) (g : Slot → Slot) : (modSlot s k g).tlb = s.tlb := by unfold modSlot; split <;> rfl
@[simp] theorem modSlot_walks (s : State) (k : Nat) (g : Slot → Slot) : (modSlot s k g).walks = s.walks := by unfold modSlot; split <;> rfl
@[simp] theorem modSlot_scr (s : State) (k : Nat) (g : Slot → Slot) : (modSlot s k g).scr = s.scr := by unfold modSlot; split <;> rfl
@[simp] theorem modSlot_obuf (s : State) (k : Nat) (g : Slot → Slot) : (modSlot s k g).obuf = s.obuf := by unfold modSlot; split <;> rfl
@[simp] theorem modSlot_objs (s : State) (k : Nat) (g : Slot → Slot) : (modSlot s k g).objs = s.objs := by unfold modSlot; split <;> rfl
@[simp] theorem modSlot_acc (s : State) (k : Nat) (g : Slot → Slot) : (modSlot s k g).acc = s.acc := by unfold modSlot; split <;> rfl
@[simp] theorem modSlot_side (s : State) (k : Nat) (g : Slot → Slot) : (modSlot s k g).side = s.side := by unfold modSlot; split <;> rfl
@[simp] theorem modSlot_ring (s : State) (k : Nat) (g : Slot → Slot) : (modSlot s k g).ring = s.ring := by unfold modSlot; split <;> rfl
@[simp] theorem modSlot_ringDirty (s : State) (k : Nat) (g : Slot → Slot) : (modSlot s k g).ringDirty = s.ringDirty := by unfold modSlot; split <;> rfl
@[simp] theorem modSlot_ringPoison (s : State) (k : Nat) (g : Slot → Slot) : (modSlot s k g).ringPoison = s.ringPoison := by unfold modSlot; split <;> rfl
@[simp] theorem modSlot_fibres (s : State) (k : Nat) (g : Slot → Slot) : (modSlot s k g).fibres = s.fibres := by unfold modSlot; split <;> rfl
@[simp] theorem modSlot_wgs (s : State) (k : Nat) (g : Slot → Slot) : (modSlot s k g).wgs = s.wgs := by unfold modSlot; split <;> rfl
@[simp] theorem modSlot_lastSlot (s : State) (k : Nat) (g : Slot → Slot) : (modSlot s k g).lastSlot = s.lastSlot := by unfold modSlot; split <;> rfl
@[simp] theorem modSlot_tried (s : State) (k : Nat) (g : Slot → Slot) : (modSlot s k g).tried = s.tried := by unfold modSlot; split <;> rfl
@[simp] theorem modSlot_own (s : State) (k : Nat) (g : Slot → Slot) : (modSlot s k g).own = s.own := by unfold modSlot; split <;> rfl
@[simp] theorem modSlot_holders (s : State) (k : Nat) (g : Slot → Slot) : (modSlot s k g).holders = s.holders := by unfold modSlot; split <;> rfl
@[simp] theorem modSlot_homes (s : State) (k : Nat) (g : Slot → Slot) : (modSlot s k g).homes = s.homes := by unfold modSlot; split <;> rfl
@[simp] theorem modSlot_homeGen (s : State) (k : Nat) (g : Slot → Slot) : (modSlot s k g).homeGen = s.homeGen := by unfold modSlot; split <;> rfl
@[simp] theorem modSlot_tacqs (s : State) (k : Nat) (g : Slot → Slot) : (modSlot s k g).tacqs = s.tacqs := by unfold modSlot; split <;> rfl
@[simp] theorem modSlot_phases (s : State) (k : Nat) (g : Slot → Slot) : (modSlot s k g).phases = s.phases := by unfold modSlot; split <;> rfl
@[simp] theorem modSlot_saved (s : State) (k : Nat) (g : Slot → Slot) : (modSlot s k g).saved = s.saved := by unfold modSlot; split <;> rfl
@[simp] theorem modSlot_spool (s : State) (k : Nat) (g : Slot → Slot) : (modSlot s k g).spool = s.spool := by unfold modSlot; split <;> rfl
@[simp] theorem modSlot_restores (s : State) (k : Nat) (g : Slot → Slot) : (modSlot s k g).restores = s.restores := by unfold modSlot; split <;> rfl
@[simp] theorem modSlot_saves (s : State) (k : Nat) (g : Slot → Slot) : (modSlot s k g).saves = s.saves := by unfold modSlot; split <;> rfl
@[simp] theorem modSlot_fused (s : State) (k : Nat) (g : Slot → Slot) : (modSlot s k g).fused = s.fused := by unfold modSlot; split <;> rfl
@[simp] theorem modSlot_s2held (s : State) (k : Nat) (g : Slot → Slot) : (modSlot s k g).s2held = s.s2held := by unfold modSlot; split <;> rfl
@[simp] theorem modSlot_joinId (s : State) (k : Nat) (g : Slot → Slot) : (modSlot s k g).joinId = s.joinId := by unfold modSlot; split <;> rfl
@[simp] theorem modSlot_hub (s : State) (k : Nat) (g : Slot → Slot) : (modSlot s k g).hub = s.hub := by unfold modSlot; split <;> rfl

@[simp] theorem modWg_tick (s : State) (f : Nat) (g : Wg → Wg) : (modWg s f g).tick = s.tick := by unfold modWg; split <;> rfl
@[simp] theorem modWg_free (s : State) (f : Nat) (g : Wg → Wg) : (modWg s f g).free = s.free := by unfold modWg; split <;> rfl
@[simp] theorem modWg_agenda (s : State) (f : Nat) (g : Wg → Wg) : (modWg s f g).agenda = s.agenda := by unfold modWg; split <;> rfl
@[simp] theorem modWg_readPts (s : State) (f : Nat) (g : Wg → Wg) : (modWg s f g).readPts = s.readPts := by unfold modWg; split <;> rfl
@[simp] theorem modWg_stopPts (s : State) (f : Nat) (g : Wg → Wg) : (modWg s f g).stopPts = s.stopPts := by unfold modWg; split <;> rfl
@[simp] theorem modWg_latePts (s : State) (f : Nat) (g : Wg → Wg) : (modWg s f g).latePts = s.latePts := by unfold modWg; split <;> rfl
@[simp] theorem modWg_turn (s : State) (f : Nat) (g : Wg → Wg) : (modWg s f g).turn = s.turn := by unfold modWg; split <;> rfl
@[simp] theorem modWg_beat (s : State) (f : Nat) (g : Wg → Wg) : (modWg s f g).beat = s.beat := by unfold modWg; split <;> rfl
@[simp] theorem modWg_cur (s : State) (f : Nat) (g : Wg → Wg) : (modWg s f g).cur = s.cur := by unfold modWg; split <;> rfl
@[simp] theorem modWg_grp (s : State) (f : Nat) (g : Wg → Wg) : (modWg s f g).grp = s.grp := by unfold modWg; split <;> rfl
@[simp] theorem modWg_ipc (s : State) (f : Nat) (g : Wg → Wg) : (modWg s f g).ipc = s.ipc := by unfold modWg; split <;> rfl
@[simp] theorem modWg_stall (s : State) (f : Nat) (g : Wg → Wg) : (modWg s f g).stall = s.stall := by unfold modWg; split <;> rfl
@[simp] theorem modWg_mem (s : State) (f : Nat) (g : Wg → Wg) : (modWg s f g).mem = s.mem := by unfold modWg; split <;> rfl
@[simp] theorem modWg_tlb (s : State) (f : Nat) (g : Wg → Wg) : (modWg s f g).tlb = s.tlb := by unfold modWg; split <;> rfl
@[simp] theorem modWg_walks (s : State) (f : Nat) (g : Wg → Wg) : (modWg s f g).walks = s.walks := by unfold modWg; split <;> rfl
@[simp] theorem modWg_scr (s : State) (f : Nat) (g : Wg → Wg) : (modWg s f g).scr = s.scr := by unfold modWg; split <;> rfl
@[simp] theorem modWg_obuf (s : State) (f : Nat) (g : Wg → Wg) : (modWg s f g).obuf = s.obuf := by unfold modWg; split <;> rfl
@[simp] theorem modWg_objs (s : State) (f : Nat) (g : Wg → Wg) : (modWg s f g).objs = s.objs := by unfold modWg; split <;> rfl
@[simp] theorem modWg_acc (s : State) (f : Nat) (g : Wg → Wg) : (modWg s f g).acc = s.acc := by unfold modWg; split <;> rfl
@[simp] theorem modWg_side (s : State) (f : Nat) (g : Wg → Wg) : (modWg s f g).side = s.side := by unfold modWg; split <;> rfl
@[simp] theorem modWg_ring (s : State) (f : Nat) (g : Wg → Wg) : (modWg s f g).ring = s.ring := by unfold modWg; split <;> rfl
@[simp] theorem modWg_ringDirty (s : State) (f : Nat) (g : Wg → Wg) : (modWg s f g).ringDirty = s.ringDirty := by unfold modWg; split <;> rfl
@[simp] theorem modWg_ringPoison (s : State) (f : Nat) (g : Wg → Wg) : (modWg s f g).ringPoison = s.ringPoison := by unfold modWg; split <;> rfl
@[simp] theorem modWg_fibres (s : State) (f : Nat) (g : Wg → Wg) : (modWg s f g).fibres = s.fibres := by unfold modWg; split <;> rfl
@[simp] theorem modWg_slots (s : State) (f : Nat) (g : Wg → Wg) : (modWg s f g).slots = s.slots := by unfold modWg; split <;> rfl
@[simp] theorem modWg_lastSlot (s : State) (f : Nat) (g : Wg → Wg) : (modWg s f g).lastSlot = s.lastSlot := by unfold modWg; split <;> rfl
@[simp] theorem modWg_tried (s : State) (f : Nat) (g : Wg → Wg) : (modWg s f g).tried = s.tried := by unfold modWg; split <;> rfl
@[simp] theorem modWg_own (s : State) (f : Nat) (g : Wg → Wg) : (modWg s f g).own = s.own := by unfold modWg; split <;> rfl
@[simp] theorem modWg_holders (s : State) (f : Nat) (g : Wg → Wg) : (modWg s f g).holders = s.holders := by unfold modWg; split <;> rfl
@[simp] theorem modWg_homes (s : State) (f : Nat) (g : Wg → Wg) : (modWg s f g).homes = s.homes := by unfold modWg; split <;> rfl
@[simp] theorem modWg_homeGen (s : State) (f : Nat) (g : Wg → Wg) : (modWg s f g).homeGen = s.homeGen := by unfold modWg; split <;> rfl
@[simp] theorem modWg_tacqs (s : State) (f : Nat) (g : Wg → Wg) : (modWg s f g).tacqs = s.tacqs := by unfold modWg; split <;> rfl
@[simp] theorem modWg_phases (s : State) (f : Nat) (g : Wg → Wg) : (modWg s f g).phases = s.phases := by unfold modWg; split <;> rfl
@[simp] theorem modWg_saved (s : State) (f : Nat) (g : Wg → Wg) : (modWg s f g).saved = s.saved := by unfold modWg; split <;> rfl
@[simp] theorem modWg_spool (s : State) (f : Nat) (g : Wg → Wg) : (modWg s f g).spool = s.spool := by unfold modWg; split <;> rfl
@[simp] theorem modWg_restores (s : State) (f : Nat) (g : Wg → Wg) : (modWg s f g).restores = s.restores := by unfold modWg; split <;> rfl
@[simp] theorem modWg_saves (s : State) (f : Nat) (g : Wg → Wg) : (modWg s f g).saves = s.saves := by unfold modWg; split <;> rfl
@[simp] theorem modWg_fused (s : State) (f : Nat) (g : Wg → Wg) : (modWg s f g).fused = s.fused := by unfold modWg; split <;> rfl
@[simp] theorem modWg_s2held (s : State) (f : Nat) (g : Wg → Wg) : (modWg s f g).s2held = s.s2held := by unfold modWg; split <;> rfl
@[simp] theorem modWg_joinId (s : State) (f : Nat) (g : Wg → Wg) : (modWg s f g).joinId = s.joinId := by unfold modWg; split <;> rfl
@[simp] theorem modWg_hub (s : State) (f : Nat) (g : Wg → Wg) : (modWg s f g).hub = s.hub := by unfold modWg; split <;> rfl

@[simp] theorem output_tick (s : State) (o : Output) : (output s o).tick = s.tick := rfl
@[simp] theorem output_free (s : State) (o : Output) : (output s o).free = s.free := rfl
@[simp] theorem output_agenda (s : State) (o : Output) : (output s o).agenda = s.agenda := rfl
@[simp] theorem output_readPts (s : State) (o : Output) : (output s o).readPts = s.readPts := rfl
@[simp] theorem output_stopPts (s : State) (o : Output) : (output s o).stopPts = s.stopPts := rfl
@[simp] theorem output_latePts (s : State) (o : Output) : (output s o).latePts = s.latePts := rfl
@[simp] theorem output_turn (s : State) (o : Output) : (output s o).turn = s.turn := rfl
@[simp] theorem output_beat (s : State) (o : Output) : (output s o).beat = s.beat := rfl
@[simp] theorem output_cur (s : State) (o : Output) : (output s o).cur = s.cur := rfl
@[simp] theorem output_grp (s : State) (o : Output) : (output s o).grp = s.grp := rfl
@[simp] theorem output_ipc (s : State) (o : Output) : (output s o).ipc = s.ipc := rfl
@[simp] theorem output_stall (s : State) (o : Output) : (output s o).stall = s.stall := rfl
@[simp] theorem output_mem (s : State) (o : Output) : (output s o).mem = s.mem := rfl
@[simp] theorem output_tlb (s : State) (o : Output) : (output s o).tlb = s.tlb := rfl
@[simp] theorem output_walks (s : State) (o : Output) : (output s o).walks = s.walks := rfl
@[simp] theorem output_scr (s : State) (o : Output) : (output s o).scr = s.scr := rfl
@[simp] theorem output_obuf (s : State) (o : Output) : (output s o).obuf = s.obuf := rfl
@[simp] theorem output_objs (s : State) (o : Output) : (output s o).objs = s.objs := rfl
@[simp] theorem output_acc (s : State) (o : Output) : (output s o).acc = s.acc := rfl
@[simp] theorem output_side (s : State) (o : Output) : (output s o).side = s.side := rfl
@[simp] theorem output_ring (s : State) (o : Output) : (output s o).ring = s.ring := rfl
@[simp] theorem output_ringDirty (s : State) (o : Output) : (output s o).ringDirty = s.ringDirty := rfl
@[simp] theorem output_ringPoison (s : State) (o : Output) : (output s o).ringPoison = s.ringPoison := rfl
@[simp] theorem output_fibres (s : State) (o : Output) : (output s o).fibres = s.fibres := rfl
@[simp] theorem output_wgs (s : State) (o : Output) : (output s o).wgs = s.wgs := rfl
@[simp] theorem output_slots (s : State) (o : Output) : (output s o).slots = s.slots := rfl
@[simp] theorem output_lastSlot (s : State) (o : Output) : (output s o).lastSlot = s.lastSlot := rfl
@[simp] theorem output_tried (s : State) (o : Output) : (output s o).tried = s.tried := rfl
@[simp] theorem output_own (s : State) (o : Output) : (output s o).own = s.own := rfl
@[simp] theorem output_holders (s : State) (o : Output) : (output s o).holders = s.holders := rfl
@[simp] theorem output_homes (s : State) (o : Output) : (output s o).homes = s.homes := rfl
@[simp] theorem output_homeGen (s : State) (o : Output) : (output s o).homeGen = s.homeGen := rfl
@[simp] theorem output_tacqs (s : State) (o : Output) : (output s o).tacqs = s.tacqs := rfl
@[simp] theorem output_phases (s : State) (o : Output) : (output s o).phases = s.phases := rfl
@[simp] theorem output_saved (s : State) (o : Output) : (output s o).saved = s.saved := rfl
@[simp] theorem output_spool (s : State) (o : Output) : (output s o).spool = s.spool := rfl
@[simp] theorem output_restores (s : State) (o : Output) : (output s o).restores = s.restores := rfl
@[simp] theorem output_saves (s : State) (o : Output) : (output s o).saves = s.saves := rfl
@[simp] theorem output_fused (s : State) (o : Output) : (output s o).fused = s.fused := rfl
@[simp] theorem output_s2held (s : State) (o : Output) : (output s o).s2held = s.s2held := rfl
@[simp] theorem output_joinId (s : State) (o : Output) : (output s o).joinId = s.joinId := rfl

@[simp] theorem irq_tick (s : State) (a b : Nat) : (irq s a b).tick = s.tick := rfl
@[simp] theorem irq_free (s : State) (a b : Nat) : (irq s a b).free = s.free := rfl
@[simp] theorem irq_agenda (s : State) (a b : Nat) : (irq s a b).agenda = s.agenda := rfl
@[simp] theorem irq_readPts (s : State) (a b : Nat) : (irq s a b).readPts = s.readPts := rfl
@[simp] theorem irq_stopPts (s : State) (a b : Nat) : (irq s a b).stopPts = s.stopPts := rfl
@[simp] theorem irq_latePts (s : State) (a b : Nat) : (irq s a b).latePts = s.latePts := rfl
@[simp] theorem irq_turn (s : State) (a b : Nat) : (irq s a b).turn = s.turn := rfl
@[simp] theorem irq_beat (s : State) (a b : Nat) : (irq s a b).beat = s.beat := rfl
@[simp] theorem irq_cur (s : State) (a b : Nat) : (irq s a b).cur = s.cur := rfl
@[simp] theorem irq_grp (s : State) (a b : Nat) : (irq s a b).grp = s.grp := rfl
@[simp] theorem irq_ipc (s : State) (a b : Nat) : (irq s a b).ipc = s.ipc := rfl
@[simp] theorem irq_stall (s : State) (a b : Nat) : (irq s a b).stall = s.stall := rfl
@[simp] theorem irq_mem (s : State) (a b : Nat) : (irq s a b).mem = s.mem := rfl
@[simp] theorem irq_tlb (s : State) (a b : Nat) : (irq s a b).tlb = s.tlb := rfl
@[simp] theorem irq_walks (s : State) (a b : Nat) : (irq s a b).walks = s.walks := rfl
@[simp] theorem irq_scr (s : State) (a b : Nat) : (irq s a b).scr = s.scr := rfl
@[simp] theorem irq_obuf (s : State) (a b : Nat) : (irq s a b).obuf = s.obuf := rfl
@[simp] theorem irq_objs (s : State) (a b : Nat) : (irq s a b).objs = s.objs := rfl
@[simp] theorem irq_acc (s : State) (a b : Nat) : (irq s a b).acc = s.acc := rfl
@[simp] theorem irq_side (s : State) (a b : Nat) : (irq s a b).side = s.side := rfl
@[simp] theorem irq_ring (s : State) (a b : Nat) : (irq s a b).ring = s.ring := rfl
@[simp] theorem irq_ringDirty (s : State) (a b : Nat) : (irq s a b).ringDirty = s.ringDirty := rfl
@[simp] theorem irq_ringPoison (s : State) (a b : Nat) : (irq s a b).ringPoison = s.ringPoison := rfl
@[simp] theorem irq_fibres (s : State) (a b : Nat) : (irq s a b).fibres = s.fibres := rfl
@[simp] theorem irq_wgs (s : State) (a b : Nat) : (irq s a b).wgs = s.wgs := rfl
@[simp] theorem irq_slots (s : State) (a b : Nat) : (irq s a b).slots = s.slots := rfl
@[simp] theorem irq_lastSlot (s : State) (a b : Nat) : (irq s a b).lastSlot = s.lastSlot := rfl
@[simp] theorem irq_tried (s : State) (a b : Nat) : (irq s a b).tried = s.tried := rfl
@[simp] theorem irq_own (s : State) (a b : Nat) : (irq s a b).own = s.own := rfl
@[simp] theorem irq_holders (s : State) (a b : Nat) : (irq s a b).holders = s.holders := rfl
@[simp] theorem irq_homes (s : State) (a b : Nat) : (irq s a b).homes = s.homes := rfl
@[simp] theorem irq_homeGen (s : State) (a b : Nat) : (irq s a b).homeGen = s.homeGen := rfl
@[simp] theorem irq_tacqs (s : State) (a b : Nat) : (irq s a b).tacqs = s.tacqs := rfl
@[simp] theorem irq_phases (s : State) (a b : Nat) : (irq s a b).phases = s.phases := rfl
@[simp] theorem irq_saved (s : State) (a b : Nat) : (irq s a b).saved = s.saved := rfl
@[simp] theorem irq_spool (s : State) (a b : Nat) : (irq s a b).spool = s.spool := rfl
@[simp] theorem irq_restores (s : State) (a b : Nat) : (irq s a b).restores = s.restores := rfl
@[simp] theorem irq_saves (s : State) (a b : Nat) : (irq s a b).saves = s.saves := rfl
@[simp] theorem irq_fused (s : State) (a b : Nat) : (irq s a b).fused = s.fused := rfl
@[simp] theorem irq_s2held (s : State) (a b : Nat) : (irq s a b).s2held = s.s2held := rfl
@[simp] theorem irq_joinId (s : State) (a b : Nat) : (irq s a b).joinId = s.joinId := rfl

@[simp] theorem logError_tick (s : State) (e : ErrorRecord) : (logError s e).tick = s.tick := rfl
@[simp] theorem logError_free (s : State) (e : ErrorRecord) : (logError s e).free = s.free := rfl
@[simp] theorem logError_agenda (s : State) (e : ErrorRecord) : (logError s e).agenda = s.agenda := rfl
@[simp] theorem logError_readPts (s : State) (e : ErrorRecord) : (logError s e).readPts = s.readPts := rfl
@[simp] theorem logError_stopPts (s : State) (e : ErrorRecord) : (logError s e).stopPts = s.stopPts := rfl
@[simp] theorem logError_latePts (s : State) (e : ErrorRecord) : (logError s e).latePts = s.latePts := rfl
@[simp] theorem logError_turn (s : State) (e : ErrorRecord) : (logError s e).turn = s.turn := rfl
@[simp] theorem logError_beat (s : State) (e : ErrorRecord) : (logError s e).beat = s.beat := rfl
@[simp] theorem logError_cur (s : State) (e : ErrorRecord) : (logError s e).cur = s.cur := rfl
@[simp] theorem logError_grp (s : State) (e : ErrorRecord) : (logError s e).grp = s.grp := rfl
@[simp] theorem logError_ipc (s : State) (e : ErrorRecord) : (logError s e).ipc = s.ipc := rfl
@[simp] theorem logError_stall (s : State) (e : ErrorRecord) : (logError s e).stall = s.stall := rfl
@[simp] theorem logError_mem (s : State) (e : ErrorRecord) : (logError s e).mem = s.mem := rfl
@[simp] theorem logError_tlb (s : State) (e : ErrorRecord) : (logError s e).tlb = s.tlb := rfl
@[simp] theorem logError_walks (s : State) (e : ErrorRecord) : (logError s e).walks = s.walks := rfl
@[simp] theorem logError_scr (s : State) (e : ErrorRecord) : (logError s e).scr = s.scr := rfl
@[simp] theorem logError_obuf (s : State) (e : ErrorRecord) : (logError s e).obuf = s.obuf := rfl
@[simp] theorem logError_objs (s : State) (e : ErrorRecord) : (logError s e).objs = s.objs := rfl
@[simp] theorem logError_acc (s : State) (e : ErrorRecord) : (logError s e).acc = s.acc := rfl
@[simp] theorem logError_side (s : State) (e : ErrorRecord) : (logError s e).side = s.side := rfl
@[simp] theorem logError_ring (s : State) (e : ErrorRecord) : (logError s e).ring = s.ring := rfl
@[simp] theorem logError_ringDirty (s : State) (e : ErrorRecord) : (logError s e).ringDirty = s.ringDirty := rfl
@[simp] theorem logError_ringPoison (s : State) (e : ErrorRecord) : (logError s e).ringPoison = s.ringPoison := rfl
@[simp] theorem logError_fibres (s : State) (e : ErrorRecord) : (logError s e).fibres = s.fibres := rfl
@[simp] theorem logError_wgs (s : State) (e : ErrorRecord) : (logError s e).wgs = s.wgs := rfl
@[simp] theorem logError_slots (s : State) (e : ErrorRecord) : (logError s e).slots = s.slots := rfl
@[simp] theorem logError_lastSlot (s : State) (e : ErrorRecord) : (logError s e).lastSlot = s.lastSlot := rfl
@[simp] theorem logError_tried (s : State) (e : ErrorRecord) : (logError s e).tried = s.tried := rfl
@[simp] theorem logError_own (s : State) (e : ErrorRecord) : (logError s e).own = s.own := rfl
@[simp] theorem logError_holders (s : State) (e : ErrorRecord) : (logError s e).holders = s.holders := rfl
@[simp] theorem logError_homes (s : State) (e : ErrorRecord) : (logError s e).homes = s.homes := rfl
@[simp] theorem logError_homeGen (s : State) (e : ErrorRecord) : (logError s e).homeGen = s.homeGen := rfl
@[simp] theorem logError_tacqs (s : State) (e : ErrorRecord) : (logError s e).tacqs = s.tacqs := rfl
@[simp] theorem logError_phases (s : State) (e : ErrorRecord) : (logError s e).phases = s.phases := rfl
@[simp] theorem logError_saved (s : State) (e : ErrorRecord) : (logError s e).saved = s.saved := rfl
@[simp] theorem logError_spool (s : State) (e : ErrorRecord) : (logError s e).spool = s.spool := rfl
@[simp] theorem logError_restores (s : State) (e : ErrorRecord) : (logError s e).restores = s.restores := rfl
@[simp] theorem logError_saves (s : State) (e : ErrorRecord) : (logError s e).saves = s.saves := rfl
@[simp] theorem logError_fused (s : State) (e : ErrorRecord) : (logError s e).fused = s.fused := rfl
@[simp] theorem logError_s2held (s : State) (e : ErrorRecord) : (logError s e).s2held = s.s2held := rfl
@[simp] theorem logError_joinId (s : State) (e : ErrorRecord) : (logError s e).joinId = s.joinId := rfl

@[simp] theorem modPart_tick (s : State) (p : Nat) (g : Part → Part) : (modPart s p g).tick = s.tick := rfl
@[simp] theorem modPart_free (s : State) (p : Nat) (g : Part → Part) : (modPart s p g).free = s.free := rfl
@[simp] theorem modPart_agenda (s : State) (p : Nat) (g : Part → Part) : (modPart s p g).agenda = s.agenda := rfl
@[simp] theorem modPart_readPts (s : State) (p : Nat) (g : Part → Part) : (modPart s p g).readPts = s.readPts := rfl
@[simp] theorem modPart_stopPts (s : State) (p : Nat) (g : Part → Part) : (modPart s p g).stopPts = s.stopPts := rfl
@[simp] theorem modPart_latePts (s : State) (p : Nat) (g : Part → Part) : (modPart s p g).latePts = s.latePts := rfl
@[simp] theorem modPart_turn (s : State) (p : Nat) (g : Part → Part) : (modPart s p g).turn = s.turn := rfl
@[simp] theorem modPart_beat (s : State) (p : Nat) (g : Part → Part) : (modPart s p g).beat = s.beat := rfl
@[simp] theorem modPart_cur (s : State) (p : Nat) (g : Part → Part) : (modPart s p g).cur = s.cur := rfl
@[simp] theorem modPart_grp (s : State) (p : Nat) (g : Part → Part) : (modPart s p g).grp = s.grp := rfl
@[simp] theorem modPart_ipc (s : State) (p : Nat) (g : Part → Part) : (modPart s p g).ipc = s.ipc := rfl
@[simp] theorem modPart_stall (s : State) (p : Nat) (g : Part → Part) : (modPart s p g).stall = s.stall := rfl
@[simp] theorem modPart_mem (s : State) (p : Nat) (g : Part → Part) : (modPart s p g).mem = s.mem := rfl
@[simp] theorem modPart_tlb (s : State) (p : Nat) (g : Part → Part) : (modPart s p g).tlb = s.tlb := rfl
@[simp] theorem modPart_walks (s : State) (p : Nat) (g : Part → Part) : (modPart s p g).walks = s.walks := rfl
@[simp] theorem modPart_scr (s : State) (p : Nat) (g : Part → Part) : (modPart s p g).scr = s.scr := rfl
@[simp] theorem modPart_obuf (s : State) (p : Nat) (g : Part → Part) : (modPart s p g).obuf = s.obuf := rfl
@[simp] theorem modPart_objs (s : State) (p : Nat) (g : Part → Part) : (modPart s p g).objs = s.objs := rfl
@[simp] theorem modPart_acc (s : State) (p : Nat) (g : Part → Part) : (modPart s p g).acc = s.acc := rfl
@[simp] theorem modPart_side (s : State) (p : Nat) (g : Part → Part) : (modPart s p g).side = s.side := rfl
@[simp] theorem modPart_ring (s : State) (p : Nat) (g : Part → Part) : (modPart s p g).ring = s.ring := rfl
@[simp] theorem modPart_ringDirty (s : State) (p : Nat) (g : Part → Part) : (modPart s p g).ringDirty = s.ringDirty := rfl
@[simp] theorem modPart_ringPoison (s : State) (p : Nat) (g : Part → Part) : (modPart s p g).ringPoison = s.ringPoison := rfl
@[simp] theorem modPart_fibres (s : State) (p : Nat) (g : Part → Part) : (modPart s p g).fibres = s.fibres := rfl
@[simp] theorem modPart_wgs (s : State) (p : Nat) (g : Part → Part) : (modPart s p g).wgs = s.wgs := rfl
@[simp] theorem modPart_slots (s : State) (p : Nat) (g : Part → Part) : (modPart s p g).slots = s.slots := rfl
@[simp] theorem modPart_lastSlot (s : State) (p : Nat) (g : Part → Part) : (modPart s p g).lastSlot = s.lastSlot := rfl
@[simp] theorem modPart_tried (s : State) (p : Nat) (g : Part → Part) : (modPart s p g).tried = s.tried := rfl
@[simp] theorem modPart_own (s : State) (p : Nat) (g : Part → Part) : (modPart s p g).own = s.own := rfl
@[simp] theorem modPart_holders (s : State) (p : Nat) (g : Part → Part) : (modPart s p g).holders = s.holders := rfl
@[simp] theorem modPart_homes (s : State) (p : Nat) (g : Part → Part) : (modPart s p g).homes = s.homes := rfl
@[simp] theorem modPart_homeGen (s : State) (p : Nat) (g : Part → Part) : (modPart s p g).homeGen = s.homeGen := rfl
@[simp] theorem modPart_tacqs (s : State) (p : Nat) (g : Part → Part) : (modPart s p g).tacqs = s.tacqs := rfl
@[simp] theorem modPart_phases (s : State) (p : Nat) (g : Part → Part) : (modPart s p g).phases = s.phases := rfl
@[simp] theorem modPart_saved (s : State) (p : Nat) (g : Part → Part) : (modPart s p g).saved = s.saved := rfl
@[simp] theorem modPart_spool (s : State) (p : Nat) (g : Part → Part) : (modPart s p g).spool = s.spool := rfl
@[simp] theorem modPart_restores (s : State) (p : Nat) (g : Part → Part) : (modPart s p g).restores = s.restores := rfl
@[simp] theorem modPart_saves (s : State) (p : Nat) (g : Part → Part) : (modPart s p g).saves = s.saves := rfl
@[simp] theorem modPart_fused (s : State) (p : Nat) (g : Part → Part) : (modPart s p g).fused = s.fused := rfl
@[simp] theorem modPart_s2held (s : State) (p : Nat) (g : Part → Part) : (modPart s p g).s2held = s.s2held := rfl
@[simp] theorem modPart_joinId (s : State) (p : Nat) (g : Part → Part) : (modPart s p g).joinId = s.joinId := rfl

@[simp] theorem modLaunch_tick (s : State) (p l : Nat) (g : Launch → Launch) : (modLaunch s p l g).tick = s.tick := rfl
@[simp] theorem modLaunch_free (s : State) (p l : Nat) (g : Launch → Launch) : (modLaunch s p l g).free = s.free := rfl
@[simp] theorem modLaunch_agenda (s : State) (p l : Nat) (g : Launch → Launch) : (modLaunch s p l g).agenda = s.agenda := rfl
@[simp] theorem modLaunch_readPts (s : State) (p l : Nat) (g : Launch → Launch) : (modLaunch s p l g).readPts = s.readPts := rfl
@[simp] theorem modLaunch_stopPts (s : State) (p l : Nat) (g : Launch → Launch) : (modLaunch s p l g).stopPts = s.stopPts := rfl
@[simp] theorem modLaunch_latePts (s : State) (p l : Nat) (g : Launch → Launch) : (modLaunch s p l g).latePts = s.latePts := rfl
@[simp] theorem modLaunch_turn (s : State) (p l : Nat) (g : Launch → Launch) : (modLaunch s p l g).turn = s.turn := rfl
@[simp] theorem modLaunch_beat (s : State) (p l : Nat) (g : Launch → Launch) : (modLaunch s p l g).beat = s.beat := rfl
@[simp] theorem modLaunch_cur (s : State) (p l : Nat) (g : Launch → Launch) : (modLaunch s p l g).cur = s.cur := rfl
@[simp] theorem modLaunch_grp (s : State) (p l : Nat) (g : Launch → Launch) : (modLaunch s p l g).grp = s.grp := rfl
@[simp] theorem modLaunch_ipc (s : State) (p l : Nat) (g : Launch → Launch) : (modLaunch s p l g).ipc = s.ipc := rfl
@[simp] theorem modLaunch_stall (s : State) (p l : Nat) (g : Launch → Launch) : (modLaunch s p l g).stall = s.stall := rfl
@[simp] theorem modLaunch_mem (s : State) (p l : Nat) (g : Launch → Launch) : (modLaunch s p l g).mem = s.mem := rfl
@[simp] theorem modLaunch_tlb (s : State) (p l : Nat) (g : Launch → Launch) : (modLaunch s p l g).tlb = s.tlb := rfl
@[simp] theorem modLaunch_walks (s : State) (p l : Nat) (g : Launch → Launch) : (modLaunch s p l g).walks = s.walks := rfl
@[simp] theorem modLaunch_scr (s : State) (p l : Nat) (g : Launch → Launch) : (modLaunch s p l g).scr = s.scr := rfl
@[simp] theorem modLaunch_obuf (s : State) (p l : Nat) (g : Launch → Launch) : (modLaunch s p l g).obuf = s.obuf := rfl
@[simp] theorem modLaunch_objs (s : State) (p l : Nat) (g : Launch → Launch) : (modLaunch s p l g).objs = s.objs := rfl
@[simp] theorem modLaunch_acc (s : State) (p l : Nat) (g : Launch → Launch) : (modLaunch s p l g).acc = s.acc := rfl
@[simp] theorem modLaunch_side (s : State) (p l : Nat) (g : Launch → Launch) : (modLaunch s p l g).side = s.side := rfl
@[simp] theorem modLaunch_ring (s : State) (p l : Nat) (g : Launch → Launch) : (modLaunch s p l g).ring = s.ring := rfl
@[simp] theorem modLaunch_ringDirty (s : State) (p l : Nat) (g : Launch → Launch) : (modLaunch s p l g).ringDirty = s.ringDirty := rfl
@[simp] theorem modLaunch_ringPoison (s : State) (p l : Nat) (g : Launch → Launch) : (modLaunch s p l g).ringPoison = s.ringPoison := rfl
@[simp] theorem modLaunch_fibres (s : State) (p l : Nat) (g : Launch → Launch) : (modLaunch s p l g).fibres = s.fibres := rfl
@[simp] theorem modLaunch_wgs (s : State) (p l : Nat) (g : Launch → Launch) : (modLaunch s p l g).wgs = s.wgs := rfl
@[simp] theorem modLaunch_slots (s : State) (p l : Nat) (g : Launch → Launch) : (modLaunch s p l g).slots = s.slots := rfl
@[simp] theorem modLaunch_lastSlot (s : State) (p l : Nat) (g : Launch → Launch) : (modLaunch s p l g).lastSlot = s.lastSlot := rfl
@[simp] theorem modLaunch_tried (s : State) (p l : Nat) (g : Launch → Launch) : (modLaunch s p l g).tried = s.tried := rfl
@[simp] theorem modLaunch_own (s : State) (p l : Nat) (g : Launch → Launch) : (modLaunch s p l g).own = s.own := rfl
@[simp] theorem modLaunch_holders (s : State) (p l : Nat) (g : Launch → Launch) : (modLaunch s p l g).holders = s.holders := rfl
@[simp] theorem modLaunch_homes (s : State) (p l : Nat) (g : Launch → Launch) : (modLaunch s p l g).homes = s.homes := rfl
@[simp] theorem modLaunch_homeGen (s : State) (p l : Nat) (g : Launch → Launch) : (modLaunch s p l g).homeGen = s.homeGen := rfl
@[simp] theorem modLaunch_tacqs (s : State) (p l : Nat) (g : Launch → Launch) : (modLaunch s p l g).tacqs = s.tacqs := rfl
@[simp] theorem modLaunch_phases (s : State) (p l : Nat) (g : Launch → Launch) : (modLaunch s p l g).phases = s.phases := rfl
@[simp] theorem modLaunch_saved (s : State) (p l : Nat) (g : Launch → Launch) : (modLaunch s p l g).saved = s.saved := rfl
@[simp] theorem modLaunch_spool (s : State) (p l : Nat) (g : Launch → Launch) : (modLaunch s p l g).spool = s.spool := rfl
@[simp] theorem modLaunch_restores (s : State) (p l : Nat) (g : Launch → Launch) : (modLaunch s p l g).restores = s.restores := rfl
@[simp] theorem modLaunch_saves (s : State) (p l : Nat) (g : Launch → Launch) : (modLaunch s p l g).saves = s.saves := rfl
@[simp] theorem modLaunch_fused (s : State) (p l : Nat) (g : Launch → Launch) : (modLaunch s p l g).fused = s.fused := rfl
@[simp] theorem modLaunch_s2held (s : State) (p l : Nat) (g : Launch → Launch) : (modLaunch s p l g).s2held = s.s2held := rfl
@[simp] theorem modLaunch_joinId (s : State) (p l : Nat) (g : Launch → Launch) : (modLaunch s p l g).joinId = s.joinId := rfl

@[simp] theorem bumpClock_tick (s : State) : (bumpClock s).tick = s.tick := rfl
@[simp] theorem bumpClock_free (s : State) : (bumpClock s).free = s.free := rfl
@[simp] theorem bumpClock_agenda (s : State) : (bumpClock s).agenda = s.agenda := rfl
@[simp] theorem bumpClock_readPts (s : State) : (bumpClock s).readPts = s.readPts := rfl
@[simp] theorem bumpClock_stopPts (s : State) : (bumpClock s).stopPts = s.stopPts := rfl
@[simp] theorem bumpClock_latePts (s : State) : (bumpClock s).latePts = s.latePts := rfl
@[simp] theorem bumpClock_turn (s : State) : (bumpClock s).turn = s.turn := rfl
@[simp] theorem bumpClock_beat (s : State) : (bumpClock s).beat = s.beat := rfl
@[simp] theorem bumpClock_cur (s : State) : (bumpClock s).cur = s.cur := rfl
@[simp] theorem bumpClock_grp (s : State) : (bumpClock s).grp = s.grp := rfl
@[simp] theorem bumpClock_ipc (s : State) : (bumpClock s).ipc = s.ipc := rfl
@[simp] theorem bumpClock_stall (s : State) : (bumpClock s).stall = s.stall := rfl
@[simp] theorem bumpClock_tlb (s : State) : (bumpClock s).tlb = s.tlb := rfl
@[simp] theorem bumpClock_walks (s : State) : (bumpClock s).walks = s.walks := rfl
@[simp] theorem bumpClock_scr (s : State) : (bumpClock s).scr = s.scr := rfl
@[simp] theorem bumpClock_obuf (s : State) : (bumpClock s).obuf = s.obuf := rfl
@[simp] theorem bumpClock_objs (s : State) : (bumpClock s).objs = s.objs := rfl
@[simp] theorem bumpClock_acc (s : State) : (bumpClock s).acc = s.acc := rfl
@[simp] theorem bumpClock_side (s : State) : (bumpClock s).side = s.side := rfl
@[simp] theorem bumpClock_ring (s : State) : (bumpClock s).ring = s.ring := rfl
@[simp] theorem bumpClock_ringDirty (s : State) : (bumpClock s).ringDirty = s.ringDirty := rfl
@[simp] theorem bumpClock_ringPoison (s : State) : (bumpClock s).ringPoison = s.ringPoison := rfl
@[simp] theorem bumpClock_fibres (s : State) : (bumpClock s).fibres = s.fibres := rfl
@[simp] theorem bumpClock_wgs (s : State) : (bumpClock s).wgs = s.wgs := rfl
@[simp] theorem bumpClock_slots (s : State) : (bumpClock s).slots = s.slots := rfl
@[simp] theorem bumpClock_lastSlot (s : State) : (bumpClock s).lastSlot = s.lastSlot := rfl
@[simp] theorem bumpClock_tried (s : State) : (bumpClock s).tried = s.tried := rfl
@[simp] theorem bumpClock_own (s : State) : (bumpClock s).own = s.own := rfl
@[simp] theorem bumpClock_holders (s : State) : (bumpClock s).holders = s.holders := rfl
@[simp] theorem bumpClock_homes (s : State) : (bumpClock s).homes = s.homes := rfl
@[simp] theorem bumpClock_homeGen (s : State) : (bumpClock s).homeGen = s.homeGen := rfl
@[simp] theorem bumpClock_tacqs (s : State) : (bumpClock s).tacqs = s.tacqs := rfl
@[simp] theorem bumpClock_phases (s : State) : (bumpClock s).phases = s.phases := rfl
@[simp] theorem bumpClock_saved (s : State) : (bumpClock s).saved = s.saved := rfl
@[simp] theorem bumpClock_spool (s : State) : (bumpClock s).spool = s.spool := rfl
@[simp] theorem bumpClock_restores (s : State) : (bumpClock s).restores = s.restores := rfl
@[simp] theorem bumpClock_saves (s : State) : (bumpClock s).saves = s.saves := rfl
@[simp] theorem bumpClock_fused (s : State) : (bumpClock s).fused = s.fused := rfl
@[simp] theorem bumpClock_s2held (s : State) : (bumpClock s).s2held = s.s2held := rfl
@[simp] theorem bumpClock_joinId (s : State) : (bumpClock s).joinId = s.joinId := rfl
@[simp] theorem bumpClock_hub (s : State) : (bumpClock s).hub = s.hub := rfl

@[simp] theorem draw_tick (s : State) : (draw s).2.tick = s.tick := rfl
@[simp] theorem draw_agenda (s : State) : (draw s).2.agenda = s.agenda := rfl
@[simp] theorem draw_readPts (s : State) : (draw s).2.readPts = s.readPts := rfl
@[simp] theorem draw_stopPts (s : State) : (draw s).2.stopPts = s.stopPts := rfl
@[simp] theorem draw_latePts (s : State) : (draw s).2.latePts = s.latePts := rfl
@[simp] theorem draw_turn (s : State) : (draw s).2.turn = s.turn := rfl
@[simp] theorem draw_beat (s : State) : (draw s).2.beat = s.beat := rfl
@[simp] theorem draw_cur (s : State) : (draw s).2.cur = s.cur := rfl
@[simp] theorem draw_grp (s : State) : (draw s).2.grp = s.grp := rfl
@[simp] theorem draw_ipc (s : State) : (draw s).2.ipc = s.ipc := rfl
@[simp] theorem draw_stall (s : State) : (draw s).2.stall = s.stall := rfl
@[simp] theorem draw_mem (s : State) : (draw s).2.mem = s.mem := rfl
@[simp] theorem draw_tlb (s : State) : (draw s).2.tlb = s.tlb := rfl
@[simp] theorem draw_walks (s : State) : (draw s).2.walks = s.walks := rfl
@[simp] theorem draw_scr (s : State) : (draw s).2.scr = s.scr := rfl
@[simp] theorem draw_obuf (s : State) : (draw s).2.obuf = s.obuf := rfl
@[simp] theorem draw_objs (s : State) : (draw s).2.objs = s.objs := rfl
@[simp] theorem draw_acc (s : State) : (draw s).2.acc = s.acc := rfl
@[simp] theorem draw_side (s : State) : (draw s).2.side = s.side := rfl
@[simp] theorem draw_ring (s : State) : (draw s).2.ring = s.ring := rfl
@[simp] theorem draw_ringDirty (s : State) : (draw s).2.ringDirty = s.ringDirty := rfl
@[simp] theorem draw_ringPoison (s : State) : (draw s).2.ringPoison = s.ringPoison := rfl
@[simp] theorem draw_fibres (s : State) : (draw s).2.fibres = s.fibres := rfl
@[simp] theorem draw_wgs (s : State) : (draw s).2.wgs = s.wgs := rfl
@[simp] theorem draw_slots (s : State) : (draw s).2.slots = s.slots := rfl
@[simp] theorem draw_lastSlot (s : State) : (draw s).2.lastSlot = s.lastSlot := rfl
@[simp] theorem draw_tried (s : State) : (draw s).2.tried = s.tried := rfl
@[simp] theorem draw_own (s : State) : (draw s).2.own = s.own := rfl
@[simp] theorem draw_holders (s : State) : (draw s).2.holders = s.holders := rfl
@[simp] theorem draw_homes (s : State) : (draw s).2.homes = s.homes := rfl
@[simp] theorem draw_homeGen (s : State) : (draw s).2.homeGen = s.homeGen := rfl
@[simp] theorem draw_tacqs (s : State) : (draw s).2.tacqs = s.tacqs := rfl
@[simp] theorem draw_phases (s : State) : (draw s).2.phases = s.phases := rfl
@[simp] theorem draw_saved (s : State) : (draw s).2.saved = s.saved := rfl
@[simp] theorem draw_spool (s : State) : (draw s).2.spool = s.spool := rfl
@[simp] theorem draw_restores (s : State) : (draw s).2.restores = s.restores := rfl
@[simp] theorem draw_saves (s : State) : (draw s).2.saves = s.saves := rfl
@[simp] theorem draw_fused (s : State) : (draw s).2.fused = s.fused := rfl
@[simp] theorem draw_s2held (s : State) : (draw s).2.s2held = s.s2held := rfl
@[simp] theorem draw_joinId (s : State) : (draw s).2.joinId = s.joinId := rfl
@[simp] theorem draw_hub (s : State) : (draw s).2.hub = s.hub := rfl

end Sys2Proof.Laws
end

