-- ==== Sys2Proof/Laws/Fibres.lean ====
section
/-! SUPPORT. What a change of one fibre or lane does. -/

namespace Sys2Proof.Laws
open Sys2Proof.Machine Sys2Proof.Claims

/-! ## Lanes of a mask -/

@[simp] theorem mem_lanesOf {m : LaneMask} {i : Nat} : i ∈ lanesOf m ↔ i < 32 ∧ m.getLsbD i = true := by simp [lanesOf]

theorem nodup_lanesOf (m : LaneMask) : (lanesOf m).Nodup := List.nodup_range.filter _

theorem mem_dstLanes {m : LaneMask} {r : Reg} {i : Nat} (h : i ∈ dstLanes m r) : i < 32 ∧ m.getLsbD i = true := by
  unfold dstLanes at h
  split at h
  · exact mem_lanesOf.1 (List.mem_of_mem_take h)
  · exact mem_lanesOf.1 h

theorem nodup_dstLanes (m : LaneMask) (r : Reg) : (dstLanes m r).Nodup := by
  unfold dstLanes
  split
  · exact (nodup_lanesOf m).sublist (List.take_sublist _ _)
  · exact nodup_lanesOf m

/-! ## Fibres -/

theorem hasFib_iff {s : State} {f : Nat} : hasFib s f = true ↔ ∃ x, FMap.find s.fibres f = some x := by
  unfold hasFib; exact Option.isSome_iff_exists

@[simp] theorem hasFib_modFib (s : State) (f g : Nat) (h : Fibre → Fibre) : hasFib (modFib s f h) g = hasFib s g := by
  unfold hasFib modFib
  split
  · by_cases e : g = f
    · subst e; simp [*]
    · simp [find_put_other _ _ e]
  · rfl

@[simp] theorem fib_modFib_same {s : State} {f : Nat} (g : Fibre → Fibre) (h : hasFib s f = true) :
    fib (modFib s f g) f = g (fib s f) := by
  obtain ⟨x, hx⟩ := hasFib_iff.1 h
  simp [fib, modFib, hx]

theorem find_modFib_other (s : State) {f i : Nat} (g : Fibre → Fibre) (h : i ≠ f) :
    FMap.find (modFib s f g).fibres i = FMap.find s.fibres i := by
  unfold modFib
  split
  · exact find_put_other _ _ h
  · rfl

theorem fib_modFib_other (s : State) {f i : Nat} (g : Fibre → Fibre) (h : i ≠ f) : fib (modFib s f g) i = fib s i := by
  simp [fib, find_modFib_other s g h]

/-- Two changes of one fibre are one. -/
theorem modFib_modFib (s : State) (f : Nat) (g h : Fibre → Fibre) : modFib (modFib s f g) f h = modFib s f fun x => h (g x) := by
  cases e : FMap.find s.fibres f with
  | none => simp only [modFib, e]
  | some x => simp only [modFib, e, find_put_same, put_put_same]

/-- A change of a fibre changes the fibres only. -/
theorem modFib_onlyFibres (s : State) (f : Nat) (g : Fibre → Fibre) : OnlyFibres s (modFib s f g) := by
  unfold OnlyFibres modFib; split <;> rfl

theorem OnlyFibres.refl (s : State) : OnlyFibres s s := rfl

theorem OnlyFibres.trans {s t u : State} (h : OnlyFibres s t) (k : OnlyFibres t u) : OnlyFibres s u := by
  unfold OnlyFibres at *; rw [k, h]

theorem OnlyRegisters.refl (s : State) : OnlyRegisters s s := rfl

theorem OnlyRegisters.trans {s t u : State} (h : OnlyRegisters s t) (k : OnlyRegisters t u) : OnlyRegisters s u := by
  unfold OnlyRegisters at *; rw [k, h]

theorem OnlyFibres.onlyRegisters {s t : State} (h : OnlyFibres s t) : OnlyRegisters s t := by
  unfold OnlyFibres at h; unfold OnlyRegisters; rw [h]

theorem OtherFibres.trans {s t u : State} {f : Nat} (h : OtherFibres s t f) (k : OtherFibres t u f) : OtherFibres s u f :=
  fun g hg => (k g hg).trans (h g hg)

theorem modFib_otherFibres (s : State) (f : Nat) (g : Fibre → Fibre) : OtherFibres s (modFib s f g) f :=
  fun _ h => find_modFib_other s g h

/-! ## Lanes -/

@[simp] theorem laneAt_modLane (x : Fibre) (i j : Nat) (g : Lane → Lane) (h : j < 32) :
    laneAt (modLane x i g) j = if j = i then g (laneAt x j) else laneAt x j := by
  simp [laneAt, modLane, vmod, h]

@[simp] theorem laneAt_modLanes (x : Fibre) (m : LaneMask) (g : Nat → Lane → Lane) (i : Nat) (h : i < 32) :
    laneAt (modLanes x m g) i = if m.getLsbD i then g i (laneAt x i) else laneAt x i := by
  simp [laneAt, modLanes, h]

/-- The PC of the lanes of a mask is set and nothing else changes. -/
theorem setPc_wentTo {s : State} {f : Nat} (m : LaneMask) (pc : BitVec 64) (h : hasFib s f = true) :
    WentTo s (setPc s f m pc) f m fun _ => pc where
  lanes i hi := by unfold setPc; rw [fib_modFib_same _ h, laneAt_modLanes _ _ _ _ hi]
  fibre := by unfold setPc; exact ⟨by simp, by rw [fib_modFib_same _ h]; rfl⟩
  others := modFib_otherFibres _ _ _
  rest := modFib_onlyFibres _ _ _

/-- The end of an instruction that moves no PC itself. -/
theorem goOn_wentOn {s u : State} (hc : u.cur = s.cur) (hg : u.grp = s.grp) (hp : u.ipc = s.ipc) (h : hasFib u u.cur = true) :
    WentOn s u (goOn u) := by
  unfold WentOn goOn advance; rw [hg, hp, ← hc]; exact setPc_wentTo _ _ h

end Sys2Proof.Laws
end

