-- ==== Sys2Proof/Laws/Memory.lean ====
section
/-! SUPPORT. The operations over memory keep its canonical form; what a write of bytes leaves to read. -/

namespace Sys2Proof.Laws
open Sys2Proof.Machine

/-! ## The canonical form is kept -/

/-- Two stores hold the same bytes in the same places. -/
def SameCells (a b : Store) : Prop := a.cells = b.cells ∧ a.dirty = b.dirty

theorem sameCells_wf {a b : Store} (h : SameCells a b) (w : Memory.wf b) : Memory.wf a := by
  unfold Memory.wf; rw [h.1, h.2]; exact w

theorem reset_wf : Memory.wf Store.reset := by decide

theorem putByte_wf {st : Store} (c : Bool) (loc : Nat) (b : Byte) (h : Memory.wf st) : Memory.wf (putByte st c loc b) := by
  unfold putByte
  split
  · exact ⟨h.1, sorted_put _ _ (Nat.zero_le _) h.2⟩
  · exact ⟨smap_wf_set _ _ _ _ h.1, sorted_del _ _ h.2⟩

theorem putBytes_wf (c : Bool) (l : List Byte) {st : Store} (loc : Nat) (h : Memory.wf st) : Memory.wf (putBytes st c loc l) := by
  induction l generalizing st loc with
  | nil => exact h
  | cons b l ih => exact ih _ (putByte_wf c loc b h)

theorem foldl_wf {α : Type} (g : Store → α → Store) (hg : ∀ st x, Memory.wf st → Memory.wf (g st x)) (l : List α) {st : Store}
    (h : Memory.wf st) : Memory.wf (l.foldl g st) := by
  induction l generalizing st with
  | nil => exact h
  | cons x l ih => exact ih (hg st x h)

theorem cleanLine_wf {st : Store} (line : Nat) (h : Memory.wf st) : Memory.wf (cleanLine st line) := by
  refine foldl_wf _ (fun st i h => ?_) _ h
  split
  · exact putByte_wf _ _ _ h
  · exact h

theorem dropPoison_same (st : Store) (p : Nat → Bool) : SameCells (dropPoison st p) st := by
  unfold dropPoison; split <;> exact ⟨rfl, rfl⟩

theorem unpoison_same (st : Store) (loc n : Nat) : SameCells (unpoison st loc n) st := dropPoison_same _ _

/-- Opening a line under a key keeps the form. -/
theorem openLine_wf {st : Store} (cached : Bool) (key line : Nat) (h : Memory.wf st) : Memory.wf (openLine st cached key line) := by
  unfold openLine
  dsimp only
  split
  · exact h
  · split
    · exact h
    · refine sameCells_wf (b := if SMap.get 0 st.tag line = 0 then st else cleanLine st line) ⟨rfl, rfl⟩ ?_
      split
      · exact h
      · exact cleanLine_wf _ h

theorem openLines_wf {s : State} (cached : Bool) (key loc n : Nat) (h : Memory.wf s.mem) : Memory.wf (openLines s cached key loc n).mem :=
  foldl_wf _ (fun _ _ => openLine_wf _ _ _) _ h

theorem rekeyLine_wf {s : State} (key loc : Nat) (h : Memory.wf s.mem) : Memory.wf (rekeyLine s key loc).mem := by
  unfold rekeyLine
  dsimp only
  split
  · exact h
  · show Memory.wf (if _ then _ else _)
    split
    · exact cleanLine_wf _ h
    · exact putBytes_wf _ _ _ (cleanLine_wf _ h)

theorem foldl_state_wf {α : Type} (g : State → α → State) (hg : ∀ s x, Memory.wf s.mem → Memory.wf (g s x).mem) (l : List α) {s : State}
    (h : Memory.wf s.mem) : Memory.wf (l.foldl g s).mem := by
  induction l generalizing s with
  | nil => exact h
  | cons x l ih => exact ih (hg s x h)

theorem rekeyLines_wf {s : State} (key loc n : Nat) (h : Memory.wf s.mem) : Memory.wf (rekeyLines s key loc n).mem :=
  foldl_state_wf _ (fun _ _ => rekeyLine_wf _ _) _ h

theorem rawPut_wf {s : State} (c : Bool) (loc : Nat) (l : List Byte) (h : Memory.wf s.mem) : Memory.wf (rawPut s c loc l).mem := by
  have hu : Memory.wf (unpoison s.mem loc l.length) := sameCells_wf (unpoison_same _ _ _) h
  unfold rawPut
  dsimp only
  split
  · exact hu
  · split
    · exact hu
    · exact putBytes_wf _ _ _ hu

theorem recallGranule_wf {st : Store} (g : Nat) (h : Memory.wf st) : Memory.wf (recallGranule st g) := by
  unfold recallGranule
  generalize List.range 256 = l
  refine sameCells_wf (b := l.foldl (fun t i => if (FMap.find t.copies (g * 256 + i)).isSome then cleanLine t (g * 256 + i) else t) st)
    ⟨rfl, rfl⟩ (foldl_wf _ (fun st i h => ?_) _ h)
  split
  · exact cleanLine_wf _ h
  · exact h

theorem classify_wf {st : Store} (q : Req) (line : Nat) (h : Memory.wf st) : Memory.wf (classify st q line) := by
  unfold classify
  dsimp only
  split
  · exact h
  · split
    · split <;> exact h
    · split
      · exact h
      · have hr := recallGranule_wf (line / 256) h
        generalize recallGranule st (line / 256) = r at hr
        exact sameCells_wf (b := r) ⟨rfl, rfl⟩ hr

theorem dropLines_wf {s : State} {st : Store} (part : Nat) (lines : List Nat) (h : Memory.wf st) : Memory.wf (dropLines s part st lines) := by
  refine ⟨?_, ?_⟩
  · refine Eq.trans (congrArg (SMap.wf 0) ?_) h.1
    exact (dropPoison_same _ _).1
  show FMap.sortedFrom 0 (List.filter _ st.dirty) = true
  have : ∀ (m : FMap Byte) (lo : Nat) (p : Nat × Byte → Bool), FMap.sortedFrom lo m = true → FMap.sortedFrom lo (m.filter p) = true := by
    intro m
    induction m with
    | nil => intros; rfl
    | cons e m ih =>
      obtain ⟨k, v⟩ := e
      intro lo p hs
      simp only [FMap.sortedFrom, Bool.and_eq_true, decide_eq_true_eq] at hs
      rw [List.filter_cons]
      split
      · simp only [FMap.sortedFrom, Bool.and_eq_true, decide_eq_true_eq]; exact ⟨hs.1, ih _ p hs.2⟩
      · exact sortedFrom_mono _ (by omega) (ih _ p hs.2)
  exact this _ _ _ h.2

/-! ## Writes and accesses as a whole -/

/-- The fibres play no part in memory. -/

@[simp] theorem modHome_mem (s : State) (n : Nat) (g : Home → Home) : (modHome s n g).mem = s.mem := by unfold modHome; split <;> rfl

theorem foldl_state_mem {α : Type} (g : State → α → State) (hg : ∀ s x, (g s x).mem = s.mem) (l : List α) (s : State) :
    (l.foldl g s).mem = s.mem := by
  induction l generalizing s with
  | nil => rfl
  | cons x l ih => rw [List.foldl_cons, ih, hg]

/-- A fold whose steps keep a field keeps it. -/
theorem foldl_proj {α β γ : Type} (p : β → γ) (g : β → α → β) (hg : ∀ b x, p (g b x) = p b) (l : List α) (b : β) : p (l.foldl g b) = p b := by
  induction l generalizing b with
  | nil => rfl
  | cons x l ih => rw [List.foldl_cons, ih, hg]

theorem foldl_state_same {α : Type} (g : State → α → State) (hg : ∀ s x, SameCells (g s x).mem s.mem) (l : List α) (s : State) :
    SameCells (l.foldl g s).mem s.mem := by
  induction l generalizing s with
  | nil => exact ⟨rfl, rfl⟩
  | cons x l ih => exact ⟨(ih _).1.trans (hg s x).1, (ih _).2.trans (hg s x).2⟩

/-- The record of a write moves no byte. -/
theorem noteWrite_same (s : State) (w : Writer) (core loc : Nat) (old : List Byte) (rmw : Bool) (rel : Option Nat) :
    SameCells (noteWrite s w core loc old rmw rel).mem s.mem := by
  unfold noteWrite
  split
  · cases w <;> dsimp only <;> (try rw [modFib_mem]) <;>
      refine ⟨(foldl_proj Store.cells _ ?_ _ _).trans rfl, (foldl_proj Store.dirty _ ?_ _ _).trans rfl⟩ <;> exact fun _ _ => rfl
  · exact ⟨rfl, rfl⟩

/-- What the launch scheduler sees of a write moves no byte. -/
theorem noteWords_same (s : State) (w : Writer) (core key loc n : Nat) : SameCells (noteWords s w core key loc n).mem s.mem := by
  unfold noteWords; split <;> exact ⟨rfl, rfl⟩

theorem evaluate_wf {s : State} (w : Writer) (core loc : Nat) (rel : Option Nat) (with_ : Bool) (h : Memory.wf s.mem) :
    Memory.wf (evaluate s w core loc rel with_).mem := by
  unfold evaluate
  show Memory.wf (if _ then _ else _ : State).mem
  split
  · exact h
  · refine rawPut_wf _ _ _ (sameCells_wf (noteWrite_same _ _ _ _ _ _ _) ?_)
    split <;> exact h

theorem evaluateAll_wf {s : State} (w : Writer) (core loc n : Nat) (rel : Option Nat) (h : Memory.wf s.mem) :
    Memory.wf (evaluateAll s w core loc n rel).mem := by
  unfold evaluateAll
  split
  · exact foldl_state_wf _ (fun _ _ => evaluate_wf _ _ _ _ _) _ h
  · exact h

theorem nameObj_wf {s : State} (core loc : Nat) (h : Memory.wf s.mem) : Memory.wf (nameObj s core loc).mem := by
  unfold nameObj
  split
  · exact h
  · exact evaluate_wf _ _ _ _ _ h

/-- A performed write keeps the canonical form. -/
theorem performWrite_wf {s : State} (w : Writer) (core key mt loc : Nat) (l : List Byte) (rmw : Bool) (rel : Option Nat)
    (h : Memory.wf s.mem) : Memory.wf (performWrite s w core key mt loc l rmw rel).mem := by
  unfold performWrite
  refine sameCells_wf (noteWords_same _ _ _ _ _ _)
    (evaluateAll_wf _ _ _ _ _ (rawPut_wf _ _ _ (sameCells_wf (noteWrite_same _ _ _ _ _ _ _) ?_)))
  split
  · exact rekeyLines_wf _ _ _ (openLines_wf _ _ _ _ h)
  · unfold markUnit; split <;> exact h

theorem takeCopy_same (st : Store) (l1 line : Nat) (write : Bool) (cs : NSet) : SameCells (takeCopy st l1 line write cs) st := by
  unfold takeCopy trackSharer; split <;> exact ⟨rfl, rfl⟩

theorem copyLine_same (s : State) (q : Req) (st : Store) (l1 line : Nat) (write alloc : Bool) :
    SameCells (copyLine s q st l1 line write alloc) st := by
  unfold copyLine
  split
  · dsimp only; split
    · exact takeCopy_same _ _ _ _ _
    · split <;> exact ⟨rfl, rfl⟩
  · split
    · exact ⟨rfl, rfl⟩
    · exact takeCopy_same _ _ _ _ _
  · split <;> first | exact takeCopy_same _ _ _ _ _ | exact ⟨rfl, rfl⟩
  · split <;> first | exact takeCopy_same _ _ _ _ _ | exact ⟨rfl, rfl⟩

theorem boundHost_wf {st : Store} (line : Nat) (h : Memory.wf st) : Memory.wf (boundHost st line) := by
  unfold boundHost
  dsimp only
  split
  · split
    · rename_i l _
      have hl := cleanLine_wf l h
      generalize cleanLine st l = u at hl ⊢
      exact sameCells_wf (b := u) ⟨rfl, rfl⟩ hl
    · exact h
  · exact h

theorem touchLine_wf {s : State} (q : Req) (loc : Nat) (write : Bool) (h : Memory.wf s.mem) : Memory.wf (touchLine s q loc write).mem :=
  boundHost_wf _ (sameCells_wf (copyLine_same _ _ _ _ _ _ _) (classify_wf _ _ h))

theorem unlink_same (s : State) (core e h : Nat) : SameCells (unlink s core e h).mem s.mem := by
  unfold unlink refreshHome
  dsimp only
  rw [modHome_mem]
  split
  · split
    · exact ⟨by rw [unmark]; dsimp only; rw [modHome_mem], by rw [unmark]; dsimp only; rw [modHome_mem]⟩
    · exact ⟨by rw [modHome_mem], by rw [modHome_mem]⟩
  · exact ⟨by rw [modHome_mem], by rw [modHome_mem]⟩

theorem releaseTile_same (s : State) (x : Holder) (v : View) : SameCells (releaseTile s x v).mem s.mem := by
  unfold releaseTile; split <;> exact ⟨rfl, rfl⟩

/-- A surrender moves no byte. -/
theorem surrender_same (s : State) (core e : Nat) : SameCells (surrender s core e).mem s.mem := by
  unfold surrender
  split
  · split
    · exact ⟨rfl, rfl⟩
    · exact ⟨(unlink_same _ _ _ _).1.trans (releaseTile_same _ _ _).1, (unlink_same _ _ _ _).2.trans (releaseTile_same _ _ _).2⟩
  · exact ⟨rfl, rfl⟩

theorem modPort_mem (s : State) (p : Nat) (g : Port → Port) : (modPort s p g).mem = s.mem := rfl

theorem sendRelaxed_mem (s : State) (p n : Nat) : (sendRelaxed s p n).mem = s.mem := by
  unfold sendRelaxed
  dsimp only
  exact foldl_state_mem (fun t (w : RelaxedWrite) => output t (.hostWrite p w.pa w.data true)) (fun _ _ => rfl) _ _

theorem startFlush_mem (s : State) (scope : Nat) (marks : List Nat) : (startFlush s scope marks).mem = s.mem := by
  unfold startFlush
  split
  · rfl
  · refine foldl_state_mem _ (fun t m => ?_) _ _
    extract_lets x
    split
    · rfl
    · rw [modPort_mem, output_mem, sendRelaxed_mem]

theorem sendMsix_mem (s : State) (vf n : Nat) : (sendMsix s vf n).mem = s.mem := by
  unfold sendMsix
  show State.mem (if _ then _ else _) = _
  split
  · rfl
  · exact sendRelaxed_mem _ _ _

theorem raiseMsix_mem (s : State) (vf n : Nat) : (raiseMsix s vf n).mem = s.mem := by
  unfold raiseMsix postMsix
  split
  · rfl
  · split
    · rfl
    · split
      · exact sendMsix_mem _ _ _
      · exact startFlush_mem _ _ _

theorem imsicWrite_mem (s : State) (core file offset : Nat) (v : BitVec 32) : (imsicWrite s core file offset v).mem = s.mem := by
  unfold imsicWrite
  dsimp only
  split
  · split <;> rfl
  · rfl

theorem deviceWrite_mem (s : State) (pa : Nat) (l : List Byte) : (deviceWrite s pa l).mem = s.mem := by
  unfold deviceWrite
  split
  · split
    · exact raiseMsix_mem _ _ _
    · rfl
  · split
    · split
      · exact imsicWrite_mem _ _ _ _ _
      · rfl
    · rfl

theorem hostPut_mem (s : State) (pa : Nat) (l : List Byte) : (hostPut s pa l).mem = s.mem := rfl

theorem hostSend_mem (s : State) (pa : Nat) (l : List Byte) (o : Bool) : (hostSend s pa l o).mem = s.mem := by
  unfold hostSend
  extract_lets p x
  split
  · rfl
  · split
    · rw [output_mem, hostPut_mem, sendRelaxed_mem]
    · rfl

theorem toHost_mem (s : State) (mt loc : Nat) (l : List Byte) (o : Bool) : (toHost s mt loc l o).mem = s.mem := by
  unfold toHost
  split
  · split
    · rfl
    · exact hostSend_mem _ _ _ _
  · rfl

/-! ### The store queue, and what takes tenures back: for any way of surrendering a tenure that keeps the form -/

/-- An operation on a core's holder keeps the form. -/
def KeepsForm (sur : State → Nat → Nat → State) : Prop := ∀ s a b, Memory.wf s.mem → Memory.wf (sur s a b).mem

theorem surrender_keepsForm : KeepsForm surrender := fun s a b h => sameCells_wf (surrender_same s a b) h

theorem recallWith_wf {sur : State → Nat → Nat → State} (hs : KeepsForm sur) {s : State} (core line : Nat) (write : Bool) (h : Memory.wf s.mem) :
    Memory.wf (recallWith sur s core line write).mem :=
  foldl_state_wf _ (fun _ _ k => foldl_state_wf _ (fun _ _ => hs _ _ _) _ k) _ h

theorem backInval_mem (s : State) (core line : Nat) (write : Bool) : (backInval s core line write).mem = s.mem := by
  unfold backInval
  split
  · exact foldl_state_mem (fun t (x : Port × Nat) => modPort (output t (.backInvalidate x.2 (128 * line))) x.2 fun y =>
      { y with lines := y.lines.filter (· != line) }) (fun _ _ => rfl) _ _
  · rfl

theorem arriveWith_wf {sur : State → Nat → Nat → State} (hs : KeepsForm sur) {s : State} (q : Req) (write : Bool) (key mt loc : Nat)
    (h : Memory.wf s.mem) : Memory.wf (arriveWith sur s q write key mt loc).mem := by
  have hr := recallWith_wf hs q.core (loc / 128) write h
  rw [← backInval_mem _ q.core (loc / 128) write] at hr
  have ho := openLines_wf (decide (mt = 0)) key loc 1 hr
  unfold arriveWith
  dsimp only
  split
  · split
    · exact touchLine_wf _ _ _ ho
    · exact ho
  · exact h

theorem performParts_wf (f core mt : Nat) (rmw ordered : Bool) (rel : Option Nat) (l : List (Nat × Nat × Nat)) :
    ∀ (d : List Byte) (s : State), Memory.wf s.mem → Memory.wf (performParts f core mt rmw ordered rel l d s).mem := by
  induction l with
  | nil => exact fun _ _ h => h
  | cons p r ih =>
    intro d s h
    have hw : Memory.wf (toHost (performWrite s (.fibre f) core p.2.2 mt p.1 (d.take p.2.1) rmw rel) mt p.1 (d.take p.2.1) ordered).mem := by
      rw [toHost_mem]; exact performWrite_wf _ _ _ _ _ _ _ _ h
    unfold performParts
    dsimp only
    split
    · exact hw
    · exact ih _ _ hw

theorem raiseAsync_mem (s : State) (f cause addr info : Nat) (m : LaneMask) : (raiseAsync s f cause addr info m).mem = s.mem := by
  unfold raiseAsync; exact modFib_mem _ _ _

/-- The arrival of a queued entry keeps the canonical form. -/
theorem arriveEntry_wf {sur : State → Nat → Nat → State} (hs : KeepsForm sur) {s : State} (f : Nat) (e : SqEntry) (h : Memory.wf s.mem) :
    Memory.wf (arriveEntry sur s f e).mem :=
  foldl_state_wf (fun t (p : Nat × Nat × Nat) => arriveWith sur t { core := coreOf f, part := (fib s f).part, sh := e.sh, ch := e.ch } true p.2.2 e.mt p.1)
    (fun _ _ => arriveWith_wf hs _ _ _ _ _) (entryParts e) h

/-- A performed entry of a store queue keeps the canonical form. -/
theorem performEntry_wf {s : State} (f : Nat) (e : SqEntry) (h : Memory.wf s.mem) : Memory.wf (performEntry s f e).mem := by
  unfold performEntry
  split
  · exact h
  · split
    · rw [deviceWrite_mem]; exact h
    · split
      · rw [raiseAsync_mem]; exact h
      · exact performParts_wf _ _ _ _ _ _ _ _ _ h

theorem fibReleased_mem (s : State) (f : Nat) : (fibReleased s f).mem = s.mem := by
  unfold fibReleased; split
  · rfl
  · exact modFib_mem _ _ _

theorem dequeue_mem (s : State) (f : Nat) (e : SqEntry) : (dequeue s f e).mem = s.mem := by
  unfold dequeue; dsimp only; split <;> simp only [fibReleased_mem, modFib_mem]

theorem drainWith_wf {sur : State → Nat → Nat → State} (hs : KeepsForm sur) {s t : State} (f : Nat) (h : Memory.wf s.mem)
    (ht : drainWith sur s f = some t) : Memory.wf t.mem := by
  unfold drainWith at ht
  split at ht
  · cases ht
  · split at ht
    · cases ht
    · have ha := arriveEntry_wf hs f ‹SqEntry› h
      cases ht
      split
      · exact ha
      · exact performEntry_wf _ _ (by rw [dequeue_mem]; exact ha)

theorem getD_drainWith_wf {sur : State → Nat → Nat → State} (hs : KeepsForm sur) {s : State} (f : Nat) (h : Memory.wf s.mem) :
    Memory.wf ((drainWith sur s f).getD s).mem := by
  cases ht : drainWith sur s f with
  | none => exact h
  | some t => exact drainWith_wf hs f h ht

/-- The accesses to some lines that a core has issued, performed, keep the canonical form. -/
theorem drainTile_wf {s : State} (core : Nat) (lines : List Nat) (h : Memory.wf s.mem) : Memory.wf (drainTile s core lines).mem := by
  refine foldl_state_wf _ (fun s f h => foldl_state_wf _ (fun s _ h => ?_) _ h) _ h
  split
  · exact getD_drainWith_wf surrender_keepsForm _ h
  · exact h

/-- A surrender with its core's issued accesses performed first keeps the form (R114). -/
theorem surrenderHolder_keepsForm : KeepsForm surrenderHolder := by
  intro s core e h
  unfold surrenderHolder
  split
  · split
    · exact h
    · exact surrender_keepsForm _ _ _ (drainTile_wf _ _ h)
  · exact h

theorem recallFor_wf {s : State} (core line : Nat) (write : Bool) (h : Memory.wf s.mem) : Memory.wf (recallFor s core line write).mem :=
  recallWith_wf surrenderHolder_keepsForm _ _ _ h

theorem arrive_wf {s : State} (q : Req) (write : Bool) (key mt loc : Nat) (h : Memory.wf s.mem) : Memory.wf (arrive s q write key mt loc).mem :=
  arriveWith_wf surrenderHolder_keepsForm _ _ _ _ _ h

theorem arriveAll_wf {s : State} (q : Req) (write : Bool) (key mt loc n : Nat) (h : Memory.wf s.mem) :
    Memory.wf (arriveAll s q write key mt loc n).mem :=
  foldl_state_wf _ (fun _ _ => arrive_wf _ _ _ _ _) _ h

theorem drainHolders_wf {s : State} (l : List (Nat × Nat)) (h : Memory.wf s.mem) : Memory.wf (drainHolders s l).mem := by
  refine foldl_state_wf _ (fun s p h => ?_) _ h
  split
  · exact drainTile_wf _ _ h
  · exact h

theorem drainOne_wf {s : State} (f : Nat) (h : Memory.wf s.mem) : Memory.wf ((drainOne s f).getD s).mem := by
  unfold drainOne
  split
  · exact getD_drainWith_wf surrenderHolder_keepsForm f h
  · exact getD_drainWith_wf surrenderHolder_keepsForm f h
  · extract_lets t
    split
    · exact drainHolders_wf _ h
    · exact h

theorem drainAll_wf {s : State} (f : Nat) (h : Memory.wf s.mem) : Memory.wf (drainAll s f).mem :=
  foldl_state_wf _ (fun _ _ => drainOne_wf f) _ h

/-- A write of a unit keeps the canonical form. -/
theorem unitPut_wf {s : State} (q : Req) (w : Writer) (ordered : Bool) (rel : Option Nat) (p : Piece) (l : List Byte) (h : Memory.wf s.mem) :
    Memory.wf (unitPut s q w ordered rel p l).mem := by
  unfold unitPut
  split
  · exact h
  split
  · rw [deviceWrite_mem]; exact h
  · rw [toHost_mem]; exact performWrite_wf _ _ _ _ _ _ _ _ (arriveAll_wf _ _ _ _ _ _ h)

/-! ## Reading what was written -/

@[simp] theorem rawByte_putByte (st : Store) (c : Bool) (loc : Nat) (b : Byte) (i : Nat) :
    rawByte (putByte st c loc b) i = if i = loc then b else rawByte st i := by
  unfold rawByte putByte
  by_cases hc : c = true
  · by_cases hi : i = loc
    · subst hi; simp [hc]
    · simp [hc, hi, find_put_other _ _ hi]
  · by_cases hi : i = loc
    · subst hi; simp [hc]
    · simp [hc, hi, find_del_other _ hi, smap_get_set_other _ _ _ hi]

/-- The bytes of a written block read back; every other byte stands. -/
theorem rawByte_putBytes (c : Bool) (l : List Byte) (st : Store) (loc i : Nat) :
    rawByte (putBytes st c loc l) i = if loc ≤ i ∧ i < loc + l.length then l.getD (i - loc) 0 else rawByte st i := by
  induction l generalizing st loc with
  | nil => rw [putBytes, if_neg (by simp only [List.length_nil]; omega)]
  | cons b l ih =>
    rw [putBytes, ih, rawByte_putByte]
    by_cases hi : i = loc
    · subst hi; rw [if_neg (by omega)]; simp
    · by_cases hr : loc + 1 ≤ i ∧ i < loc + 1 + l.length
      · have h2 : loc ≤ i ∧ i < loc + (b :: l).length := by simp only [List.length_cons]; omega
        rw [if_pos hr, if_pos h2]
        obtain ⟨k, hk⟩ : ∃ k, i - loc = k + 1 := ⟨i - loc - 1, by omega⟩
        rw [hk, show i - (loc + 1) = k from by omega]; simp
      · have h2 : ¬ (loc ≤ i ∧ i < loc + (b :: l).length) := by simp only [List.length_cons]; omega
        rw [if_neg hr, if_neg h2, if_neg hi]

/-- A line that is written back reads as before. -/
theorem rawByte_cleanLine (st : Store) (line i : Nat) : rawByte (cleanLine st line) i = rawByte st i := by
  unfold cleanLine
  generalize List.range 128 = l
  induction l generalizing st with
  | nil => rfl
  | cons k l ih =>
    rw [List.foldl_cons, ih]
    split
    · rename_i b hb
      rw [rawByte_putByte]
      split
      · subst i; simp [rawByte, hb]
      · rfl
    · rfl

end Sys2Proof.Laws
end

