-- ==== Sys2Proof/Laws/Registers.lean ====
section
/-! SUPPORT. What writing registers does: read after write, and everything a write leaves alone. -/

namespace Sys2Proof.Laws
open Sys2Proof.Machine Sys2Proof.Claims

/-! ## Words of the register file -/

theorem ringKey_lane {f i j w w' : Nat} (h : ringKey f i w = ringKey f j w') : i = j := by
  unfold ringKey at h
  have := Nat.mod_lt w (show 0 < 8192 by decide)
  have := Nat.mod_lt w' (show 0 < 8192 by decide)
  omega

theorem ringKey_succ (f i w : Nat) : ringKey f i (w + 1) ≠ ringKey f i w := by unfold ringKey; omega

/-- Two successive words of a frame lie apart, whatever the length of the sub-ring (R218). -/
theorem frameWord_succ (s : State) (f i w : Nat) : ringKey f i (frameWord s f (w + 1)) ≠ ringKey f i (frameWord s f w) := by
  unfold frameWord ringKey Slot.z
  simp only
  generalize (slotRec s (slotOf f)).quads = q
  generalize (slotRec s (slotOf f)).ringBase + (slotRec s (slotOf f)).win + f % 4 * (4 * q) = b
  rcases Nat.eq_zero_or_pos q with h | h
  · subst h; simp only [Nat.mul_zero, Nat.mod_zero]; omega
  · intro e
    have h4 : (w + 1) % 4 = (w + 1) % (4 * q) % 4 := by rw [Nat.mod_mul_right_mod]
    have h4' : w % 4 = w % (4 * q) % 4 := by rw [Nat.mod_mul_right_mod]
    omega

/-! ## Single writes -/

@[simp] theorem ringGet_ringSet_same (s : State) (f i w : Nat) (v : Word) : ringGet (ringSet s f i w v) f i w = v := by
  simp [ringGet, ringSet]

theorem ring_ringSet_other (s : State) {f i w k : Nat} (v : Word) (h : k ≠ ringKey f i w) :
    SMap.get 0 (ringSet s f i w v).ring k = SMap.get 0 s.ring k := by
  simp [ringSet, smap_get_set_other _ _ _ h]

@[simp] theorem slotRec_modFib (s : State) (f k : Nat) (g : Fibre → Fibre) : slotRec (modFib s f g) k = slotRec s k := by
  simp [slotRec]

@[simp] theorem slotRec_ringSet (s : State) (f i w k : Nat) (v : Word) : slotRec (ringSet s f i w v) k = slotRec s k := rfl

@[simp] theorem frameWord_modFib (s : State) (f k w : Nat) (g : Fibre → Fibre) : frameWord (modFib s f g) k w = frameWord s k w := by
  simp [frameWord]

@[simp] theorem fib_ringSet (s : State) (f i w k : Nat) (v : Word) : fib (ringSet s f i w v) k = fib s k := rfl

@[simp] theorem hasFib_ringSet (s : State) (f i w k : Nat) (v : Word) : hasFib (ringSet s f i w v) k = hasFib s k := rfl

theorem ringSet_onlyRegisters (s : State) (f i w : Nat) (v : Word) : OnlyRegisters s (ringSet s f i w v) := rfl

theorem frameWord_congr {s t : State} (h : t.slots = s.slots) (f w : Nat) : frameWord t f w = frameWord s f w := by
  unfold frameWord slotRec; rw [h]

theorem windowWord_congr {s t : State} (h : t.slots = s.slots) (f j : Nat) : windowWord t f j = windowWord s f j := by
  unfold windowWord slotRec; rw [h]

/-! ## Writes through a list of lanes -/

/-- The width of what a register operand holds. -/
def valueBits (wide : Bool) (r : Reg) : Nat := if wide || !(aWords r).isEmpty then 64 else 32

/-- `Wrote` over a list of lanes, with the values. -/
structure WroteL (s t : State) (L : List Nat) (r : Reg) (wide counts : Bool) (val : Nat → Nat) : Prop where
  value  : holds r = true → ∀ i ∈ L, regGet t s.cur i wide r = val i % 2 ^ valueBits wide r
  ring   : ∀ k, (∀ i ∈ L, k ∉ ringWords s i wide r) → SMap.get 0 t.ring k = SMap.get 0 s.ring k
  oregs  : ∀ k, (∀ i ∈ L, k ∉ oWords i wide r) → SMap.get 0 (me t).oregs k = SMap.get 0 (me s).oregs k
  sregs  : ∀ k, (L = [] ∨ k ∉ sWords wide r) → SMap.get 0 (me t).sregs k = SMap.get 0 (me s).sregs k
  aregs  : ∀ k, (L = [] ∨ k ∉ aWords r) → SMap.get 0 (me t).aregs k = SMap.get 0 (me s).aregs k
  lanes  : ∀ i < 32, laneAt (me t) i =
    if counts && !wide && latched r && decide (i ∈ L) then
      { laneAt (me s) i with l0 := BitVec.ofNat 32 (val i), l1 := (laneAt (me s) i).l0 }
    else laneAt (me s) i
  fibre  : hasFib t s.cur = hasFib s s.cur ∧
    me t = { me s with lanes := (me t).lanes, oregs := (me t).oregs, sregs := (me t).sregs, aregs := (me t).aregs,
                       poison := (me t).poison, dirty := (me t).dirty }
  others : OtherFibres s t s.cur
  rest   : OnlyRegisters s t

theorem WroteL.cur {s t : State} {L : List Nat} {r : Reg} {wide counts : Bool} {val : Nat → Nat} (h : WroteL s t L r wide counts val) :
    t.cur = s.cur := by rw [h.rest]

theorem WroteL.slots {s t : State} {L : List Nat} {r : Reg} {wide counts : Bool} {val : Nat → Nat} (h : WroteL s t L r wide counts val) :
    t.slots = s.slots := by rw [h.rest]

theorem WroteL.nil (s : State) (r : Reg) (wide counts : Bool) (val : Nat → Nat) : WroteL s s [] r wide counts val where
  value := by simp
  ring := by simp
  oregs := by simp
  sregs := by simp
  aregs := by simp
  lanes := by simp
  fibre := ⟨rfl, rfl⟩
  others := fun _ _ => rfl
  rest := rfl

/-- What a register operand reads depends on the words it names. -/
theorem regGet_congr {s t : State} {i : Nat} {wide : Bool} {r : Reg} (hc : t.cur = s.cur) (hs : t.slots = s.slots)
    (hl : (laneAt (me t) i).fp = (laneAt (me s) i).fp) (hr : holds r = true)
    (ring : ∀ k ∈ ringWords s i wide r, SMap.get 0 t.ring k = SMap.get 0 s.ring k)
    (oregs : ∀ k ∈ oWords i wide r, SMap.get 0 (me t).oregs k = SMap.get 0 (me s).oregs k)
    (sregs : ∀ k ∈ sWords wide r, SMap.get 0 (me t).sregs k = SMap.get 0 (me s).sregs k)
    (aregs : ∀ k ∈ aWords r, SMap.get 0 (me t).aregs k = SMap.get 0 (me s).aregs k) :
    regGet t s.cur i wide r = regGet s s.cur i wide r := by
  unfold me at *
  rw [hc] at hl oregs sregs aregs
  cases r <;> simp only [holds, Bool.false_eq_true] at hr <;>
    cases wide <;>
    simp_all [me, regGet, regGet32, frameGet, ringGet, ringWords, ringPlaces, oWords, oPlaces, sWords, aWords, words, frameWord_congr hs,
      windowWord_congr hs, Nat.add_assoc]

theorem ofNat32_toNat (v : Nat) : (BitVec.ofNat 32 v).toNat = v % 2 ^ 32 := by simp

theorem halves (v : Nat) : v % 2 ^ 32 + 2 ^ 32 * (v / 2 ^ 32 % 2 ^ 32) = v % 2 ^ 64 := by omega

theorem me_modFib {s : State} (g : Fibre → Fibre) (h : hasFib s s.cur = true) : me (modFib s s.cur g) = g (me s) := by
  unfold me; rw [modFib_cur]; exact fib_modFib_same g h

/-- A change of the current fibre that writes registers outside the register file. -/
theorem modFib_one {s : State} {i : Nat} {wide : Bool} {r : Reg} {v : Nat} (g : Fibre → Fibre) (h : hasFib s s.cur = true)
    (hv : holds r = true → regGet (modFib s s.cur g) s.cur i wide r = v % 2 ^ valueBits wide r)
    (ho : ∀ k, k ∉ oWords i wide r → SMap.get 0 (g (me s)).oregs k = SMap.get 0 (me s).oregs k)
    (hs : ∀ k, k ∉ sWords wide r → SMap.get 0 (g (me s)).sregs k = SMap.get 0 (me s).sregs k)
    (ha : ∀ k, k ∉ aWords r → SMap.get 0 (g (me s)).aregs k = SMap.get 0 (me s).aregs k)
    (hl : (g (me s)).lanes = (me s).lanes)
    (hf : g (me s) = { me s with lanes := (g (me s)).lanes, oregs := (g (me s)).oregs, sregs := (g (me s)).sregs,
                                 aregs := (g (me s)).aregs, poison := (g (me s)).poison, dirty := (g (me s)).dirty }) :
    WroteL s (modFib s s.cur g) [i] r wide false (fun _ => v) where
  value hr j hj := by simp only [List.mem_singleton] at hj; subst hj; exact hv hr
  ring k _ := by simp
  oregs k hk := by rw [me_modFib _ h]; exact ho k (hk i (by simp))
  sregs k hk := by rw [me_modFib _ h]; exact hs k (hk.resolve_left (by simp))
  aregs k hk := by rw [me_modFib _ h]; exact ha k (hk.resolve_left (by simp))
  lanes j _ := by rw [me_modFib _ h]; simp [laneAt, hl]
  fibre := ⟨by simp, by rw [me_modFib _ h]; exact hf⟩
  others := modFib_otherFibres _ _ _
  rest := OnlyFibres.onlyRegisters (modFib_onlyFibres _ _ _)

/-- Writes to the register file. -/
theorem ring_one {s t : State} {i : Nat} {wide : Bool} {r : Reg} {v : Nat}
    (hv : holds r = true → regGet t s.cur i wide r = v % 2 ^ valueBits wide r)
    (hr : ∀ k, k ∉ ringWords s i wide r → SMap.get 0 t.ring k = SMap.get 0 s.ring k)
    (ht : t = { s with ring := t.ring, ringDirty := t.ringDirty, ringPoison := t.ringPoison }) :
    WroteL s t [i] r wide false (fun _ => v) := by
  have hf : t.fibres = s.fibres := by rw [ht]
  have hc : t.cur = s.cur := by rw [ht]
  have hm : me t = me s := by unfold me fib; rw [hf, hc]
  exact {
    value := fun hh j hj => by simp only [List.mem_singleton] at hj; subst hj; exact hv hh
    ring := fun k hk => hr k (hk i (by simp))
    oregs := fun k _ => by rw [hm]
    sregs := fun k _ => by rw [hm]
    aregs := fun k _ => by rw [hm]
    lanes := fun j _ => by rw [hm]; simp
    fibre := ⟨by unfold hasFib; rw [hf], by rw [hm]⟩
    others := fun g _ => by rw [hf]
    rest := by unfold OnlyRegisters; rw [ht] }

theorem ringGet_ringSet_other (s : State) {f i w w' : Nat} (v : Word) (h : ringKey f i w' ≠ ringKey f i w) :
    ringGet (ringSet s f i w v) f i w' = ringGet s f i w' := ring_ringSet_other _ _ h

/-- A pair of words written in order reads back as a 64-bit value. -/
theorem pair_read {s : State} {f i w w' : Nat} (v : Nat) (t : State) (ht : t = ringSet (ringSet s f i w (BitVec.ofNat 32 v)) f i w' (BitVec.ofNat 32 (v / 2 ^ 32)))
    (h : ringKey f i w' ≠ ringKey f i w) :
    (ringGet t f i w).toNat + 2 ^ 32 * (ringGet t f i w').toNat = v % 2 ^ 64 := by
  rw [ht, ringGet_ringSet_same, ringGet_ringSet_other _ _ h.symm, ringGet_ringSet_same, ofNat32_toNat, ofNat32_toNat, halves]

/-- One write of one lane that the latches do not see. -/
theorem regSet_one (s : State) (i : Nat) (wide : Bool) (r : Reg) (v : Nat) (h : hasFib s s.cur = true) :
    WroteL s (regSet s s.cur i wide r v) [i] r wide false (fun _ => v) := by
  have none_ (hh : holds r = false) (ht : regSet s s.cur i wide r v = s) : WroteL s (regSet s s.cur i wide r v) [i] r wide false (fun _ => v) := by
    rw [ht]; exact ring_one (by simp [hh]) (fun _ _ => rfl) rfl
  cases r with
  | v n =>
    have hw := frameWord_succ s s.cur i ((laneAt (fib s s.cur) i).fp + n.val)
    cases wide
    · refine ring_one (fun _ => ?_) (fun k hk => ring_ringSet_other _ _ (by simpa [ringWords, ringPlaces, words, me] using hk)) rfl
      change (ringGet (ringSet s s.cur i (frameWord s s.cur ((laneAt (fib s s.cur) i).fp + n.val)) _) s.cur i _).toNat + 0 = _
      exact (congrArg BitVec.toNat (ringGet_ringSet_same ..)).trans (ofNat32_toNat v)
    · refine ring_one (fun _ => pair_read v _ rfl hw) (fun k hk => ?_) rfl
      simp only [ringWords, ringPlaces, words, if_true, List.map_cons, List.map_nil, List.mem_cons, List.not_mem_nil, or_false, not_or] at hk
      exact (ring_ringSet_other _ _ hk.2).trans (ring_ringSet_other _ _ hk.1)
  | x n =>
    have hw := ringKey_succ s.cur i (windowWord s s.cur n.val)
    cases wide
    · refine ring_one (fun _ => ?_) (fun k hk => ring_ringSet_other _ _ (by simpa [ringWords, ringPlaces, words] using hk)) rfl
      change (ringGet (ringSet s s.cur i (windowWord s s.cur n.val) _) s.cur i _).toNat + 0 = _
      exact (congrArg BitVec.toNat (ringGet_ringSet_same ..)).trans (ofNat32_toNat v)
    · refine ring_one (fun _ => pair_read v _ rfl hw) (fun k hk => ?_) rfl
      simp only [ringWords, ringPlaces, words, if_true, List.map_cons, List.map_nil, List.mem_cons, List.not_mem_nil, or_false, not_or] at hk
      exact (ring_ringSet_other _ _ hk.2).trans (ring_ringSet_other _ _ hk.1)
  | o n =>
    cases wide
    · refine modFib_one _ h (fun _ => ?_) (fun k hk => ?_) (fun _ _ => rfl) (fun _ _ => rfl) rfl rfl
      · change (SMap.get 0 (fib (modFib s s.cur _) s.cur).oregs _).toNat + 0 = _
        rw [fib_modFib_same _ h]
        simp [valueBits, aWords]
      · exact smap_get_set_other _ _ _ (by simpa [oWords, oPlaces, words] using hk)
    · change WroteL s (modFib (modFib s s.cur _) s.cur _) _ _ _ _ _
      rw [modFib_modFib]
      refine modFib_one _ h (fun _ => ?_) (fun k hk => ?_) (fun _ _ => rfl) (fun _ _ => rfl) rfl rfl
      · change (SMap.get 0 (fib (modFib s s.cur _) s.cur).oregs _).toNat + 2 ^ 32 * (SMap.get 0 (fib (modFib s s.cur _) s.cur).oregs _).toNat = _
        rw [fib_modFib_same _ h]
        simp [valueBits, smap_get_set_other]
        omega
      · simp only [oWords, oPlaces, words, if_true, List.map_cons, List.map_nil, List.mem_cons, List.not_mem_nil, or_false, not_or] at hk
        exact (smap_get_set_other _ _ _ hk.2).trans (smap_get_set_other _ _ _ hk.1)
  | s n =>
    cases wide
    · refine modFib_one _ h (fun _ => ?_) (fun _ _ => rfl) (fun k hk => ?_) (fun _ _ => rfl) rfl rfl
      · change (SMap.get 0 (fib (modFib s s.cur _) s.cur).sregs _).toNat + 0 = _
        rw [fib_modFib_same _ h]
        simp [valueBits, aWords]
      · exact smap_get_set_other _ _ _ (by simpa [sWords, words] using hk)
    · change WroteL s (modFib (modFib s s.cur _) s.cur _) _ _ _ _ _
      rw [modFib_modFib]
      refine modFib_one _ h (fun _ => ?_) (fun _ _ => rfl) (fun k hk => ?_) (fun _ _ => rfl) rfl rfl
      · change (SMap.get 0 (fib (modFib s s.cur _) s.cur).sregs _).toNat + 2 ^ 32 * (SMap.get 0 (fib (modFib s s.cur _) s.cur).sregs _).toNat = _
        rw [fib_modFib_same _ h]
        simp [valueBits, smap_get_set_other]
        omega
      · simp only [sWords, words, if_true, List.map_cons, List.map_nil, List.mem_cons, List.not_mem_nil, or_false, not_or] at hk
        exact (smap_get_set_other _ _ _ hk.2).trans (smap_get_set_other _ _ _ hk.1)
  | a n =>
    refine modFib_one _ h (fun _ => ?_) (fun _ _ => rfl) (fun _ _ => rfl) (fun k hk => ?_) rfl rfl
    · change (SMap.get 0 (fib (modFib s s.cur _) s.cur).aregs n.val).toNat = _
      rw [fib_modFib_same _ h]
      simp [valueBits, aWords]
    · exact smap_get_set_other _ _ _ (by simpa [aWords] using hk)
  | _ => exact none_ rfl (by cases wide <;> rfl)

theorem laneAt_eq {x y : Fibre} (h : x.lanes = y.lanes) (j : Nat) : laneAt x j = laneAt y j := by unfold laneAt; rw [h]

/-- A change of a fibre that keeps its registers and frame pointers keeps what registers read. -/
theorem regGet_modFib {t : State} {g : Fibre → Fibre} (h : hasFib t t.cur = true) (ho : (g (me t)).oregs = (me t).oregs)
    (hs : (g (me t)).sregs = (me t).sregs) (ha : (g (me t)).aregs = (me t).aregs) {j : Nat}
    (hl : (laneAt (g (me t)) j).fp = (laneAt (me t) j).fp) {wide : Bool} {r : Reg} (hr : holds r = true) :
    regGet (modFib t t.cur g) t.cur j wide r = regGet t t.cur j wide r := by
  refine regGet_congr (by simp) (by simp) ?_ hr (fun k _ => by simp) (fun k _ => ?_) (fun k _ => ?_) (fun k _ => ?_)
  all_goals rw [me_modFib g h]
  · exact hl
  · rw [ho]
  · rw [hs]
  · rw [ha]

/-- The change the latches of one lane see. -/
def latchLane (i : Nat) (v : Word) (x : Fibre) : Fibre :=
  modLane { x with dirty := x.dirty ||| 4, poison := latchPoison i x.poison } i fun l => { l with l0 := v, l1 := l.l0 }

theorem latchLane_oregs (i : Nat) (v : Word) (x : Fibre) : (latchLane i v x).oregs = x.oregs := by unfold latchLane modLane; rfl
theorem latchLane_sregs (i : Nat) (v : Word) (x : Fibre) : (latchLane i v x).sregs = x.sregs := by unfold latchLane modLane; rfl
theorem latchLane_aregs (i : Nat) (v : Word) (x : Fibre) : (latchLane i v x).aregs = x.aregs := by unfold latchLane modLane; rfl

theorem laneAt_latchLane (i : Nat) (v : Word) (x : Fibre) {j : Nat} (hj : j < 32) :
    laneAt (latchLane i v x) j = if j = i then { laneAt x j with l0 := v, l1 := (laneAt x j).l0 } else laneAt x j :=
  laneAt_modLane _ _ _ _ hj

theorem fp_latchLane (i : Nat) (v : Word) (x : Fibre) (j : Nat) : (laneAt (latchLane i v x) j).fp = (laneAt x j).fp := by
  by_cases hj : j < 32
  · rw [laneAt_latchLane i v x hj]; split <;> rfl
  · simp [laneAt, hj]

/-- One write of one lane. -/
theorem dstSet_one (s : State) (i : Nat) (wide : Bool) (r : Reg) (v : Nat) (h : hasFib s s.cur = true) :
    WroteL s (dstSet s s.cur i wide r v) [i] r wide true (fun _ => v) := by
  have w := regSet_one s i wide r v h
  have hc : (regSet s s.cur i wide r v).cur = s.cur := w.cur
  have h1 : hasFib (regSet s s.cur i wide r v) s.cur = true := w.fibre.1.trans h
  have plain (hl : wide = true ∨ latched r = false) (e : dstSet s s.cur i wide r v = regSet s s.cur i wide r v) :
      WroteL s (dstSet s s.cur i wide r v) [i] r wide true (fun _ => v) := by
    rw [e]
    exact { w with lanes := fun j hj => by rw [w.lanes j hj]; rcases hl with hl | hl <;> simp [hl] }
  cases wide with
  | true => exact plain (.inl rfl) rfl
  | false =>
    cases hl : latched r with
    | false => exact plain (.inr hl) (by cases r <;> first | rfl | cases hl)
    | true =>
      have e : dstSet s s.cur i false r v = modFib (regSet s s.cur i false r v) s.cur (latchLane i (BitVec.ofNat 32 v)) := by
        cases r <;> first | rfl | cases hl
      generalize regSet s s.cur i false r v = t at w hc h1 e
      rw [e]
      rw [← hc] at h1
      have hm : me (modFib t s.cur (latchLane i (BitVec.ofNat 32 v))) = latchLane i (BitVec.ofNat 32 v) (me t) := by rw [← hc]; exact me_modFib _ h1
      refine { value := ?_, ring := ?_, oregs := ?_, sregs := ?_, aregs := ?_, lanes := ?_, fibre := ?_, others := ?_, rest := ?_ }
      · intro hr j hj
        rw [← w.value hr j hj, ← hc]
        exact regGet_modFib h1 (latchLane_oregs ..) (latchLane_sregs ..) (latchLane_aregs ..) (fp_latchLane ..) hr
      · intro k hk; rw [modFib_ring]; exact w.ring k hk
      · intro k hk; rw [hm, latchLane_oregs]; exact w.oregs k hk
      · intro k hk; rw [hm, latchLane_sregs]; exact w.sregs k hk
      · intro k hk; rw [hm, latchLane_aregs]; exact w.aregs k hk
      · intro j hj
        rw [hm, laneAt_latchLane _ _ _ hj, w.lanes j hj]
        by_cases hji : j = i <;> simp [hji, hl]
      · refine ⟨by rw [hasFib_modFib]; exact w.fibre.1, ?_⟩
        rw [hm]
        have hf := w.fibre.2
        generalize me t = y at hf
        rw [hf]
        unfold latchLane modLane
        rfl
      · exact OtherFibres.trans w.others (modFib_otherFibres _ _ _)
      · exact OnlyRegisters.trans w.rest (OnlyFibres.onlyRegisters (modFib_onlyFibres _ _ _))

/-- The words of a lane stay the same under writes through another register. -/
theorem ringWords_congr {s t : State} (hc : t.cur = s.cur) (hs : t.slots = s.slots) (j : Nat) (hl : (laneAt (me t) j).fp = (laneAt (me s) j).fp)
    (wide : Bool) (r : Reg) : ringWords t j wide r = ringWords s j wide r := by
  cases r <;> simp only [ringWords, ringPlaces, hc, hl, frameWord_congr hs, windowWord_congr hs]

theorem WroteL.fp {s t : State} {L : List Nat} {r : Reg} {wide counts : Bool} {val : Nat → Nat} (h : WroteL s t L r wide counts val) (j : Nat) :
    (laneAt (me t) j).fp = (laneAt (me s) j).fp := by
  by_cases hj : j < 32
  · rw [h.lanes j hj]; split <;> rfl
  · simp [laneAt, hj]

/-- Writes to one more lane. -/
theorem WroteL.cons {s t u : State} {i : Nat} {L : List Nat} {r : Reg} {wide counts : Bool} {val : Nat → Nat}
    (h : WroteL s t [i] r wide counts fun _ => val i) (k : WroteL t u L r wide counts val) (hi : i ∉ L) (hu : regUniform r = true → L = []) :
    WroteL s u (i :: L) r wide counts val := by
  have hc := h.cur
  have hw := ringWords_congr hc h.slots
  refine { value := ?_, ring := ?_, oregs := ?_, sregs := ?_, aregs := ?_, lanes := ?_, fibre := ?_, others := ?_, rest := ?_ }
  · intro hr j hj
    rcases List.mem_cons.1 hj with rfl | hj
    · refine Eq.trans ?_ (h.value hr j (by simp))
      rw [← hc]
      refine regGet_congr k.cur k.slots (k.fp j) hr (fun w hm => k.ring w fun l hl hm' => ?_) (fun w hm => k.oregs w fun l hl hm' => ?_)
        (fun w hm => k.sregs w ?_) (fun w hm => k.aregs w ?_)
      · have hjl : j ≠ l := fun e => hi (e ▸ hl)
        cases r <;> simp only [ringWords, ringPlaces, List.not_mem_nil, List.mem_map] at hm hm' <;>
          (obtain ⟨a, -, rfl⟩ := hm; obtain ⟨b, -, hb⟩ := hm'; exact hjl (ringKey_lane hb).symm)
      · have hjl : j ≠ l := fun e => hi (e ▸ hl)
        cases r <;> simp only [oWords, oPlaces, List.not_mem_nil, List.mem_map] at hm hm'
        obtain ⟨a, ha, rfl⟩ := hm; obtain ⟨b, hb, hb'⟩ := hm'
        have : a ≤ 1 ∧ b ≤ 1 := by cases wide <;> simp [words] at ha hb <;> omega
        omega
      · cases r <;> simp only [sWords, List.not_mem_nil] at hm
        exact .inl (hu rfl)
      · cases r <;> simp only [aWords, List.not_mem_nil] at hm
        exact .inl (hu rfl)
    · rw [← hc]; exact k.value hr j hj
  · intro w hm
    exact (k.ring w fun l hl => by rw [hw l (h.fp l)]; exact hm l (by simp [hl])).trans (h.ring w fun l hl => hm l (by simp_all))
  · intro w hm
    exact (k.oregs w fun l hl => hm l (by simp [hl])).trans (h.oregs w fun l hl => hm l (by simp_all))
  · intro w hm
    exact (k.sregs w (hm.elim (by simp) .inr)).trans (h.sregs w (hm.elim (by simp) .inr))
  · intro w hm
    exact (k.aregs w (hm.elim (by simp) .inr)).trans (h.aregs w (hm.elim (by simp) .inr))
  · intro j hj
    rw [k.lanes j hj, h.lanes j hj]
    by_cases h1 : j = i
    · subst h1; simp [hi]
    · simp [h1]
  · exact ⟨by rw [← h.fibre.1, ← hc]; exact k.fibre.1, by rw [k.fibre.2, h.fibre.2]⟩
  · exact OtherFibres.trans h.others (hc ▸ k.others)
  · exact OnlyRegisters.trans h.rest k.rest

/-- Writes to a list of lanes. -/
theorem writes_fold {val : Nat → Nat} {r : Reg} {wide counts : Bool} {put : State → Nat → State}
    (one : ∀ s i, hasFib s s.cur = true → WroteL s (put s i) [i] r wide counts fun _ => val i) (L : List Nat) :
    ∀ s, hasFib s s.cur = true → L.Nodup → (regUniform r = true → L.length ≤ 1) → WroteL s (L.foldl put s) L r wide counts val := by
  induction L with
  | nil => intro s _ _ _; exact WroteL.nil s r wide counts val
  | cons i L ih =>
    intro s h hn hu
    have w := one s i h
    have hL : regUniform r = true → L = [] := fun e => List.length_eq_zero_iff.1 (by have := hu e; simp at this; simpa using this)
    exact WroteL.cons w (ih _ (by rw [w.cur, w.fibre.1]; exact h) (List.nodup_cons.1 hn).2 fun e => by simp [hL e]) (List.nodup_cons.1 hn).1 hL

theorem dstLanes_uniform (m : LaneMask) {r : Reg} (h : regUniform r = true) : (dstLanes m r).length ≤ 1 := by
  simp [dstLanes, h]

/-- Writing through a list of lanes, in the words of the statements. -/
theorem WroteL.wrote {s t : State} {m : LaneMask} {r : Reg} {wide counts : Bool} {val : Nat → Nat} {P : Nat → Nat → Prop}
    (w : WroteL s t (dstLanes m r) r wide counts val) (hP : ∀ i ∈ dstLanes m r, holds r = true → P i (val i % 2 ^ valueBits wide r)) :
    Wrote s t m r wide counts P where
  value i hi hr := by rw [w.value hr i hi]; exact hP i hi hr
  ring := w.ring
  oregs := w.oregs
  sregs k hk := w.sregs k (hk.imp List.isEmpty_iff.1 id)
  aregs k hk := w.aregs k (hk.imp List.isEmpty_iff.1 id)
  lanes i hi := by
    rw [w.lanes i hi]
    cases hc : counts && !wide && latched r with
    | false => simp
    | true =>
      simp only [Bool.and_eq_true, Bool.not_eq_true'] at hc
      have hd : dstLanes m r = lanesOf m := by cases r <;> first | rfl | (exact absurd hc.2 (by simp [latched]))
      have hin : decide (i ∈ dstLanes m r) = m.getLsbD i := by rw [hd]; simp [hi]
      rw [hin]
      by_cases hb : m.getLsbD i = true
      · have hv := w.value (by cases r <;> first | rfl | exact absurd hc.2 (by simp [latched])) i (by rw [hd]; simp [hi, hb])
        rw [hc.1.2] at hv
        rw [hv]
        have : valueBits false r = 32 := by cases r <;> first | rfl | exact absurd hc.2 (by simp [latched])
        have hm : BitVec.ofNat 32 (val i % 2 ^ 32) = BitVec.ofNat 32 (val i) := by apply BitVec.eq_of_toNat_eq; simp
        simp only [hb, this, hm, Bool.and_true, if_true]
      · simp [hb]
  fibre := w.fibre
  others := w.others
  rest := w.rest

/-- What `writeOpnd` does. -/
theorem writeOpnd_wrote {s : State} {m : LaneMask} {r : Reg} {wide neg abs : Bool} {val : Nat → Nat} {P : Nat → Nat → Prop}
    (h : hasFib s s.cur = true) (hP : ∀ i ∈ dstLanes m r, holds r = true → P i (val i % 2 ^ valueBits wide r)) :
    Wrote s (writeOpnd s m (.reg r neg abs) wide val) m r wide true P :=
  WroteL.wrote (writes_fold (put := fun t i => dstSet t t.cur i wide r (val i)) (fun t i ht => dstSet_one t i wide r (val i) ht) _ s h
    (nodup_dstLanes m r) (dstLanes_uniform m)) hP

/-- What `writeQuiet` does. -/
theorem writeQuiet_wrote {s : State} {m : LaneMask} {r : Reg} {wide neg abs : Bool} {val : Nat → Nat} {P : Nat → Nat → Prop}
    (h : hasFib s s.cur = true) (hP : ∀ i ∈ dstLanes m r, holds r = true → P i (val i % 2 ^ valueBits wide r)) :
    Wrote s (writeQuiet s m (.reg r neg abs) wide val) m r wide false P :=
  WroteL.wrote (writes_fold (put := fun t i => regSet t t.cur i wide r (val i)) (fun t i ht => regSet_one t i wide r (val i) ht) _ s h
    (nodup_dstLanes m r) (dstLanes_uniform m)) hP

theorem Wrote.hasFib {s t : State} {m : LaneMask} {r : Reg} {wide counts : Bool} {P : Nat → Nat → Prop} (w : Wrote s t m r wide counts P)
    (h : hasFib s s.cur = true) : hasFib t t.cur = true := by
  have : t.cur = s.cur := by rw [w.rest]
  rw [this, w.fibre.1, h]

/-- What an instruction of one result per lane does. -/
theorem execMap_spec {a : Args} {s : State} {r : Reg} {wide neg abs : Bool} {val : Nat → Nat} {P : Nat → Nat → Prop}
    (h : hasFib s s.cur = true) (hd : a.d.opnd = .reg r neg abs)
    (hP : ∀ i ∈ dstLanes (active s a) r, holds r = true → P i (val i % 2 ^ valueBits wide r)) :
    ∃ u t, execMap a wide val s = .next t ∧ Wrote s u (active s a) r wide true P ∧ WentOn s u t := by
  have w := writeOpnd_wrote (neg := neg) (abs := abs) h hP
  refine ⟨writeOpnd s (active s a) a.d.opnd wide val, _, rfl, by rw [hd]; exact w, ?_⟩
  rw [hd]
  exact goOn_wentOn (by rw [w.rest]) (by rw [w.rest]) (by rw [w.rest]) (Wrote.hasFib w h)

/-! ## Predicates -/

/-- The predicate writes of a list of lanes. -/
structure PredsL (s t : State) (L : List Nat) (r : Reg) (val : Nat → Bool) : Prop where
  bits   : ∀ n : Fin 7, ∀ i < 32, (SMap.get 0 (me t).preds n.val).getLsbD i =
    if r = .p n ∧ i ∈ L then val i else (SMap.get 0 (me s).preds n.val).getLsbD i
  fibre  : hasFib t s.cur = hasFib s s.cur ∧
    me t = { me s with preds := (me t).preds, poison := (me t).poison, dirty := (me t).dirty }
  others : OtherFibres s t s.cur
  rest   : OnlyFibres s t

/-- One bit of a mask changed. -/
theorem getLsbD_setBit (m : LaneMask) {i j : Nat} (hj : j < 32) (hi : i < 32) (b : Bool) :
    (if b then m ||| BitVec.ofNat 32 (2 ^ i) else m &&& ~~~ (BitVec.ofNat 32 (2 ^ i))).getLsbD j = if j = i then b else m.getLsbD j := by
  have hb : (BitVec.ofNat 32 (2 ^ i)).getLsbD j = decide (i = j) := by rw [BitVec.getLsbD_ofNat, Nat.testBit_two_pow]; simp [hj]
  by_cases h : j = i
  · subst h
    cases b
    · simp only [Bool.false_eq_true, if_false, BitVec.getLsbD_and, BitVec.getLsbD_not, hb]; simp
    · simp only [if_true, BitVec.getLsbD_or, hb]; simp
  · have h' : i ≠ j := fun e => h e.symm
    cases b
    · simp only [Bool.false_eq_true, if_false, BitVec.getLsbD_and, BitVec.getLsbD_not, hb]; simp [h, h', hj]
    · simp only [if_true, BitVec.getLsbD_or, hb]; simp [h, h']

theorem predSet_one (s : State) {i : Nat} (r : Reg) (b : Bool) (h : hasFib s s.cur = true) (hi : i < 32) :
    PredsL s (predSet s s.cur i r b) [i] r (fun _ => b) := by
  cases r with
  | p n =>
    refine { bits := fun k j hj => ?_, fibre := ⟨hasFib_modFib .., ?_⟩, others := modFib_otherFibres _ _ _, rest := modFib_onlyFibres _ _ _ }
    · unfold predSet; simp only; rw [me_modFib _ h]
      by_cases hk : k = n
      · subst hk
        rw [smap_get_set_same, getLsbD_setBit _ hj hi]
        simp
      · have hv : k.val ≠ n.val := fun e => hk (Fin.ext e)
        rw [smap_get_set_other _ _ _ hv]
        simp [Ne.symm hk]
    · unfold predSet; simp only; rw [me_modFib _ h]
  | _ => exact { bits := by simp [predSet], fibre := ⟨rfl, rfl⟩, others := fun _ _ => rfl, rest := rfl }

theorem PredsL.cons {s t u : State} {i : Nat} {L : List Nat} {r : Reg} {val : Nat → Bool} (h : PredsL s t [i] r fun _ => val i)
    (k : PredsL t u L r val) (hi : i ∉ L) : PredsL s u (i :: L) r val := by
  have hc : t.cur = s.cur := by rw [h.rest]
  refine { bits := fun n j hj => ?_, fibre := ⟨by rw [← h.fibre.1, ← hc]; exact k.fibre.1, by rw [k.fibre.2, h.fibre.2]⟩,
           others := OtherFibres.trans h.others (hc ▸ k.others), rest := OnlyFibres.trans h.rest k.rest }
  rw [k.bits n j hj, h.bits n j hj]
  by_cases h1 : j = i
  · subst h1; simp [hi]
  · simp [h1]

theorem preds_fold {val : Nat → Bool} {r : Reg} (L : List Nat) : ∀ s, hasFib s s.cur = true → (∀ i ∈ L, i < 32) → L.Nodup →
    PredsL s (L.foldl (fun t i => predSet t t.cur i r (val i)) s) L r val := by
  induction L with
  | nil => intro s _ _ _; exact { bits := by simp, fibre := ⟨rfl, rfl⟩, others := fun _ _ => rfl, rest := rfl }
  | cons i L ih =>
    intro s h h32 hn
    have w := predSet_one s r (val i) h (h32 i (by simp))
    have hc : (predSet s s.cur i r (val i)).cur = s.cur := by rw [w.rest]
    exact PredsL.cons w (ih _ (by rw [hc, w.fibre.1]; exact h) (fun j hj => h32 j (by simp [hj])) (List.nodup_cons.1 hn).2)
      (List.nodup_cons.1 hn).1

/-- What `writePred` does. -/
theorem writePred_wrote {s : State} {m : LaneMask} {r : Reg} {neg abs : Bool} {val : Nat → Bool} (h : hasFib s s.cur = true) :
    WrotePred s (writePred s m (.reg r neg abs) val) m r val := by
  have w := preds_fold (val := val) (r := r) (lanesOf m) s h (fun i hi => (mem_lanesOf.1 hi).1) (nodup_lanesOf m)
  exact { bits := fun n i hi => by rw [writePred]; rw [w.bits n i hi]; simp [hi], fibre := w.fibre, others := w.others, rest := w.rest }

theorem WrotePred.hasFib {s t : State} {m : LaneMask} {r : Reg} {P : Nat → Bool} (w : WrotePred s t m r P)
    (h : hasFib s s.cur = true) : hasFib t t.cur = true := by
  have : t.cur = s.cur := by rw [w.rest]
  rw [this, w.fibre.1, h]

/-- What an instruction of one predicate bit per lane does. -/
theorem execPred_spec {a : Args} {s : State} {r : Reg} {neg abs : Bool} {val : Nat → Bool}
    (h : hasFib s s.cur = true) (hd : a.d.opnd = .reg r neg abs) :
    ∃ u t, execPred a val s = .next t ∧ WrotePred s u (active s a) r val ∧ WentOn s u t := by
  have w := writePred_wrote (m := active s a) (r := r) (neg := neg) (abs := abs) (val := val) h
  refine ⟨writePred s (active s a) a.d.opnd val, _, rfl, by rw [hd]; exact w, ?_⟩
  rw [hd]
  exact goOn_wentOn (by rw [w.rest]) (by rw [w.rest]) (by rw [w.rest]) (WrotePred.hasFib w h)

end Sys2Proof.Laws
end

