-- ==== Sys2Proof/Tests/Slice0.lean ====
section
/-! SUPPORT. Tests: words of the spec and what they decode to, ill-formed terms, single steps, and a witness for the hypotheses of
every statement. -/

set_option Elab.async false
set_option linter.unusedVariables false

namespace Sys2Proof.Tests
open Sys2Proof Sys2Proof.Machine Sys2Proof.Claims

/-! ## Decoding -/

/-- A register without modifiers. -/
abbrev rg (r : Reg) : Opnd := .reg r false false
def base : Args :=
  { ty := .b32, ga := ⟨false, 7⟩, gb := ⟨false, 7⟩, gc := false, sos := false, yld := false, hint := 0, ch := 0, fmt := .R, d := ⟨.none, false, 0⟩,
    s0 := .none, s1 := .none, s2 := .none, s3 := .none, imm := 0, off := 0, ord := 0, scope := 0, space := 0, aux := 0, boff := 0, bh := 0, sub := 0 }
def reads (p : IWord × Instr) : Bool := (match decode true p.1 with | .ok i => i == p.2 | .error _ => false) && wfInstr p.2 && encode p.2 == p.1

theorem test_decode_control : [
    (parcels 0x001CC000 0x00000000 0x00000000, Instr.nop { base with ga := ⟨false, 3⟩ }),
    (parcels 0xC01E4001 0x0C000000 0x04000000, Instr.bra { base with ga := ⟨true, 1⟩, fmt := .X, boff := 3, bh := 1 }),
    (parcels 0xC01DC002 0x00040000 0x08000000, Instr.brx { base with fmt := .X, s0 := rg (.v 4), bh := 2 }),
    (parcels 0xC01DC003 0x1400000C 0x00000000, Instr.call { base with fmt := .X, aux := 12, boff := 5 }),
    (parcels 0xC01DC004 0x0083C010 0x00000000, Instr.callx { base with fmt := .X, s0 := rg (.a 3), aux := 16 }),
    (parcels 0xC01C8005 0x00000000 0x00000000, Instr.ret { base with ga := ⟨false, 2⟩, fmt := .X }),
    (parcels 0x0031C006 0x00000000 0x00000000, Instr.exit { base with gb := ⟨true, 4⟩ }),
    (parcels 0x001DC007 0x00000000 0x00000000, Instr.yield base),
    (parcels 0x001DC008 0x00000000 0x00000000, Instr.regang base),
    (parcels 0x401DC009 0x94000000 0x00000000, Instr.trap { base with fmt := .I, imm := 0x25 }),
    (parcels 0x401C400A 0x1C000000 0x00000000, Instr.bkpt { base with ga := ⟨false, 1⟩, fmt := .I, imm := 0x7 }),
    (parcels 0xC01DC00B 0x0006C003 0x10000000, Instr.ipref { base with fmt := .X, s0 := rg (.s 6), aux := 3, sub := 1 }),
    (parcels 0x001DC00C 0x00000000 0x00000000, Instr.ifence base)
    ].all reads = true := by decide +kernel

theorem test_decode_integer : [
    (parcels 0x001DC480 0x30020404 0x00000010, Instr.iadd { base with ty := .s32, d := ⟨rg (.v 1), true, 0⟩, s0 := rg (.v 2), s1 := .reg (.v 3) true false }),
    (parcels 0x001DD081 0x4C82C207 0x00000000, Instr.isub { base with ty := .n64, d := ⟨rg (.a 1), false, 0⟩, s0 := rg (.a 2), s1 := rg (.s 4) }),
    (parcels 0x401DC882 0x2402400C 0x00000000, Instr.imul { base with ty := .n32, fmt := .I, d := ⟨rg (.v 3), false, 0⟩, s0 := rg (.o 2), imm := 0x9 }),
    (parcels 0x001DC483 0x30420104 0x00020400, Instr.imad { base with ty := .s32, d := ⟨rg (.x 1), false, 0⟩, s0 := rg (.x 2), s1 := rg (.v 3), s2 := .reg (.v 4) false true }),
    (parcels 0x001DCC84 0x60040008 0x00000000, Instr.imulhi { base with ty := .s64, d := ⟨rg (.v 2), false, 0⟩, s0 := rg (.v 4), s1 := rg (.v 6) }),
    (parcels 0x001DC485 0x30020004 0x00400000, Instr.idiv { base with ty := .s32, d := ⟨rg (.v 1), false, 0⟩, s0 := rg (.v 2), s1 := rg (.v 3), s3 := rg (.v 4) }),
    (parcels 0x001DC886 0x08020004 0x00000000, Instr.imin { base with ty := .n32, d := ⟨rg (.v 1), false, 0⟩, s0 := rg (.v 2), s1 := rg (.l 0) }),
    (parcels 0x001DCC87 0xC00A0020 0x00000000, Instr.imax { base with ty := .s64, d := ⟨rg (.v 8), false, 0⟩, s0 := rg (.v 10), s1 := rg (.v 12) }),
    (parcels 0x001DC488 0x00020404 0x00000000, Instr.iabs { base with ty := .s32, d := ⟨rg (.v 1), true, 0⟩, s0 := rg (.v 2) })
    ].all reads = true := by decide +kernel

theorem test_decode_logic : [
    (parcels 0x001DC089 0x30020004 0x00000000, Instr.and { base with d := ⟨rg (.v 1), false, 0⟩, s0 := rg (.v 2), s1 := rg (.v 3) }),
    (parcels 0x401DC08A 0x00020004 0x03FC03FC, Instr.or { base with fmt := .I, d := ⟨rg (.v 1), false, 0⟩, s0 := rg (.v 2), imm := 0xFF00FF00 }),
    (parcels 0x001DF88B 0xFC040008 0x0000000F, Instr.xor { base with ty := .b64, d := ⟨rg (.v 2), false, 0⟩, s0 := rg (.v 4), s1 := rg .zero }),
    (parcels 0x001DC08C 0x30020004 0x0E800400, Instr.lop3 { base with d := ⟨rg (.v 1), false, 0⟩, s0 := rg (.v 2), s1 := rg (.v 3), s2 := rg (.v 4), s3 := .code 232 }),
    (parcels 0x001DC48D 0x30020404 0x00000000, Instr.shl { base with ty := .s32, d := ⟨rg (.v 1), true, 0⟩, s0 := rg (.v 2), s1 := rg (.v 3) }),
    (parcels 0x401DC08E 0x10020004 0x00000000, Instr.shr { base with fmt := .I, d := ⟨rg (.v 1), false, 0⟩, s0 := rg (.v 2), imm := 0x4 }),
    (parcels 0x001DCC8F 0x70040008 0x00000000, Instr.sar { base with ty := .s64, d := ⟨rg (.v 2), false, 0⟩, s0 := rg (.v 4), s1 := rg (.v 7) }),
    (parcels 0x001DC090 0x30020004 0x00100400, Instr.shf { base with d := ⟨rg (.v 1), false, 0⟩, s0 := rg (.v 2), s1 := rg (.v 3), s2 := rg (.v 4), s3 := .code 1 }),
    (parcels 0x001DC491 0x30020004 0x00000400, Instr.bfe { base with ty := .s32, d := ⟨rg (.v 1), false, 0⟩, s0 := rg (.v 2), s1 := rg (.v 3), s2 := rg (.v 4) }),
    (parcels 0x001DC092 0x30020004 0x00500400, Instr.bfi { base with d := ⟨rg (.v 1), false, 0⟩, s0 := rg (.v 2), s1 := rg (.v 3), s2 := rg (.v 4), s3 := rg (.v 5) }),
    (parcels 0x001DF893 0x00020004 0x00000000, Instr.popc { base with ty := .b64, d := ⟨rg (.v 1), false, 0⟩, s0 := rg (.v 2) }),
    (parcels 0x001DC094 0x01020004 0x00000000, Instr.clz { base with d := ⟨rg (.v 1), false, 0⟩, s0 := .reg (.v 2) true false }),
    (parcels 0x001DC095 0x00020004 0x00000000, Instr.brev { base with d := ⟨rg (.v 1), false, 0⟩, s0 := rg (.v 2) })
    ].all reads = true := by decide +kernel

theorem test_decode_select : [
    (parcels 0x441DC496 0x28020307 0x00000000, Instr.isetp { base with ty := .s32, hint := 2, fmt := .I, d := ⟨rg (.p 1), false, 0⟩, s0 := rg (.v 2), imm := 0xA }),
    (parcels 0x001DC097 0x30020004 0x0001C4C0, Instr.sel { base with d := ⟨rg (.v 1), false, 0⟩, s0 := rg (.v 2), s1 := rg (.v 3), s2 := .reg (.p 4) true false }),
    (parcels 0x001DF898 0x0008C20B 0x00000000, Instr.mov { base with ty := .b64, d := ⟨rg (.a 2), false, 0⟩, s0 := rg (.s 8) }),
    (parcels 0x401DCC99 0xFC000008 0x03FFFFFF, Instr.movi { base with ty := .s64, fmt := .I, d := ⟨rg (.v 2), false, 0⟩, imm := 0xFFFFFFFF }),
    (parcels 0x001DC89A 0x60040008 0x00000300, Instr.lea { base with ty := .n32, d := ⟨rg (.v 2), false, 0⟩, s0 := rg (.v 4), s1 := rg (.v 6), s2 := .code 3 }),
    (parcels 0x001DFC9B 0x2CC1C303 0x0800C7DC, Instr.plop { base with ty := .pred, d := ⟨rg (.p 0), false, 0⟩, s0 := rg (.p 1), s1 := .reg (.p 2) true false, s2 := rg .pt, s3 := .code 128 }),
    (parcels 0x001DC09C 0x00000004 0x00000000, Instr.p2s { base with d := ⟨rg (.v 1), false, 0⟩ }),
    (parcels 0x001DC09D 0x50010000 0x00000005, Instr.s2p { base with s0 := rg (.v 1), s1 := .code 85 }),
    (parcels 0x401DC09E 0x54020004 0x0000000C, Instr.shfl { base with fmt := .I, d := ⟨rg (.v 1), false, 0⟩, s0 := rg (.v 2), imm := 0x315 }),
    (parcels 0x001DC09F 0x30020004 0x00000000, Instr.lanewr { base with d := ⟨rg (.v 1), false, 0⟩, s0 := rg (.v 2), s1 := rg (.v 3) }),
    (parcels 0x001DC0A0 0x20C3C017 0x00000000, Instr.vote { base with d := ⟨rg (.s 5), false, 0⟩, s0 := rg (.p 3), s1 := .code 2 }),
    (parcels 0x001DC4A1 0x80010018 0x00000000, Instr.redux { base with ty := .s32, d := ⟨rg (.v 6), false, 0⟩, s0 := rg (.v 1), s1 := .code 8 })
    ].all reads = true := by decide +kernel

theorem test_decode_float : [
    (parcels 0x001DD500 0x32022C04 0x00000010, Instr.fadd { base with ty := .f32, d := ⟨rg (.v 1), true, 5⟩, s0 := .reg (.v 2) false true, s1 := .reg (.v 3) true false }),
    (parcels 0x401DDD01 0x00020004 0x000000F0, Instr.fmul { base with ty := .f16, fmt := .I, d := ⟨rg (.v 1), false, 0⟩, s0 := rg (.v 2), imm := 0x3C00 }),
    (parcels 0x001DD902 0x60040008 0x00000800, Instr.ffma { base with ty := .f64, d := ⟨rg (.v 2), false, 0⟩, s0 := rg (.v 4), s1 := rg (.v 6), s2 := rg (.v 8) }),
    (parcels 0x001DE103 0x30020004 0x00000000, Instr.fmin { base with ty := .bf16, d := ⟨rg (.v 1), false, 0⟩, s0 := rg (.v 2), s1 := rg (.v 3) }),
    (parcels 0x001DD504 0x30020404 0x00000000, Instr.fmax { base with ty := .f32, d := ⟨rg (.v 1), true, 0⟩, s0 := rg (.v 2), s1 := rg (.v 3) }),
    (parcels 0x001DDD20 0x30021004 0x00000000, Instr.faddPk { base with ty := .f16, d := ⟨rg (.v 1), false, 2⟩, s0 := rg (.v 2), s1 := rg (.v 3) }),
    (parcels 0x001DE121 0x30020004 0x00000000, Instr.fmulPk { base with ty := .bf16, d := ⟨rg (.v 1), false, 0⟩, s0 := rg (.v 2), s1 := rg (.v 3) }),
    (parcels 0x001DDD22 0x30020004 0x00000400, Instr.ffmaPk { base with ty := .f16, d := ⟨rg (.v 1), false, 0⟩, s0 := rg (.v 2), s1 := rg (.v 3), s2 := rg (.v 4) }),
    (parcels 0x001DE123 0x30020004 0x00000000, Instr.fminPk { base with ty := .bf16, d := ⟨rg (.v 1), false, 0⟩, s0 := rg (.v 2), s1 := rg (.v 3) }),
    (parcels 0x001DDD24 0x30020004 0x00000000, Instr.fmaxPk { base with ty := .f16, d := ⟨rg (.v 1), false, 0⟩, s0 := rg (.v 2), s1 := rg (.v 3) }),
    (parcels 0x001DD505 0x30020317 0x00000400, Instr.fsetp { base with ty := .f32, d := ⟨rg (.p 5), false, 0⟩, s0 := rg (.v 2), s1 := rg (.v 3), s2 := .code 4 }),
    (parcels 0x001DF506 0x50020004 0x00400301, Instr.fcvt { base with ty := .b8, d := ⟨rg (.v 1), false, 0⟩, s0 := rg (.v 2), s1 := .code 21, s2 := .code 3, s3 := rg (.v 4) }),
    (parcels 0x001DD507 0x40020004 0x00000000, Instr.frnd { base with ty := .f32, d := ⟨rg (.v 1), false, 0⟩, s0 := rg (.v 2), s1 := .code 4 }),
    (parcels 0x001DF508 0x00020004 0x00000200, Instr.fclass { base with ty := .b8, d := ⟨rg (.v 1), false, 0⟩, s0 := rg (.v 2), s2 := .code 2 }),
    (parcels 0x001DD909 0x00020020 0x00000000, Instr.rcp { base with ty := .f64, d := ⟨rg (.v 8), false, 0⟩, s0 := rg (.v 2) }),
    (parcels 0x001DD50A 0x00020004 0x00000000, Instr.rsq { base with ty := .f32, d := ⟨rg (.v 1), false, 0⟩, s0 := rg (.v 2) }),
    (parcels 0x001DD50B 0x00020004 0x00000000, Instr.sqrt { base with ty := .f32, d := ⟨rg (.v 1), false, 0⟩, s0 := rg (.v 2) }),
    (parcels 0x001DD50C 0x00020004 0x00000000, Instr.ex2 { base with ty := .f32, d := ⟨rg (.v 1), false, 0⟩, s0 := rg (.v 2) }),
    (parcels 0x001DD50D 0x02020004 0x00000000, Instr.lg2 { base with ty := .f32, d := ⟨rg (.v 1), false, 0⟩, s0 := .reg (.v 2) false true }),
    (parcels 0x001DD50E 0x00020004 0x00000000, Instr.sin { base with ty := .f32, d := ⟨rg (.v 1), false, 0⟩, s0 := rg (.v 2) }),
    (parcels 0x001DD50F 0x00020004 0x00000000, Instr.cos { base with ty := .f32, d := ⟨rg (.v 1), false, 0⟩, s0 := rg (.v 2) }),
    (parcels 0x001DD510 0x00020404 0x00000000, Instr.tanh { base with ty := .f32, d := ⟨rg (.v 1), true, 0⟩, s0 := rg (.v 2) })
    ].all reads = true := by decide +kernel

theorem test_decode_memory : [
    (parcels 0xA01DED80 0x00020018 0x0B7FFF00, Instr.ld { base with ty := .s8, ch := 2, fmt := .M, d := ⟨rg (.v 6), false, 0⟩, s0 := rg (.v 2), off := 65532, ord := 1, scope := 3, space := 1 }),
    (parcels 0x801DE981 0x50020000 0x10000200, Instr.st { base with ty := .n16, fmt := .M, s0 := rg (.v 2), s1 := rg (.v 5), off := 8, space := 2 }),
    (parcels 0x801DC182 0x00020011 0x10000000, Instr.ldx { base with fmt := .M, d := ⟨rg (.o 4), false, 0⟩, s0 := rg (.v 2), space := 2 }),
    (parcels 0x801DF983 0x80020000 0x00000000, Instr.stx { base with ty := .b64, fmt := .M, s0 := rg (.v 2), s1 := rg (.v 8) }),
    (parcels 0x801DD584 0x40020404 0x00800000, Instr.atomAdd { base with ty := .f32, fmt := .M, d := ⟨rg (.v 1), true, 0⟩, s0 := rg (.v 2), s1 := rg (.v 4), ord := 2 }),
    (parcels 0x801DC585 0x40020004 0x00000000, Instr.atomMin { base with ty := .s32, fmt := .M, d := ⟨rg (.v 1), false, 0⟩, s0 := rg (.v 2), s1 := rg (.v 4) }),
    (parcels 0x801DD186 0x60040008 0x00000000, Instr.atomMax { base with ty := .n64, fmt := .M, d := ⟨rg (.v 2), false, 0⟩, s0 := rg (.v 4), s1 := rg (.v 6) }),
    (parcels 0x801DC187 0x400203FF 0x00000000, Instr.atomAnd { base with fmt := .M, d := ⟨rg .zero, false, 0⟩, s0 := rg (.v 2), s1 := rg (.v 4) }),
    (parcels 0x801DC188 0x40020004 0x28000000, Instr.atomOr { base with fmt := .M, d := ⟨rg (.v 1), false, 0⟩, s0 := rg (.v 2), s1 := rg (.v 4), space := 5 }),
    (parcels 0x801DC189 0x40020004 0x00000000, Instr.atomXor { base with fmt := .M, d := ⟨rg (.v 1), false, 0⟩, s0 := rg (.v 2), s1 := rg (.v 4) }),
    (parcels 0x801DF98A 0x60040008 0x00000000, Instr.atomExch { base with ty := .b64, fmt := .M, d := ⟨rg (.v 2), false, 0⟩, s0 := rg (.v 4), s1 := rg (.v 6) }),
    (parcels 0x801DC18B 0x40020004 0x05000000, Instr.acas { base with fmt := .M, d := ⟨rg (.v 1), false, 0⟩, s0 := rg (.v 2), s1 := rg (.v 4), scope := 5 }),
    (parcels 0x801DC98C 0x40020000 0x18000000, Instr.redAdd { base with ty := .n32, fmt := .M, s0 := rg (.v 2), s1 := rg (.v 4), space := 3 }),
    (parcels 0x801DCD8D 0x40020000 0x00000000, Instr.redMin { base with ty := .s64, fmt := .M, s0 := rg (.v 2), s1 := rg (.v 4) }),
    (parcels 0x801DD58E 0x40020000 0x00000000, Instr.redMax { base with ty := .f32, fmt := .M, s0 := rg (.v 2), s1 := rg (.v 4) }),
    (parcels 0x801DC18F 0x40020000 0x00000000, Instr.redAnd { base with fmt := .M, s0 := rg (.v 2), s1 := rg (.v 4) }),
    (parcels 0x801DC190 0x40020000 0x00400000, Instr.redOr { base with fmt := .M, s0 := rg (.v 2), s1 := rg (.v 4), ord := 1 }),
    (parcels 0x801DC191 0x40020000 0x00000000, Instr.redXor { base with fmt := .M, s0 := rg (.v 2), s1 := rg (.v 4) }),
    (parcels 0x801DC192 0x00000000 0x06C00000, Instr.fence { base with fmt := .M, ord := 3, scope := 6 }),
    (parcels 0x801DC193 0x4002030B 0x00400000, Instr.waita { base with fmt := .M, d := ⟨rg (.p 2), false, 0⟩, s0 := rg (.v 2), s1 := rg (.v 4), ord := 1 }),
    (parcels 0x801DC194 0x00020000 0x33000000, Instr.pref { base with fmt := .M, s0 := rg (.v 2), scope := 3, space := 6 }),
    (parcels 0x801DC195 0x00020000 0x09000000, Instr.cctlWb { base with fmt := .M, d := ⟨.code 0, false, 0⟩, s0 := rg (.v 2), scope := 1, space := 1 }),
    (parcels 0x801DC195 0x00020004 0x03000000, Instr.cctlWbi { base with fmt := .M, d := ⟨.code 1, false, 0⟩, s0 := rg (.v 2), scope := 3 }),
    (parcels 0x801DC195 0x00FFC008 0x01000000, Instr.cctlIvc { base with fmt := .M, d := ⟨.code 2, false, 0⟩, s0 := rg .zero, scope := 1 }),
    (parcels 0x801DC195 0x0002000C 0x03000000, Instr.cctlUnclass { base with fmt := .M, d := ⟨.code 3, false, 0⟩, s0 := rg (.v 2), scope := 3 })
    ].all reads = true := by decide +kernel

theorem test_decode_tile : [
    (parcels 0x801DC200 0x0002C007 0x10000000, Instr.topen { base with fmt := .M, d := ⟨rg (.s 1), false, 0⟩, s0 := rg (.s 2), space := 2 }),
    (parcels 0x001DC201 0x3C02C307 0x00000000, Instr.tacq { base with d := ⟨rg (.p 1), false, 0⟩, s0 := rg (.s 2), s1 := rg (.s 3) }),
    (parcels 0x001DC202 0x0002C3FF 0x00000000, Instr.trel { base with d := ⟨rg .zero, false, 0⟩, s0 := rg (.s 2) }),
    (parcels 0x001DC203 0x3C02C007 0x004C0000, Instr.tsplit { base with d := ⟨rg (.s 1), false, 0⟩, s0 := rg (.s 2), s1 := rg (.s 3), s3 := rg (.s 4) }),
    (parcels 0x001DC204 0x0002C307 0x00000000, Instr.tmerge { base with d := ⟨rg (.p 1), false, 0⟩, s0 := rg (.s 2) }),
    (parcels 0x001DC205 0x0002C000 0x00000000, Instr.tclose { base with s0 := rg (.s 2) }),
    (parcels 0x001DC206 0x0002C007 0x00000000, Instr.tquery { base with d := ⟨rg (.s 1), false, 0⟩, s0 := rg (.s 2) }),
    (parcels 0x101DC210 0x2CA1C000 0x00000000, Instr.xcopy { base with ch := 1, s0 := rg (.q 1), s1 := rg (.s 2) }),
    (parcels 0x001DC211 0x3CA2C000 0x00000000, Instr.xgath { base with s0 := rg (.q 2), s1 := rg (.s 3) }),
    (parcels 0x001DC212 0x4CA3C000 0x00000000, Instr.xscat { base with s0 := rg (.q 3), s1 := rg (.s 4) }),
    (parcels 0x001DC213 0x5CA0C000 0x00000000, Instr.xcoll { base with s0 := rg (.q 0), s1 := rg (.s 5) }),
    (parcels 0x001DC214 0x2CA1C000 0x005D04C0, Instr.xflag { base with s0 := rg (.q 1), s1 := rg (.s 2), s2 := .reg (.s 4) true false, s3 := rg (.s 5) }),
    (parcels 0x001DC215 0x0001C000 0x00000000, Instr.qfence { base with s0 := rg (.s 1) }),
    (parcels 0x001DC216 0xFCA2C007 0x0000000F, Instr.xresume { base with d := ⟨rg (.s 1), false, 0⟩, s0 := rg (.q 2), s1 := rg .zero }),
    (parcels 0x801DC218 0x2C01C000 0x10000000, Instr.barinit { base with fmt := .M, s0 := rg (.s 1), s1 := rg (.s 2), space := 2 }),
    (parcels 0x801DC219 0x2C01C000 0x10000010, Instr.barexp { base with fmt := .M, s0 := rg (.s 1), s1 := .reg (.s 2) true false, space := 2 }),
    (parcels 0x801DC21A 0x2C01C307 0x10400000, Instr.bararr { base with fmt := .M, d := ⟨rg (.p 1), false, 0⟩, s0 := rg (.s 1), s1 := rg (.s 2), ord := 1, space := 2 }),
    (parcels 0x801DC21B 0x3C01C000 0x2840001C, Instr.barwait { base with fmt := .M, s0 := rg (.s 1), s1 := .reg (.p 3) true false, ord := 1, space := 5 })
    ].all reads = true := by decide +kernel

theorem test_decode_matrix : [
    (parcels 0x001DC280 0x0002C247 0x00000000, Instr.orsv { base with d := ⟨rg (.ob 1), false, 0⟩, s0 := rg (.s 2) }),
    (parcels 0x001DC281 0x009FC000 0x00000000, Instr.orfree { base with s0 := rg (.ob 15) }),
    (parcels 0x801DFA82 0x4002024B 0x00000000, Instr.obld { base with ty := .b64, fmt := .M, d := ⟨rg (.ob 2), false, 0⟩, s0 := rg (.v 2), s1 := rg (.v 4) }),
    (parcels 0x801DC283 0x5002024F 0x10000000, Instr.obst { base with fmt := .M, d := ⟨rg (.ob 3), false, 0⟩, s0 := rg (.v 2), s1 := rg (.v 5), space := 2 }),
    (parcels 0x001DC284 0x2C91C000 0x00000709, Instr.mma { base with s0 := rg (.ob 1), s1 := rg (.ob 2), s2 := .code 7 }),
    (parcels 0x001DC284 0x2C91C000 0x00001309, Instr.mmaResc { base with s0 := rg (.ob 1), s1 := rg (.ob 2), s2 := .code 19 }),
    (parcels 0x001DC285 0x2C91C000 0x00302100, Instr.msmx { base with s0 := rg (.ob 1), s1 := rg (.s 2), s2 := .code 33, s3 := .code 3 }),
    (parcels 0x001DC286 0x00090000 0x00000000, Instr.mzero { base with s0 := .code 9 }),
    (parcels 0x801DD687 0x50020000 0x00000000, Instr.mld { base with ty := .f32, fmt := .M, s0 := rg (.v 2), s1 := .code 5 }),
    (parcels 0x801DE288 0x60020000 0x00000000, Instr.mst { base with ty := .bf16, fmt := .M, s0 := rg (.v 2), s1 := .code 6 }),
    (parcels 0x001DD689 0x00830020 0x00000000, Instr.mread { base with ty := .f32, d := ⟨rg (.v 8), false, 0⟩, s0 := .code 131 }),
    (parcels 0x001DC290 0x4C02C307 0x00002508, Instr.mpin { base with d := ⟨rg (.p 1), false, 0⟩, s0 := rg (.s 2), s1 := rg (.a 4), s2 := .code 37 }),
    (parcels 0x001DC291 0x00040000 0x00000000, Instr.munpin { base with s0 := .code 4 }),
    (parcels 0x001DC291 0x00140000 0x00000000, Instr.munpinDrop { base with s0 := .code 20 }),
    (parcels 0x001DC292 0x8091C000 0x004C0300, Instr.mdelta { base with s0 := rg (.ob 1), s1 := rg (.v 8), s2 := .code 3, s3 := rg (.s 4) }),
    (parcels 0x001DC292 0x8091C000 0x004C3300, Instr.mdeltaC { base with s0 := rg (.ob 1), s1 := rg (.v 8), s2 := .code 51, s3 := rg (.s 4) }),
    (parcels 0x001DC293 0x5091C004 0x00000200, Instr.mquery { base with d := ⟨rg (.v 1), false, 0⟩, s0 := rg (.ob 1), s1 := .code 5, s2 := .code 2 }),
    (parcels 0x001DC294 0x00060000 0x00000000, Instr.mevict { base with s0 := .code 6 }),
    (parcels 0x001DC294 0x00160000 0x00000000, Instr.mevictDet { base with s0 := .code 22 })
    ].all reads = true := by decide +kernel

theorem test_decode_scheduling : [
    (parcels 0x001DC300 0x0001C000 0x00000000, Instr.bar { base with s0 := rg (.s 1) }),
    (parcels 0x001DC301 0x00FFC000 0x00000000, Instr.bars { base with s0 := rg .zero }),
    (parcels 0x001DC302 0x00000000 0x00000000, Instr.fbar base),
    (parcels 0x001DC303 0x80020307 0x00000000, Instr.spawn { base with d := ⟨rg (.p 1), false, 0⟩, s0 := rg (.v 2), s1 := rg (.v 8) }),
    (parcels 0x001DC304 0x0002C007 0x00000000, Instr.launch { base with d := ⟨rg (.s 1), false, 0⟩, s0 := rg (.s 2) })
    ].all reads = true := by decide +kernel

theorem test_decode_system : [
    (parcels 0x401DFB80 0x2C000008 0x00000000, Instr.movsr { base with ty := .b64, fmt := .I, d := ⟨rg (.v 2), false, 0⟩, imm := 0xB }),
    (parcels 0x401DC381 0x6002C000 0x00000000, Instr.movsw { base with fmt := .I, s0 := rg (.s 2), imm := 0x18 }),
    (parcels 0x001DC382 0x00000000 0x00000000, Instr.eret base),
    (parcels 0x401DC383 0x24100020 0x00000000, Instr.svc { base with fmt := .I, d := ⟨rg (.v 8), false, 0⟩, s0 := rg (.v 16), imm := 0x9 }),
    (parcels 0x401DC383 0x00000007 0x01000000, Instr.svcF { base with fmt := .I, d := ⟨rg (.s 1), false, 0⟩, imm := 0x40000000 }),
    (parcels 0x401DC383 0x0000000B 0x02000000, Instr.svcTake { base with fmt := .I, d := ⟨rg (.s 2), false, 0⟩, imm := 0x80000000 }),
    (parcels 0x801DC384 0x4C82C307 0x00400000, Instr.wwait { base with fmt := .M, d := ⟨rg (.p 1), false, 0⟩, s0 := rg (.a 2), s1 := rg (.s 4), ord := 1 }),
    (parcels 0x801DC385 0x4C82C007 0x00000000, Instr.wwake { base with fmt := .M, d := ⟨rg (.s 1), false, 0⟩, s0 := rg (.a 2), s1 := rg (.s 4) }),
    (parcels 0x001DFB86 0x4C02C000 0x00000000, Instr.tlbinv { base with ty := .b64, s0 := rg (.s 2), s1 := rg (.s 4) }),
    (parcels 0x001DC387 0x00000000 0x00000000, Instr.tlbsync base),
    (parcels 0x801DC388 0x4C82C307 0x00400000, Instr.ctxsave { base with fmt := .M, d := ⟨rg (.p 1), false, 0⟩, s0 := rg (.a 2), s1 := rg (.s 4), ord := 1 }),
    (parcels 0x801DC389 0x0082C307 0x08000000, Instr.ctxload { base with fmt := .M, d := ⟨rg (.p 1), false, 0⟩, s0 := rg (.a 2), space := 1 }),
    (parcels 0x001DC38A 0x0002C000 0x00000000, Instr.halt { base with s0 := rg (.s 2) })
    ].all reads = true := by decide +kernel
/-! ## The spec's own words (the examples of spec/10 and spec/12) and the refusals of R33 -/

def sourceOf (i : Instr) : Args := match opArgs i with | some (_, a) => a | none => base

theorem test_words_of_the_spec : [
    (parcels 0x001DC000 0 0, Instr.nop base),
    (parcels 0xC01E8001 0xF0000000 0x0BFFFFFF, Instr.bra { base with ga := ⟨true, 2⟩, fmt := .X, boff := 0xFFFFFFFC, bh := 2 }),
    (parcels 0xC01DC002 0x000A0000 0, Instr.brx { base with fmt := .X, s0 := rg (.v 10) }),
    (parcels 0x401DC009 0x94000000 0, Instr.trap { base with fmt := .I, imm := 0x25 }),
    (parcels 0x401C400A 0x1C000000 0, Instr.bkpt { base with ga := ⟨false, 1⟩, fmt := .I, imm := 7 }),
    (parcels 0x001DC483 0x20010010 0x300, Instr.imad { base with ty := .s32, d := ⟨rg (.v 4), false, 0⟩, s0 := rg (.v 1), s1 := rg (.v 2), s2 := rg (.v 3) }),
    (parcels 0x001DC485 0x20010010 0x500000, Instr.idiv { base with ty := .s32, d := ⟨rg (.v 4), false, 0⟩, s0 := rg (.v 1), s1 := rg (.v 2), s3 := rg (.v 5) }),
    (parcels 0x001DC08C 0x20010018 0x09600300, Instr.lop3 { base with d := ⟨rg (.v 6), false, 0⟩, s0 := rg (.v 1), s1 := rg (.v 2), s2 := rg (.v 3), s3 := .code 0x96 }),
    (parcels 0x401DC496 0x28020307 0, Instr.isetp { base with ty := .s32, fmt := .I, d := ⟨rg (.p 1), false, 0⟩, s0 := rg (.v 2), imm := 10 }),
    (parcels 0x401DC09E 0x04030014 0x15, Instr.shfl { base with fmt := .I, d := ⟨rg (.v 5), false, 0⟩, s0 := rg (.v 3), imm := 0x541 })
    ].all reads = true := by decide +kernel

def fails (k : Bool) (w : IWord) (e : DecodeError) : Bool :=
  match decode k w with
  | .ok _ => false
  | .error x => x == e

/-- R33: each cause in its order; a reserved field reports its lowest bit. -/
theorem test_decode_refuses : [
    fails true (parcels 0x000003FF 0 0) .illegalInsn,
    fails true (BitVec.allOnes 96) .illegalInsn,
    fails false (parcels 0x001DC382 0 0) (.privilege 0),
    fails true (parcels 0x401DC000 0 0) .illegalFormat,
    fails false (parcels 0x401DC382 0 0) (.privilege 0),
    fails true (parcels 0x001DC400 0 0) (.reservedField 10),
    fails true (parcels 0x001DC000 0 0x40000000) (.reservedField 94),
    fails true (parcels 0x101DC000 0 0x40000000) (.reservedField 28),
    fails true (parcels 0x001DC000 4 0) (.reservedField 32),
    fails true (parcels 0x401DC496 0x28020307 0x08000000) (.reservedField 91),
    fails false (parcels 0x401DC383 0x00000000 0x01000000) (.privilege 88)
    ].all id = true := by decide +kernel

/-! ## Ill-formed terms: one for each check -/

def alu : Args := { base with ty := .s32, d := ⟨rg (.v 1), false, 0⟩, s0 := rg (.v 2), s1 := rg (.v 3) }
def mem : Args := { base with fmt := .M, d := ⟨rg (.v 6), false, 0⟩, s0 := rg (.a 0) }

theorem test_well_formed : [Instr.iadd alu, .ld { mem with space := 1 }, .and { alu with ty := .b32 }, .idiv { alu with s3 := rg (.v 5) },
    -- R250: the remainder goes to a register of each lane though the quotient goes to a uniform one
    .idiv { base with ty := .s32, d := ⟨rg (.s 4), false, 0⟩, s0 := rg (.s 1), s1 := rg (.s 2), s3 := rg (.v 5) }].all wfInstr = true := by
  decide +kernel

theorem test_ill_formed : [
    -- an event has no word
    Instr.storeQueueDrain 0,
    -- a format the row does not have; a type it does not have; a channel where none is allowed
    .nop { base with fmt := .M }, .iadd { alu with ty := .f32 }, .iadd { alu with ch := 1 },
    -- the fixed fields of format M: ordering, scope, space
    .ctxload { mem with d := ⟨rg (.p 1), false, 0⟩, space := 1, ord := 1 }, .ld { mem with space := 1, scope := 7 }, .ld { mem with space := 7 },
    -- an immediate with bits above its type
    .iadd { alu with ty := .s16, fmt := .I, s1 := .none, imm := 0x10000 }, .trap { base with fmt := .I, imm := 0x01000000 },
    -- a register of the wrong kind in each position
    .iadd { alu with d := ⟨rg (.p 0), false, 0⟩ }, .iadd { alu with s0 := rg (.p 0) }, .iadd { alu with s1 := rg (.ob 0) },
    .imad { alu with s2 := rg (.q 0) }, .idiv { alu with s3 := rg (.p 1) },
    -- an odd register for a pair
    .iadd { alu with ty := .s64, d := ⟨rg (.v 1), false, 0⟩, s0 := rg (.v 2), s1 := rg (.v 4) },
    -- a modifier where none is allowed
    .popc { base with ty := .b32, d := ⟨.reg (.v 1) true false, false, 0⟩, s0 := rg (.v 2) },
    -- clamp and scale where the row has neither
    .and { alu with ty := .b32, d := ⟨rg (.v 1), true, 0⟩ }, .iadd { alu with d := ⟨rg (.v 1), false, 1⟩ },
    -- a row's own check: a width code of SHFL that is reserved
    .shfl { base with fmt := .I, d := ⟨rg (.v 5), false, 0⟩, s0 := rg (.v 3), imm := 0x641 },
    -- a guard on an instruction that executes once for the warp, or on a scalar one
    .bar { base with s0 := rg (.s 1), ga := ⟨false, 3⟩ }, .iadd { alu with d := ⟨rg (.s 1), false, 0⟩, s0 := rg (.s 2), s1 := rg (.s 3), gc := true },
    -- a uniform destination with a source of each lane
    .iadd { alu with d := ⟨rg (.s 1), false, 0⟩ },
    -- fields that the format does not have
    .iadd { alu with imm := 1 }, .iadd { alu with fmt := .I, imm := 1 }, .ld { mem with space := 1, aux := 1 }, .ret { base with fmt := .X, off := 1 },
    -- operands in another form than their position reads
    .iadd { alu with s0 := .code 3 }, .iadd { alu with s1 := .none }, .lop3 { alu with ty := .b32, s2 := rg (.v 4), s3 := rg (.v 5) },
    .iadd { alu with d := ⟨.code 0, false, 0⟩ }, .imad { alu with s2 := .code 1 },
    -- a constructor its selecting field does not name
    .munpinDrop { base with ty := .b32, s0 := .code 0 }, .svcF { base with fmt := .I }
    ].all (fun i => !wfInstr i) = true := by decide +kernel
/-! ## A small machine -/

/-- A launch descriptor with nothing set. -/
def wg0 : Wg :=
  { part := 0, lid := 1, wg := 0, core := 0, klvl := true, kdesc := 0, nwarp := 1, fibs := 1, ring := 0, win := 0, acc := 4, ntag := 0, cor := false, fuse := false,
    scrBase := 0, scrSize := 65536, obBase := [0, 0, 0, 0], obSize := 65536, tiles := [(0, (0, 0)), (1, (0, 1))], fibres := [0], slots := [0], spawnSlot := none,
    saveArea := 0, saveSeq := 0, dirtyUnits := [] }

def slot0 : Slot :=
  { cur := 0, nfib := 1, win := 0, ringBase := 0, ringLen := 512, quads := 24, active := true, readySince := none, eligibleSince := none, wgKey := wgKey 0 1 0 }

def fib0 : Fibre :=
  { Fibre.start 0x1000 with klvl := true, spw := 4096, lkn := 64, lid := 1, exited := 0xFFFFFFFE, sregs := [(2, 256), (3, 2 ^ 24), (4, 512)] }

def part0 : Part := { (partOf State.reset 0) with kn := 4095, qmask := [1, 0, 0, 0] }

/-- A page of 32 GiB at address 0 with every permission of K, its A and D bits set, under key 1. -/
def tlb0 : TlbEntry :=
  { core := 0, part := 0, asid := none, page := 0, level := 2, leaf := 0x100000000001DF, leafPa := 0, leaf2 := 0x1F, level2 := 2 }

/-- One fibre with one lane at 0x1000, in a workgroup with scratchpad, operand buffer and two tiles. -/
def S0 : State :=
  { State.reset with
    fibres := [(0, fib0)], slots := [(0, slot0)], wgs := [(wgKey 0 1 0, wg0)], cur := 0, grp := 1, ipc := 0x1000, tlb := [tlb0, { tlb0 with core := 256 }],
    hub := { Hub.reset with boot := 6, parts := [(0, part0)], keySlots := [(1, 7)] } }

/-- The small machine with its fibre changed. -/
def withFib (g : Fibre → Fibre) : State := { S0 with fibres := [(0, g fib0)] }

theorem leaves_own (k loc n : Nat) : leavesSet k [ownPiece loc n] := by
  intro p hp l h; simp only [List.mem_singleton] at hp; subst hp; cases h

/-- Where one fibre is resident, it is the one. -/
theorem one_fib {s : State} {x : Fibre} {f g : Nat} (h : s.fibres = [(f, x)]) (hg : hasFib s g = true) : fib s g = x := by
  unfold hasFib at hg
  unfold fib
  rw [h] at hg ⊢
  simp only [FMap.find] at hg ⊢
  split at hg <;> simp_all

/-- Four leading facts of a conjunction given together. -/
theorem pack4 {a b c d r : Prop} (h : a ∧ b ∧ c ∧ d) (k : r) : a ∧ b ∧ c ∧ d ∧ r := ⟨h.1, h.2.1, h.2.2.1, h.2.2.2, k⟩

/-- Where no line is marked held, no access meets a tenure. -/
theorem no_conflicts {s : State} (h : s.mem.held = []) (core line : Nat) (w : Bool) : conflicts s core line w = [] := by
  simp [conflicts, h, FMap.find]

theorem calm {s : State} (h : s.mem.held = []) (core : Nat) (w : Bool) (ps : List Piece) : undisturbed s core w ps :=
  ⟨fun _ _ _ _ _ _ => no_conflicts h _ _ _, fun _ _ _ _ _ => no_conflicts h _ _ _⟩

theorem no_tenure {s : State} (h : s.mem.held = []) : noTenure s := fun _ _ _ => no_conflicts h _ _ _

theorem plain_own (s : State) (k loc n : Nat) (w : Bool) (h : (s.readPts.isEmpty && s.mem.held.isEmpty) = true) : plainPieces s k w [ownPiece loc n] := by
  simp only [Bool.and_eq_true, List.isEmpty_iff] at h
  refine ⟨?_, calm h.2 _ _ _, h.1⟩
  intro p hp; simp only [List.mem_singleton] at hp; subst hp
  exact ⟨by simp [ownPiece], fun l h => by cases h⟩

/-- Pieces of a core's own storage have no leaf to change. -/
theorem leaves_none (k : Nat) (ps : List Piece) (h : ps.all (fun p => p.leaf.isNone) = true) : leavesSet k ps := by
  intro p hp l e
  have := List.all_eq_true.1 h p hp
  rw [e] at this; cases this

theorem plain_none (s : State) (k : Nat) (w : Bool) (ps : List Piece)
    (h : (ps.all (fun p => p.leaf.isNone && p.mt != 3) && s.readPts.isEmpty && s.mem.held.isEmpty) = true) : plainPieces s k w ps := by
  simp only [Bool.and_eq_true, List.isEmpty_iff] at h
  refine ⟨fun p hp => ?_, calm h.2 _ _ _, h.1.2⟩
  have := List.all_eq_true.1 h.1.1 p hp
  simp only [Bool.and_eq_true, bne_iff_ne, ne_eq] at this
  exact ⟨this.2, fun l e => by rw [e] at this; cases this.1⟩

/-- A result is a given value. -/
def gives {ε α : Type} [DecidableEq α] (e : Except ε α) (v : α) : Bool :=
  match e with
  | .ok x => x == v
  | .error _ => false

theorem of_gives {ε α : Type} [DecidableEq α] {e : Except ε α} {v : α} (h : gives e v = true) : e = .ok v := by
  cases e with
  | ok x => simp only [gives, beq_iff_eq] at h; rw [h]
  | error x => simp [gives] at h

/-- A result is a value, and which. -/
def isOk {ε α : Type} (e : Except ε α) : Bool :=
  match e with
  | .ok _ => true
  | .error _ => false
def got {ε α : Type} (d : α) (e : Except ε α) : α :=
  match e with
  | .ok x => x
  | .error _ => d

theorem ok_got {ε α : Type} (d : α) {e : Except ε α} (h : isOk e = true) : e = .ok (got d e) := by
  cases e with
  | ok x => rfl
  | error x => simp [isOk] at h

theorem ok_got2 {ε α β : Type} (d : α × β) {e : Except ε (α × β)} (h : isOk e = true) : e = .ok ((got d e).1, (got d e).2) := by
  rw [Prod.mk.eta]; exact ok_got d h

/-- A result is a given failure. -/
def failsWith {ε α : Type} [DecidableEq ε] (e : Except ε α) (x : ε) : Bool :=
  match e with
  | .ok _ => false
  | .error y => y == x

theorem of_fails {ε α : Type} [DecidableEq ε] {e : Except ε α} {x : ε} (h : failsWith e x = true) : e = .error x := by
  cases e with
  | ok y => simp [failsWith] at h
  | error y => simp only [failsWith, beq_iff_eq] at h; rw [h]

theorem only {L : List Nat} {P : Nat → Prop} (i : Nat) (h : L = [i]) (hp : P i) : ∀ l ∈ L, P l := by
  subst h; intro l hl; simp only [List.mem_singleton] at hl; rw [hl]; exact hp

theorem finite_of {x : Machine.Num} (h : (match x with | .fin _ _ _ => true | _ => false) = true) : finite x := by
  cases x <;> simp_all [finite]

/-- Operands of an instruction on scratchpad address 256, with destination v1. -/
def a0 : Args := { base with d := ⟨rg (.v 1), false, 0⟩, s0 := rg (.s 2), s1 := rg (.v 4), s2 := rg (.v 5), s3 := rg (.v 6), space := 2 }

/-- The piece such an instruction accesses. -/
def scr0 (n : Nat) : Piece := ownPiece (scrLoc 0 256) n

/-- A tile of sixteen words at 0x8000. -/
def desc0 : BitVec 512 := BitVec.ofNat 512 (0x8000 + 16 * 2 ^ 64 + 2 ^ 192 + 2 ^ 320 + 2 * 2 ^ 324)

/-- The small machine with that tile open under handle 0x01000000, which s3 holds, and a holder table. -/
def tileState (hs : FMap Holder) : State := { S0 with homes := [(0, newHome 0 0 desc0)], holders := [(0, hs)] }

/-- A holder entry of a fibre. -/
def holder0 (f : Nat) : Holder :=
  { wr := true, pin := false, cont := true, rvk := false, brk := false, handle := 2 ^ 24, fib := f, dl := 0, granted := 0, since := 0, freed := 0, lines := [] }

/-- Operands of an instruction on that tile. -/
def t0 : Args := { base with d := ⟨rg (.p 1), false, 0⟩, s0 := rg (.s 3), s1 := rg .zero }

/-- A queued store of one word to the scratchpad. -/
def sq0 : SqEntry :=
  { loc := scrLoc 0 256, bytes := [1, 2, 3, 4], red := none, more := [], ord := 0, scope := 0, key := 0, mt := 4, ch := 0, sh := false, lane := 0, va := 256 }

/-- A wait of lane 0 that goes on at 0x100C. -/
def waitOf (k : WaitKind) : Wait := { lanes := 1, kind := k, pc := 0x100C, since := 0 }

/-- Lane 0 watches the word at scratchpad address 256. -/
def monAddr : List (Option (Nat × Nat)) := some (scrLoc 0 256, 0) :: List.replicate 31 none
def waitaK (v : Word) (dl : Option Nat) : WaitKind :=
  .waita monAddr (v :: List.replicate 31 0) (dl :: List.replicate 31 none) (List.replicate 32 0) (List.replicate 32 none) (some 1) false 3

/-- The translation that the page gives for 0x8000. -/
def leaf0 : Leaf := { leaf := 0x100000000001DF, lvl := 2, at_ := 0, leaf2 := 0x1F, lvl2 := 2, pa := 0x8000, key := keyCode 7 1, mt := 0 }

/-- Fibre 4 of the core holds the tile. -/
def conflictState : State :=
  { tileState [(0, holder0 4)] with
    fibres := [(0, { fib0 with sregs := [(3, 2 ^ 24), (5, 1)] })], homes := [(0, { newHome 0 0 desc0 with holders := [(0, 0)] })],
    mem := { Store.reset with held := [(256, [(2 ^ 24, true)])] } }

/-- The barrier object at scratchpad address 256 is ready in a machine where nothing is queued. -/
theorem objReady (a : Args) (s : State) {kind : Nat}
    (h : (gives (objCheck s s.cur (lane0 s) a.space.toNat (effAddr s a (lane0 s)) kind) (scrLoc 0 256) && !poisoned s.mem (scrLoc 0 256) 16
      && (me s).sq.isEmpty && fibReady s s.cur a.scope.toNat) = true) : ObjReady a s kind (scrLoc 0 256) := by
  simp only [Bool.and_eq_true, Bool.not_eq_true', List.isEmpty_iff] at h
  exact ⟨of_gives h.1.1.1, by decide, .inr h.1.1.2, h.1.2, fun _ => h.2⟩

/-- A store to a core's own storage is plain. -/
theorem target_own (s : State) (f loc n : Nat) (h : (!(isHost loc && inMem loc) && decide (0 < n) && decide (loc / 128 = (loc + n - 1) / 128)
    && s.mem.held.isEmpty && s.objs.isEmpty) = true) : PlainTarget s f (ownPiece loc n) := by
  simp only [Bool.and_eq_true, Bool.not_eq_true', decide_eq_true_eq, List.isEmpty_iff] at h
  exact ⟨⟨by simp [ownPiece], h.1.1.1.1⟩, ⟨h.1.1.1.2, h.1.1.2⟩, leaves_own _ _ _, calm h.1.2 _ _ _, .inl h.2⟩

/-- The small machine with one entry in queue 0. -/
def withEntry (e : QEntry) : State := withFib fun x => { x with queues := vmod (fun _ => ⟨[e], false, []⟩) 0 x.queues }

/-- Four bytes from scratchpad address 256 to 1024. -/
def copy0 : BitVec 512 := BitVec.ofNat 512 (256 + 1024 * 2 ^ 64 + 4 * 2 ^ 192 + 2 ^ 224 + 2 ^ 228 + 0xFFFFFFFF * 2 ^ 256)
def entry0 (k : EntryKind) : QEntry := { kind := k, prog := 0, root := 0, klvl := true, ch := 0, tile := 0, sent := false, view := [], marks := [] }

/-- A broadcast of one word from 0x8000 to 0x9000. -/
def coll0 : BitVec 512 := BitVec.ofNat 512 (0x8000 + 0x9000 * 2 ^ 64 + 2 ^ 128 + 2 ^ 168 + 0xFFFFFFFF * 2 ^ 224)

/-- What such a broadcast reads of its own input. -/
def coll0Read : Inputs :=
  collRead (inEntry (withEntry (entry0 (.coll coll0 0 [0]))) 0 (entry0 (.coll coll0 0 [0]))) 0 (entry0 (.coll coll0 0 [0])) (collOf coll0)
    (((List.range ((0x9004 - 1 - (collOf coll0).dst) / collSize (collOf coll0) + 1 - (0x9000 - (collOf coll0).dst) / collSize (collOf coll0))).map
      (· + (0x9000 - (collOf coll0).dst) / collSize (collOf coll0))).flatMap (collNeeds (collOf coll0) 0 0))
def coll0Map : FMap Nat := match coll0Read with
  | .got m _ => m
  | _ => []
def coll0State : State := match coll0Read with
  | .got _ u => u
  | _ => S0
theorem coll0_read : coll0Read = .got coll0Map coll0State := by
  have h : (match coll0Read with | .got _ _ => true | _ => false) = true := by decide +kernel
  unfold coll0Map coll0State
  cases hc : coll0Read with
  | got m u => rfl
  | wait => rw [hc] at h; cases h
  | fail e => rw [hc] at h; cases h

/-- A reservation of `rows` rows of bf16 elements. -/
def resv (rows klen off : Nat) : Reservation :=
  { off := off, rows := rows, klen := klen, ety := 8, nfc := 0, blk := 0, rstr := 2 * klen, soff := 0, sstr := 0, rmt := false, rcore := 0, roff := 0 }

/-- The piece of global memory at an address below 2^35. -/
def glob (va n : Nat) : Piece := { loc := va, n := n, key := keyCode 7 1, mt := 0, va := va, leaf := some { leaf0 with pa := va } }

theorem withAD_page (k : Nat) : withAD 0x100000000001DF k = 0x100000000001DF := by
  have h7 : Nat.testBit 0x100000000001DF 7 = true := by decide
  have h8 : Nat.testBit 0x100000000001DF 8 = true := by decide
  simp [withAD, h7, h8]

theorem leaves_glob (k va n : Nat) : leavesSet k [glob va n] := by
  intro p hp l h; simp only [List.mem_singleton] at hp; subst hp; cases h
  exact withAD_page k

theorem plain_glob (s : State) (k va n : Nat) (w : Bool) (h : (s.readPts.isEmpty && s.mem.held.isEmpty) = true) : plainPieces s k w [glob va n] := by
  simp only [Bool.and_eq_true, List.isEmpty_iff] at h
  refine ⟨?_, calm h.2 _ _ _, h.1⟩
  intro p hp; have := leaves_glob k va n p hp; simp only [List.mem_singleton] at hp; subst hp
  exact ⟨by simp [glob], this⟩

theorem none_of {α : Type} {o : Option α} (h : o.isNone = true) : o = none := by
  cases o with
  | none => rfl
  | some x => simp at h

/-- Names 1 and 2 bound for a product of sixteen steps. -/
def matrixState : State := withFib fun x => { x with obs := [(1, resv 32 16 0), (2, resv 64 16 4096)] }

/-- An unpinned tile is at hand. -/
theorem tileReady (s : State) (t p : Nat) (h : (gives (physTile s s.cur t) p && (pinOf s s.cur t).isNone) = true) : TileReady s t p := by
  simp only [Bool.and_eq_true] at h
  exact ⟨of_gives h.1, fun k e he => by rw [none_of h.2] at he; cases he⟩

theorem pair_of {α β : Type} {x : α × Option β} (h : x.2.isNone = true) : x = (x.1, none) := Prod.ext rfl (none_of h)

theorem pair_gives {ε α β : Type} [DecidableEq β] {x : α × Except ε β} {v : β} (h : gives x.2 v = true) : x = (x.1, .ok v) := Prod.ext rfl (of_gives h)

theorem some_get {α : Type} (d : α) {o : Option α} (h : o.isSome = true) : o = some (o.getD d) := by
  cases o with
  | none => simp at h
  | some x => rfl

theorem leaves_globs (k : Nat) (l : List (Nat × Nat)) : leavesSet k (l.map fun p => glob p.1 p.2) := by
  intro p hp
  obtain ⟨q, _, rfl⟩ := List.mem_map.1 hp
  exact leaves_glob k q.1 q.2 _ (List.mem_singleton.2 rfl)

/-- A pinned state of logical tile 0 under key 9, its image at 0x10000. -/
def own0 : OwnEntry :=
  { res := true, ef := false, owned := true, ltile := 0, part := 0, olid := 1, owg := 0, key := 9, spa := 0x10000, pgr := 0, klvl := true, dmask := 0,
    epoch := 0, tile := 0, lastUse := 0 }

/-- The small machine with one entry in the ownership table of sub-core 0. -/
def pinState (e : OwnEntry) : State := { S0 with own := [(0, some e :: List.replicate 15 none)] }

/-- The pin of a tile, where it has one, is under a key. -/
theorem pin_key {s : State} {f t k : Nat} (h : ((pinOf s f t).all fun p => p.2.key == k) = true) : ∀ j x, pinOf s f t = some (j, x) → x.key = k := by
  intro j x e; rw [e] at h; exact beq_iff_eq.1 h

/-- What stands in the context of a workgroup with nothing but its record. -/
def restore0 (w : Wg) : Restore :=
  { wgRec := w, place := 0, fibres := [], ring := [], ringPoison := [], scr := [], objs := [], obuf := [], acc := [], side := [], pins := [], held := [] }

/-- A launch of one workgroup of one warp that starts at 0x1000; `x` adds to its record. -/
def rec0 (x : Nat) : BitVec 1024 := BitVec.ofNat 1024 (0x8080 + 2 ^ 64 + x)
def kdesc0 : BitVec 512 := BitVec.ofNat 512 (0x1000 + 2 ^ 64)
def launch0 (lid x : Nat) : Launch :=
  { part := 0, lid := lid, queue := 0, prio := 0, record := rec0 x, kdesc := kdesc0, va := 0x8000, root := 0, klvl := false, doneK := true, started := [],
    ready := [], spawnUsed := [], view := [], flagViews := [], ended := [], marks := [], keys := none, gondola := none }
def withHub (g : Hub → Hub) : State := { S0 with hub := g S0.hub }

/-- Memory that holds the record at 0x8000 and its descriptor at 0x8080. -/
def launchMem : Store :=
  { Store.reset with cells := [(0x8000, 0x80), (0x8001, 0x80), (0x8008, 1), (0x8081, 0x10), (0x8088, 1)], lineKey := [(256, 7), (257, 7)] }
def launchFib : Fibre := { fib0 with sregs := [(2, 0x8000)] }

/-- A continuation record of launch 2 that has waited for 4,096 cycles. -/
def spool0 : SpoolRec := { die := 0, part := 0, lid := 2, entry := 0x1000, args := List.replicate 12 0, time := 0, view := [] }
def spoolState : State :=
  { withHub (fun h => { h with launches := [{ launch0 2 (2 ^ 208) with started := [(0, 1)] }] }) with tick := 4096, spool := [spool0] }

/-- Eight active slots, the first in a long wait, and a ready pending one. -/
def exchangeState : State :=
  { S0 with
    fibres := [(0, { fib0 with waits := [waitOf (.halt none)] }), (32, fib0)],
    slots := (List.range 9).map fun k => (k, { slot0 with active := decide (k < 8), readySince := if k = 8 then some 0 else none, eligibleSince := if k = 0 then some 0 else none }) }

/-- A lane with one frame below its own. -/
def framed : Lane := { Lane.start 0x1000 with fp := 12, depth := 1, links := [⟨0x2000, 12, false, 0⟩] }
def withLane (l : Lane) (g : Fibre → Fibre) : State := withFib fun x => { g x with spb := 0x10000, lkb := 0x20000, lanes := Vector.ofFn fun _ => l }

/-- The addresses a spill of that frame writes. -/
def spillVas : List (Nat × Nat) := ((List.range 12).map fun j => (0x10000 + 128 * j, 4)) ++ [(0x20000, 16)]

/-- A lane whose only frame is away, and memory that holds its record. -/
def awayState (w : LaneWait) : State :=
  { withLane { Lane.start 0x1000 with fp := 12, depth := 1, rb := 12, wait := w } (fun x => { x with lwm := 4 }) with
    mem := { Store.reset with cells := [(0x20001, 0x20), (0x20008, 12)], lineKey := [(1024, 7)] } }
def away : Link := ⟨0x2000, 12, false, 0⟩

/-- What a refill brings. -/
def brings (x : Refill) (r : Link) (words : List Word) : Bool :=
  match x with
  | .got a b _ => a == r && b == words
  | _ => false
def broughtIn (x : Refill) : State :=
  match x with
  | .got _ _ u => u
  | _ => S0
theorem of_brings {x : Refill} {r : Link} {words : List Word} (h : brings x r words = true) : x = .got r words (broughtIn x) := by
  cases x with
  | got a b u => simp only [brings, Bool.and_eq_true, beq_iff_eq] at h; rw [h.1, h.2]; rfl
  | wait => simp [brings] at h
  | fail e => simp [brings] at h

/-- A breakpoint of lane 0, queued in a fibre with room for a handler's frame. -/
def break0 : TrapEntry := { lmask := 1, cause := cBREAK, async := false, klvl := false, pc := 0x1000, addr := 0, info := 0, laneAddr := [] }
def trapState (g : Fibre → Fibre) : State :=
  { withFib (fun x => g { x with trapq := [break0], ktvec := 0x4000 }) with slots := [(0, { slot0 with quads := 128 })] }
def level0 : HandlerLevel :=
  { amask := 1, klvl := false, ganged := true, tcause := 0, tpc := 0, taddr := 0, tinfo := 0, entry := break0 }

/-- The small machine with a ring of its partition in device memory at 0x40000. -/
def part1 : Part := { part0 with ring := [(0, (0x40000, 1))], batchLimit := 16 }
def ringState (g : Fibre → Fibre) : State := { withHub (fun h => { h with parts := [(0, part1)] }) with fibres := [(0, g fib0)] }

/-- A fibre on the gondola core of die 0, which waits for a batch. -/
def gondolaState : State :=
  { withHub (fun h => { h with parts := [(0, part1)], batches := [⟨0, 0, 0, 1, 0, 0, 0, [], (0x40000, 1)⟩] }) with
    cur := 16128, fibres := [(16128, { fib0 with waits := [waitOf (.svcTake 2 none)] })] }

/-- A pinned write tenure marks the first line of host memory. -/
def heldHost : State :=
  { tileState [(0, { holder0 4 with pin := true })] with
    homes := [(0, { newHome 0 0 desc0 with holders := [(0, 0)] })], mem := { Store.reset with held := [(0x8000000000000 / 128, [(2 ^ 24, true)])] } }

/-- Function 0 bound to the partition. -/
def hostState : State := withHub fun h => { h with vfPart := [(0, 0)] }
theorem bound_of {s : State} (h : (vfLive s 0 == some 0 && (portAt s (vfPort 0)).inbound.isEmpty && s.hub.owed.isEmpty
    && s.hub.ports.all fun x => x.lines.isEmpty) = true) : Bound s 0 0 := by
  simp only [Bool.and_eq_true, beq_iff_eq, List.isEmpty_iff] at h
  exact ⟨h.1.1.1, h.1.1.2, h.1.2, fun x hx => List.isEmpty_iff.1 (List.all_eq_true.1 h.2 x hx)⟩
theorem host_bound : Bound hostState 0 0 := bound_of (by decide +kernel)

/-- A record whose die 0 has quad 0 with its four cores. -/
def config0 : BitVec 1280 := BitVec.ofNat 1280 (15 * 2 ^ 128 + (2 ^ 90 - 1) * 2 ^ 416)
def bootState (n : Nat) : State := { State.reset with hub := { Hub.reset with boot := n, inUse := some config0, units := config0, records := [config0, config0] } }

/-- The small machine whose memory at 0x1000 holds three bytes, its sub-core about to issue. -/
def codeState (a b c : Byte) : State :=
  { S0 with agenda := [.issue 0], mem := { Store.reset with cells := [(0x1000, a), (0x1001, b), (0x1002, c)].filter (fun p => p.2 != 0), lineKey := [(32, 7)] } }
def issueAt (s : State) : State := takeTurn { s with agenda := [] } 0 0
def group0 : Group := ⟨[0], 0x1000, 1⟩
def taken (s : State) : Except Flt (Option (IWord × Group × State)) := takeWord (modFib (issueAt s) 0 fun _ => fib (issueAt s) 0) 0 group0
/-- The state after the word is taken, and there the group's. -/
def takenState (s : State) : State := match taken s with
  | .ok (some (_, _, v)) => v
  | _ => S0
def decodedAt (s : State) : State := { takenState s with cur := 0, grp := 1, ipc := 0x1000 }
/-- The state in which the instruction runs. -/
def issuedAt (s : State) : State := noteIssue (decodedAt s) 0

theorem ok_word {s : State} {w : IWord} (h : (match taken s with | .ok (some (v, g, _)) => v == w && g == group0 | _ => false) = true) :
    taken s = .ok (some (w, group0, takenState s)) := by
  unfold takenState
  cases ht : taken s with
  | error e => rw [ht] at h; cases h
  | ok o => match o, ht with
    | none, ht => rw [ht] at h; cases h
    | some (v, g, u), ht => rw [ht] at h; simp only [Bool.and_eq_true, beq_iff_eq] at h; rw [h.1, h.2]

theorem turn_at (s : State) (h : (s.agenda == [.issue 0] && !s.hub.stopped && issueSlot ({ s with agenda := [] } : State) 0 == some 0
    && (slotRec (issueAt s) 0).cur == 0) = true) : Turn s 0 0 (issueAt s) := by
  simp only [Bool.and_eq_true, Bool.not_eq_true', beq_iff_eq] at h
  exact ⟨[], 0, h.1.1.1, h.1.1.2, h.1.2, rfl, by rw [h.2]⟩

/-- What a step answers. -/
def after (o : Host.Outcome State Fault Refusal) : State :=
  match o with
  | .next t => t
  | _ => S0
theorem next_after {o : Host.Outcome State Fault Refusal} (h : (match o with | .next _ => true | _ => false) = true) : o = .next (after o) := by
  cases o <;> simp_all [after]

/-! ## A machine with a signed area in memory -/

theorem mapM_ok {ε α β : Type} {f : α → Except ε β} {g : α → β} (l : List α) (h : ∀ x ∈ l, f x = .ok (g x)) : l.mapM f = .ok (l.map g) := by
  induction l with
  | nil => rfl
  | cons x l ih =>
    rw [List.mapM_cons, h x (List.mem_cons_self), ih fun y hy => h y (List.mem_cons_of_mem _ hy)]; rfl

theorem toBytes_succ (n v : Nat) : toBytes (n + 1) v = BitVec.ofNat 8 v :: toBytes n (v / 256) := by
  simp only [toBytes, List.range_succ_eq_map, List.map_cons, List.map_map, Nat.pow_zero, Nat.div_one, List.cons.injEq, true_and]
  apply List.map_congr_left; intro i _
  simp only [Function.comp_apply, Nat.succ_eq_add_one, Nat.pow_succ, Nat.div_div_eq_div_mul, Nat.mul_comm]

theorem ofBytes_toBytes (n v : Nat) : ofBytes (toBytes n v) = v % 256 ^ n := by
  induction n generalizing v with
  | zero => simp [toBytes, ofBytes, Nat.mod_one]
  | succ n ih =>
    rw [toBytes_succ]
    have : ofBytes (BitVec.ofNat 8 v :: toBytes n (v / 256)) = v % 256 + 256 * ofBytes (toBytes n (v / 256)) := by
      simp [ofBytes]
    rw [this, ih, Nat.pow_succ, Nat.mul_comm (256 ^ n), Nat.mod_mul]

theorem toBytes_length (n v : Nat) : (toBytes n v).length = n := by simp [toBytes]
theorem toBytes_get (n v j : Nat) (h : j < n) : (toBytes n v).getD j 0 = BitVec.ofNat 8 (v / 256 ^ j) := by simp [toBytes, h]

/-- Writing past the caches where they hold nothing changes the cells only. -/
theorem putBytes_clean (l : List Byte) (st : Store) (loc : Nat) (h : st.dirty = []) :
    (putBytes st false loc l).dirty = [] := by
  induction l generalizing st loc with
  | nil => exact h
  | cons b l ih => exact ih _ _ (by simp [putByte, h, FMap.del])

/-- Memory with the bytes of a block at 0x8000. -/
def blockMem (v : Nat) : Store :=
  { Store.reset with cells := (putBytes Store.reset false 0x8000 (toBytes 1024 v)).cells, lineKey := (List.range 8).map fun i => (256 + i, 7) }

theorem blockMem_reads (s : State) (v : Nat) (h : s.mem = blockMem v) (hv : v < 2 ^ 8192) : blockNow s (glob 0x8000 1024) = v := by
  have raw (i : Nat) (hi : i < 1024) : rawByte s.mem (0x8000 + i) = BitVec.ofNat 8 (v / 256 ^ i) := by
    have e : rawByte s.mem (0x8000 + i) = rawByte (putBytes Store.reset false 0x8000 (toBytes 1024 v)) (0x8000 + i) := by
      rw [h]; unfold rawByte; rw [putBytes_clean _ _ _ (show Store.reset.dirty = [] from rfl)]
      simp only [blockMem, show Store.reset.dirty = [] from rfl]
    rw [e, Laws.rawByte_putBytes, if_pos (by rw [toBytes_length]; omega), Nat.add_sub_cancel_left, toBytes_get _ _ _ hi]
  have key (i : Nat) (hi : i < 1024) : lineKeyAt s.mem (0x8000 + i) = 7 := by
    have all : ∀ j < 8, SMap.get 0 (blockMem 0).lineKey (256 + j) = 7 := by decide
    have := all (i / 128) (by omega)
    rw [h]; unfold lineKeyAt
    rw [show (0x8000 + i) / 128 = 256 + i / 128 by omega]; exact this
  have e : readBytes s (keyCode 7 1) 0x8000 1024 = toBytes 1024 v := by
    unfold readBytes toBytes
    refine List.map_congr_left ?_
    intro i hi
    have hi := List.mem_range.1 hi
    unfold readByte
    rw [if_neg (by omega), if_neg (by omega)]
    simp only [key i hi, raw i hi]; simp [keyValue, keyCode]
  show ofBytes (readBytes s (keyCode 7 1) 0x8000 1024) = v
  rw [e, ofBytes_toBytes, show (256 : Nat) = 2 ^ 8 from rfl, ← Nat.pow_mul]; exact Nat.mod_eq_of_lt hv

theorem bits_seal (v t lo len : Nat) (h : lo + len ≤ 8128) : bits (v + t * 2 ^ 8128) lo len = bits v lo len := by
  obtain ⟨k, hk⟩ : ∃ k, 8128 = lo + len + k := ⟨8128 - (lo + len), by omega⟩
  have e : t * 2 ^ 8128 = 2 ^ lo * (2 ^ len * (t * 2 ^ k)) := by
    rw [hk, Nat.pow_add, Nat.pow_add, Nat.mul_left_comm t, Nat.mul_assoc]
  unfold bits
  rw [e, Nat.add_mul_div_left _ _ (Nat.two_pow_pos lo), Nat.add_mul_mod_self_left]

theorem testBit_seal (v t n : Nat) (h : n < 8128) : (v + t * 2 ^ 8128).testBit n = v.testBit n := by
  have := bits_seal v t n 1 (by omega)
  simp only [Nat.testBit_eq_decide_div_mod_eq, bits] at this ⊢
  rw [show (2 : Nat) ^ 1 = 2 from rfl] at this; rw [this]

/-- The header of an area of one block: launch 9, workgroup 0, one quad on die 0; `res` in its reserved field. -/
def header0 (lid shape res : Nat) : Nat := 0x58435453 * 2 ^ 64 + 2 ^ 96 + lid * 2 ^ 128 + 2 ^ 256 + shape * 2 ^ 272 + 2 ^ 300 + res * 2 ^ 48

/-- That block with its tag. -/
def area0 (lid shape res : Nat) : Nat := sealBlock (saveKey S0 0) 0x8000 (header0 lid shape res)

theorem area0_lt (lid shape res : Nat) : area0 lid shape res < 2 ^ 8192 := by
  have a := Nat.mod_lt (header0 lid shape res) (Nat.two_pow_pos 8128)
  have b : blockTag (saveKey S0 0) 0x8000 (header0 lid shape res % 2 ^ 8128) < 2 ^ 64 := Nat.mod_lt _ (Nat.two_pow_pos 64)
  have c : (2 : Nat) ^ 8192 = 2 ^ 64 * 2 ^ 8128 := by rw [← Nat.pow_add]
  unfold area0 sealBlock
  rw [c]
  generalize blockTag (saveKey S0 0) 0x8000 (header0 lid shape res % 2 ^ 8128) = t at b ⊢
  generalize header0 lid shape res % 2 ^ 8128 = r at a ⊢
  generalize (2 : Nat) ^ 8128 = m at a ⊢
  have := Nat.mul_le_mul_right m (show t + 1 ≤ 2 ^ 64 from b)
  rw [Nat.add_mul, Nat.one_mul] at this
  omega

theorem saveKey_hub (s t : State) (p : Nat) (h : s.hub = t.hub) : saveKey s p = saveKey t p := by unfold saveKey partOf; rw [h]

/-- The small machine with the area in memory, and what a save once wrote. -/
def areaState (lid shape res : Nat) (w : Wg) : State :=
  { S0 with mem := blockMem (area0 lid shape res), saves := [{ blocks := [BitVec.ofNat 8192 (area0 lid shape res)], ctx := restore0 w }],
            fibres := [(0, { fib0 with sregs := [(2, 0x8000)] })] }

theorem area_now (lid shape res : Nat) (w : Wg) : blockNow (areaState lid shape res w) (glob 0x8000 1024) = area0 lid shape res :=
  blockMem_reads _ _ rfl (area0_lt _ _ _)

theorem area_bits (lid shape res lo len : Nat) (h : lo + len ≤ 8128) : bits (area0 lid shape res) lo len = bits (header0 lid shape res % 2 ^ 8128) lo len :=
  bits_seal _ _ _ _ h

theorem area_good (lid shape res : Nat) (w : Wg) (h : (bits (header0 lid shape res % 2 ^ 8128) 32 16 == 0 && bits (header0 lid shape res % 2 ^ 8128) 192 32 == 0
    && bits (header0 lid shape res % 2 ^ 8128) 224 32 == 0 && bits (header0 lid shape res % 2 ^ 8128) 0 32 == 0) = true) :
    blockGood (areaState lid shape res w) 0 0x8000 0 (bits (area0 lid shape res) 192 32) (bits (area0 lid shape res) 224 32) (glob 0x8000 1024) = true := by
  simp only [Bool.and_eq_true, beq_iff_eq] at h
  have tag : bits (area0 lid shape res) 8128 64 = blockTag (saveKey S0 0) 0x8000 (area0 lid shape res % 2 ^ 8128) := by
    have a := Nat.mod_lt (header0 lid shape res) (Nat.two_pow_pos 8128)
    have b : blockTag (saveKey S0 0) 0x8000 (header0 lid shape res % 2 ^ 8128) < 2 ^ 64 := Nat.mod_lt _ (Nat.two_pow_pos 64)
    unfold area0 sealBlock
    rw [Nat.add_mul_mod_self_right, Nat.mod_mod]
    unfold bits
    rw [Nat.add_mul_div_right _ _ (Nat.two_pow_pos 8128), Nat.div_eq_of_lt a, Nat.zero_add, Nat.mod_eq_of_lt b]
  unfold blockGood
  simp only [area_now, tag, area_bits _ _ _ _ _ (show 32 + 16 ≤ 8128 by omega), area_bits _ _ _ _ _ (show 192 + 32 ≤ 8128 by omega),
    area_bits _ _ _ _ _ (show 224 + 32 ≤ 8128 by omega), area_bits _ _ _ _ _ (show 0 + 32 ≤ 8128 by omega), h]
  have p : poisoned (areaState lid shape res w).mem (glob 0x8000 1024).loc 1024 = false := by
    unfold poisoned poisonedWord; simp only [areaState, blockMem, show Store.reset.poison = [] from rfl, List.find?_nil, Option.isSome_none]
  rw [p, saveKey_hub (areaState lid shape res w) S0 0 (by simp only [areaState])]
  simp

/-- Operands of CTXLOAD at 0x8000. -/
def args1 : Args := { base with d := ⟨rg (.p 1), false, 0⟩, s0 := rg (.s 2), s1 := rg (.v 4), space := 1 }

theorem area_header (lid shape res : Nat) (hh : (bits (header0 lid shape res % 2 ^ 8128) 64 32 == 0x58435453 && bits (header0 lid shape res % 2 ^ 8128) 96 16 == 1
      && bits (header0 lid shape res % 2 ^ 8128) 112 5 == 0) = true) : headerGood 0 (area0 lid shape res) = true := by
  unfold headerGood
  rw [area_bits _ _ _ _ _ (show 64 + 32 ≤ 8128 by omega), area_bits _ _ _ _ _ (show 96 + 16 ≤ 8128 by omega), area_bits _ _ _ _ _ (show 112 + 5 ≤ 8128 by omega)]
  exact hh

theorem area_restorable (lid shape res : Nat) (h : (header0 lid shape res % 2 ^ 8128).testBit 117 = false) : (area0 lid shape res).testBit 117 = false := by
  unfold area0 sealBlock; rw [testBit_seal _ _ _ (by omega)]; exact h

theorem area_one (lid shape res : Nat) (w : Wg) (h : bits (header0 lid shape res % 2 ^ 8128) 256 16 = 1)
    (hp : blockPiece (areaState lid shape res w) (myCtx (areaState lid shape res w)) 0x8000 kRead = .ok (glob 0x8000 1024)) :
    areaPieces (areaState lid shape res w) (myCtx (areaState lid shape res w)) 0x8000 (max 1 (bits (area0 lid shape res) 256 16)) kRead = .ok [glob 0x8000 1024] := by
  rw [area_bits _ _ _ _ _ (show 256 + 16 ≤ 8128 by omega), h]
  exact mapM_ok (g := fun _ => glob 0x8000 1024) [0] fun i hi => by rw [List.mem_singleton.1 hi]; exact hp

theorem area_each (lid shape res : Nat) (w : Wg)
    (h : blockGood (areaState lid shape res w) 0 0x8000 0 (bits (area0 lid shape res) 192 32) (bits (area0 lid shape res) 224 32) (glob 0x8000 1024) = true) (i : Nat) (q : Piece)
    (hq : [glob 0x8000 1024][i]? = some q) :
    blockGood (areaState lid shape res w) 0 0x8000 i (bits (area0 lid shape res) 192 32) (bits (area0 lid shape res) 224 32) q = true := by
  cases i with
  | zero => rw [List.getElem?_cons_zero] at hq; rw [← Option.some.inj hq]; exact h
  | succ i => rw [List.getElem?_cons_succ, List.getElem?_nil] at hq; cases hq

theorem find_saved (s : State) (p : Piece) (n : Nat) (c : Restore) (h : s.saves = [{ blocks := [BitVec.ofNat 8192 n], ctx := c }]) (e : blockNow s p = n) :
    (s.saves.find? fun z => z.blocks == [p].map fun p => BitVec.ofNat 8192 (blockNow s p)) = some { blocks := [BitVec.ofNat 8192 n], ctx := c } := by
  simp only [List.map_cons, List.map_nil, e, h]
  generalize BitVec.ofNat 8192 n = b
  exact List.find?_cons_of_pos (by simp)

/-- No tenure, no wait. -/
theorem no_wait (s : State) (f : Nat) (write : Bool) (ps : List Piece) (h : s.mem.held = []) : unitWaits s f write ps = false := by
  unfold unitWaits mustWait
  rw [List.any_eq_false]
  intro p _
  have c (k l : Nat) (b : Bool) : recallWaits s (some f) k l b = false := by
    unfold recallWaits pinnedConflict conflictHolders; rw [no_conflicts h]; rfl
  cases hl : p.leaf <;> simp [c, leafWaits, pathWaits]

/-- The only block of an area has its reserved field 0 where its header's is. -/
theorem area_res (lid shape : Nat) (w : Wg) (h : blockRes (header0 lid shape 0 % 2 ^ 8128) 0 = false) (i : Nat) (q : Piece)
    (hq : [glob 0x8000 1024][i]? = some q) : blockRes (blockNow (areaState lid shape 0 w) q) i = false := by
  cases i with
  | zero =>
    rw [List.getElem?_cons_zero] at hq
    rw [← Option.some.inj hq, area_now]
    unfold blockRes at h ⊢
    rw [area_bits _ _ _ _ _ (show 48 + 16 ≤ 8128 by omega), area_bits _ _ _ _ _ (show 119 + 9 ≤ 8128 by omega),
      area_bits _ _ _ _ _ (show 304 + 16 ≤ 8128 by omega), area_bits _ _ _ _ _ (show 832 + 7296 ≤ 8128 by omega)]
    exact h
  | succ i => rw [List.getElem?_cons_succ, List.getElem?_nil] at hq; cases hq

/-- A second workgroup, of launch 2, with one fibre in slot 1. -/
def wg2 : Wg := { wg0 with lid := 2, fibres := [4], slots := [1], tiles := [] }

/-- The small machine with both, its registers set for CTXSAVE of the second. -/
def saveState : State :=
  { S0 with
    fibres := [(0, { fib0 with sregs := [(2, 0x8000), (5, 2)] }), (4, { fib0 with lid := 2 })],
    slots := [(0, slot0), (1, { slot0 with wgKey := wgKey 0 2 0 })], wgs := [(wgKey 0 1 0, wg0), (wgKey 0 2 0, wg2)] }
def args2 : Args := { args1 with s1 := rg (.s 5) }

/-- Every block an area can have lies in memory. -/
theorem area_blocks : ((List.range 4609).all fun i =>
    gives (blockPiece (stopWg saveState wg2) (myCtx saveState) (0x8000 + 1024 * i) kWrite) (glob (0x8000 + 1024 * i) 1024)) = true := by
  decide +kernel

/-- The pieces of the area after its header. -/
def areaRest : List Piece := ((List.range (1 + Config.saveSize wg2.kdesc.toNat % 4607)).map fun i => (0x8000 + 1024 * (i + 1), 1024)).map fun p => glob p.1 p.2

theorem area_all : areaPieces (stopWg saveState wg2) (myCtx saveState) 0x8000 (areaBlocks wg2) kWrite = .ok (glob 0x8000 1024 :: areaRest) := by
  have n : areaBlocks wg2 = 1 + Config.saveSize wg2.kdesc.toNat % 4607 + 1 := by unfold areaBlocks; omega
  have lt : Config.saveSize wg2.kdesc.toNat % 4607 < 4607 := Nat.mod_lt _ (by decide)
  unfold areaPieces
  rw [mapM_ok (g := fun i => glob (0x8000 + 1024 * i) 1024) _ fun i hi =>
    of_gives (List.all_eq_true.1 area_blocks i (List.mem_range.2 (by have := List.mem_range.1 hi; omega)))]
  rw [n, List.range_succ_eq_map, List.map_cons, List.map_map]
  unfold areaRest
  rw [List.map_map]
  rfl

theorem area_leaves : leavesSet kWrite (glob 0x8000 1024 :: areaRest) :=
  leaves_globs kWrite ((0x8000, 1024) :: (List.range (1 + Config.saveSize wg2.kdesc.toNat % 4607)).map fun i => (0x8000 + 1024 * (i + 1), 1024))


/-! ## Single steps, with results worked out from the rules of the spec -/

/-- The small machine with registers of lane 0 set. -/
def regs (l : List (Nat × Word)) : State := l.foldl (fun s p => frameSet s 0 0 p.1 p.2) S0
/-- Four lanes at 0x1000, with registers set as (lane, register, value). -/
def lanes4 (l : List (Nat × Nat × Word)) : State :=
  l.foldl (fun s p => frameSet s 0 p.1 p.2.1 p.2.2) { withFib (fun x => { x with exited := 0xFFFFFFF0 }) with grp := 15 }
/-- Registers of lane 0 after an instruction. -/
def gets (i : Instr) (s : State) (l : List Nat) : List Word := l.map fun n => frameGet (after (exec i s)) 0 0 n
/-- One register of the first four lanes after an instruction. -/
def across (i : Instr) (s : State) (n : Nat) : List Word := (List.range 4).map fun l => frameGet (after (exec i s)) 0 l n
/-- A predicate of all lanes after an instruction. -/
def predOf (i : Instr) (s : State) (n : Nat) : LaneMask := SMap.get 0 (me (after (exec i s))).preds n
def dst (r : Reg) : Dst := ⟨rg r, false, 0⟩

/-- R249's own values: v1 = 0x7FFFFFF0 and v2 = −0x20 give 0x7FFFFFFF with .sat; 3 − 5 is 0 with .sat, 0xFFFFFFFE without. -/
theorem test_iadd_clamps : gets (.iadd { base with ty := .s32, d := ⟨rg (.v 3), true, 0⟩, s0 := rg (.v 1), s1 := .reg (.v 2) true false })
    (regs [(1, 0x7FFFFFF0), (2, 0xFFFFFFE0)]) [3] = [0x7FFFFFFF] := by decide +kernel
theorem test_isub_wraps : gets (.isub { base with ty := .n32, d := dst (.v 4), s0 := rg (.v 1), s1 := rg (.v 2) }) (regs [(1, 3), (2, 5)]) [4] = [0xFFFFFFFE] := by
  decide +kernel
theorem test_isub_clamps : gets (.isub { base with ty := .n32, d := ⟨rg (.v 4), true, 0⟩, s0 := rg (.v 1), s1 := rg (.v 2) }) (regs [(1, 3), (2, 5)]) [4] = [0] := by
  decide +kernel
/-- −1 · 2 = −2: the high half is −1; as n32 the product is 0x1FFFFFFFE. -/
theorem test_imulhi_signs : gets (.imulhi { base with ty := .s32, d := dst (.v 3), s0 := rg (.v 1), s1 := rg (.v 2) }) (regs [(1, 0xFFFFFFFF), (2, 2)]) [3] = [0xFFFFFFFF]
    ∧ gets (.imulhi { base with ty := .n32, d := dst (.v 3), s0 := rg (.v 1), s1 := rg (.v 2) }) (regs [(1, 0xFFFFFFFF), (2, 2)]) [3] = [1] := by decide +kernel
/-- R250: −7 / 2 is −3, remainder −1; a division by zero gives all ones and a. -/
theorem test_idiv_truncates : gets (.idiv { base with ty := .s32, d := dst (.v 3), s0 := rg (.v 1), s1 := rg (.v 2), s3 := rg (.v 4) })
    (regs [(1, 0xFFFFFFF9), (2, 2)]) [3, 4] = [0xFFFFFFFD, 0xFFFFFFFF] := by decide +kernel
theorem test_idiv_by_zero : gets (.idiv { base with ty := .n32, d := ⟨rg (.v 3), true, 0⟩, s0 := rg (.v 1), s1 := rg (.v 2), s3 := rg (.v 4) })
    (regs [(1, 9)]) [3, 4] = [0xFFFFFFFF, 9] := by decide +kernel
/-- R251: LUT 0xD8 is "b where a is set, else c". -/
theorem test_lop3_selects : gets (.lop3 { base with d := dst (.v 4), s0 := rg (.v 1), s1 := rg (.v 2), s2 := rg (.v 3), s3 := .code 0xD8 })
    (regs [(1, 0x0000FFFF), (2, 0x12345678), (3, 0xABCDEF01)]) [4] = [0xABCD5678] := by decide +kernel
/-- R252: a count is never taken modulo the width. -/
theorem test_shl_by_width : gets (.shl { base with fmt := .I, d := dst (.v 2), s0 := rg (.v 1), imm := 32 }) (regs [(1, 1)]) [2] = [0] := by decide +kernel
theorem test_sar_past_width : gets (.sar { base with ty := .s32, fmt := .I, d := dst (.v 2), s0 := rg (.v 1), imm := 40 }) (regs [(1, 0x80000000)]) [2] = [0xFFFFFFFF] := by
  decide +kernel
/-- R255. -/
theorem test_clz_of_zero : gets (.clz { base with d := dst (.v 2), s0 := rg (.v 1) }) (regs []) [2] = [32] := by decide +kernel
theorem test_brev : gets (.brev { base with d := dst (.v 2), s0 := rg (.v 1) }) (regs [(1, 1)]) [2] = [0x80000000] := by decide +kernel
/-- R256: signed and unsigned relations differ on 0x80000000 < 1. -/
theorem test_isetp_signs : (predOf (.isetp { base with ty := .s32, d := dst (.p 1), s0 := rg (.v 1), s1 := rg (.v 2) }) (regs [(1, 0x80000000), (2, 1)]) 1,
    predOf (.isetp { base with ty := .n32, d := dst (.p 1), s0 := rg (.v 1), s1 := rg (.v 2) }) (regs [(1, 0x80000000), (2, 1)]) 1) = (1, 0) := by decide +kernel
/-- R258: MOVI.s64 extends the sign. -/
theorem test_movi_extends : gets (.movi { base with ty := .s64, fmt := .I, d := dst (.v 2), imm := 0xFFFFFFFE }) (regs []) [2, 3] = [0xFFFFFFFE, 0xFFFFFFFF] := by
  decide +kernel
/-- R264's own example: targets 2, 2, 0, 5 and values 10 to 13. -/
theorem test_lanewr : across (.lanewr { base with d := dst (.v 1), s0 := rg (.v 2), s1 := rg (.v 3) })
    (lanes4 [(0, 2, 10), (1, 2, 11), (2, 2, 12), (3, 2, 13), (0, 3, 2), (1, 3, 2), (2, 3, 0), (3, 3, 5), (1, 1, 7), (3, 1, 8)]) 1 = [12, 7, 11, 8] := by decide +kernel
/-- R263: .xor with lane operand 1 in segments of two lanes exchanges neighbours, each source read before any destination. -/
theorem test_shfl_exchanges : across (.shfl { base with fmt := .I, d := dst (.v 1), s0 := rg (.v 1), imm := 0x1C1 })
    (lanes4 [(0, 1, 10), (1, 1, 11), (2, 1, 12), (3, 1, 13)]) 1 = [11, 10, 13, 12] := by decide +kernel
/-- R291: 1 + 2 = 3; 0 · Inf is the canonical NaN. -/
theorem test_fadd : gets (.fadd { base with ty := .f32, d := dst (.v 3), s0 := rg (.v 1), s1 := rg (.v 2) }) (regs [(1, 0x3F800000), (2, 0x40000000)]) [3] = [0x40400000] := by
  decide +kernel
/-- R291's own example: 3.0 · 0.5 doubled is 3.0. -/
theorem test_fmul_scales : gets (.fmul { base with ty := .f64, d := ⟨rg (.v 4), false, 1⟩, s0 := rg (.v 0), s1 := rg (.v 2) })
    (regs [(1, 0x40080000), (3, 0x3FE00000)]) [4, 5] = [0, 0x40080000] := by decide +kernel
/-- R293: −0 = +0, and a NaN is not equal to itself. -/
theorem test_fsetp_zeros : (predOf (.fsetp { base with ty := .f32, d := dst (.p 1), s0 := rg (.v 1), s1 := rg (.v 2), s2 := .code 0 }) (regs [(1, 0x80000000)]) 1,
    predOf (.fsetp { base with ty := .f32, d := dst (.p 1), s0 := rg (.v 1), s1 := rg (.v 1), s2 := .code 5 }) (regs [(1, 0x7FC00000)]) 1) = (1, 1) := by decide +kernel
/-- R295: −1.5 to s32 rounds to nearest even, −2; a NaN gives 0. -/
theorem test_fcvt_rounds : (gets (.fcvt { base with ty := .s32, d := dst (.v 2), s0 := rg (.v 1), s1 := .code 5 }) (regs [(1, 0xBFC00000)]) [2],
    gets (.fcvt { base with ty := .s32, d := dst (.v 2), s0 := rg (.v 1), s1 := .code 5 }) (regs [(1, 0x7FC00000)]) [2]) = ([0xFFFFFFFE], [0]) := by decide +kernel
/-- R296's own examples: −2.75 towards zero is −2.0; 3.5 to nearest is 4.0. -/
theorem test_frnd : (gets (.frnd { base with ty := .f32, d := dst (.v 2), s0 := rg (.v 1), s1 := .code 2 }) (regs [(1, 0xC0300000)]) [2],
    gets (.frnd { base with ty := .f32, d := dst (.v 2), s0 := rg (.v 1), s1 := .code 1 }) (regs [(1, 0x40600000)]) [2]) = ([0xC0000000], [0x40800000]) := by decide +kernel
/-- R297: the smallest negative subnormal has class bit 2. -/
theorem test_fclass : gets (.fclass { base with ty := .f32, d := dst (.v 2), s0 := rg (.v 1) }) (regs [(1, 0x80000001)]) [2] = [4] := by decide +kernel
/-- R298: 1 / 4 and √9. -/
theorem test_rcp : gets (.rcp { base with ty := .f32, d := dst (.v 2), s0 := rg (.v 1) }) (regs [(1, 0x40800000)]) [2] = [0x3E800000] := by decide +kernel
theorem test_sqrt : gets (.sqrt { base with ty := .f32, d := dst (.v 2), s0 := rg (.v 1) }) (regs [(1, 0x41100000)]) [2] = [0x40400000] := by decide +kernel

/-- Scratchpad bytes 0x80, 0xFF at 256. -/
def bytes2 (s : State) : State := { s with scr := [(256, 0x80), (257, 0xFF)] }
/-- R85: an s8 is extended with its sign, an n16 with zeros. -/
theorem test_ld_extends : (gets (.ld { a0 with ty := .s8, fmt := .M }) (bytes2 S0) [1], gets (.ld { a0 with ty := .n16, fmt := .M }) (bytes2 S0) [1])
    = ([0xFFFFFF80], [0xFF80]) := by decide +kernel
/-- R93: an atomic answers the old value; the new one is in the scratchpad. -/
theorem test_atom_add : (gets (.atomAdd { a0 with ty := .n32, fmt := .M, s1 := rg (.v 5) }) (bytes2 (regs [(5, 2)])) [1],
    SMap.get 0 (after (exec (.atomAdd { a0 with ty := .n32, fmt := .M, s1 := rg (.v 5) }) (bytes2 (regs [(5, 2)])))).scr 256) = ([0xFF80], 0x82) := by decide +kernel
/-- R90: a store waits in the queue; the drain puts it in place. -/
theorem test_st_queues : let t := after (exec (.st { a0 with fmt := .M, s1 := rg (.v 5) }) (regs [(5, 0x01020304)]))
    ((me t).sq.map (·.bytes), SMap.get 0 t.scr 256, SMap.get 0 (after (exec (.storeQueueDrain 0) t)).scr 256) = ([[4, 3, 2, 1]], 0, 4) := by decide +kernel
/-- R247: BRA goes to PC + 12 + 12 · boff. -/
theorem test_bra_goes_back : (laneAt (me (after (exec (.bra { base with fmt := .X, boff := 0xFFFFFFFC }) S0))) 0).pc = 0xFDC := by decide +kernel
/-- R240: a call goes to its label with the return address on the link stack and a frame `aux` words on. -/
theorem test_call_links : let l := laneAt (me (after (exec (.call { base with fmt := .X, aux := 8, boff := 3 }) S0))) 0
    (l.pc, l.fp, l.depth, l.links.map (·.rpc)) = (0x1030, 8, 1, [0x100C]) := by decide +kernel
/-- R247: a guard that is false leaves the lane on the next instruction. -/
theorem test_bra_guarded : (laneAt (me (after (exec (.bra { base with ga := ⟨false, 0⟩, fmt := .X, boff := 3 }) S0))) 0).pc = 0x100C := by decide +kernel
/-- R248: TRAP queues SERVICE_CALL with 0xFF above the code and the lanes go on; BKPT stays. -/
theorem test_trap_entries : ((me (after (exec (.trap { base with fmt := .I, imm := 0x25 }) S0))).trapq.map fun e => (e.pc, e.info),
    (me (after (exec (.bkpt { base with fmt := .I, imm := 7 }) S0))).trapq.map fun e => (e.pc, e.info)) = ([(0x100C, 0xFF000025)], [(0x1000, 7)]) := by decide +kernel
/-- R265: VOTE.mask writes one bit for each active lane whose predicate is 1. -/
theorem test_vote_mask : SMap.get 0 (me (after (exec (.vote { base with d := dst (.s 8), s0 := rg (.p 3), s1 := .code 3 })
    { withFib (fun x => { x with exited := 0xFFFFFFF0, preds := [(3, 0xA)] }) with grp := 15 }))).sregs 8 = 0xA := by decide +kernel
/-- R266: REDUX adds over the active lanes. -/
theorem test_redux_add : SMap.get 0 (me (after (exec (.redux { base with ty := .s32, d := dst (.s 5), s0 := rg (.v 1), s1 := .code 0 })
    (lanes4 [(0, 1, 1), (1, 1, 2), (2, 1, 3), (3, 1, 4)])))).sregs 5 = 10 := by decide +kernel
/-- R211: the last lane's EXIT ends its fibre's lanes. -/
theorem test_exit : ((me (after (exec (.exit base) S0))).exited == 0xFFFFFFFF || !hasFib (after (exec (.exit base) S0)) 0) = true := by decide +kernel
theorem witness_IntegerDivide_1 :
    ∃ (a : Args) (s : State) (r q : Reg) (n b n' b' : Bool), hasFib s s.cur = true ∧ a.d.opnd = .reg r n b ∧ a.s3 = .reg q n' b' :=
  ⟨a0, S0, .v 1, .v 6, false, false, false, false, by decide +kernel, rfl, rfl⟩

theorem witness_BitwiseLogic_1 :
    ∃ (a : Args) (s : State) (r : Reg) (n b : Bool), hasFib s s.cur = true ∧ a.d.opnd = .reg r n b :=
  ⟨a0, S0, .v 1, false, false, by decide +kernel, rfl⟩

theorem witness_PredicateMoves_1 :
    ∃ (a : Args) (s : State), hasFib s s.cur = true :=
  ⟨a0, S0, by decide +kernel⟩

theorem witness_Shuffle_1 :
    ∃ (a : Args) (s : State) (r : Reg) (n b : Bool), hasFib s s.cur = true ∧ a.d.opnd = .reg r n b :=
  ⟨a0, S0, .v 1, false, false, by decide +kernel, rfl⟩

theorem witness_LaneWrite_1 :
    ∃ (a : Args) (s : State) (r : Reg) (n b : Bool), hasFib s s.cur = true ∧ a.d.opnd = .reg r n b :=
  ⟨a0, S0, .v 1, false, false, by decide +kernel, rfl⟩

theorem witness_Vote_1 :
    ∃ (a : Args) (s : State) (r : Reg) (n b : Bool), hasFib s s.cur = true ∧ a.d.opnd = .reg r n b :=
  ⟨a0, S0, .v 1, false, false, by decide +kernel, rfl⟩

theorem witness_ExactArithmetic_1 :
    ∃ x y : Machine.Num, finite x ∧ finite y :=
  ⟨.fin true 3 0, .fin false 0 5, by simp [finite], by simp [finite]⟩

theorem witness_ExactArithmetic_2 :
    ∃ (m : RMode) (l : List Machine.Num), (∀ x ∈ l, finite x) :=
  ⟨.rdn, [.fin true 3 0], by simp [finite]⟩

theorem witness_ExactArithmetic_3 :
    ∃ (m : RMode) (l : List Machine.Num), (∀ x ∈ l, finite x) ∧ (l.map ratOf).sum = 0 ∧ (∀ n : Bool, ∃ x ∈ l, ∀ e, x ≠ .fin n 0 e) :=
  ⟨.rne, [.fin false 1 0, .fin true 1 0], by simp [finite], by simp [ratOf], fun n => ⟨.fin false 1 0, by simp, by simp⟩⟩

theorem witness_ExactArithmetic_5 :
    ∃ (m : RMode) (x : Machine.Num), finite x :=
  ⟨.rne, .fin true 3 0, by simp [finite]⟩

theorem witness_ValueOrder_1 :
    ∃ x y : Machine.Num, finite x ∧ finite y :=
  ⟨.fin true 3 0, .fin false 0 5, by simp [finite], by simp [finite]⟩

theorem witness_ValueOrder_2 :
    ∃ x : Machine.Num, finite x :=
  ⟨.fin true 3 0, by simp [finite]⟩

theorem witness_RoundingKeepsCodes_1 :
    ∃ (t : Ty) (nc c : Nat) (m : RMode), Claims.FormatOf t nc ∧ c < 2 ^ tyWidth t ∧ decodeFloat t nc c ≠ .nan :=
  ⟨.f32, 0, 0x3F800000, .rne, .inl (by decide), by decide, by decide +kernel⟩

theorem witness_RoundingIsNearest_1 :
    ∃ (t : Ty) (nc : Nat) (x : Machine.Num), Claims.FormatOf t nc ∧ finite x ∧ finite (decodeFloat t nc (roundTo (fmtOf t nc) (.mode .rne) false x)) ∧ ∃ c, c < 2 ^ tyWidth t ∧ finite (decodeFloat t nc c) :=
  ⟨.f32, 0, .fin false 1 0, .inl (by decide), by simp [finite], finite_of (by decide +kernel), 0x3F800000, by decide, finite_of (by decide +kernel)⟩

theorem witness_RoundingIsNearest_2 :
    ∃ (t : Ty) (nc : Nat) (x : Machine.Num), Claims.FormatOf t nc ∧ finite x ∧ (t ≠ .b8 ∨ nc / 8 % 2 = 0 ∨ 0 ≤ ratOf x) :=
  ⟨.b8, 1, .fin false 1 0, .inr ⟨rfl, by decide⟩, by simp [finite], .inr (.inl (by decide))⟩

theorem witness_BranchTargets_1 :
    ∃ (a : Args) (s : State), hasFib s s.cur = true :=
  ⟨a0, S0, by decide +kernel⟩

theorem witness_BranchTargets_2 :
    ∃ (a : Args) (s : State), hasFib s s.cur = true ∧ (∀ i ∈ lanesOf (active s a), addrVal s a.s0 i % 4 = 0) :=
  ⟨a0, S0, by decide +kernel, by decide +kernel⟩

theorem witness_MisalignedBranch_1 :
    ∃ (a : Args) (s : State) (m : LaneMask), hasFib s s.cur = true ∧ queueRoom s = true ∧ (∀ i < 32, m.getLsbD i = true ↔ (active s a).getLsbD i = true ∧ addrVal s a.s0 i % 4 ≠ 0) ∧ m ≠ 0 :=
  ⟨a0, withFib fun x => { x with sregs := [(2, 2)] }, 1, by decide +kernel, by decide +kernel, by decide +kernel, by decide⟩

theorem witness_CallFrames_1 :
    ∃ (a : Args) (s : State), hasFib s s.cur = true ∧ (∀ i ∈ lanesOf (active s a), callFits s (a.aux.toNat % 64) i = true) :=
  ⟨{ a0 with aux := 12 }, S0, by decide +kernel, by decide +kernel⟩

theorem witness_CallFrames_2 :
    ∃ (a : Args) (s : State), hasFib s s.cur = true ∧ (∀ i ∈ lanesOf (active s a), callFits s (a.aux.toNat % 64) i = true ∧ addrVal s a.s0 i % 4 = 0) :=
  ⟨{ a0 with aux := 12 }, S0, by decide +kernel, by decide +kernel⟩

theorem witness_StackOverflow_1 :
    ∃ (a : Args) (s : State) (lim : Nat), hasFib s s.cur = true ∧ queueRoom s = true ∧ active s a ≠ 0 ∧ (∀ i ∈ lanesOf (active s a), if lim = 0 then (me s).spw < (laneAt (me s) i).fp + a.aux.toNat % 64 + 64 else lim = 1 ∧ (laneAt (me s) i).fp + a.aux.toNat % 64 + 64 ≤ (me s).spw ∧ (me s).lkn < (laneAt (me s) i).depth + 1) :=
  ⟨{ a0 with aux := 12 }, withFib fun x => { x with spw := 64 }, 0, by decide +kernel⟩

theorem witness_Returns_1 :
    ∃ (a : Args) (s : State), hasFib s s.cur = true ∧ (∀ i ∈ lanesOf (active s a), returns (laneAt (me s) i) = true) :=
  ⟨a0, withFib fun x => { x with lanes := Vector.ofFn fun _ => { Lane.start 0x1000 with fp := 12, depth := 1, links := [⟨0x2000, 12, false, 0⟩] } }, by decide +kernel, by decide +kernel⟩

theorem witness_Exits_1 :
    ∃ (a : Args) (s : State), hasFib s s.cur = true ∧ liveMask (me s) &&& ~~~ active s a ≠ 0 :=
  ⟨{ a0 with ga := ⟨true, 7⟩ }, S0, by decide +kernel, by decide +kernel⟩

theorem witness_Exits_2 :
    ∃ (a : Args) (s : State), hasFib s s.cur = true ∧ active s a ≠ 0 ∧ liveMask (me s) &&& ~~~ active s a = 0 ∧ (me s).sq = [] ∧ (∀ q < 4, (queueAt (me s) q).entries = [] ∨ (queueAt (me s) q).stopped = true) :=
  ⟨a0, S0, by decide +kernel, by decide +kernel, by decide +kernel, rfl, by decide +kernel⟩

theorem witness_Exits_3 :
    ∃ (a : Args) (s : State), hasFib s s.cur = true ∧ (∀ i ∈ lanesOf (active s a), (laneAt (me s) i).depth = 0) :=
  ⟨a0, S0, by decide +kernel, by decide +kernel⟩

theorem witness_Yields_1 :
    ∃ (a : Args) (s : State), hasFib s s.cur = true ∧ (slotRec s (slotOf s.cur)).cur < 4 :=
  ⟨a0, S0, by decide +kernel, by decide +kernel⟩

theorem witness_Regangs_1 :
    ∃ (a : Args) (s : State), hasFib s s.cur = true ∧ (me s).parked &&& (s.grp &&& ~~~ active s a) = 0 ∧ (∀ i < 32, (active s a).getLsbD i = true → (laneAt (me s) i).pc = s.ipc) :=
  ⟨a0, S0, by decide +kernel, by decide +kernel, by decide +kernel⟩

theorem witness_TrapInstructions_1 :
    ∃ (a : Args) (s : State), hasFib s s.cur = true ∧ queueRoom s = true ∧ active s a ≠ 0 :=
  ⟨a0, S0, by decide +kernel, by decide +kernel, by decide +kernel⟩

theorem witness_FetchControl_1 :
    ∃ (a : Args) (s : State), hasFib s s.cur = true ∧ noWriteTenure s :=
  ⟨a0, S0, by decide +kernel, fun c l => no_conflicts rfl c l false⟩

theorem witness_FetchControl_2 :
    ∃ (a : Args) (s : State), hasFib s s.cur = true ∧ (me s).sq = [] :=
  ⟨a0, S0, by decide +kernel, rfl⟩

theorem witness_RegisterLoads_1 :
    ∃ (a : Args) (s : State) (ps : Nat → List Piece) (r : Reg) (n b : Bool), hasFib s s.cur = true ∧ scClear s a ∧ (windowDst a.d.opnd ≠ none → s.latePts.head? ≠ some true) ∧ a.d.opnd = .reg r n b ∧ (regUniform r = true → (accessLanes s a).length ≤ 1) ∧ (∀ l ∈ accessLanes s a, checked a s (tyWidth a.ty / 8) kRead .single l = .ok (ps l) ∧ plainPieces s kRead false (ps l) ∧ loadDrains (me s) (ps l) = false) :=
  ⟨a0, S0, fun _ => [scr0 4], .v 1, false, false, by decide +kernel, fun h => absurd h (by decide), by decide, rfl, by decide,
    only 0 (by decide +kernel) ⟨of_gives (by decide +kernel), plain_own _ _ _ _ _ rfl, by decide +kernel⟩⟩

theorem witness_BlockLoads_1 :
    ∃ (a : Args) (s : State) (ps : Nat → List Piece) (r : Reg) (n b : Bool) (k : Nat), hasFib s s.cur = true ∧ scClear s a ∧ (windowDst a.d.opnd ≠ none → s.latePts.head? ≠ some true) ∧ k = (if a.ty = .b64 then 8 else 4) ∧ a.d.opnd = .reg r n b ∧ latched r = true ∧ 8 ≤ (slotRec s (slotOf s.cur)).z ∧ (slotRec s (slotOf s.cur)).z ≤ 512 ∧ (∀ q, r = .o q → q.val = 0 ∨ q.val = 4 ∧ k = 4) ∧ (∀ l ∈ accessLanes s a, checked a s (4 * k) kRead .wide l = .ok (ps l) ∧ plainPieces s kRead false (ps l) ∧ loadDrains (me s) (ps l) = false) :=
  ⟨a0, S0, fun _ => [scr0 16], .v 1, false, false, 4, by decide +kernel, fun h => absurd h (by decide), by decide, rfl, rfl, by decide, by decide +kernel, by decide +kernel,
    by simp, only 0 (by decide +kernel) ⟨of_gives (by decide +kernel), plain_own _ _ _ _ _ rfl, by decide +kernel⟩⟩

theorem witness_Stores_1 :
    ∃ (a : Args) (s : State) (ps : Nat → List Piece), hasFib s s.cur = true ∧ a.ord.toNat ≠ 3 ∧ (∀ l ∈ accessLanes s a, checked a s (tyWidth a.ty / 8) kWrite .single l = .ok (ps l) ∧ leavesSet kWrite (ps l) ∧ walkClear s (ps l)) :=
  ⟨a0, S0, fun _ => [scr0 4], by decide +kernel, by decide, only 0 (by decide +kernel) ⟨of_gives (by decide +kernel), leaves_own _ _ _, (calm rfl 0 false _).1⟩⟩

theorem witness_Stores_2 :
    ∃ (a : Args) (s : State) (ps : Nat → List Piece), hasFib s s.cur = true ∧ a.ord.toNat ≠ 3 ∧ (∀ l ∈ accessLanes s a, checked a s (tyWidth a.ty / 8) kRmw (if pcieForm 0 a.ty then .pcie else .other) l = .ok (ps l) ∧ leavesSet kRmw (ps l) ∧ walkClear s (ps l)) :=
  ⟨{ a0 with ty := .n32 }, S0, fun _ => [scr0 4], by decide +kernel, by decide, only 0 (by decide +kernel) ⟨of_gives (by decide +kernel), leaves_own _ _ _, (calm rfl 0 false _).1⟩⟩

theorem witness_AtomicUpdates_1 :
    ∃ (a : Args) (s : State) (ps : Nat → List Piece) (r : Reg) (n b : Bool) (l : Nat) (rest : List Nat), hasFib s s.cur = true ∧ (me s).sq = [] ∧ a.ord.toNat = 0 ∧ a.d.opnd = .reg r n b ∧ accessLanes s a = l :: rest ∧ (regUniform r = true → rest = []) ∧ s.objs = [] ∧ (∀ j ∈ accessLanes s a, checked a s (tyWidth a.ty / 8) kRmw (if pcieForm 0 a.ty then .pcie else .other) j = .ok (ps j) ∧ plainPieces s kRmw true (ps j) ∧ ∀ p ∈ ps j, (isHost p.loc && inMem p.loc) = false) ∧ ∃ p, ps l = [p] ∧ p.loc / 128 = (p.loc + p.n - 1) / 128 ∧ p.n = tyWidth a.ty / 8 ∧ holds r = true ∧ rest = [] :=
  ⟨{ a0 with ty := .n32 }, S0, fun _ => [scr0 4], .v 1, false, false, 0, [], by decide +kernel, rfl, rfl, rfl, by decide +kernel, by decide, rfl,
    only 0 (by decide +kernel) ⟨of_gives (by decide +kernel), plain_own _ _ _ _ _ rfl, by decide +kernel⟩, scr0 4, rfl, by decide, by decide, rfl, rfl⟩

theorem witness_MisalignedAccess_1 :
    ∃ (a : Args) (s : State), hasFib s s.cur = true ∧ queueRoom s = true ∧ active s a ≠ 0 ∧ (me s).sq = [] ∧ s.readPts = [] ∧ a.ord.toNat ≠ 3 ∧ (me s).marks = [] ∧ (windowDst a.d.opnd ≠ none → s.latePts = []) ∧ (uniformOpnd a.d.opnd && uniformOpnd a.s0 && uniformOpnd a.s1) = false ∧ (∀ l ∈ lanesOf (active s a), effAddr s a l % (tyWidth a.ty / 8) ≠ 0) :=
  ⟨a0, withFib fun x => { x with sregs := [(2, 257)] }, by decide +kernel, by decide +kernel, by decide +kernel, rfl, rfl, by decide, rfl, fun _ => rfl, by decide, by decide +kernel⟩

theorem witness_StoreDrains_1 :
    ∃ (s : State) (f : Nat) (e : SqEntry) (rest : List SqEntry), hasFib s f = true ∧ (fib s f).sq = e :: rest ∧ (fib s f).exiting = false ∧ e.more = [] ∧ e.bytes ≠ [] ∧ e.loc / 128 = (e.loc + e.bytes.length - 1) / 128 ∧ (e.ord ≠ 0 → fibReady s f e.scope = true) ∧ e.mt ≠ 3 ∧ (isHost e.loc && inMem e.loc) = false ∧ (inMem e.loc = true → conflicts s (coreOf f) (e.loc / 128) true = []) ∧ s.objs = [] ∧ (e.red.isSome = true → poisoned s.mem e.loc e.bytes.length = false) :=
  ⟨withFib fun x => { x with sq := [sq0] }, 0, sq0, [], by decide +kernel, rfl, rfl, rfl, by decide, by decide, by decide, by decide, by decide +kernel, fun _ => no_conflicts rfl _ _ _, rfl, by decide⟩

theorem witness_PrefetchAndCacheControl_1 :
    ∃ (a : Args) (s : State), hasFib s s.cur = true ∧ noWriteTenure s :=
  ⟨a0, S0, by decide +kernel, fun c l => no_conflicts rfl c l false⟩

theorem witness_PrefetchAndCacheControl_2 :
    ∃ (a : Args) (s : State), hasFib s s.cur = true :=
  ⟨a0, S0, by decide +kernel⟩

theorem witness_Fences_1 :
    ∃ (a : Args) (s : State), hasFib s s.cur = true ∧ (me s).sq = [] ∧ s.readPts = [] ∧ fibReady s s.cur a.scope.toNat = true :=
  ⟨{ a0 with scope := 6 }, S0, by decide +kernel, rfl, rfl, by decide +kernel⟩

theorem witness_Fences_2 :
    ∃ (a : Args) (s : State), hasFib s s.cur = true ∧ (me s).sq = [] ∧ fibReady s s.cur a.scope.toNat = false :=
  ⟨{ a0 with scope := 6 }, { S0 with hub := { S0.hub with ports := [{ Port.reset with relaxed := [⟨0, 0, [1], true⟩], accepted := 1 }, Port.reset] } }, by decide +kernel, rfl, by decide +kernel⟩

theorem witness_Fences_3 :
    ∃ (f : Nat) (s : State) (w : Wait) (scope : Nat) (sc store : Bool), hasFib s f = true ∧ (fib s f).sq = [] ∧ s.readPts = [] ∧ (fib s f).waits = [w] ∧ w.kind = .fence scope sc store ∧ fibReady s f scope = true :=
  ⟨0, withFib fun x => { x with waits := [waitOf (.fence 6 true false)] }, waitOf (.fence 6 true false), 6, true, false, by decide +kernel, rfl, rfl, rfl, rfl, by decide +kernel⟩

theorem witness_WaitOnAddress_1 :
    ∃ (a : Args) (s : State) (p : Nat → Piece) (n : Fin 7) (ng ab : Bool), hasFib s s.cur = true ∧ a.d.opnd = .reg (.p n) ng ab ∧ (∀ l ∈ accessLanes s a, checked a s 4 kRead .monitor l = .ok [p l] ∧ plainPieces s kRead false [p l] ∧ loadDrains (me s) [p l] = false) :=
  ⟨{ a0 with d := ⟨rg (.p 1), false, 0⟩ }, S0, fun _ => scr0 4, 1, false, false, by decide +kernel, rfl,
    only 0 (by decide +kernel) ⟨of_gives (by decide +kernel), plain_own _ _ _ _ _ rfl, by decide +kernel⟩⟩

theorem witness_WaitOnAddress_2 :
    ∃ (f lane : Nat) (s : State) (w : Wait) (addr : List (Option (Nat × Nat))) (exp : List Word) (dl : List (Option Nat)) (reads : List Nat) (done : List (Option Bool)) (dst : Option Nat) (scope : Nat), hasFib s f = true ∧ s.readPts = [] ∧ lane < 32 ∧ done.length = 32 ∧ addr.length = 32 ∧ waitaOf (fib s f) = some w ∧ w.kind = .waita addr exp dl reads done dst false scope ∧ (∀ i < 32, i ≠ lane → addr.getD i none ≠ none → done.getD i none ≠ none) ∧ waitaWakes s f lane w = true ∧ (∀ p, waitaWord lane w = some p → inMem p.1 = true → conflicts s (coreOf f) (p.1 / 128) false = []) :=
  ⟨0, 0, withFib fun x => { x with waits := [waitOf (waitaK 5 none)] }, waitOf (waitaK 5 none), monAddr, 5 :: List.replicate 31 0, List.replicate 32 none, List.replicate 32 0, List.replicate 32 none, some 1, 3,
    by decide +kernel, rfl, by decide, by decide, by decide, by decide +kernel, rfl, by decide +kernel, by decide +kernel, fun _ _ _ => no_conflicts rfl _ _ _⟩

theorem witness_WaitOnAddress_3 :
    ∃ (f lane : Nat) (s : State) (w : Wait) (addr : List (Option (Nat × Nat))) (exp : List Word) (dl : List (Option Nat)) (reads : List Nat) (done : List (Option Bool)) (dst : Option Nat) (scope : Nat), hasFib s f = true ∧ s.readPts = [] ∧ lane < 32 ∧ done.length = 32 ∧ addr.length = 32 ∧ waitaOf (fib s f) = some w ∧ w.kind = .waita addr exp dl reads done dst false scope ∧ (∀ i < 32, i ≠ lane → addr.getD i none ≠ none → done.getD i none ≠ none) ∧ waitaExpired s lane w = true :=
  ⟨0, 0, withFib fun x => { x with waits := [waitOf (waitaK 0 (some 0))] }, waitOf (waitaK 0 (some 0)), monAddr, 0 :: List.replicate 31 0, some 0 :: List.replicate 31 none, List.replicate 32 0, List.replicate 32 none, some 1, 3,
    by decide +kernel, rfl, by decide, by decide, by decide, by decide +kernel, rfl, by decide +kernel, by decide +kernel⟩

theorem witness_TileOpens_1 :
    ∃ (a : Args) (s : State) (ps : List Piece) (d : BitVec 512) (p : Piece) (n : Nat), hasFib s s.cur = true ∧ checkAccess s s.cur (lane0 s) a.space.toNat (effAddr s a (lane0 s)) 64 64 kRead .wide false = .ok ps ∧ plainPieces s kRead false ps ∧ loadDrains (me s) ps = false ∧ d = BitVec.ofNat 512 (ofBytes (loadBytes s a.space.toNat ps)) ∧ tileInvalid d = false ∧ globalPiece (afterRead s a.space.toNat ps) (myCtx s) (tileBase d) 1 kRead true = .ok p ∧ walkClear s [p] ∧ isDevice p.loc = false ∧ tooLarge d = false ∧ freeEntry s (homeDie p.loc) (homeSlice p.loc) = some n :=
  ⟨{ a0 with d := ⟨rg (.s 6), false, 0⟩, s0 := rg (.s 4) }, { S0 with scr := [(513, 0x80), (520, 16), (536, 1), (552, 0x21)] }, [ownPiece (scrLoc 0 512) 64], desc0,
    glob 0x8000 1, 0, by decide +kernel, of_gives (by decide +kernel), plain_own _ _ _ _ _ rfl,
    by decide +kernel, rfl, by decide +kernel, of_gives (by decide +kernel), (calm rfl 0 false _).1, by decide +kernel, by decide +kernel, by decide +kernel⟩

theorem witness_TenureGranted_1 :
    ∃ (a : Args) (s : State) (q : TileReq) (y : Home) (i : Nat), hasFib s s.cur = true ∧ q.h = scalar s a.s0 ∧ scalar s a.s1 < 4 ∧ q.wr = (scalar s a.s1).testBit 0 ∧ q.pin = (scalar s a.s1).testBit 1 ∧ y.part = (me s).part ∧ tileTurn s s.cur q.h = true ∧ Grantable s s.cur q y i :=
  ⟨{ t0 with s1 := rg (.s 5) }, { tileState [] with fibres := [(0, { fib0 with sregs := [(3, 2 ^ 24), (5, 1)] })] }, { h := 2 ^ 24, wr := true, pin := false }, newHome 0 0 desc0, 0,
    pack4 (by decide +kernel) ⟨by decide +kernel, rfl, by decide +kernel,
    by refine ⟨?_, ?_, ?_, ?_, ?_, ?_, fun _ _ _ _ => (calm rfl 0 false _).1⟩ <;> decide +kernel⟩⟩

theorem witness_TenureGranted_2 :
    ∃ (a : Args) (s : State) (q : TileReq) (y : Home), hasFib s s.cur = true ∧ q.h = scalar s a.s0 ∧ scalar s a.s1 < 4 ∧ q.wr = (scalar s a.s1).testBit 0 ∧ q.pin = (scalar s a.s1).testBit 1 ∧ homeOf s q.h = some y ∧ y.part = (me s).part ∧ y.kind ≠ 1 ∧ tooLarge y.desc = false ∧ (mapTile s (myCtx s) y.desc q.wr).fault = none ∧ (mapTile s (myCtx s) y.desc q.wr).normal = true ∧ myHolder s s.cur q.h = none ∧ (pickEntry s (coreOf s.cur) []).isSome = true ∧ tenureConflicts s s.cur q.h (mapTile s (myCtx s) y.desc q.wr).lines q.wr ≠ [] :=
  ⟨{ t0 with s1 := rg (.s 5) }, conflictState, { h := 2 ^ 24, wr := true, pin := false }, { newHome 0 0 desc0 with holders := [(0, 0)] },
    by decide +kernel⟩

theorem witness_TenureGranted_3 :
    ∃ (f : Nat) (s : State) (w : Wait) (q : TileReq) (dst : Option Nat) (y : Home) (i : Nat), hasFib s f = true ∧ tacqWait s f = some (w, q, dst) ∧ tileTurn s f q.h = true ∧ Grantable s f q y i :=
  ⟨0, { tileState [] with fibres := [(0, { fib0 with waits := [waitOf (.tacq (2 ^ 24) true false (some 1))] })], tacqs := [⟨0, 2 ^ 24, true⟩] },
    waitOf (.tacq (2 ^ 24) true false (some 1)), { h := 2 ^ 24, wr := true, pin := false }, some 1, newHome 0 0 desc0, 0, by decide +kernel, by decide +kernel, by decide +kernel,
    by refine ⟨?_, ?_, ?_, ?_, ?_, ?_, fun _ _ _ _ => (calm rfl 0 false _).1⟩ <;> decide +kernel⟩

theorem witness_TenureReleased_1 :
    ∃ (a : Args) (s : State), hasFib s s.cur = true ∧ (me s).sq = [] ∧ s.readPts = [] ∧ checkHandle s (me s).part (scalar s a.s0) = none :=
  ⟨t0, tileState [(0, holder0 0)], by decide +kernel, rfl, rfl, by decide +kernel⟩

theorem witness_TileSplits_1 :
    ∃ (a : Args) (s : State) (n m : Fin 32) (g1 g2 g3 g4 : Bool) (y : Home) (i n0 n1 : Nat) (x : Holder), hasFib s s.cur = true ∧ a.d.opnd = .reg (.s n) g1 g2 ∧ a.s3 = .reg (.s m) g3 g4 ∧ n ≠ m ∧ checkHandle s (me s).part (scalar s a.s0) = none ∧ scalar s a.s1 < 2 ^ 26 ∧ homeOf s (scalar s a.s0) = some y ∧ y.kind ≠ 1 ∧ myHolder s s.cur (scalar s a.s0) = some (i, x) ∧ x.rvk = false ∧ scalar s a.s1 % 4 < tileDims y.desc ∧ 0 < scalar s a.s1 / 4 ∧ scalar s a.s1 / 4 < tileExt y.desc (scalar s a.s1 % 4) ∧ freeEntry s (homeOfHandle (scalar s a.s0) / 16384) (homeOfHandle (scalar s a.s0) / 512 % 32) = some n0 ∧ freeEntry { s with homes := FMap.put s.homes n0 y } (homeOfHandle (scalar s a.s0) / 16384) (homeOfHandle (scalar s a.s0) / 512 % 32) = some n1 ∧ twoEntries s (coreOf s.cur) i = true ∧ FMap.sortedFrom 0 (holderTable s (coreOf s.cur)) = true :=
  ⟨{ base with d := ⟨rg (.s 6), false, 0⟩, s0 := rg (.s 3), s1 := rg (.s 5), s3 := rg (.s 7) },
    { tileState [(0, holder0 0)] with fibres := [(0, { fib0 with sregs := [(3, 2 ^ 24), (5, 32)] })] }, 6, 7, false, false, false, false, newHome 0 0 desc0, 0, 1, 2, holder0 0,
    by decide +kernel, rfl, rfl, by decide, by decide +kernel, by decide +kernel, by decide +kernel, by decide, by decide +kernel, rfl, by decide +kernel⟩

theorem witness_TilesClose_1 :
    ∃ (a : Args) (s : State) (y : Home), hasFib s s.cur = true ∧ checkHandle s (me s).part (scalar s a.s0) = none ∧ homeOf s (scalar s a.s0) = some y ∧ y.kind = 1 ∧ homeOfHandle (scalar s a.s0) ∉ (childrenOf s (homeOfHandle (scalar s a.s0))).flatMap (tileTree s 48) :=
  ⟨t0, { tileState [] with homes := [(0, { newHome 0 1 desc0 with child0 := 1, child1 := 2 }), (1, newHome 0 2 desc0), (2, newHome 0 2 desc0)] },
    { newHome 0 1 desc0 with child0 := 1, child1 := 2 }, by decide +kernel, by decide +kernel, by decide +kernel, by decide, by decide +kernel⟩

theorem witness_TilesClose_2 :
    ∃ (a : Args) (s : State) (y : Home), hasFib s s.cur = true ∧ (me s).sq = [] ∧ homeOf s (scalar s a.s0) = some y ∧ scalar s a.s0 ≠ 0 ∧ y.part = (me s).part :=
  ⟨t0, tileState [], newHome 0 0 desc0, by decide +kernel, rfl, by decide +kernel, by decide +kernel, by decide +kernel⟩

theorem witness_TileQuery_1 :
    ∃ (a : Args) (s : State), hasFib s s.cur = true ∧ homeOf s (scalar s a.s0) = none :=
  ⟨t0, S0, by decide +kernel, by decide +kernel⟩

theorem witness_TileQuery_2 :
    ∃ (a : Args) (s : State), hasFib s s.cur = true ∧ ∃ y, homeOf s (scalar s a.s0) = some y ∧ y.part = (me s).part ∧ y.kind < 4 :=
  ⟨t0, tileState [], by decide +kernel, newHome 0 0 desc0, by decide +kernel, by decide +kernel, by decide⟩

theorem witness_TenureRecalled_1 :
    ∃ (core e : Nat) (s : State) (x : Holder), holderAt s core e = some x ∧ x.rvk = false ∧ recallDue s core e = true :=
  ⟨0, 0, { conflictState with tick := 1024, tacqs := [⟨0, 2 ^ 24, true⟩], fibres := [(0, { fib0 with waits := [waitOf (.tacq (2 ^ 24) true false (some 1))] })] }, holder0 4,
    by decide +kernel, rfl, by decide +kernel⟩

theorem witness_TenureRecalled_2 :
    ∃ (core e : Nat) (s : State) (x : Holder), holderAt s core e = some x ∧ deadlineDue s core e = true ∧ (∀ g, hasFib s g = true → coreOf g = core → (fib s g).sq = []) :=
  ⟨0, 0, tileState [(0, { holder0 0 with pin := true })], { holder0 0 with pin := true }, by decide +kernel, by decide +kernel, fun g hg _ => by rw [one_fib rfl hg]; rfl⟩

theorem witness_BarrierEvaluate_1 :
    ∃ v : Nat, v < 2 ^ 128 ∧ objRes v = none ∧ v.testBit 62 = true ∧ bits v 32 16 = 0 ∧ bits v 0 32 = 0 :=
  ⟨2 ^ 62, by decide, by decide, by decide, by decide, by decide⟩

theorem witness_BarrierEvaluate_2 :
    ∃ v : Nat, v < 2 ^ 128 ∧ (objRes v ≠ none ∨ v.testBit 62 = false ∨ bits v 32 16 ≠ 0 ∨ bits v 0 32 ≠ 0) :=
  ⟨2 ^ 62 + 1, by decide, by decide⟩

theorem witness_BarrierUpdates_1 :
    ∃ (a : Args) (s : State) (loc : Nat), hasFib s s.cur = true ∧ srcVal s .n32 0 a.s1 (lane0 s) < 65536 ∧ ObjReady a s kWrite loc :=
  ⟨{ a0 with s1 := rg .zero }, S0, scrLoc 0 256, by decide +kernel, by decide +kernel, objReady _ _ (by decide +kernel)⟩

theorem witness_BarrierUpdates_2 :
    ∃ (a : Args) (s : State) (loc : Nat), hasFib s s.cur = true ∧ ObjReady a s kRmw loc ∧ objRes (objFound s loc) = none ∧ -(2 ^ 31) ≤ toSigned 32 (bits (objFound s loc) 0 32) + toSigned 32 (srcVal s .s32 0 a.s1 (lane0 s)) ∧ toSigned 32 (bits (objFound s loc) 0 32) + toSigned 32 (srcVal s .s32 0 a.s1 (lane0 s)) < 2 ^ 31 :=
  ⟨{ a0 with s1 := rg .zero }, S0, scrLoc 0 256, by decide +kernel, objReady _ _ (by decide +kernel), by decide +kernel, by decide +kernel, by decide +kernel⟩

theorem witness_BarrierUpdates_3 :
    ∃ (a : Args) (s : State) (loc : Nat), hasFib s s.cur = true ∧ ObjReady a s kRmw loc ∧ objRes (objFound s loc) = none ∧ arrCount s a.s1 ≤ bits (objFound s loc) 32 16 :=
  ⟨{ a0 with s1 := rg .zero }, { S0 with scr := [(260, 3)] }, scrLoc 0 256, by decide +kernel, objReady _ _ (by decide +kernel), by decide +kernel, by decide +kernel⟩

theorem witness_BarrierWaits_1 :
    ∃ (a : Args) (s : State) (loc : Nat), hasFib s s.cur = true ∧ s.readPts = [] ∧ ObjReady a s kRead loc ∧ objRes (objFound s loc) = none ∧ (objFound s loc).testBit 63 ≠ (srcVal s .pred 0 a.s1 (lane0 s) == 1) :=
  ⟨{ a0 with s1 := rg .pt }, S0, scrLoc 0 256, by decide +kernel, rfl, objReady _ _ (by decide +kernel), by decide +kernel, by decide +kernel⟩

theorem witness_BarrierWaits_2 :
    ∃ (a : Args) (s : State) (loc : Nat), hasFib s s.cur = true ∧ s.readPts = [] ∧ ObjReady a s kRead loc ∧ objRes (objFound s loc) = none ∧ (objFound s loc).testBit 63 = (srcVal s .pred 0 a.s1 (lane0 s) == 1) ∧ s.objs.contains (objIndex loc) = true :=
  ⟨{ a0 with s1 := .reg .pt true false }, { S0 with objs := [16] }, scrLoc 0 256, by decide +kernel, rfl, objReady _ _ (by decide +kernel), by decide +kernel, by decide +kernel, by decide +kernel⟩

theorem witness_BarrierWaits_3 :
    ∃ (f : Nat) (s : State) (w : Wait) (loc addr scope : Nat) (parity acq : Bool), hasFib s f = true ∧ s.readPts = [] ∧ barwaitOf (fib s f) = some w ∧ w.kind = .barwait loc addr parity acq scope true :=
  ⟨0, withFib fun x => { x with waits := [waitOf (.barwait (scrLoc 0 256) 256 true false 1 true)] }, waitOf (.barwait (scrLoc 0 256) 256 true false 1 true), scrLoc 0 256, 256, 1, true, false,
    by decide +kernel, rfl, by decide +kernel, rfl⟩

theorem witness_EngineEnqueues_4 :
    ∃ (a : Args) (s : State) (v : Nat) (d : BitVec 512) (e : QEntry), hasFib s s.cur = true ∧ (me s).sq = [] ∧ s.readPts = [] ∧ opndNum a.s0 < 4 ∧ Machine.queueRoom (me s) (opndNum a.s0) = true ∧ scratchRecord s (scalar s a.s1) 64 = .ok v ∧ d = BitVec.ofNat 512 v ∧ copyTrap s 0 (scalar s a.s1) d = none ∧ e = { kind := .copy d 0, prog := 0, root := (me s).pgroot, klvl := (me s).klvl, ch := a.ch.toNat, tile := tileDescOf s (if (copyOf d).shnd = 0 then (copyOf d).dhnd else (copyOf d).shnd), sent := false, view := [], marks := [] } :=
  ⟨{ base with s0 := rg (.q 0), s1 := rg (.s 4) }, { S0 with scr := [(544, 255), (545, 255), (546, 255), (547, 255)] }, 0xFFFFFFFF * 2 ^ 256, BitVec.ofNat 512 (0xFFFFFFFF * 2 ^ 256), _,
    by decide +kernel, rfl, rfl, by decide, by decide +kernel, of_gives (by decide +kernel), rfl, none_of (by decide +kernel), rfl⟩

theorem witness_EngineEnqueues_1 :
    ∃ (a : Args) (s : State) (v : Nat) (d : BitVec 512) (e : QEntry), hasFib s s.cur = true ∧ (me s).sq = [] ∧ s.readPts = [] ∧ opndNum a.s0 < 4 ∧ Machine.queueRoom (me s) (opndNum a.s0) = true ∧ scratchRecord s (scalar s a.s1) 64 = .ok v ∧ d = BitVec.ofNat 512 v ∧ collInvalid (collRanks s (me s).part).length d = false ∧ bobjFault s (collOf d).bobj = none ∧ e = { kind := .coll d (partOf s (me s).part).collCount (collRanks s (me s).part), prog := 0, root := (me s).pgroot, klvl := (me s).klvl, ch := a.ch.toNat, tile := 0, sent := false, view := [], marks := [] } :=
  ⟨{ base with s0 := rg (.q 0), s1 := rg (.s 4) }, { S0 with scr := [(533, 1), (540, 255), (541, 255), (542, 255), (543, 255)] }, 2 ^ 168 + 0xFFFFFFFF * 2 ^ 224, BitVec.ofNat 512 (2 ^ 168 + 0xFFFFFFFF * 2 ^ 224), _,
    by decide +kernel, rfl, rfl, by decide, by decide +kernel, of_gives (by decide +kernel), rfl, by decide +kernel, by decide +kernel, rfl⟩

theorem witness_EngineEnqueues_2 :
    ∃ (a : Args) (s : State) (e : QEntry), hasFib s s.cur = true ∧ (me s).sq = [] ∧ s.readPts = [] ∧ opndNum a.s0 < 4 ∧ Machine.queueRoom (me s) (opndNum a.s0) = true ∧ scalar s a.s3 < 32 ∧ scalar s a.s3 % 8 ≠ 7 ∧ scalar s a.s3 / 8 ≠ 3 ∧ addrVal s a.s1 (lane0 s) % 4 = 0 ∧ (scalar s a.s3 / 8 = 1 ∨ ∃ ps, locateIn s s.cur (lane0 s) (if scalar s a.s3 / 8 = 0 then 2 else 5) (addrVal s a.s1 (lane0 s)) (addrVal s a.s1 (lane0 s)) 4 kWrite false = .ok ps) ∧ e = { kind := .flag (BitVec.ofNat 64 (addrVal s a.s1 (lane0 s))) (BitVec.ofNat 32 (srcVal s .b32 0 a.s2 (lane0 s))) (if scalar s a.s3 % 8 = 0 then 1 else scalar s a.s3 % 8) (scalar s a.s3 / 8), prog := 0, root := (me s).pgroot, klvl := (me s).klvl, ch := 0, tile := 0, sent := false, view := [], marks := [] } :=
  ⟨{ base with s0 := rg (.q 3), s1 := rg (.s 2), s2 := rg .zero, s3 := rg (.s 6) }, withFib fun x => { x with sregs := [(2, 256), (6, 1)] }, _,
    by decide +kernel, rfl, rfl, by decide, pack4 (by decide +kernel) ⟨by decide +kernel, .inr ⟨[scr0 4], of_gives (by decide +kernel)⟩, rfl⟩⟩

theorem witness_EngineEnqueues_3 :
    ∃ (a : Args) (s : State) (c : Nat), hasFib s s.cur = true ∧ c = scalar s a.s0 ∧ c < 32 ∧ (∀ q < 4, c.testBit q = true → Machine.queueRoom (me s) q = true) :=
  ⟨{ base with s0 := rg (.s 6) }, withFib fun x => { x with sregs := [(6, 31)] }, 31, by decide +kernel, by decide +kernel, by decide, by decide +kernel⟩

theorem witness_EngineJoinsAndResumes_1 :
    ∃ (f id m : Nat) (s : State) (w : Wait), hasFib s f = true ∧ s.readPts = [] ∧ (fib s f).exiting = false ∧ qfenceWait (fib s f) = some (w, id, m) ∧ (∀ q < 4, holdsJoin (queueAt (fib s f) q) id = true → ((queueAt (fib s f) q).entries.head?.map (·.kind)) = some (.join id)) :=
  ⟨0, 9, 1, withFib fun x => { x with waits := [waitOf (.qfence 9 1)], queues := vmod (fun _ => ⟨[entry0 (.join 9)], false, []⟩) 0 x.queues }, waitOf (.qfence 9 1), by decide +kernel, rfl, rfl, by decide +kernel, by decide +kernel⟩

theorem witness_EngineJoinsAndResumes_2 :
    ∃ (a : Args) (s : State), hasFib s s.cur = true ∧ scalar s a.s1 < 2 ∧ opndNum a.s0 < 4 ∧ (queueAt (me s) (opndNum a.s0)).stopped = false :=
  ⟨{ base with s0 := rg (.q 1), s1 := rg .zero }, S0, by decide +kernel, by decide +kernel, by decide, by decide +kernel⟩

theorem witness_EngineJoinsAndResumes_3 :
    ∃ (a : Args) (s : State), hasFib s s.cur = true ∧ scalar s a.s1 < 2 ∧ opndNum a.s0 < 4 ∧ (queueAt (me s) (opndNum a.s0)).stopped = true :=
  ⟨{ base with s0 := rg (.q 1), s1 := rg .zero }, withFib fun x => { x with queues := vmod (fun _ => ⟨[entry0 (.join 9)], true, []⟩) 1 x.queues }, by decide +kernel, by decide +kernel, by decide, by decide +kernel⟩

theorem witness_EngineMoves_1 :
    ∃ (f q : Nat) (s u : State) (e : QEntry) (d : BitVec 512) (kind : Nat) (k : Chunk) (ps : List Piece) (p : Piece), headEntry s f q = some e ∧ e.kind = .copy d kind ∧ e.sent = false ∧ (fib s f).exiting = false ∧ chunkCount (copyOf d) kind e.tile ≠ 0 ∧ (engineTenure (inEntry s f e) f q (copyOf d).shnd false).1 = some (inEntry s f e) ∧ (engineTenure (inEntry s f e) f q (copyOf d).dhnd true).1 = some (inEntry s f e) ∧ ChunkAt s f e d kind k u ∧ k.ssp ≠ 4 ∧ k.dsp ≠ 4 ∧ Countable u f (copyOf d).bobj k.n ∧ releaseReady u (cscScope (copyOf d).csc) e.marks = true ∧ engineCheck u f 0 k.ssp k.src k.n k.align kRead = .ok ps ∧ (∀ x ∈ ps, x.mt ≠ 3) ∧ leavesSet kRead ps ∧ undisturbed u (coreOf f) false ps ∧ (ps.map (·.n)).sum = k.n ∧ engineCheck (entryRead u f e ps).2 f (copyOf d).obn k.dsp k.dst k.n k.align kWrite = .ok [p] ∧ p.n = k.n ∧ PlainTarget (entryRead u f e ps).2 (coreOf f) p :=
  ⟨0, 0, withEntry (entry0 (.copy copy0 0)), _, entry0 (.copy copy0 0), copy0, 0, _, [scr0 4], ownPiece (scrLoc 0 1024) 4, by decide +kernel, rfl, rfl, rfl, by decide +kernel,
    by simp [engineTenure, show (copyOf copy0).shnd = 0 from by decide +kernel], by simp [engineTenure, show (copyOf copy0).dhnd = 0 from by decide +kernel],
    ⟨0, rfl, .inl ⟨rfl, rfl⟩⟩, by decide +kernel, by decide +kernel, fun h => absurd (by decide +kernel) h, by decide +kernel, of_gives (by decide +kernel),
    by simp [scr0, ownPiece], leaves_own _ _ _, calm rfl _ _ _, by decide +kernel, of_gives (by decide +kernel), by decide +kernel, target_own _ _ _ _ (by decide +kernel)⟩

theorem witness_EngineMoves_2 :
    ∃ (f q : Nat) (s : State) (e : QEntry) (d : BitVec 512) (kind : Nat), headEntry s f q = some e ∧ e.kind = .copy d kind ∧ (fib s f).exiting = false ∧ chunkCount (copyOf d) kind e.tile = 0 :=
  ⟨0, 0, withEntry (entry0 (.copy 0 0)), entry0 (.copy 0 0), 0, 0, by decide +kernel, rfl, rfl, by decide +kernel⟩

theorem witness_EngineMoves_3 :
    ∃ (f q : Nat) (s : State) (e : QEntry) (addr : BitVec 64) (v : Word) (scope sp : Nat) (p : Piece), headEntry s f q = some e ∧ e.kind = .flag addr v scope sp ∧ (fib s f).exiting = false ∧ releaseReady s scope e.marks = true ∧ engineCheck (inEntry s f e) f 0 (if sp = 0 then 1 else if sp = 1 then 0 else 2) addr.toNat 4 4 kWrite = .ok [p] ∧ p.n = 4 ∧ PlainTarget (inEntry s f e) (coreOf f) p :=
  ⟨0, 0, withEntry (entry0 (.flag 256 5 1 0)), entry0 (.flag 256 5 1 0), 256, 5, 1, 0, scr0 4, by decide +kernel, rfl, rfl, by decide +kernel, of_gives (by decide +kernel), rfl,
    target_own _ _ _ _ (by decide +kernel)⟩

theorem witness_CollectivesAndLinks_1 :
    ∃ (f q k own n lo hi : Nat) (dom : List Nat) (ranks rs : List RankInput) (s u : State) (e : QEntry) (d : BitVec 512) (c : Coll) (m : FMap Nat) (p : Piece), headEntry s f q = some e ∧ e.kind = .coll d k dom ∧ e.sent = false ∧ (fib s f).exiting = false ∧ c = collOf d ∧ n = dom.length ∧ own = dom.idxOf s.hub.pkgid.toNat ∧ rs = (if n = 1 then [{ op := c.op, red := c.red, ety := c.ety, count := c.count, root := c.root, elems := [] }] else ranks) ∧ rs.length = n ∧ collMismatch c own rs = false ∧ collChunks c n ≠ 0 ∧ c.bobj = 0xFFFFFFFF ∧ lo = max c.dst ((c.dst / 128 + e.prog) * 128) ∧ hi = min (c.dst + collBytes c n) ((c.dst / 128 + e.prog + 1) * 128) ∧ collRead (inEntry s f e) f e c (((List.range ((hi - 1 - c.dst) / collSize c + 1 - (lo - c.dst) / collSize c)).map (· + (lo - c.dst) / collSize c)).flatMap (collNeeds c own own)) = .got m u ∧ releaseReady u (cscScope c.csc) e.marks = true ∧ engineCheck u f 0 0 lo (hi - lo) 1 kWrite = .ok [p] ∧ p.n = hi - lo ∧ PlainTarget u 256 p :=
  ⟨0, 0, 0, 0, 1, 0x9000, 0x9004, [0], [], [⟨0, 0, 1, 1, 0, []⟩], withEntry (entry0 (.coll coll0 0 [0])), coll0State, entry0 (.coll coll0 0 [0]), coll0, collOf coll0, coll0Map, glob 0x9000 4, by decide +kernel, rfl, rfl, rfl, rfl, pack4 (by decide +kernel) (pack4 (by decide +kernel) ⟨by decide +kernel, coll0_read, by decide +kernel, of_gives (by decide +kernel), rfl, ⟨by decide +kernel, by decide +kernel, leaves_glob _ _ _, calm (by decide +kernel) _ _ _, by decide +kernel⟩⟩)⟩

theorem witness_CollectivesAndLinks_2 :
    ∃ (f q k : Nat) (dom : List Nat) (ranks : List RankInput) (s : State) (e : QEntry) (d : BitVec 512), headEntry s f q = some e ∧ e.kind = .coll d k dom ∧ (fib s f).exiting = false ∧ dom.length ≠ 1 ∧ ranks.length = dom.length ∧ collMismatch (collOf d) (dom.idxOf s.hub.pkgid.toNat) ranks = true ∧ liveMask (fib s f) ≠ 0 ∧ (fib s f).trapq.length < 8 :=
  ⟨0, 0, 0, [0, 1], [⟨0, 0, 1, 1, 0, []⟩, ⟨1, 0, 1, 1, 0, []⟩],
    { withEntry (entry0 (.coll coll0 0 [0, 1])) with hub := { S0.hub with parts := [(0, { part0 with cdom := [0, 1] })] } }, entry0 (.coll coll0 0 [0, 1]), coll0,
    by decide +kernel, rfl, rfl, by decide +kernel⟩

theorem witness_CollectivesAndLinks_3 :
    ∃ (pkg part len : Nat) (root : BitVec 64) (k rel : Bool) (va : BitVec 64) (data : Option (List Byte)) (s : State) (x : Flt), (spans va.toNat (data.elim len List.length)).mapM (fun p => globalPiece s { part := part, root := root, klvl := k } (p.1 % 2 ^ 64) p.2 (if data.isSome then kWrite else kRead) false) = .error x :=
  ⟨0, 0, 8, 0, true, false, 0x1000000000000000, none, S0, windowFault 0x1000000000000000 0, of_fails (by decide +kernel)⟩

theorem witness_CollectivesAndLinks_4 :
    ∃ (pkg part len : Nat) (root : BitVec 64) (k rel : Bool) (va : BitVec 64) (data : Option (List Byte)) (s : State) (p : Piece), (spans va.toNat (data.elim len List.length)).mapM (fun p => globalPiece s { part := part, root := root, klvl := k } (p.1 % 2 ^ 64) p.2 (if data.isSome then kWrite else kRead) false) = .ok [p] ∧ undisturbed s 256 data.isSome [p] ∧ p.mt ≠ 3 ∧ (isHost p.loc && inMem p.loc) = false ∧ 0 < p.n ∧ p.loc / 128 = (p.loc + p.n - 1) / 128 ∧ leavesSet (if data.isSome then kWrite else kRead) [p] ∧ s.objs = [] :=
  ⟨0, 0, 4, 0, true, false, 0x8000, none, S0, glob 0x8000 4, of_gives (by decide +kernel), calm rfl _ _ _, by decide, by decide +kernel, by decide, by decide, leaves_glob _ _ _, rfl⟩

theorem witness_Reservations_1 :
    ∃ (a : Args) (s : State) (v : Nat), hasFib s s.cur = true ∧ (me s).sq = [] ∧ scratchRecord s (scalar s a.s0) 32 = .ok v ∧ recordInvalid v = false ∧ ((recordOf v).rmt = true ∨ (recordOf v).off + (recordOf v).rows * (recordOf v).rstr ≤ (wgOf s s.cur).obSize ∧ (recordOf v).soff + (recordOf v).rows * (recordOf v).sstr ≤ (wgOf s s.cur).obSize) :=
  ⟨{ base with d := ⟨rg (.ob 1), false, 0⟩, s0 := rg (.s 4) }, { S0 with scr := [(515, 1), (516, 16), (518, 8), (520, 32)] }, 2 ^ 24 + 16 * 2 ^ 32 + 8 * 2 ^ 48 + 32 * 2 ^ 64,
    by decide +kernel, rfl, of_gives (by decide +kernel), by decide +kernel, .inr ⟨by decide +kernel, by decide +kernel⟩⟩

theorem witness_Reservations_2 :
    ∃ (a : Args) (s : State), hasFib s s.cur = true :=
  ⟨a0, S0, by decide +kernel⟩

theorem witness_Reservations_3 :
    ∃ (a : Args) (s : State) (n : Nat) (ps : Nat → List Piece) (q : Nat → Piece), hasFib s s.cur = true ∧ a.ord.toNat ≠ 3 ∧ (me s).sq = [] ∧ n = (if a.ty = .b64 then 32 else 16) ∧ active s a ≠ 0 ∧ (FMap.find (me s).obs (obName a.d.opnd)).isSome = true ∧ (∀ l ∈ accessLanes s a, checked a s n kRead .wide l = .ok (ps l) ∧ plainPieces s kRead false (ps l) ∧ loadDrains (me s) (ps l) = false ∧ ((ps l).map (·.n)).sum = n ∧ (∀ x ∈ ps l, x.loc + x.n ≤ 2 ^ 53) ∧ obBlock s s.cur (obName a.d.opnd) (srcVal s .n32 0 a.s1 l) n = .ok (q l)) :=
  ⟨{ a0 with d := ⟨rg (.ob 1), false, 0⟩, s1 := rg .zero }, withFib fun x => { x with obs := [(1, resv 32 64 0)] }, 16, fun _ => [scr0 16], fun _ => ownPiece (obLoc 0 0) 16,
    by decide +kernel, by decide, by decide, rfl, by decide +kernel, by decide +kernel,
    only 0 (by decide +kernel) ⟨of_gives (by decide +kernel), plain_own _ _ _ _ _ rfl, by decide +kernel, by decide, by decide, of_gives (by decide +kernel)⟩⟩

theorem witness_Reservations_4 :
    ∃ (a : Args) (s : State) (n : Nat) (ps : Nat → List Piece) (q : Nat → Piece), hasFib s s.cur = true ∧ a.ord.toNat ≠ 3 ∧ s.readPts = [] ∧ n = (if a.ty = .b64 then 32 else 16) ∧ active s a ≠ 0 ∧ (FMap.find (me s).obs (obName a.d.opnd)).isSome = true ∧ (∀ l ∈ accessLanes s a, checked a s n kWrite .wide l = .ok (ps l) ∧ leavesSet kWrite (ps l) ∧ walkClear s (ps l) ∧ obBlock s s.cur (obName a.d.opnd) (srcVal s .n32 0 a.s1 l) n = .ok (q l) ∧ poisoned s.mem (q l).loc n = false) :=
  ⟨{ a0 with d := ⟨rg (.ob 1), false, 0⟩, s1 := rg .zero }, withFib fun x => { x with obs := [(1, resv 32 64 0)] }, 16, fun _ => [scr0 16], fun _ => ownPiece (obLoc 0 0) 16,
    by decide +kernel, by decide, rfl, rfl, by decide +kernel, by decide +kernel,
    only 0 (by decide +kernel) ⟨of_gives (by decide +kernel), leaves_own _ _ _, (calm rfl 0 false _).1, of_gives (by decide +kernel), by decide +kernel⟩⟩

theorem witness_MatrixProducts_1 :
    ∃ (a : Args) (s : State) (p : Nat) (ra rb : Reservation) (x y : Nat → Nat → List Machine.Num), MmaReady a s p ra rb x y :=
  ⟨{ base with s0 := rg (.ob 1), s1 := rg (.ob 2), s2 := .code 0 }, matrixState, 0, resv 32 16 0, resv 64 16 4096, fun k i => got [] (stepElems matrixState 0 (resv 32 16 0) k i),
    fun k j => got [] (stepElems matrixState 0 (resv 64 16 4096) k j),
    ⟨by decide +kernel, tileReady _ _ _ (by decide +kernel), by decide +kernel, by decide, by decide +kernel,
     fun k hk i hi => ok_got [] ((by decide +kernel : ∀ k < 1, ∀ i ∈ lanesOf 1, isOk (stepElems matrixState 0 (resv 32 16 0) k i) = true) k hk i hi),
     fun k hk j hj => ok_got [] ((by decide +kernel : ∀ k < 1, ∀ j < 64, isOk (stepElems matrixState 0 (resv 64 16 4096) k j) = true) k hk j hj)⟩⟩

theorem witness_SoftmaxStep_1 :
    ∃ (a : Args) (s : State) (ps po b : Nat) (r : Reservation), hasFib s s.cur = true ∧ (me s).sq = [] ∧ s.readPts = [] ∧ active s a ≠ 0 ∧ b = codeOf a.s3 ∧ TileReady s (codeOf a.s2 % 16) ps ∧ TileReady s (codeOf a.s2 / 16) po ∧ softTarget s (obName a.s0) b = .ok r ∧ 128 * (b + 1) ≤ r.rstr ∧ (∀ i ∈ lanesOf (active s a), rowPoisoned s (subOf s.cur) ps i = false) :=
  ⟨{ base with s0 := rg (.ob 1), s1 := rg (.s 2), s2 := .code 0x10, s3 := .code 0 }, withFib fun x => { x with obs := [(1, resv 32 64 0)] }, 0, 1, 0, resv 32 64 0,
    by decide +kernel, rfl, rfl, by decide +kernel, by decide, tileReady _ _ _ (by decide +kernel), tileReady _ _ _ (by decide +kernel), of_gives (by decide +kernel), by decide, by decide +kernel⟩

theorem witness_TileData_1 :
    ∃ (a : Args) (s : State) (p : Nat), hasFib s s.cur = true ∧ active s a ≠ 0 ∧ TileReady s (codeOf a.s0 % 16) p :=
  ⟨{ base with s0 := .code 1 }, S0, 1, by decide +kernel, by decide +kernel, tileReady _ _ _ (by decide +kernel)⟩

theorem witness_TileData_2 :
    ∃ (a : Args) (s : State) (p : Nat) (qs : Nat → List Piece), hasFib s s.cur = true ∧ active s a ≠ 0 ∧ TileReady s (codeOf a.s1 % 16) p ∧ a.ord.toNat ≠ 3 ∧ a.space.toNat ≠ 6 ∧ (∀ l ∈ lanesOf (active s a), rowPieces a s 256 kRead l = .ok (qs l) ∧ plainPieces s kRead false (qs l) ∧ loadDrains (me s) (qs l) = false ∧ ((qs l).map (·.n)).sum = 256) :=
  ⟨{ a0 with d := ⟨.none, false, 0⟩, s1 := .code 1 }, S0, 1, fun _ => [scr0 256], by decide +kernel, by decide +kernel, tileReady _ _ _ (by decide +kernel), by decide, by decide,
    only 0 (by decide +kernel) ⟨of_gives (by decide +kernel), plain_none _ _ _ _ (by decide +kernel), by decide +kernel, by decide +kernel⟩⟩

theorem witness_TileData_3 :
    ∃ (a : Args) (s : State) (p n : Nat) (qs : Nat → List Piece), hasFib s s.cur = true ∧ active s a ≠ 0 ∧ TileReady s (codeOf a.s1 % 16) p ∧ a.ord.toNat ≠ 3 ∧ n = (if a.ty = .f32 then 256 else 128) ∧ (∀ l ∈ lanesOf (active s a), rowPieces a s n kWrite l = .ok (qs l) ∧ leavesSet kWrite (qs l) ∧ walkClear s (qs l) ∧ rowPoisoned s (subOf s.cur) p l = false) :=
  ⟨{ a0 with ty := .f32, d := ⟨.none, false, 0⟩, s1 := .code 1 }, S0, 1, 256, fun _ => [scr0 256], by decide +kernel, by decide +kernel, tileReady _ _ _ (by decide +kernel), by decide, rfl,
    only 0 (by decide +kernel) ⟨of_gives (by decide +kernel), leaves_none _ _ (by decide +kernel), (calm rfl 0 false _).1, by decide +kernel⟩⟩

theorem witness_TileData_4 :
    ∃ (a : Args) (s : State) (p sel : Nat) (r : Reg) (n b : Bool), hasFib s s.cur = true ∧ active s a ≠ 0 ∧ TileReady s (codeOf a.s0 % 16) p ∧ sel = codeOf a.s0 / 16 ∧ a.d.opnd = .reg r n b ∧ latched r = true ∧ (∀ k, r = .o k → k.val = 0) ∧ 8 ≤ (slotRec s (slotOf s.cur)).z ∧ (slotRec s (slotOf s.cur)).z ≤ 512 ∧ (sel ≠ 8 → ∀ i ∈ lanesOf (active s a), colsPoisoned s (subOf s.cur) p i (if a.ty = .f32 then 8 * sel else 16 * sel) (if a.ty = .f32 then 8 else 16) = false) ∧ (if a.ty = .f32 then sel < 9 else sel < 4) :=
  ⟨{ base with ty := .f32, d := ⟨rg (.v 8), false, 0⟩, s0 := .code 0x81 }, S0, 1, 8, .v 8, false, false, by decide +kernel, by decide +kernel, tileReady _ _ _ (by decide +kernel), by decide, rfl, rfl,
    by simp, by decide +kernel, by decide +kernel, by decide, by decide⟩

theorem witness_Pinning_1 :
    ∃ (a : Args) (s : State) (p k : Nat), hasFib s s.cur = true ∧ addrVal s a.s0 (lane0 s) ≠ 0 ∧ physTile s s.cur (codeOf a.s2 % 16) = .ok p ∧ pinOf s s.cur (codeOf a.s2 % 16) = none ∧ findKey s (coreOf s.cur) (wgOf s s.cur).part (addrVal s a.s0 (lane0 s)) = none ∧ (codeOf a.s2).testBit 4 = false ∧ freeOwn s (subOf s.cur) = some k ∧ (ownTable s (subOf s.cur)).length = 16 ∧ addrVal s a.s1 (lane0 s) % 64 = 0 ∧ canonical (addrVal s a.s1 (lane0 s)) = true :=
  ⟨{ base with s0 := rg (.s 6), s1 := rg .zero, s2 := .code 0 }, withFib fun x => { x with sregs := [(6, 5)] }, 0, 0, by decide +kernel, by decide +kernel, of_gives (by decide +kernel), by decide +kernel⟩

theorem witness_Pinning_2 :
    ∃ (a : Args) (s : State) (p k : Nat) (e : OwnEntry), hasFib s s.cur = true ∧ addrVal s a.s0 (lane0 s) ≠ 0 ∧ physTile s s.cur (codeOf a.s2 % 16) = .ok p ∧ pinOf s s.cur (codeOf a.s2 % 16) = some (k, e) ∧ e.key ≠ addrVal s a.s0 (lane0 s) :=
  ⟨{ base with s0 := rg (.s 6), s1 := rg .zero, s2 := .code 0 }, { pinState own0 with fibres := [(0, { fib0 with sregs := [(6, 5)] })] }, 0, 0, own0, by decide +kernel, by decide +kernel, of_gives (by decide +kernel), by decide +kernel, by decide +kernel⟩

theorem witness_Pinning_5 :
    ∃ (a : Args) (s : State) (p k : Nat) (e : OwnEntry), hasFib s s.cur = true ∧ physTile s s.cur (codeOf a.s0 % 16) = .ok p ∧ pinOf s s.cur (codeOf a.s0 % 16) = some (k, e) ∧ e.res = true :=
  ⟨{ base with s0 := .code 0 }, pinState own0, 0, 0, own0, by decide +kernel, of_gives (by decide +kernel), by decide +kernel, rfl⟩

theorem witness_Pinning_6 :
    ∃ (a : Args) (s : State) (p k : Nat) (e : OwnEntry), hasFib s s.cur = true ∧ physTile s s.cur (codeOf a.s0 % 16) = .ok p ∧ pinOf s s.cur (codeOf a.s0 % 16) = some (k, e) :=
  ⟨{ base with s0 := .code 0 }, pinState own0, 0, 0, own0, by decide +kernel, of_gives (by decide +kernel), by decide +kernel⟩

theorem witness_FastWeights_1 :
    ∃ (i : Args → Instr) (a : Args) (s : State) (p n : Nat) (r : Reservation) (k : Nat → List Nat), (i = .mdelta ∨ i = .mdeltaC) ∧ DeltaReady a s p n ∧ (codeOf a.s2).testBit 7 = false ∧ fastSource s (obName a.s0) n = .ok r ∧ (∀ t < n, rowVector s s.cur r t = .ok (k t)) :=
  ⟨.mdelta, { base with s0 := rg (.ob 1), s1 := rg (.v 8), s2 := .code 0, s3 := rg (.s 2) }, (withFib fun x => { x with obs := [(1, resv 32 64 0)] }), 0, 1, resv 32 64 0, fun t => got [] (rowVector (withFib fun x => { x with obs := [(1, resv 32 64 0)] }) 0 (resv 32 64 0) t), .inl rfl,
    ⟨⟨by decide +kernel, rfl, rfl, by decide +kernel, by decide +kernel⟩, by decide +kernel, tileReady _ _ _ (by decide +kernel), by decide +kernel⟩, by decide +kernel, of_gives (by decide +kernel),
    fun t ht => ok_got [] ((by decide +kernel : ∀ t < 1, isOk (rowVector (withFib fun x => { x with obs := [(1, resv 32 64 0)] }) 0 (resv 32 64 0) t) = true) t ht)⟩

theorem witness_FastWeights_2 :
    ∃ (i : Args → Instr) (a : Args) (s : State) (p n : Nat) (r : Reservation) (k q : Nat → List Nat) (d : Reg) (g b : Bool), (i = .mdelta ∨ i = .mdeltaC) ∧ DeltaReady a s p n ∧ (codeOf a.s2).testBit 7 = true ∧ fastSource s (obName a.s0) (8 + n) = .ok r ∧ (∀ t < n, rowVector s s.cur r t = .ok (k t) ∧ rowVector s s.cur r (8 + t) = .ok (q t)) ∧ a.d.opnd = .reg d g b ∧ latched d = true ∧ (∀ k, d = .o k → k.val = 0) ∧ 8 ≤ (slotRec s (slotOf s.cur)).z ∧ (slotRec s (slotOf s.cur)).z ≤ 512 ∧ Apart s (active s a) a.s1 n d n ∧ Apart s (active s a) a.s3 (2 * n) d n :=
  ⟨.mdelta, { base with d := ⟨rg (.v 40), false, 0⟩, s0 := rg (.ob 1), s1 := rg (.v 8), s2 := .code 128, s3 := rg (.s 2) }, (withFib fun x => { x with obs := [(1, resv 32 64 0)] }), 0, 1, resv 32 64 0,
    fun t => got [] (rowVector (withFib fun x => { x with obs := [(1, resv 32 64 0)] }) 0 (resv 32 64 0) t), fun t => got [] (rowVector (withFib fun x => { x with obs := [(1, resv 32 64 0)] }) 0 (resv 32 64 0) (8 + t)), .v 40, false, false, .inl rfl,
    ⟨⟨by decide +kernel, rfl, rfl, by decide +kernel, by decide +kernel⟩, by decide +kernel, tileReady _ _ _ (by decide +kernel), by decide +kernel⟩, by decide +kernel, of_gives (by decide +kernel),
    fun t ht => ⟨ok_got [] ((by decide +kernel : ∀ t < 1, isOk (rowVector (withFib fun x => { x with obs := [(1, resv 32 64 0)] }) 0 (resv 32 64 0) t) = true) t ht), ok_got [] ((by decide +kernel : ∀ t < 1, isOk (rowVector (withFib fun x => { x with obs := [(1, resv 32 64 0)] }) 0 (resv 32 64 0) (8 + t)) = true) t ht)⟩,
    rfl, rfl, by simp, by decide +kernel, by decide +kernel, by intro r g b h; cases h; decide +kernel, by intro r g b h; cases h; decide +kernel⟩

theorem witness_Evictions_1 :
    ∃ (a : Args) (s w : State) (p k : Nat) (e : OwnEntry), hasFib s s.cur = true ∧ (me s).sq = [] ∧ physTile s s.cur (codeOf a.s0 % 16) = .ok p ∧ pinOf s s.cur (codeOf a.s0 % 16) = some (k, e) ∧ e.res = true ∧ ImageWritten s (some s.cur) (subOf s.cur) e w :=
  ⟨{ base with s0 := .code 0 }, pinState own0, (writeBlocks (some 0) 0 (nextEpoch own0) (imageBlocks (pinState own0) 0 (nextEpoch own0)) (pinState own0)).1, 0, 0, own0,
    by decide +kernel, rfl, of_gives (by decide +kernel), by decide +kernel, rfl, by decide +kernel, pair_of (by decide +kernel)⟩

theorem witness_Evictions_2 :
    ∃ (a : Args) (s : State) (p k : Nat) (e : OwnEntry), hasFib s s.cur = true ∧ (me s).sq = [] ∧ physTile s s.cur (codeOf a.s0 % 16) = .ok p ∧ pinOf s s.cur (codeOf a.s0 % 16) = some (k, e) ∧ e.res = false :=
  ⟨{ base with s0 := .code 0 }, pinState { own0 with res := false }, 0, 0, { own0 with res := false }, by decide +kernel, rfl, of_gives (by decide +kernel), by decide +kernel, rfl⟩

theorem witness_Evictions_3 :
    ∃ (u k : Nat) (s w : State) (e : OwnEntry), ownAt s u k = some e ∧ tileDemand s u = true ∧ oldestParked s u = some k ∧ ImageWritten s none u e w :=
  ⟨0, 0, { pinState { own0 with owned := false, tile := 5 } with restores := [restore0 { wg0 with acc := 14 }], hub := { S0.hub with excluded := [1, 2, 3] } }, _, { own0 with owned := false, tile := 5 }, by decide +kernel, by decide +kernel, by decide +kernel, by decide +kernel, pair_of (by decide +kernel)⟩

theorem witness_TetherBarriers_1 :
    ∃ (a : Args) (s : State) (c scope key : Nat), hasFib s s.cur = true ∧ c = scalar s a.s0 ∧ controlFails s s.cur c = false ∧ (me s).sq = [] ∧ s.readPts = [] ∧ (me s).arrivals = [] ∧ scope = (if c % 8 = 0 then 1 else c % 8) ∧ key = phaseKey s s.cur scope (c / 8 % 8) :=
  ⟨{ base with s0 := rg .zero }, S0, 0, 1, phaseKey S0 0 1 0, by decide +kernel, by decide +kernel, by decide +kernel, rfl, rfl, rfl, rfl, rfl⟩

theorem witness_TetherBarriers_2 :
    ∃ (f key : Nat) (s : State), barDue s f = some key :=
  ⟨0, phaseKey S0 0 1 0, withFib fun x => { x with arrivals := [⟨phaseKey S0 0 1 0, 1, 0, 0, []⟩] }, by decide +kernel⟩

theorem witness_TetherBarriers_3 :
    ∃ (f : Nat) (s : State), barDue s f = none :=
  ⟨0, S0, by decide +kernel⟩

theorem witness_TetherBarriers_4 :
    ∃ (a : Args) (s : State), hasFib s s.cur = true ∧ (me s).fbarPass &&& slicesOf s.grp = 0 ∧ (me s).sq = [] ∧ s.readPts = [] :=
  ⟨base, S0, by decide +kernel, by decide +kernel, rfl, rfl⟩

theorem witness_TetherBarriers_5 :
    ∃ (slot : Nat) (s : State), fbarFull s slot = true :=
  ⟨0, withFib fun x => { x with fbar := 1 }, by decide +kernel⟩

theorem witness_TetherBarriers_6 :
    ∃ (slot : Nat) (s : State), fbarFull s slot = false :=
  ⟨0, S0, by decide +kernel⟩

theorem witness_Launches_1 :
    ∃ (a : Args) (s u : State) (r : BitVec 1024) (k : BitVec 512) (q n : Nat), hasFib s s.cur = true ∧ (me s).sq = [] ∧ s.readPts = [] ∧ readLaunch s (myCtx s) (some s.cur) (addrVal s a.s0 (lane0 s)) = (u, .ok (some (r, k))) ∧ hasFib u u.cur = true ∧ launchFails r k = none ∧ q = rf r 196 6 ∧ n = launchNumber (partOf u (me s).part).nextLid ∧ 256 ≤ (queueOf u (me s).part q).length :=
  ⟨{ base with d := ⟨rg (.s 6), false, 0⟩, s0 := rg (.s 2) }, { withHub (fun h => { h with launches := List.replicate 256 (launch0 2 0) }) with fibres := [(0, launchFib)], mem := launchMem },
    _, rec0 0, kdesc0, 0, 1, by decide +kernel, rfl, rfl, pair_gives (by decide +kernel), by decide +kernel⟩

theorem witness_Launches_2 :
    ∃ (a : Args) (s u : State) (r : BitVec 1024) (k : BitVec 512) (q n : Nat), hasFib s s.cur = true ∧ (me s).sq = [] ∧ s.readPts = [] ∧ readLaunch s (myCtx s) (some s.cur) (addrVal s a.s0 (lane0 s)) = (u, .ok (some (r, k))) ∧ hasFib u u.cur = true ∧ launchFails r k = none ∧ q = rf r 196 6 ∧ n = launchNumber (partOf u (me s).part).nextLid ∧ (queueOf u (me s).part q).length < 256 ∧ (rDep r = true → rf r 256 32 ≠ 0 ∧ rf r 256 32 < (partOf u (me s).part).nextLid) ∧ (isKQueue (partOf u (me s).part) q = true → (me s).klvl = true) ∧ 6 ≤ u.hub.boot :=
  ⟨{ base with d := ⟨rg (.s 6), false, 0⟩, s0 := rg (.s 2) }, { S0 with fibres := [(0, launchFib)], mem := launchMem },
    _, rec0 0, kdesc0, 0, 1, by decide +kernel, rfl, rfl, pair_gives (by decide +kernel), by decide +kernel⟩

theorem witness_Launches_3 :
    ∃ (a : Args) (s : State) (l : Launch) (n : Fin 7) (ng ab : Bool), hasFib s s.cur = true ∧ (me s).sq = [] ∧ s.readPts = [] ∧ a.d.opnd = .reg (.p n) ng ab ∧ launchOf s (me s).part (me s).lid = some l ∧ rNspn l.record ≠ 0 ∧ (∀ i ∈ lanesOf (active s a), addrVal s a.s0 i % 4 = 0) ∧ spoolHeld s (dieOf (coreOf s.cur)) (me s).part + (lanesOf (active s a)).length ≤ spoolShareOf s (me s).part ∧ spoolTotal s (dieOf (coreOf s.cur)) + (lanesOf (active s a)).length ≤ 8192 :=
  ⟨{ base with d := ⟨rg (.p 1), false, 0⟩, s0 := rg (.s 2), s1 := rg (.v 0) }, withHub fun h => { h with launches := [launch0 1 (2 ^ 208)] }, launch0 1 (2 ^ 208), 1, false, false,
    by decide +kernel, rfl, rfl, rfl, by decide +kernel⟩

theorem witness_Launches_4 :
    ∃ (a : Args) (s : State) (l : Launch) (n : Fin 7) (ng ab : Bool), hasFib s s.cur = true ∧ (me s).sq = [] ∧ s.readPts = [] ∧ a.d.opnd = .reg (.p n) ng ab ∧ launchOf s (me s).part (me s).lid = some l ∧ rNspn l.record ≠ 0 ∧ (∀ i ∈ lanesOf (active s a), addrVal s a.s0 i % 4 = 0) ∧ spoolShareOf s (me s).part ≤ spoolHeld s (dieOf (coreOf s.cur)) (me s).part :=
  ⟨{ base with d := ⟨rg (.p 1), false, 0⟩, s0 := rg (.s 2), s1 := rg (.v 0) }, withHub fun h => { h with launches := [launch0 1 (2 ^ 208)], parts := [(0, { part0 with spoolShare := some 0 })] },
    launch0 1 (2 ^ 208), 1, false, false, by decide +kernel, rfl, rfl, rfl, by decide +kernel⟩

theorem witness_WorkStarts_1 :
    ∃ (part c n : Nat) (s : State) (l : Launch) (w : Wg), stuckHead s part = none ∧ nextWork s part = some (.head l) ∧ isCor l = false ∧ nextWgOf l = some n ∧ (coresFor s l.part l.klvl).contains c = true ∧ allocate s (nextOf l n) c = some w ∧ w.fibres.Nodup ∧ launchOf s l.part l.lid = some l :=
  ⟨0, 1, 0, withHub fun h => { h with launches := [launch0 2 0] }, launch0 2 0, _, pack4 (by decide +kernel) ⟨by decide +kernel, some_get wg0 (by decide +kernel), by decide +kernel, by decide +kernel⟩⟩

theorem witness_WorkStarts_2 :
    ∃ (die lid core f : Nat) (entry : BitVec 64) (s : State) (r : SpoolRec) (l : Launch) (w : Wg) (g : List SpoolRec), (s.spool.find? fun r => r.die == die && r.entry == entry && r.lid == lid && nextWork s r.part == some (.group r)) = some r ∧ launchOf s r.part r.lid = some l ∧ (groupCores s r).contains core = true ∧ allocate s (spawnedOf l) core = some w ∧ w.fibres = [f] ∧ g = (s.spool.filter (sameGroup r.die r.entry r.part r.lid)).take 32 ∧ (∀ q ∈ g, q.args.length = 12) :=
  ⟨0, 2, 1, 256, 0x1000, spoolState, spool0, { launch0 2 (2 ^ 208) with started := [(0, 1)] }, _, _, by decide +kernel, by decide +kernel, by decide +kernel, some_get wg0 (by decide +kernel), by decide +kernel, rfl, by decide +kernel⟩

theorem witness_SchedulerEvents_1 :
    ∃ (part lid : Nat) (s : State) (l : Launch), launchOf s part lid = some l ∧ launchOver s l = true ∧ rDone l.record = 0 :=
  ⟨0, 2, withHub fun h => { h with launches := [{ launch0 2 0 with started := [(0, 1)] }] }, { launch0 2 0 with started := [(0, 1)] }, by decide +kernel, by decide +kernel, by decide +kernel⟩

theorem witness_SchedulerEvents_2 :
    ∃ (part lid : Nat) (s : State) (l : Launch), launchOf s part lid = some l ∧ launchOver s l = true ∧ ∃ p, rDone l.record ≠ 0 ∧ releaseReady s 6 l.marks = true ∧ globalPiece s { part := part, root := l.root, klvl := l.doneK, keys := l.keys } (rDone l.record) 4 kWrite false = .ok p ∧ undisturbed s hubCore true [p] ∧ p.mt ≠ 3 ∧ (isHost p.loc && inMem p.loc) = false ∧ p.loc / 128 = (p.loc + 3) / 128 ∧ leavesSet kWrite [p] ∧ s.objs = [] :=
  ⟨0, 2, withHub fun h => { h with launches := [{ launch0 2 (0x8100 * 2 ^ 960) with started := [(0, 1)] }] }, { launch0 2 (0x8100 * 2 ^ 960) with started := [(0, 1)] }, by decide +kernel, by decide +kernel,
    glob 0x8100 4, by decide +kernel, by decide +kernel, of_gives (by decide +kernel), calm rfl _ _ _, by decide +kernel, by decide +kernel, by decide +kernel, leaves_glob _ _ _, rfl⟩

theorem witness_SchedulerEvents_3 :
    ∃ (u p : Nat) (s : State), FMap.sortedFrom 0 s.slots = true ∧ readyPending s u = some p ∧ ∃ k, activeRoom s u = false ∧ exchangeable s u none = some k :=
  ⟨0, 8, exchangeState, by decide +kernel, by decide +kernel, 0, by decide +kernel, by decide +kernel⟩

theorem witness_SchedulerEvents_4 :
    ∃ (u p : Nat) (s : State), FMap.sortedFrom 0 s.slots = true ∧ readyPending s u = some p ∧ activeRoom s u = true :=
  ⟨0, 1, { S0 with fibres := [(0, fib0), (4, fib0)], slots := [(0, slot0), (1, { slot0 with active := false })] }, by decide +kernel, by decide +kernel, by decide +kernel⟩

theorem witness_SchedulerEvents_5 :
    ∃ (f : Nat) (s : State) (m : LaneMask), hasFib s f = true ∧ watchdogDue (fib s f) = true ∧ m = liveMask (fib s f) &&& ~~~ stoppedMask (fib s f) ∧ m ≠ 0 ∧ (fib s f).trapq.length < 8 :=
  ⟨0, withFib fun x => { x with klvl := false, wdCount := 0x1000000 }, 1, by decide +kernel, by decide +kernel, by decide +kernel, by decide, by decide +kernel⟩

theorem witness_SchedulerEvents_6 :
    ∃ (f : Nat) (s : State), watchdogDue (fib s f) = false :=
  ⟨0, S0, by decide +kernel⟩

theorem witness_BallastTransfers_1 :
    ∃ (i : Nat → Nat → Instr) (f lane : Nat) (s : State) (r : Link) (ps : List Piece) (n : Nat), hasFib s f = true ∧ lane < 32 ∧ (i = .ballastBackgroundSpill ∧ spillDue s f lane = true ∨ i = .ballastDemandSpill ∧ (∃ target fp, (laneAt (fib s f) lane).wait = .callSpill target fp) ∧ needsSpill (slotRec s (slotOf f)).z (laneAt (fib s f) lane) = true ∧ (laneAt (fib s f) lane).sblk = false ∧ (fib s f).frozen = false) ∧ (laneAt (fib s f) lane).links.getLast? = some r ∧ n = (if r.hnd then 64 else r.adv) ∧ s.ringPoison = [] ∧ (fib s f).poison = [] ∧ transferPieces s f lane kWrite ((List.range n).map (fun j => (wordVa (fib s f) lane ((laneAt (fib s f) lane).rb + j), 4)) ++ [(linkVa (fib s f) lane ((laneAt (fib s f) lane).depth - (laneAt (fib s f) lane).links.length), 16)]) = .ok ps ∧ (ps.map (·.n)).sum = 4 * n + 16 ∧ TransferReady s f ps :=
  ⟨.ballastBackgroundSpill, 0, 0, withLane framed fun x => x, ⟨0x2000, 12, false, 0⟩, spillVas.map (fun p => glob p.1 p.2), 12, by decide +kernel, by decide +kernel, .inl ⟨rfl, by decide +kernel⟩, by decide +kernel, rfl, rfl, rfl, of_gives (by decide +kernel), by decide +kernel,
    ⟨by decide +kernel, by decide +kernel, leaves_globs _ _, ⟨calm rfl _ _ _, rfl⟩, rfl⟩⟩

theorem witness_BallastTransfers_2 :
    ∃ (f lane fp : Nat) (target : BitVec 64) (s : State), hasFib s f = true ∧ lane < 32 ∧ (laneAt (fib s f) lane).wait = .callSpill target fp ∧ needsSpill (slotRec s (slotOf f)).z (laneAt (fib s f) lane) = false ∧ (fib s f).frozen = false :=
  ⟨0, 0, 0, 0x3000, withLane { framed with wait := .callSpill 0x3000 0 } fun x => x, by decide +kernel⟩

theorem witness_BallastTransfers_3 :
    ∃ (ret : Bool) (f lane : Nat) (s u : State) (r : Link) (words : List Word), hasFib s f = true ∧ hasFib u f = true ∧ (fib s f).frozen = false ∧ lane < 32 ∧ readFrame s f lane ret = .got r words u ∧ (slotRec u (slotOf f)).z ≤ 512 ∧ words.length ≤ (slotRec u (slotOf f)).z ∧ ret = false ∧ (fib s f).exited.getLsbD lane = false ∧ (laneAt (fib s f) lane).wait = .none ∧ (laneAt (fib s f) lane).links.length < 2 ∧ (laneAt (fib s f) lane).links.length < (laneAt (fib s f) lane).depth ∧ (threshold (slotRec s (slotOf f)).z (fib s f) : Int) ≤ roomOf (slotRec s (slotOf f)).z (laneAt (fib s f) lane) - frameLen r :=
  ⟨false, 0, 0, awayState .none, broughtIn (readFrame (awayState .none) 0 0 false), away, List.replicate 12 0, by decide +kernel, by decide +kernel, rfl, by decide, of_brings (by decide +kernel), by decide +kernel, by decide +kernel, rfl,
    by decide +kernel⟩

theorem witness_BallastTransfers_4 :
    ∃ (ret : Bool) (f lane : Nat) (s u : State) (r : Link) (words : List Word), hasFib s f = true ∧ hasFib u f = true ∧ (fib s f).frozen = false ∧ lane < 32 ∧ readFrame s f lane ret = .got r words u ∧ (slotRec u (slotOf f)).z ≤ 512 ∧ words.length ≤ (slotRec u (slotOf f)).z ∧ ret = true ∧ (laneAt (fib s f) lane).wait = .retRefill ∧ (laneAt (fib u f) lane).links = [] :=
  ⟨true, 0, 0, awayState .retRefill, broughtIn (readFrame (awayState .retRefill) 0 0 true), away, List.replicate 12 0, by decide +kernel, by decide +kernel, rfl, by decide, of_brings (by decide +kernel), by decide +kernel, by decide +kernel, rfl,
    by decide +kernel, by decide +kernel⟩

theorem witness_FetchAhead_1 :
    ∃ (f slice : Nat) (s : State) (pc : BitVec 64) (m : LaneMask), hasFib s f = true ∧ sliceSelect (fib s f) (selectable (fib s f)) slice = some (pc, m) ∧ ∃ ps, fetchPieces s f pc.toNat false = .ok ps ∧ leavesSet kExec ps ∧ undisturbed s (coreOf f) false ps ∧ (sliceBuf (fib s f) slice).length < 16 :=
  ⟨0, 0, S0, 0x1000, 1, by decide +kernel, by decide +kernel, [(0x1000, 4), (0x1004, 4), (0x1008, 4)].map (fun p => glob p.1 p.2), of_gives (by decide +kernel), leaves_globs _ _, calm rfl _ _ _, by decide +kernel⟩

theorem witness_FetchAhead_2 :
    ∃ (f slice : Nat) (s : State) (pc : BitVec 64) (m : LaneMask), hasFib s f = true ∧ sliceSelect (fib s f) (selectable (fib s f)) slice = some (pc, m) ∧ ∃ e g x, fetchPieces s f pc.toNat false = .error e ∧ e.s2 = false ∧ issueGroup (triedLanes s f) (fib s f) = some (g, x) ∧ slice ∈ g.slices ∧ g.mask ≠ 0 ∧ (fib s f).hstack = [] ∧ (fib s f).trapq.length < 7 ∧ e.cause = cPAGE :=
  ⟨0, 0, withLane (Lane.start 0x1000000000000000) fun x => x, 0x1000000000000000, 1, by decide +kernel, by decide +kernel, windowFault 0x1000000000000000 kExec, ⟨[0], 0x1000000000000000, 1⟩,
    fib (withLane (Lane.start 0x1000000000000000) fun x => x) 0, of_fails (by decide +kernel), rfl, by decide +kernel, by decide +kernel, by decide +kernel, rfl, by decide +kernel, rfl⟩

theorem witness_FetchAhead_3 :
    ∃ (f slice : Nat) (va : BitVec 64) (s : State), hasFib s f = true ∧ va.toNat % 4 = 0 ∧ slice < 8 ∧ ∃ ps, fetchPieces s f va.toNat true = .ok ps ∧ undisturbed s (coreOf f) false ps ∧ (sliceBuf (fib s f) slice).length < 16 :=
  ⟨0, 0, 0x1000, S0, by decide +kernel, by decide, by decide, [(0x1000, 4), (0x1004, 4), (0x1008, 4)].map (fun p => glob p.1 p.2), of_gives (by decide +kernel), calm rfl _ _ _, by decide +kernel⟩

theorem witness_FetchAhead_4 :
    ∃ (f slice : Nat) (va : BitVec 64) (s : State), hasFib s f = true ∧ va.toNat % 4 = 0 ∧ slice < 8 ∧ ∃ e, fetchPieces s f va.toNat true = .error e :=
  ⟨0, 0, 0x1000000000000000, S0, by decide +kernel, by decide, by decide, windowFault 0x1000000000000000 kExec, of_fails (by decide +kernel)⟩

theorem witness_TrapToK_1 :
    ∃ (f : Nat) (s : State) (e : TrapEntry) (m : LaneMask), hasFib s f = true ∧ dueDelivery s f = some (.trapDeliveryK f) ∧ Deliverable s f 64 e m ∧ (fib s f).ktvec ≠ 0 ∧ (fib s f).hstack.length < 4 ∧ (∀ i ∈ lanesOf m, (laneAt (fib s f) i).fp + 128 ≤ (fib s f).spw ∧ (laneAt (fib s f) i).depth + 1 ≤ (fib s f).lkn) :=
  ⟨0, trapState fun x => x, break0, 1, by decide +kernel, by decide +kernel, by constructor <;> decide +kernel, by decide +kernel⟩

theorem witness_TrapToUAndReturn_1 :
    ∃ (f : Nat) (s : State) (e : TrapEntry) (m : LaneMask), hasFib s f = true ∧ dueDelivery s f = some (.trapDeliveryU f) ∧ Deliverable s f 16 e m ∧ (∀ i ∈ lanesOf m, fitsU s f (fib s f) i = true) :=
  ⟨0, trapState fun x => { x with klvl := false, utvec := 0x5000, tdeleg := 0x1000000 }, break0, 1, by decide +kernel, by decide +kernel, by constructor <;> decide +kernel, by decide +kernel⟩

theorem witness_TrapToUAndReturn_2 :
    ∃ (a : Args) (s : State) (h : HandlerLevel) (r : List HandlerLevel), hasFib s s.cur = true ∧ (me s).hstack = h :: r ∧ (me s).parked = 0 ∧ (me s).waits = [] ∧ (∀ i ∈ handlerLanes (me s), ∃ k l, (laneAt (me s) i).links = k :: l ∧ k.hnd = true ∧ (laneAt (me s) i).wait = .none) :=
  ⟨base, withLane { framed with links := [⟨0x2000, 12, true, 0⟩] } fun x => { x with hstack := [level0] }, level0, [], by decide +kernel, rfl, rfl, rfl,
    only 0 (by decide +kernel) ⟨⟨0x2000, 12, true, 0⟩, [], by decide +kernel, rfl, by decide +kernel⟩⟩

theorem witness_TrapToUAndReturn_3 :
    ∃ (a : Args) (s : State), hasFib s s.cur = true ∧ (me s).hstack = [] ∧ queueRoom s = true ∧ s.grp ≠ 0 :=
  ⟨base, S0, by decide +kernel, rfl, by decide +kernel, by decide +kernel⟩

theorem witness_SpecialRegisters_1 :
    ∃ (a : Args) (s : State) (r : Reg) (n b : Bool), hasFib s s.cur = true ∧ a.d.opnd = .reg r n b ∧ (kAccess a.imm.toNat = true → (me s).klvl = true) :=
  ⟨a0, S0, .v 1, false, false, by decide +kernel, rfl, by decide +kernel⟩

theorem witness_SpecialRegisters_2 :
    ∃ (i : Args → Instr) (a : Args) (s : State), (i = .movsr ∨ i = .movsw) ∧ hasFib s s.cur = true ∧ kAccess a.imm.toNat = true ∧ (me s).klvl = false ∧ active s a ≠ 0 ∧ queueRoom s = true :=
  ⟨.movsr, { a0 with imm := 0x30 }, withFib fun x => { x with klvl := false }, .inl rfl, by decide +kernel⟩

theorem witness_SpecialRegisters_3 :
    ∃ (i : Args → Instr) (a : Args) (s : State), (i = .movsr ∨ i = .movsw) ∧ hasFib s s.cur = true ∧ kAccess a.imm.toNat = true ∧ (me s).klvl = false ∧ active s a = 0 :=
  ⟨.movsr, { a0 with imm := 0x30, ga := ⟨true, 7⟩ }, withFib fun x => { x with klvl := false }, .inl rfl, by decide +kernel⟩

theorem witness_SpecialRegisters_4 :
    ∃ (a : Args) (s : State) (l v : Nat) (w : BitVec 64), hasFib s s.cur = true ∧ (kAccess a.imm.toNat = true → (me s).klvl = true) ∧ lowest (active s a) = some l ∧ v = srcVal s a.ty 0 a.s0 l ∧ w = BitVec.ofNat 64 v ∧ v &&& specialRes a.imm.toNat ≠ 0 ∧ queueRoom s = true :=
  ⟨{ base with imm := 0x18, s0 := rg (.s 2) }, S0, 0, 256, 256, by decide +kernel, by decide +kernel, by decide +kernel, by decide +kernel, rfl, by decide +kernel, by decide +kernel⟩

theorem witness_TranslationUpkeep_1 :
    ∃ (a : Args) (s : State) (c : Nat), hasFib s s.cur = true ∧ c = scalar s a.s1 ∧ c % 4 ≠ 3 ∧ c / 4 % 4 = 0 ∧ c / 2 ^ 17 % 2 ^ 15 = 0 ∧ (me s).sq = [] ∧ s.readPts = [] :=
  ⟨{ base with s0 := rg (.s 2), s1 := rg .zero }, S0, 0, by decide +kernel, by decide +kernel, by decide, by decide, by decide, rfl, rfl⟩

theorem witness_TranslationUpkeep_2 :
    ∃ (a : Args) (s : State), hasFib s s.cur = true :=
  ⟨base, S0, by decide +kernel⟩

theorem witness_TranslationUpkeep_3 :
    ∃ (f : Nat) (s : State) (w : Wait), hasFib s f = true ∧ s.readPts = [] ∧ (fib s f).waits = [w] ∧ w.kind = .tlbsync ∧ partDrained s (fib s f).part = true :=
  ⟨0, withFib fun x => { x with waits := [waitOf .tlbsync] }, waitOf .tlbsync, by decide +kernel, rfl, rfl, rfl, by decide +kernel⟩

theorem witness_TranslationUpkeep_4 :
    ∃ (part : Nat) (s : State), partDrained s part = true :=
  ⟨0, S0, by decide +kernel⟩

theorem witness_TranslationUpkeep_5 :
    ∃ (k : Nat) (repaired : Bool) (s : State) (h : Held2), s.s2held[k]? = some h ∧ hasFib s h.fib = true ∧ (fib s h.fib).trapq.length < 7 ∧ (fib s h.fib).hstack = [] ∧ h.entry.async = false :=
  ⟨0, false, { S0 with s2held := [⟨0, break0⟩] }, ⟨0, break0⟩, rfl, by decide +kernel, by decide +kernel, rfl, rfl⟩

theorem witness_WaitAndWake_1 :
    ∃ (a : Args) (s : State) (dl : Option Nat), hasFib s s.cur = true ∧ dl = (if a.s0 = .reg .zero false false then none else some (addrVal s a.s0 (lane0 s))) ∧ (∀ n b, a.s0 = .reg .zero n b → n = false ∧ b = false) ∧ haltOver s s.cur dl = true :=
  ⟨{ base with s0 := rg .zero }, withFib fun x => { x with trapq := [break0] }, none, by decide +kernel, by simp, by simp, by decide +kernel⟩

theorem witness_WaitAndWake_2 :
    ∃ (a : Args) (s : State) (dl : Option Nat), hasFib s s.cur = true ∧ dl = (if a.s0 = .reg .zero false false then none else some (addrVal s a.s0 (lane0 s))) ∧ (∀ n b, a.s0 = .reg .zero n b → n = false ∧ b = false) ∧ haltOver s s.cur dl = false :=
  ⟨{ base with s0 := rg .zero }, S0, none, by decide +kernel, by simp, by simp, by decide +kernel⟩

theorem witness_WaitAndWake_3 :
    ∃ (f : Nat) (s : State) (w : Wait) (d : Option Nat), hasFib s f = true ∧ haltWait (fib s f) = some (w, d) ∧ haltOver s f d = true :=
  ⟨0, withFib fun x => { x with waits := [waitOf (.halt (some 0))] }, waitOf (.halt (some 0)), some 0, by decide +kernel, rfl, by decide +kernel⟩

theorem witness_WaitAndWake_4 :
    ∃ (a : Args) (s : State) (va e tm : Nat) (ps : List Piece), hasFib s s.cur = true ∧ va = effAddr s a (lane0 s) ∧ checkAccess s s.cur (lane0 s) a.space.toNat va 4 4 kRead .monitor false = .ok ps ∧ plainPieces s kRead false ps ∧ loadDrains (me s) ps = false ∧ e = (if isZeroOpnd a.s1 then 0 else wordVal s a.s1 (lane0 s)) ∧ tm = (if isZeroOpnd a.s1 then 0 else pairHigh s a.s1 (lane0 s)) ∧ ofBytes (loadBytes s a.space.toNat ps) ≠ e :=
  ⟨{ base with s0 := rg (.s 6), s1 := rg (.s 2), space := 1 }, S0, 0, 256, 2 ^ 24, [glob 0 4], by decide +kernel, by decide +kernel, of_gives (by decide +kernel), plain_glob _ _ _ _ _ (by decide +kernel), by decide +kernel⟩

theorem witness_WaitAndWake_5 :
    ∃ (a : Args) (s : State) (va e tm : Nat) (ps : List Piece), hasFib s s.cur = true ∧ va = effAddr s a (lane0 s) ∧ checkAccess s s.cur (lane0 s) a.space.toNat va 4 4 kRead .monitor false = .ok ps ∧ plainPieces s kRead false ps ∧ loadDrains (me s) ps = false ∧ e = (if isZeroOpnd a.s1 then 0 else wordVal s a.s1 (lane0 s)) ∧ tm = (if isZeroOpnd a.s1 then 0 else pairHigh s a.s1 (lane0 s)) ∧ ofBytes (loadBytes s a.space.toNat ps) = e ∧ waitersHeld s (me s).part < wshOf s (me s).part ∧ s.hub.waiters.length < 4096 :=
  ⟨{ base with s0 := rg (.s 6), s1 := rg .zero, space := 1 }, S0, 0, 0, 0, [glob 0 4], by decide +kernel, by decide +kernel, of_gives (by decide +kernel), plain_glob _ _ _ _ _ (by decide +kernel), by decide +kernel, by decide, by decide, by decide +kernel, by decide +kernel, by decide +kernel⟩

theorem witness_WaitAndWake_6 :
    ∃ (a : Args) (s : State) (va e tm : Nat) (ps : List Piece), hasFib s s.cur = true ∧ va = effAddr s a (lane0 s) ∧ checkAccess s s.cur (lane0 s) a.space.toNat va 4 4 kRead .monitor false = .ok ps ∧ plainPieces s kRead false ps ∧ loadDrains (me s) ps = false ∧ e = (if isZeroOpnd a.s1 then 0 else wordVal s a.s1 (lane0 s)) ∧ tm = (if isZeroOpnd a.s1 then 0 else pairHigh s a.s1 (lane0 s)) ∧ ofBytes (loadBytes s a.space.toNat ps) = e ∧ wshOf s (me s).part ≤ waitersHeld s (me s).part :=
  ⟨{ base with s0 := rg (.s 6), s1 := rg .zero, space := 1 }, withHub fun h => { h with parts := [(0, { part0 with wsh := some 0 })] }, 0, 0, 0, [glob 0 4], by decide +kernel, by decide +kernel,
    of_gives (by decide +kernel), plain_glob _ _ _ _ _ (by decide +kernel), by decide +kernel, by decide, by decide, by decide +kernel, by decide +kernel⟩

theorem witness_WaitAndWake_7 :
    ∃ (f key scope : Nat) (s : State) (w : Wait) (d : Option Nat) (dst : Option Nat) (woken acq : Bool), hasFib s f = true ∧ s.readPts = [] ∧ wwaitOf (fib s f) = some w ∧ w.kind = .wwait key d woken dst acq scope ∧ (∀ k, dst = some k → k < 7) ∧ woken = true :=
  ⟨0, 0, 1, withFib fun x => { x with waits := [waitOf (.wwait 0 none true (some 1) false 1)] }, waitOf (.wwait 0 none true (some 1) false 1), none, some 1, true, false, by decide +kernel, rfl, rfl, rfl,
    by simp, rfl⟩

theorem witness_WaitAndWake_8 :
    ∃ (f key scope : Nat) (s : State) (w : Wait) (d : Option Nat) (dst : Option Nat) (woken acq : Bool), hasFib s f = true ∧ s.readPts = [] ∧ wwaitOf (fib s f) = some w ∧ w.kind = .wwait key d woken dst acq scope ∧ (∀ k, dst = some k → k < 7) ∧ ∃ tm, woken = false ∧ d = some tm ∧ tm ≤ s.tick :=
  ⟨0, 0, 1, withFib fun x => { x with waits := [waitOf (.wwait 0 (some 0) false (some 1) false 1)] }, waitOf (.wwait 0 (some 0) false (some 1) false 1), some 0, some 1, false, false, by decide +kernel, rfl, rfl, rfl,
    by simp, 0, rfl, rfl, by decide +kernel⟩

theorem witness_WaitAndWake_9 :
    ∃ (a : Args) (s : State) (va c : Nat) (l : List WaitEntry), hasFib s s.cur = true ∧ s.readPts = [] ∧ (me s).sq = [] ∧ va = effAddr s a (lane0 s) ∧ va % 4 = 0 ∧ c = scalar s a.s1 ∧ (l.any hostWaiter = true ∨ 6 ≤ a.scope.toNat → fibReady s s.cur 6 = true) ∧ (l.any hostWaiter = true → noTenure s) ∧ l = (if c = 0 then s.hub.waiters.filter (onKey (me s).part va) else (s.hub.waiters.filter (onKey (me s).part va)).take c) :=
  ⟨{ base with s0 := rg (.s 6), s1 := rg .zero, space := 1, ord := 1, scope := 6 }, S0, 0, 0, [], by decide +kernel, rfl, rfl, by decide +kernel, by decide +kernel, by decide +kernel, by decide +kernel, fun _ => no_tenure rfl, by decide +kernel⟩

theorem witness_Services_1 :
    ∃ (a : Args) (s : State), hasFib s s.cur = true ∧ keptSlot s s.cur = none ∧ ringOf s (me s).part (dieOf (coreOf s.cur)) = none ∧ queueRoom s = true ∧ active s a ≠ 0 :=
  ⟨{ base with fmt := .I, d := ⟨rg (.v 8), false, 0⟩, s0 := rg (.v 16), imm := 9 }, S0, by decide +kernel⟩

theorem witness_Services_2 :
    ∃ (i : Args → Instr) (a : Args) (s : State) (r : Nat × Nat) (k form : Nat), hasFib s s.cur = true ∧ (i = .svc ∧ form = 0 ∨ i = .svcF ∧ form = 1 ∧ (me s).hstack ≠ []) ∧ keptSlot s s.cur = none ∧ ringOf s (me s).part (dieOf (coreOf s.cur)) = some r ∧ active s a ≠ 0 ∧ (me s).sq = [] ∧ s.readPts = [] ∧ fibReady s s.cur (ringScope r.1) = true ∧ freeSlot (reclaim s) (me s).part (dieOf (coreOf s.cur)) = some k ∧ s.objs = [] ∧ (me s).part < 32 ∧ (∀ q ∈ linesOf (slotAddr r.1 k) 2048, conflicts s hubCore q true = []) :=
  ⟨.svc, { base with fmt := .I, d := ⟨rg (.v 8), false, 0⟩, s0 := rg (.v 16), imm := 9 }, ringState fun x => x, (0x40000, 1), 0, 0, by decide +kernel, .inl ⟨rfl, rfl⟩, by decide +kernel, by decide +kernel, by decide +kernel, rfl, rfl, by decide +kernel, by decide +kernel, rfl, by decide +kernel, fun _ _ => no_conflicts rfl _ _ _⟩

theorem witness_Services_3 :
    ∃ (a : Args) (s : State), hasFib s s.cur = true ∧ (me s).hstack = [] ∧ queueRoom s = true ∧ s.grp ≠ 0 :=
  ⟨base, S0, by decide +kernel, rfl, by decide +kernel, by decide +kernel⟩

theorem witness_Services_4 :
    ∃ (a : Args) (s : State), hasFib s s.cur = true ∧ isGondola s (coreOf s.cur) = true :=
  ⟨base, gondolaState, by decide +kernel, by decide +kernel⟩

theorem witness_Services_5 :
    ∃ (a : Args) (s : State), hasFib s s.cur = true ∧ isGondola s (coreOf s.cur) = false ∧ queueRoom s = true ∧ s.grp ≠ 0 :=
  ⟨base, S0, by decide +kernel⟩

theorem witness_Services_6 :
    ∃ (f n dst : Nat) (b : Batch) (s : State) (w : Wait), hasFib s f = true ∧ s.readPts = [] ∧ replied s f = some (w, b) ∧ (∀ q ∈ linesOf (slotAddr b.ring.1 b.slot) 2048, conflicts s (coreOf f) q false = []) ∧ w.kind = .svc n 0 dst ∧ 4 ≤ (slotRec s (slotOf f)).z ∧ (slotRec s (slotOf f)).z ≤ 512 :=
  ⟨0, 0x100000, 8, ⟨0, 0, 0, 1, 0, 0, 0, [], (0x40000, 1)⟩, { ringState (fun x => { x with waits := [waitOf (.svc 0x100000 0 8)] }) with mem := { Store.reset with cells := [(0x40004, 1)], lineKey := [(0x800, 7)] }, hub := { (ringState id).hub with batches := [⟨0, 0, 0, 1, 0, 0, 0, [], (0x40000, 1)⟩] } },
    waitOf (.svc 0x100000 0 8), by decide +kernel, rfl, by decide +kernel, fun _ _ => no_conflicts rfl _ _ _, rfl, by decide +kernel, by decide +kernel⟩

theorem witness_Services_7 :
    ∃ (f n dst : Nat) (b : Batch) (s : State) (w : Wait), hasFib s f = true ∧ s.readPts = [] ∧ replied s f = some (w, b) ∧ (∀ q ∈ linesOf (slotAddr b.ring.1 b.slot) 2048, conflicts s (coreOf f) q false = []) ∧ w.kind = .svc n 1 dst ∧ dst < 32 :=
  ⟨0, 0x100000, 8, ⟨0, 0, 0, 2, 0, 0, 0, [], (0x40000, 1)⟩, { ringState (fun x => { x with waits := [waitOf (.svc 0x100000 1 8)] }) with mem := { Store.reset with cells := [(0x40004, 1)], lineKey := [(0x800, 7)] }, hub := { (ringState id).hub with batches := [⟨0, 0, 0, 2, 0, 0, 0, [], (0x40000, 1)⟩] } },
    waitOf (.svc 0x100000 1 8), by decide +kernel, rfl, by decide +kernel, fun _ _ => no_conflicts rfl _ _ _, rfl, by decide⟩

theorem witness_Services_8 :
    ∃ (die p f dst : Nat) (b : Batch) (w : Wait) (s : State), s.readPts = [] ∧ nextServed s die = some p ∧ oldestBatch s die p = some b ∧ oldestTaker s die p = some (f, w, dst) ∧ hasFib s f = true ∧ dst < 31 :=
  ⟨0, 0, 16128, 2, ⟨0, 0, 0, 1, 0, 0, 0, [], (0x40000, 1)⟩, waitOf (.svcTake 2 none), gondolaState, rfl, by decide +kernel⟩

theorem witness_FunctionRequests_1 :
    ∃ (vf off size : Nat) (wr : Bool) (x y : BitVec 64) (z : BitVec 128) (q : BitVec 256) (i : Instr) (s : State), vfLive s vf = none ∧ i ∈ [Instr.launchDoorbell vf x y, .sdone vf x, .wreqEnrol vf q, .wreqWake vf q, .wreqCancel vf q, .vfRegisterWrite vf off size wr z] :=
  ⟨0, 0, 4, false, 0, 0, 0, 0, .sdone 0 0, S0, by decide +kernel, by simp⟩

theorem witness_FunctionRequests_2 :
    ∃ (vf part : Nat) (va res : BitVec 64) (s u : State) (rec : BitVec 1024) (k : BitVec 512), Bound s vf part ∧ readLaunch s { part := part, root := SMap.get 0 (partOf s part).lctx vf, klvl := true } none va.toNat = (u, .ok (some (rec, k))) ∧ (∀ q ∈ linesOf (res.toNat % 2 ^ 52) 8, conflicts u hubCore q true = []) ∧ Bound u vf part ∧ (launchFails rec k).isSome = true :=
  ⟨0, 0, 0x8000, 0, { hostState with mem := { launchMem with cells := [(0x8000, 0x80), (0x8001, 0x80)] } }, _, BitVec.ofNat 1024 0x8080, 0, bound_of rfl, pair_gives (by decide +kernel), fun _ _ => no_conflicts (by decide +kernel) _ _ _, bound_of (by decide +kernel), by decide +kernel⟩

theorem witness_FunctionRequests_3 :
    ∃ (vf part : Nat) (va res : BitVec 64) (s u : State) (rec : BitVec 1024) (k : BitVec 512), Bound s vf part ∧ readLaunch s { part := part, root := SMap.get 0 (partOf s part).lctx vf, klvl := true } none va.toNat = (u, .ok (some (rec, k))) ∧ (∀ q ∈ linesOf (res.toNat % 2 ^ 52) 8, conflicts u hubCore q true = []) ∧ Bound u vf part ∧ launchFails rec k = none ∧ (queueOf u part (rf rec 196 6)).length < 256 ∧ rDep rec = false ∧ 6 ≤ u.hub.boot :=
  ⟨0, 0, 0x8000, 0, { hostState with mem := launchMem }, _, rec0 0, kdesc0, bound_of rfl, pair_gives (by decide +kernel), fun _ _ => no_conflicts (by decide +kernel) _ _ _, bound_of (by decide +kernel), by decide +kernel⟩

theorem witness_FunctionRequests_4 :
    ∃ (vf part : Nat) (v : BitVec 64) (s : State), Bound s vf part ∧ v.toNat < 2 ^ 16 :=
  ⟨0, 0, 5, hostState, host_bound, by decide⟩

theorem witness_FunctionRequests_5 :
    ∃ (vf part : Nat) (q : BitVec 256) (s : State), Bound s vf part ∧ bits q.toNat 66 14 = 0 ∧ bits q.toNat 180 12 = 0 ∧ noTenure s ∧ wreqOp q = 0 ∧ waitersHeld s part < wshOf s part ∧ s.hub.waiters.length < 4096 :=
  ⟨0, 0, 0, hostState, host_bound, by decide +kernel, by decide +kernel, no_tenure rfl, by decide +kernel, by decide +kernel, by decide +kernel⟩

theorem witness_FunctionRequests_6 :
    ∃ (vf part : Nat) (q : BitVec 256) (s : State), Bound s vf part ∧ bits q.toNat 66 14 = 0 ∧ bits q.toNat 180 12 = 0 ∧ noTenure s ∧ wreqOp q = 0 ∧ wshOf s part ≤ waitersHeld s part ∧ wreqNpa q ≠ 0 :=
  ⟨0, 0, BitVec.ofNat 256 (0x8000000000000 * 2 ^ 128), withHub (fun h => { h with vfPart := [(0, 0)], parts := [(0, { part0 with wsh := some 0 })] }), ⟨by decide +kernel, by decide +kernel⟩, by decide +kernel, by decide +kernel, no_tenure rfl, by decide +kernel, by decide +kernel, by decide +kernel⟩

theorem witness_FunctionRequests_7 :
    ∃ (vf part : Nat) (q : BitVec 256) (s : State), Bound s vf part ∧ bits q.toNat 66 14 = 0 ∧ bits q.toNat 180 12 = 0 ∧ noTenure s ∧ wreqOp q = 1 :=
  ⟨0, 0, BitVec.ofNat 256 (2 ^ 64), hostState, host_bound, by decide +kernel, by decide +kernel, no_tenure rfl, by decide +kernel⟩

theorem witness_FunctionRequests_8 :
    ∃ (vf part : Nat) (q : BitVec 256) (s : State), Bound s vf part ∧ bits q.toNat 66 14 = 0 ∧ bits q.toNat 180 12 = 0 ∧ noTenure s ∧ wreqOp q = 2 :=
  ⟨0, 0, BitVec.ofNat 256 (2 * 2 ^ 64), hostState, host_bound, by decide +kernel, by decide +kernel, no_tenure rfl, by decide +kernel⟩

theorem witness_FunctionRequests_9 :
    ∃ (vf part : Nat) (q : BitVec 256) (i : Instr) (s : State), Bound s vf part ∧ i ∈ [Instr.wreqEnrol vf q, .wreqWake vf q, .wreqCancel vf q] ∧ (bits q.toNat 66 14 ≠ 0 ∨ bits q.toNat 180 12 ≠ 0 ∨ wreqOp q = 3) :=
  ⟨0, 0, BitVec.ofNat 256 (3 * 2 ^ 64), .wreqWake 0 (BitVec.ofNat 256 (3 * 2 ^ 64)), hostState, host_bound, by simp, .inr (.inr (by decide +kernel))⟩

theorem witness_FunctionRequests_10 :
    ∃ (vf part off size : Nat) (z : BitVec 128) (s : State), Bound s vf part ∧ off < 0x3000 :=
  ⟨0, 0, 0x2FFF, 4, 0, hostState, host_bound, by decide⟩

theorem witness_FunctionRequests_11 :
    ∃ (vf part off size : Nat) (z : BitVec 128) (s : State), Bound s vf part ∧ msixAccess off size = true ∧ off < 0x3800 :=
  ⟨0, 0, 0x3000, 4, 0, hostState, host_bound, by decide, by decide⟩

theorem witness_HostAccesses_1 :
    ∃ (port pa : Nat) (l : List Byte) (s : State), (portAt s port).failed = false ∧ hostReaches s port pa l.length = true ∧ pa + l.length ≤ 2 ^ 52 ∧ s.objs = [] ∧ port < s.hub.ports.length ∧ noTenure s :=
  ⟨0, 0x8000000000000, [1, 2], S0, by decide +kernel, by decide +kernel, by decide, rfl, by decide +kernel, no_tenure rfl⟩

theorem witness_HostAccesses_2 :
    ∃ (port pa : Nat) (l : List Byte) (s : State), (portAt s port).failed = false ∧ hostReaches s port pa l.length = true ∧ pa + l.length ≤ 2 ^ 52 ∧ s.objs = [] ∧ port < s.hub.ports.length ∧ (inboundWaits s port || hostWaits s pa l.length true) = true :=
  ⟨0, 0x8000000000000, [1, 2], heldHost, by decide +kernel, by decide +kernel, by decide, rfl, by decide +kernel, by decide +kernel⟩

theorem witness_HostAccesses_3 :
    ∃ (port pa : Nat) (l : List Byte) (s : State), (portAt s port).failed = false ∧ hostReaches s port pa l.length = true ∧ pa + l.length ≤ 2 ^ 52 ∧ s.objs = [] ∧ port < s.hub.ports.length :=
  ⟨0, 0x8000000000000, [1, 2], S0, by decide +kernel, by decide +kernel, by decide, rfl, by decide +kernel⟩

theorem witness_HostAccesses_4 :
    ∃ (port pa n : Nat) (s : State), (portAt s port).failed = false ∧ hostReaches s port pa n = true ∧ pa + n ≤ 2 ^ 52 ∧ noTenure s ∧ (portAt s port).inbound = [] :=
  ⟨0, 0x8000000000000, 2, S0, by decide +kernel, by decide +kernel, by decide, no_tenure rfl, by decide +kernel⟩

theorem witness_HostAccesses_5 :
    ∃ (port pa n : Nat) (s : State), (portAt s port).failed = false ∧ hostReaches s port pa n = true ∧ pa + n ≤ 2 ^ 52 ∧ (inboundWaits s port || hostWaits s pa n false) = true :=
  ⟨0, 0x8000000000000, 2, heldHost, by decide +kernel, by decide +kernel, by decide, by decide +kernel⟩

theorem witness_HostAccesses_6 :
    ∃ (port pa : Nat) (ex : Bool) (s : State), (portAt s port).failed = false ∧ (portAt s port).cxl = true ∧ isHost pa = true ∧ portOf pa = port ∧ noTenure s :=
  ⟨0, 0x8000000000000, true, withHub fun h => { h with ports := [{ Port.reset with cxl := true }, Port.reset] }, by decide +kernel, by decide +kernel, by decide +kernel, by decide +kernel, no_tenure rfl⟩

theorem witness_HostAccesses_8 :
    ∃ (port n : Nat) (r : List Nat) (s : State), port < s.hub.ports.length ∧ (portAt s port).flights = n :: r :=
  ⟨0, 1, [], withHub fun h => { h with ports := [{ Port.reset with relaxed := [⟨0, 0x8000000000000, [1], false⟩], accepted := 1, flights := [1] }, Port.reset] }, by decide +kernel, by decide +kernel⟩

theorem witness_InterruptsAndConfiguration_1 :
    ∃ (port : Nat) (s : State), (portAt s port).failed = false ∧ 5 ≤ s.hub.boot :=
  ⟨0, S0, by decide +kernel, by decide +kernel⟩

theorem witness_InterruptsAndConfiguration_2 :
    ∃ (core file off : Nat) (v : BitVec 32) (s : State), core < 8 ∧ file ≤ 24 ∧ ∃ n, (off = 0 ∧ n = v.toNat ∨ off = 4 ∧ toBytes 4 n = (toBytes 4 v.toNat).reverse ∧ n < 2 ^ 32) ∧ 1 ≤ n ∧ n ≤ 2047 :=
  ⟨0, 0, 0, 1, S0, by decide, by decide, 1, .inl ⟨rfl, rfl⟩, by decide, by decide⟩

theorem witness_InterruptsAndConfiguration_3 :
    ∃ (core file off : Nat) (v : BitVec 32) (s : State), core < 8 ∧ file ≤ 24 ∧ (off ≠ 0 ∧ off ≠ 4 ∨ off = 0 ∧ (v.toNat = 0 ∨ 2047 < v.toNat)) :=
  ⟨7, 24, 0, 2048, S0, by decide, by decide, .inr ⟨rfl, .inr (by decide)⟩⟩

theorem witness_InterruptsAndConfiguration_4 :
    ∃ (vf n part : Nat) (s : State), FMap.find s.hub.vfPart vf = some part ∧ 32 ≤ n :=
  ⟨0, 32, 0, hostState, by decide +kernel, by decide⟩

theorem witness_InterruptsAndConfiguration_5 :
    ∃ (vf n part : Nat) (s : State), FMap.find s.hub.vfPart vf = some part ∧ n < 32 ∧ (msixByte s vf (16 * n + 12)).getLsbD 0 = true :=
  ⟨0, 31, 0, withHub fun h => { h with vfPart := [(0, 0)], msixTable := [(508, 1)] }, by decide +kernel, by decide, by decide +kernel⟩

theorem witness_InterruptsAndConfiguration_6 :
    ∃ (vf n part : Nat) (s : State), FMap.find s.hub.vfPart vf = some part ∧ n < 32 ∧ (msixByte s vf (16 * n + 12)).getLsbD 0 = false ∧ s.hub.notices = [] ∧ releaseReady s 6 [] = true ∧ (portAt s (vfPort vf)).failed = false :=
  ⟨0, 31, 0, hostState, by decide +kernel, by decide, by decide +kernel, rfl, by decide +kernel, by decide +kernel⟩

theorem witness_InterruptsAndConfiguration_7 :
    ∃ (vf n part : Nat) (s : State), FMap.find s.hub.vfPart vf = some part ∧ n < 32 ∧ (msixByte s vf (16 * n + 12)).getLsbD 0 = false ∧ (s.hub.notices ≠ [] ∨ releaseReady s 6 [] = false) :=
  ⟨0, 0, 0, withHub fun h => { h with vfPart := [(0, 0)], ports := [{ Port.reset with relaxed := [⟨0, 0x8000000000000, [1], true⟩], accepted := 1 }, Port.reset] }, by decide +kernel, by decide, by decide +kernel, .inr (by decide +kernel)⟩

theorem witness_PartitionSettings_1 :
    ∃ (part : Nat) (c : SettingChange) (s : State), 6 ≤ s.hub.boot ∧ part < 24 ∧ settingOk s part c = true ∧ c ≠ .build ∧ (∀ pa v, c = .stage2Entry pa v → noTenure s) ∧ (FMap.find s.hub.parts part).isSome = true ∧ (partOf s part).qmask.length = 4 :=
  ⟨0, .weight 255, S0, by decide +kernel, by decide, by decide +kernel, by decide, fun _ _ h => (by cases h), by decide +kernel, by decide +kernel⟩

theorem witness_PartitionSettings_2 :
    ∃ (part : Nat) (c : SettingChange) (s : State), settingOk s part c = false :=
  ⟨0, .weight 256, S0, by decide +kernel⟩

theorem witness_PartitionSettings_3 :
    ∃ (part : Nat) (s : State), 6 ≤ s.hub.boot ∧ part < 24 ∧ FMap.find s.hub.parts part = none :=
  ⟨23, S0, by decide +kernel, by decide, by decide +kernel⟩

theorem witness_PartitionSettings_4 :
    ∃ (slot key : Nat) (s : State), s.hub.boot = 6 ∧ 1 ≤ slot ∧ slot ≤ 4095 ∧ key ≠ 0 :=
  ⟨4095, 7, S0, by decide +kernel, by decide, by decide, by decide⟩

theorem witness_PartitionSettings_5 :
    ∃ (v : Option Nat) (q : SpdmRequest) (s : State), bootStopped s = true :=
  ⟨none, .other 0, bootState 1, by decide +kernel⟩

theorem witness_TeardownAndWarmReset_1 :
    ∃ (part : Nat) (s : State), (FMap.find s.hub.parts part).isSome = true :=
  ⟨0, S0, by decide +kernel⟩

theorem witness_ColdBoot_1 :
    ∃ (id : BitVec 64) (img : List Byte) (s : State), (s.hub.boot = 0 ∨ s.hub.boot = 6) :=
  ⟨0, [], bootState 0, .inl rfl⟩

theorem witness_ColdBoot_2 :
    ∃ (id : BitVec 64) (img : List Byte) (s : State), s.hub.boot = 1 :=
  ⟨0, [], bootState 1, rfl⟩

theorem witness_ColdBoot_3 :
    ∃ (id : BitVec 64) (img : List Byte) (s : State), 2 ≤ s.hub.boot ∧ s.hub.boot ≤ 4 :=
  ⟨0, [], bootState 4, by decide, by decide⟩

theorem witness_ColdBoot_4 :
    ∃ (id : BitVec 64) (img : List Byte) (s : State), s.hub.boot = 5 ∧ s.hub.kernel = none :=
  ⟨0, [], bootState 5, rfl, rfl⟩

theorem witness_RecordsAndRetirement_1 :
    ∃ (l : List Byte) (s : State), bootStopped s = true ∧ l.length = 160 ∧ s.hub.records.length = 2 :=
  ⟨List.replicate 160 0, bootState 1, by decide +kernel, by decide +kernel, rfl⟩

theorem witness_RecordsAndRetirement_2 :
    ∃ (l : List Byte) (s : State), (bootStopped s = false ∨ l.length ≠ 160) :=
  ⟨[], bootState 1, .inr (by decide)⟩

theorem witness_RecordsAndRetirement_3 :
    ∃ (die quad core c e : Nat) (r : BitVec 1280) (s : State), c = 64 * die + 4 * quad + core ∧ c < 256 ∧ s.hub.inUse = some r ∧ physicalOf s.hub.units c = some e ∧ ((leaving r e).filterMap (logicalOf s.hub.units)).any (coreBusy s) = true :=
  ⟨0, 0, 0, 0, 0, config0, { bootState 6 with wgs := [(0, wg0)] }, rfl, by decide, rfl, by decide +kernel, by decide +kernel⟩

theorem witness_RecordsAndRetirement_4 :
    ∃ (die quad core c e : Nat) (r : BitVec 1280) (s : State), c = 64 * die + 4 * quad + core ∧ c < 256 ∧ s.hub.inUse = some r ∧ physicalOf s.hub.units c = some e ∧ ((leaving r e).filterMap (logicalOf s.hub.units)).any (coreBusy s) = false :=
  ⟨0, 0, 0, 0, 0, config0, bootState 6, rfl, by decide, rfl, by decide +kernel, by decide +kernel⟩

theorem witness_RecordsAndRetirement_6 :
    ∃ (l : List Byte) (b : BitVec 512) (r : BitVec 1280) (s : State), s.hub.pendingSign = some b ∧ l.length = 96 ∧ r = BitVec.ofNat 1280 (b.toNat + ofBytes l * 2 ^ 512) ∧ s.hub.records.length = 2 :=
  ⟨List.replicate 96 0, 0, _, { bootState 6 with hub := { (bootState 6).hub with pendingSign := some 0 } }, rfl, by decide, rfl, rfl⟩

theorem witness_RecordsAndRetirement_9 :
    ∃ (p : TestPlace) (s : State), s.hub.tests.any (samePlace p) = true ∧ ∃ die ways, p = .l2Bank die ways ∧ die < s.hub.l2ways.length :=
  ⟨.l2Bank 3 1, (withHub fun h => { h with tests := [.l2Bank 3 1] }), by decide, 3, 1, rfl, by decide +kernel⟩

theorem witness_PowerAndHeat_1 :
    ∃ (w : Nat) (s : State), s.hub.clock ≤ 1000 ∧ s.hub.duty ≤ 1 ∧ s.hub.limit < w :=
  ⟨5000, withHub fun h => { h with clock := 1000, duty := 1 }, by decide +kernel, by decide +kernel, by decide +kernel⟩

theorem witness_PowerAndHeat_2 :
    ∃ (w : Nat) (s : State), ¬ (s.hub.clock ≤ 1000 ∧ s.hub.duty ≤ 1 ∧ s.hub.limit < w) :=
  ⟨5000, S0, by decide +kernel⟩

theorem witness_PowerAndHeat_3 :
    ∃ (die c : Nat) (s : State), 115 ≤ c :=
  ⟨0, 115, S0, by decide⟩

theorem witness_PowerAndHeat_4 :
    ∃ (die c : Nat) (s : State), c < 115 :=
  ⟨0, 114, S0, by decide⟩

theorem witness_PowerAndHeat_5 :
    ∃ (u : Nat) (r : List Move) (s : State), s.hub.stopped = true ∧ s.agenda = .issue u :: r :=
  ⟨0, [], { withHub (fun h => { h with stopped := true }) with agenda := [.issue 0] }, rfl, rfl⟩

theorem witness_RoundTrip_1 :
    ∃ i : Instr, wfInstr i = true :=
  ⟨.nop base, by decide +kernel⟩

theorem witness_LevelsOfDecode_1 :
    ∃ (w : IWord) (i : Instr), decode false w = .ok i :=
  ⟨parcels 0x001DC000 0 0, .nop base, of_gives (by decide +kernel)⟩

theorem witness_LevelsOfDecode_2 :
    ∃ (w : IWord) (i : Instr), decode true w = .ok i :=
  ⟨parcels 0x001DC382 0 0, .eret base, of_gives (by decide +kernel)⟩

theorem witness_Guards_1 :
    ∃ (a : Args) (s : State) (i : Nat), i < 32 :=
  ⟨base, S0, 31, by decide⟩

theorem witness_StepRunsDecoded_1 :
    ∃ (s v t : State) (u f : Nat) (g : Group) (w : IWord), Turn s u f v ∧ Issues v f g w t ∧ ∃ (i : Instr) (x n : State), decodeAt (fib v f).klvl (winOf t f) w = .ok i ∧ Issued t f g w i x ∧ exec i x = .next n :=
  ⟨codeState 0 0xC0 0x1D, issueAt (codeState 0 0xC0 0x1D), decodedAt (codeState 0 0xC0 0x1D), 0, 0, group0, parcels 0x001DC000 0 0, turn_at _ (by decide +kernel),
    ⟨by decide +kernel, group0, fib (issueAt (codeState 0 0xC0 0x1D)) 0, takenState (codeState 0 0xC0 0x1D), by decide +kernel, by decide +kernel, ok_word (by decide +kernel), rfl⟩, .nop base, issuedAt (codeState 0 0xC0 0x1D), goOn (issuedAt (codeState 0 0xC0 0x1D)), of_gives (by decide +kernel), ⟨⟨base, decodedAt (codeState 0 0xC0 0x1D), rfl, by decide +kernel, by decide +kernel, by decide +kernel⟩, by decide +kernel⟩, rfl⟩

theorem witness_StepRunsDecoded_2 :
    ∃ (s v t : State) (u f : Nat) (g : Group) (w : IWord), Turn s u f v ∧ Issues v f g w t ∧ ∃ e : DecodeError, decodeAt (fib v f).klvl (winOf t f) w = .error e :=
  ⟨codeState 0xFF 3 0, issueAt (codeState 0xFF 3 0), decodedAt (codeState 0xFF 3 0), 0, 0, group0, parcels 0x3FF 0 0, turn_at _ (by decide +kernel),
    ⟨by decide +kernel, group0, fib (issueAt (codeState 0xFF 3 0)) 0, takenState (codeState 0xFF 3 0), by decide +kernel, by decide +kernel, ok_word (by decide +kernel), rfl⟩, .illegalInsn, of_fails (by decide +kernel)⟩

theorem witness_StepRunsDecoded_3 :
    ∃ (s : State) (f : Nat) (g : Group) (ps : List Piece), g.slices ≠ [] ∧ (∀ k ∈ g.slices, takeFetched g.pc (sliceBuf (fib s f) k) = none) ∧ fetchPieces s f g.pc.toNat false = .ok ps ∧ leavesSet kExec ps ∧ undisturbed s (coreOf f) false ps :=
  ⟨S0, 0, group0, [(0x1000, 4), (0x1004, 4), (0x1008, 4)].map (fun p => glob p.1 p.2), by decide, by decide +kernel, of_gives (by decide +kernel), leaves_globs _ _, calm rfl _ _ _⟩

theorem witness_ResetValues_1 :
    ∃ c, c ∈ State.reset.hub.colour :=
  ⟨colourReset, by decide⟩

theorem witness_MemoryStaysCanonical_1 :
    ∃ s t : State, Memory.wf s.mem ∧ step s = .next t :=
  ⟨S0, _, by decide, next_after (by decide +kernel)⟩

theorem witness_SlotTimes_1 :
    ∃ s t : State, step s = .next t ∧ ∃ k x, FMap.find t.slots k = some x :=
  ⟨S0, _, next_after (by decide +kernel), 0, _, some_get slot0 (by decide +kernel)⟩

theorem witness_PrefetchAndCacheControl_3 :
    ∃ (a : Args) (s : State), hasFib s s.cur = true ∧ (me s).sq = [] ∧ accessLanes s a ≠ [] ∧ (∀ l ∈ accessLanes s a, ∃ ps, locate s s.cur l 1 (effAddr s { a with space := BitVec.ofNat 3 1 } l) 1 kRead true = .ok ps ∧ walkClear s ps) :=
  ⟨{ a0 with s0 := rg (.s 8), space := 1 }, S0, by decide +kernel, rfl, by decide +kernel, only 0 (by decide +kernel) ⟨[glob 0 1], of_gives (by decide +kernel), (calm rfl 0 false _).1⟩⟩

theorem witness_SpecialRegisters_5 :
    ∃ (a : Args) (s : State) (l v : Nat) (w : BitVec 64), hasFib s s.cur = true ∧ (kAccess a.imm.toNat = true → (me s).klvl = true) ∧ lowest (active s a) = some l ∧ v = srcVal s a.ty 0 a.s0 l ∧ w = BitVec.ofNat 64 v ∧ v &&& specialRes a.imm.toNat = 0 :=
  ⟨{ base with imm := 0x18, s0 := rg .zero }, S0, 0, 0, 0, by decide +kernel, by decide +kernel, by decide +kernel, by decide +kernel, rfl, by decide +kernel⟩

theorem witness_LateLoads_1 :
    ∃ (a : Args) (s : State) (ps : Nat → List Piece) (x : Fin 32) (n b : Bool) (r : List Bool), hasFib s s.cur = true ∧ a.ord.toNat ≠ 3 ∧ a.ty = .b32 ∧ a.d.opnd = .reg (.x x) n b ∧ s.latePts = true :: r ∧ (∀ l ∈ accessLanes s a, checked a s 4 kRead .single l = .ok (ps l) ∧ plainPieces s kRead false (ps l) ∧ loadDrains (me s) (ps l) = false) :=
  ⟨{ a0 with d := ⟨rg (.x 1), false, 0⟩ }, { S0 with latePts := [true] }, fun _ => [scr0 4], 1, false, false, [], by decide +kernel, by decide, rfl, rfl, rfl,
    only 0 (by decide +kernel) ⟨of_gives (by decide +kernel), plain_own _ _ _ _ _ rfl, by decide +kernel⟩⟩

theorem witness_LateLoads_2 :
    ∃ (s : State) (f l j : Nat) (v : Word), hasFib s f = true ∧ (fib s f).late = [(l, j, v)] :=
  ⟨withFib fun x => { x with late := [(0, 1, 5)] }, 0, 0, 1, 5, by decide +kernel, rfl⟩

theorem witness_HostAccesses_9 :
    ∃ (port : Nat) (aer : Bool) (s : State), port < s.hub.ports.length ∧ (portAt s port).failed = false :=
  ⟨1, true, S0, by decide +kernel, by decide +kernel⟩

theorem witness_HostAccesses_10 :
    ∃ (port : Nat) (s : State), port < s.hub.ports.length ∧ (portAt s port).failed = true :=
  ⟨0, withHub fun h => { h with ports := [{ Port.reset with failed := true }, Port.reset] }, by decide +kernel, by decide +kernel⟩

theorem witness_PartitionSettings_6 :
    ∃ (vf part n : Nat) (s : State), vfLive s vf = some part ∧ bootStopped s = false :=
  ⟨0, 0, 0, hostState, by decide +kernel, by decide +kernel⟩

theorem witness_RecordsAndRetirement_10 :
    ∃ (p : TestPlace) (s : State), s.hub.tests.any (samePlace p) = true ∧ ∃ pa part, p = .dramRow pa ∧ part = lineOwner s pa ∧ (partOf s part).ring = [] ∧ part < 32 ∧ s.hub.faults = [] :=
  ⟨.dramRow 0, withHub fun h => { h with tests := [.dramRow 0] }, by decide, 0, _, rfl, rfl, by decide +kernel, by decide +kernel, rfl⟩

theorem witness_ResetValues_2 :
    ∃ r, r ∈ State.reset.hub.records :=
  ⟨recordReset, show recordReset ∈ [recordReset, recordReset] from List.mem_cons_self⟩

theorem witness_ExactArithmetic_4 :
    ∃ (m : RMode) (n : Bool) (l : List Machine.Num), l ≠ [] ∧ (∀ x ∈ l, ∃ e, x = .fin n 0 e) :=
  ⟨.rne, true, [.fin true 0 0], by simp, by simp⟩

theorem witness_RoundingIsNearest_3 :
    ∃ (t : Ty) (nc : Nat) (x : Machine.Num), Claims.FormatOf t nc ∧ finite x :=
  ⟨.f32, 0, .fin false 1 0, .inl (by decide), by simp [finite]⟩

theorem witness_Pinning_3 :
    ∃ (a : Args) (s : State) (p u k : Nat) (e : OwnEntry), hasFib s s.cur = true ∧ addrVal s a.s0 (lane0 s) ≠ 0 ∧ physTile s s.cur (codeOf a.s2 % 16) = .ok p ∧ (∀ j x, pinOf s s.cur (codeOf a.s2 % 16) = some (j, x) → x.key = addrVal s a.s0 (lane0 s)) ∧ findKey s (coreOf s.cur) (wgOf s s.cur).part (addrVal s a.s0 (lane0 s)) = some (u, k, e) ∧ ownsEntry (wgOf s s.cur) u e = true ∧ e.ltile = codeOf a.s2 % 16 :=
  ⟨{ base with s0 := rg (.s 6), s1 := rg .zero, s2 := .code 0 }, { pinState own0 with fibres := [(0, { fib0 with sregs := [(6, 9)] })] }, 0, 0, 0, own0,
    by decide +kernel, by decide +kernel, of_gives (by decide +kernel), pin_key (by decide +kernel), by decide +kernel, by decide +kernel, rfl⟩

theorem witness_Pinning_4 :
    ∃ (a : Args) (s : State) (p u k : Nat) (e : OwnEntry), hasFib s s.cur = true ∧ addrVal s a.s0 (lane0 s) ≠ 0 ∧ physTile s s.cur (codeOf a.s2 % 16) = .ok p ∧ (∀ j x, pinOf s s.cur (codeOf a.s2 % 16) = some (j, x) → x.key = addrVal s a.s0 (lane0 s)) ∧ findKey s (coreOf s.cur) (wgOf s s.cur).part (addrVal s a.s0 (lane0 s)) = some (u, k, e) ∧ u = subOf s.cur ∧ e.owned = false ∧ e.res = true ∧ (codeOf a.s2).testBit 5 = false :=
  ⟨{ base with s0 := rg (.s 6), s1 := rg .zero, s2 := .code 0 }, { pinState { own0 with owned := false } with fibres := [(0, { fib0 with sregs := [(6, 9)] })] }, 0, 0, 0,
    { own0 with owned := false }, by decide +kernel, by decide +kernel, of_gives (by decide +kernel), pin_key (by decide +kernel), by decide +kernel, by decide +kernel, rfl, rfl, by decide⟩

theorem witness_FastWeights_3 :
    ∃ (a : Args) (s : State) (p : Nat) (r : Reservation) (q : List Nat) (d : Reg) (n b : Bool), hasFib s s.cur = true ∧ s.readPts = [] ∧ active s a ≠ 0 ∧ TileReady s (codeOf a.s2 % 16) p ∧ fastSource s (obName a.s0) (codeOf a.s1 + 1) = .ok r ∧ rowVector s s.cur r (codeOf a.s1) = .ok q ∧ (∀ l ∈ lanesOf (active s a), rowPoisoned s (subOf s.cur) p l = false) ∧ a.d.opnd = .reg d n b ∧ latched d = true :=
  ⟨{ base with d := ⟨rg (.v 8), false, 0⟩, s0 := rg (.ob 1), s1 := .code 0, s2 := .code 0 }, (withFib fun x => { x with obs := [(1, resv 32 64 0)] }), 0, resv 32 64 0,
    got [] (rowVector (withFib fun x => { x with obs := [(1, resv 32 64 0)] }) 0 (resv 32 64 0) 0), .v 8, false, false, by decide +kernel, rfl, by decide +kernel, tileReady _ _ _ (by decide +kernel), of_gives (by decide +kernel), ok_got [] (by decide +kernel), by decide +kernel, rfl, rfl⟩

theorem witness_HostAccesses_7 :
    ∃ (port n : Nat) (r : List Nat) (s : State), port < s.hub.ports.length ∧ (portAt s port).flights = n :: r ∧ (portAt s port).relaxed.Pairwise (fun v w => v.num < w.num) :=
  ⟨0, 1, [], withHub fun h => { h with ports := [{ Port.reset with relaxed := [⟨0, 0x8000000000000, [1], false⟩], accepted := 1, flights := [1] }, Port.reset] }, by decide +kernel, by decide +kernel, by decide +kernel⟩

theorem witness_RecordsAndRetirement_5 :
    ∃ (die quad core c e : Nat) (r : BitVec 1280) (s : State), c = 64 * die + 4 * quad + core ∧ c < 256 ∧ s.hub.inUse = some r ∧ physicalOf s.hub.units c = some e ∧ s.hub.tests.any (samePlace (.coreBank c)) = true :=
  ⟨0, 0, 0, 0, 0, config0, { bootState 6 with hub := { (bootState 6).hub with tests := [.coreBank 0] } }, rfl, by decide, rfl, by decide +kernel, by decide⟩

theorem witness_RecordsAndRetirement_7 :
    ∃ (p : TestPlace) (s : State), s.hub.tests.any (samePlace p) = false :=
  ⟨.l2Bank 3 1, S0, by decide⟩

theorem witness_RecordsAndRetirement_8 :
    ∃ (p : TestPlace) (s : State), s.hub.tests.any (samePlace p) = true ∧ ∃ pass spare, (pass || spare) = true :=
  ⟨.l2Bank 3 1, (withHub fun h => { h with tests := [.l2Bank 3 1] }), by decide, true, false, by decide⟩

theorem witness_ContextLoad_1 :
    ∃ (a : Args) (s : State) (va v : Nat) (p : Piece) (ps : List Piece), hasFib s s.cur = true ∧ (me s).sq = [] ∧ s.readPts = [] ∧ va = effAddr s a (lane0 s) ∧ va % 1024 = 0 ∧ blockPiece s (myCtx s) va kRead = .ok p ∧ noTenure s ∧ leavesSet kRead ps ∧ v = blockNow s p ∧ blockGood s (me s).part va 0 (bits v 192 32) (bits v 224 32) p = true ∧ headerGood (me s).part v = true ∧ v.testBit 117 = false ∧ areaPieces s (myCtx s) va (max 1 (bits v 256 16)) kRead = .ok ps ∧ (∀ i q, ps[i]? = some q → blockGood s (me s).part va i (bits v 192 32) (bits v 224 32) q = true) ∧ (∃ i q, ps[i]? = some q ∧ blockRes (blockNow s q) i = true) ∧ queueRoom s = true ∧ s.grp ≠ 0 :=
  have good := area_good 9 1 1 wg0 (by decide +kernel)
  have hp : blockPiece (areaState 9 1 1 wg0) (myCtx (areaState 9 1 1 wg0)) 0x8000 kRead = .ok (glob 0x8000 1024) := of_gives (by decide +kernel)
  ⟨args1, areaState 9 1 1 wg0, 0x8000, area0 9 1 1, glob 0x8000 1024, [glob 0x8000 1024], rfl, rfl, rfl, by decide +kernel, by decide,
    hp, no_tenure rfl, leaves_glob _ _ _, (area_now _ _ _ _).symm, good, area_header _ _ _ (by decide +kernel), area_restorable _ _ _ (by decide +kernel),
    area_one _ _ _ _ (by decide +kernel) hp, area_each _ _ _ _ good, ⟨0, glob 0x8000 1024, rfl, by
      rw [area_now]; unfold blockRes; rw [area_bits _ _ _ _ _ (show 48 + 16 ≤ 8128 by omega)]; decide +kernel⟩, by decide +kernel, by decide⟩

theorem witness_ContextLoad_2 :
    ∃ (a : Args) (s : State) (va v : Nat) (p : Piece) (ps : List Piece), hasFib s s.cur = true ∧ (me s).sq = [] ∧ s.readPts = [] ∧ va = effAddr s a (lane0 s) ∧ va % 1024 = 0 ∧ blockPiece s (myCtx s) va kRead = .ok p ∧ noTenure s ∧ leavesSet kRead ps ∧ v = blockNow s p ∧ blockGood s (me s).part va 0 (bits v 192 32) (bits v 224 32) p = true ∧ headerGood (me s).part v = true ∧ v.testBit 117 = false ∧ areaPieces s (myCtx s) va (max 1 (bits v 256 16)) kRead = .ok ps ∧ (∀ i q, ps[i]? = some q → blockGood s (me s).part va i (bits v 192 32) (bits v 224 32) q = true) ∧ (∀ i q, ps[i]? = some q → blockRes (blockNow s q) i = false) ∧ ∃ n, headerShape s (me s).part v = some n ∧ queueRoom s = true ∧ s.grp ≠ 0 :=
  have good := area_good 9 0 0 wg0 (by decide +kernel)
  have hp : blockPiece (areaState 9 0 0 wg0) (myCtx (areaState 9 0 0 wg0)) 0x8000 kRead = .ok (glob 0x8000 1024) := of_gives (by decide +kernel)
  ⟨args1, areaState 9 0 0 wg0, 0x8000, area0 9 0 0, glob 0x8000 1024, [glob 0x8000 1024], rfl, rfl, rfl, by decide +kernel, by decide,
    hp, no_tenure rfl, leaves_glob _ _ _, (area_now _ _ _ _).symm, good, area_header _ _ _ (by decide +kernel), area_restorable _ _ _ (by decide +kernel),
    area_one _ _ _ _ (by decide +kernel) hp, area_each _ _ _ _ good, area_res _ _ _ (by decide +kernel), 0, by unfold headerShape; rw [area_bits _ _ _ _ _ (show 272 + 20 ≤ 8128 by omega), area_bits _ _ _ _ _ (show 300 + 4 ≤ 8128 by omega)]; decide +kernel, by decide +kernel, by decide⟩

theorem witness_ContextLoad_3 :
    ∃ (a : Args) (s : State) (va v : Nat) (p : Piece) (ps : List Piece), hasFib s s.cur = true ∧ (me s).sq = [] ∧ s.readPts = [] ∧ va = effAddr s a (lane0 s) ∧ va % 1024 = 0 ∧ blockPiece s (myCtx s) va kRead = .ok p ∧ noTenure s ∧ leavesSet kRead ps ∧ v = blockNow s p ∧ blockGood s (me s).part va 0 (bits v 192 32) (bits v 224 32) p = true ∧ headerGood (me s).part v = true ∧ v.testBit 117 = false ∧ areaPieces s (myCtx s) va (max 1 (bits v 256 16)) kRead = .ok ps ∧ (∀ i q, ps[i]? = some q → blockGood s (me s).part va i (bits v 192 32) (bits v 224 32) q = true) ∧ (∀ i q, ps[i]? = some q → blockRes (blockNow s q) i = false) ∧ ∃ z : Save, headerShape s (me s).part v = none ∧ (s.saves.find? fun z => z.blocks == ps.map fun p => BitVec.ofNat 8192 (blockNow s p)) = some z ∧ shapeFails s (me s).part z.ctx = none ∧ residentOrQueued s (me s).part (bits v 128 32) (bits v 160 32) = false :=
  have good := area_good 9 1 0 { wg0 with lid := 9 } (by decide +kernel)
  have hp : blockPiece (areaState 9 1 0 { wg0 with lid := 9 }) (myCtx (areaState 9 1 0 { wg0 with lid := 9 })) 0x8000 kRead = .ok (glob 0x8000 1024) := of_gives (by decide +kernel)
  ⟨args1, areaState 9 1 0 { wg0 with lid := 9 }, 0x8000, area0 9 1 0, glob 0x8000 1024, [glob 0x8000 1024], rfl, rfl, rfl, by decide +kernel, by decide,
    hp, no_tenure rfl, leaves_glob _ _ _, (area_now _ _ _ _).symm, good, area_header _ _ _ (by decide +kernel), area_restorable _ _ _ (by decide +kernel),
    area_one _ _ _ _ (by decide +kernel) hp, area_each _ _ _ _ good, area_res _ _ _ (by decide +kernel), _, by unfold headerShape; rw [area_bits _ _ _ _ _ (show 272 + 20 ≤ 8128 by omega), area_bits _ _ _ _ _ (show 300 + 4 ≤ 8128 by omega)]; decide +kernel, find_saved _ _ _ _ rfl (area_now _ _ _ _), by decide +kernel, by rw [area_bits _ _ _ _ _ (show 128 + 32 ≤ 8128 by omega), area_bits _ _ _ _ _ (show 160 + 32 ≤ 8128 by omega)]; decide +kernel⟩

theorem witness_ContextLoad_4 :
    ∃ (a : Args) (s : State) (va v : Nat) (p : Piece) (ps : List Piece), hasFib s s.cur = true ∧ (me s).sq = [] ∧ s.readPts = [] ∧ va = effAddr s a (lane0 s) ∧ va % 1024 = 0 ∧ blockPiece s (myCtx s) va kRead = .ok p ∧ noTenure s ∧ leavesSet kRead ps ∧ v = blockNow s p ∧ blockGood s (me s).part va 0 (bits v 192 32) (bits v 224 32) p = true ∧ headerGood (me s).part v = true ∧ v.testBit 117 = false ∧ areaPieces s (myCtx s) va (max 1 (bits v 256 16)) kRead = .ok ps ∧ (∀ i q, ps[i]? = some q → blockGood s (me s).part va i (bits v 192 32) (bits v 224 32) q = true) ∧ (∀ i q, ps[i]? = some q → blockRes (blockNow s q) i = false) ∧ ∃ z : Save, headerShape s (me s).part v = none ∧ (s.saves.find? fun z => z.blocks == ps.map fun p => BitVec.ofNat 8192 (blockNow s p)) = some z ∧ shapeFails s (me s).part z.ctx = none ∧ residentOrQueued s (me s).part (bits v 128 32) (bits v 160 32) = true :=
  have good := area_good 1 1 0 { wg0 with lid := 1 } (by decide +kernel)
  have hp : blockPiece (areaState 1 1 0 { wg0 with lid := 1 }) (myCtx (areaState 1 1 0 { wg0 with lid := 1 })) 0x8000 kRead = .ok (glob 0x8000 1024) := of_gives (by decide +kernel)
  ⟨args1, areaState 1 1 0 { wg0 with lid := 1 }, 0x8000, area0 1 1 0, glob 0x8000 1024, [glob 0x8000 1024], rfl, rfl, rfl, by decide +kernel, by decide,
    hp, no_tenure rfl, leaves_glob _ _ _, (area_now _ _ _ _).symm, good, area_header _ _ _ (by decide +kernel), area_restorable _ _ _ (by decide +kernel),
    area_one _ _ _ _ (by decide +kernel) hp, area_each _ _ _ _ good, area_res _ _ _ (by decide +kernel), _, by unfold headerShape; rw [area_bits _ _ _ _ _ (show 272 + 20 ≤ 8128 by omega), area_bits _ _ _ _ _ (show 300 + 4 ≤ 8128 by omega)]; decide +kernel, find_saved _ _ _ _ rfl (area_now _ _ _ _), by decide +kernel, by rw [area_bits _ _ _ _ _ (show 128 + 32 ≤ 8128 by omega), area_bits _ _ _ _ _ (show 160 + 32 ≤ 8128 by omega)]; decide +kernel⟩

theorem witness_ContextSave_1 :
    ∃ (a : Args) (s : State) (va : Nat), hasFib s s.cur = true ∧ (me s).sq = [] ∧ s.readPts = [] ∧ va = effAddr s a (lane0 s) ∧ va % 1024 = 0 ∧ residentWg s (me s).part (scalar s a.s1) (pairHigh s a.s1 (lane0 s)) = none :=
  ⟨args1, withFib (fun x => { x with sregs := [(2, 0x8000)] }), 0x8000, rfl, rfl, rfl, by decide +kernel, by decide, by decide +kernel⟩

theorem witness_ContextSave_2 :
    ∃ (a : Args) (s : State) (va key : Nat) (w : Wg) (p : Piece) (ps : List Piece), hasFib s s.cur = true ∧ (me s).sq = [] ∧ s.readPts = [] ∧ va = effAddr s a (lane0 s) ∧ va % 1024 = 0 ∧ residentWg s (me s).part (scalar s a.s1) (pairHigh s a.s1 (lane0 s)) = some (key, w) ∧ s.cur ∉ w.fibres ∧ (∀ g ∈ wgFibres s w, (fib s g).sq = []) ∧ residentPins s w = [] ∧ w.lid < 2 ^ 32 ∧ w.wg < 2 ^ 32 ∧ areaPieces (stopWg s w) (myCtx s) va (areaBlocks w) kWrite = .ok (p :: ps) ∧ unitWaits (stopWg s w) s.cur true (p :: ps) = false ∧ p.mt ≠ 3 ∧ inMem p.loc = true ∧ isHost p.loc = false ∧ leavesSet kWrite (p :: ps) ∧ noTenure s ∧ s.objs = [] ∧ p.loc + 1024 ≤ 2 ^ 52 :=
  ⟨args2, saveState, 0x8000, wgKey 0 2 0, wg2, glob 0x8000 1024, areaRest, rfl, rfl, rfl, by decide +kernel, by decide, by decide +kernel, by decide +kernel,
    by decide +kernel, by decide +kernel, by decide, by decide, area_all, no_wait _ _ _ _ (by decide +kernel), by decide, by decide, by decide, area_leaves, no_tenure rfl, rfl, by decide⟩

theorem witness_ContextLoad_5 :
    ∃ (a : Args) (s : State) (va v : Nat) (p : Piece) (ps : List Piece), hasFib s s.cur = true ∧ (me s).sq = [] ∧ s.readPts = [] ∧ va = effAddr s a (lane0 s) ∧ va % 1024 = 0 ∧ blockPiece s (myCtx s) va kRead = .ok p ∧ noTenure s ∧ leavesSet kRead ps ∧ v = blockNow s p ∧ blockGood s (me s).part va 0 (bits v 192 32) (bits v 224 32) p = true ∧ headerGood (me s).part v = true ∧ v.testBit 117 = false ∧ areaPieces s (myCtx s) va (max 1 (bits v 256 16)) kRead = .ok ps ∧ (∀ i q, ps[i]? = some q → blockGood s (me s).part va i (bits v 192 32) (bits v 224 32) q = true) ∧ (∀ i q, ps[i]? = some q → blockRes (blockNow s q) i = false) ∧ ∃ z : Save, headerShape s (me s).part v = none ∧ (s.saves.find? fun z => z.blocks == ps.map fun p => BitVec.ofNat 8192 (blockNow s p)) = some z ∧ ∃ n, shapeFails s (me s).part z.ctx = some n ∧ queueRoom s = true ∧ s.grp ≠ 0 :=
  have good := area_good 9 1 0 { wg0 with lid := 9, nwarp := 1000 } (by decide +kernel)
  have hp : blockPiece (areaState 9 1 0 { wg0 with lid := 9, nwarp := 1000 }) (myCtx (areaState 9 1 0 { wg0 with lid := 9, nwarp := 1000 })) 0x8000 kRead = .ok (glob 0x8000 1024) := of_gives (by decide +kernel)
  ⟨args1, areaState 9 1 0 { wg0 with lid := 9, nwarp := 1000 }, 0x8000, area0 9 1 0, glob 0x8000 1024, [glob 0x8000 1024], rfl, rfl, rfl, by decide +kernel, by decide,
    hp, no_tenure rfl, leaves_glob _ _ _, (area_now _ _ _ _).symm, good, area_header _ _ _ (by decide +kernel), area_restorable _ _ _ (by decide +kernel),
    area_one _ _ _ _ (by decide +kernel) hp, area_each _ _ _ _ good, area_res _ _ _ (by decide +kernel), _, by unfold headerShape; rw [area_bits _ _ _ _ _ (show 272 + 20 ≤ 8128 by omega), area_bits _ _ _ _ _ (show 300 + 4 ≤ 8128 by omega)]; decide +kernel, find_saved _ _ _ _ rfl (area_now _ _ _ _), 2, by decide +kernel, by decide +kernel, by decide⟩

theorem witness_ContextLoad_6 :
    ∃ (a : Args) (s : State) (va v : Nat) (p : Piece), hasFib s s.cur = true ∧ (me s).sq = [] ∧ s.readPts = [] ∧ queueRoom s = true ∧ s.grp ≠ 0 ∧ va = effAddr s a (lane0 s) ∧ va % 1024 = 0 ∧ blockPiece s (myCtx s) va kRead = .ok p ∧ noTenure s ∧ v = blockNow s p ∧ (blockGood s (me s).part va 0 (bits v 192 32) (bits v 224 32) p && headerGood (me s).part v) = false ∧ s.objs = [] :=
  ⟨args1, { withFib (fun x => { x with sregs := [(2, 0x8000)] }) with mem := Store.reset }, 0x8000, _, glob 0x8000 1024, rfl, rfl, rfl, by decide +kernel, by decide, by decide +kernel, by decide,
    of_gives (by decide +kernel), no_tenure rfl, rfl, Bool.and_eq_false_iff.2 (.inr (by decide +kernel)), rfl⟩

end Sys2Proof.Tests
end

section
/-! SUPPORT. The integers a type can hold, their two's-complement bits, and numbers given bit by bit (spec/10, spec/11 R267). -/

namespace Sys2Proof.Proofs
open Sys2Proof.Machine Sys2Proof.Claims Sys2Proof.Laws

/-! ## Widths -/

theorem tyWidth_pos (t : Ty) : 0 < tyWidth t := by cases t <;> decide

theorem two_pow_tyWidth (t : Ty) : 2 ^ tyWidth t = 2 * 2 ^ (tyWidth t - 1) := (mul_pow_sub_one (tyWidth_pos t).ne' 2).symm

/-- A value of a type fits the register or the pair that the type asks for. -/
theorem tyWidth_le (t : Ty) : tyWidth t ≤ if tyIs64 t then 64 else 32 := by cases t <;> decide

/-! ## Wrapping and the range of a type (R26, R267) -/

theorem wrap_cast (w : Nat) (x : Int) : (wrap w x : Int) = x % ((2 ^ w : Nat) : Int) :=
  Int.toNat_of_nonneg (Int.emod_nonneg _ (by positivity))

theorem wrap_lt (w : Nat) (x : Int) : wrap w x < 2 ^ w := by
  have h : (wrap w x : Int) < ((2 ^ w : Nat) : Int) := wrap_cast w x ▸ Int.emod_lt_of_pos _ (by positivity)
  exact_mod_cast h

theorem wrap_of_range {w : Nat} {x : Int} (h0 : 0 ≤ x) (h1 : x < ((2 ^ w : Nat) : Int)) : (wrap w x : Int) = x := by
  rw [wrap_cast, Int.emod_eq_of_lt h0 h1]

/-- A value and its low bits stand for the same signed number, if it is in range. -/
theorem toSigned_wrap {w : Nat} {x : Int} (hw : 0 < w) (h0 : -((2 ^ (w - 1) : Nat) : Int) ≤ x) (h1 : x < ((2 ^ (w - 1) : Nat) : Int)) :
    toSigned w (wrap w x) = x := by
  have h2 : 2 ^ w = 2 * 2 ^ (w - 1) := (mul_pow_sub_one hw.ne' 2).symm
  have hc := wrap_cast w x
  simp only [toSigned, Nat.mod_eq_of_lt (wrap_lt w x)]
  rw [h2] at hc ⊢
  generalize 2 ^ (w - 1) = m at *
  generalize wrap w x = n at *
  by_cases hx : 0 ≤ x
  · rw [Int.emod_eq_of_lt hx (by push_cast; omega)] at hc
    rw [if_pos (by omega), hc]
  · rw [← Int.add_emod_right, Int.emod_eq_of_lt (by push_cast; omega) (by push_cast; omega)] at hc
    rw [if_neg (by push_cast at hc; omega)]
    omega

theorem toSigned_range {w : Nat} (hw : 0 < w) (n : Nat) :
    -((2 ^ (w - 1) : Nat) : Int) ≤ toSigned w n ∧ toSigned w n < ((2 ^ (w - 1) : Nat) : Int) := by
  have h2 : 2 ^ w = 2 * 2 ^ (w - 1) := (mul_pow_sub_one hw.ne' 2).symm
  have hm : n % 2 ^ w < 2 ^ w := Nat.mod_lt _ (by positivity)
  simp only [toSigned]
  split <;> omega

theorem minValue_nonpos (t : Ty) : minValue t ≤ 0 := by
  unfold minValue
  split
  · exact neg_nonpos.2 (Int.natCast_nonneg _)
  · exact le_rfl

theorem maxValue_nonneg (t : Ty) : 0 ≤ maxValue t := by
  have h : 0 < 2 ^ (tyWidth t - 1) := by positivity
  have h2 := two_pow_tyWidth t
  unfold maxValue; split <;> omega

theorem intOf_range (t : Ty) (n : Nat) : minValue t ≤ intOf t n ∧ intOf t n ≤ maxValue t := by
  unfold intOf minValue maxValue
  split
  · have := toSigned_range (tyWidth_pos t) n; omega
  · have : n % 2 ^ tyWidth t < 2 ^ tyWidth t := Nat.mod_lt _ (by positivity)
    omega

theorem wrap_zero (w : Nat) : wrap w 0 = 0 := by simp [wrap]

/-- A number in the range of a type is what its low bits stand for. -/
theorem intOf_wrap {t : Ty} {x : Int} (h0 : minValue t ≤ x) (h1 : x ≤ maxValue t) : intOf t (wrap (tyWidth t) x) = x := by
  unfold minValue at h0
  unfold maxValue at h1
  unfold intOf
  split at h0 <;> rename_i ht
  · rw [if_pos ht] at h1 ⊢
    exact toSigned_wrap (tyWidth_pos t) h0 (by omega)
  · rw [if_neg ht] at h1 ⊢
    rw [Nat.mod_eq_of_lt (wrap_lt _ _), wrap_of_range h0 (by omega)]

theorem clampInt_eq (t : Ty) (x : Int) : clampInt t x = max (minValue t) (min (maxValue t) x) := by
  have := minValue_nonpos t
  have := maxValue_nonneg t
  unfold clampInt; split
  · omega
  · split <;> omega

theorem clampInt_range (t : Ty) (x : Int) : minValue t ≤ clampInt t x ∧ clampInt t x ≤ maxValue t := by
  have := minValue_nonpos t
  have := maxValue_nonneg t
  rw [clampInt_eq]; omega

/-- The low bits of a number, clamped or not, are that number through D. -/
theorem throughD_wrap {t : Ty} {clamp : Bool} {e x : Int} (hc : clamp = true → x = clampInt t e)
    (hw : clamp = false → x % ((2 ^ tyWidth t : Nat) : Int) = e % ((2 ^ tyWidth t : Nat) : Int)) :
    IntThroughD t clamp e (wrap (tyWidth t) x) := by
  refine ⟨wrap_lt _ _, ?_⟩
  cases clamp with
  | true =>
    obtain ⟨h0, h1⟩ := clampInt_range t e
    rw [if_pos rfl, hc rfl, intOf_wrap h0 h1, clampInt_eq]
  | false => rw [if_neg (by decide), wrap_cast, hw rfl]

theorem intResult_throughD (t : Ty) (clamp : Bool) (x : Int) : IntThroughD t clamp x (intResult t clamp x) :=
  throughD_wrap (fun h => if_pos h) (fun h => by rw [h]; rfl)

/-! ## Two's-complement bits -/

/-- Bit `j` of an integer in two's complement without end. -/
def intBit (z : Int) (j : Nat) : Bool := decide (z / ((2 ^ j : Nat) : Int) % 2 = 1)

theorem intBit_natCast (n j : Nat) : intBit (n : Int) j = n.testBit j := by
  rw [Nat.testBit_eq_decide_div_mod_eq, intBit]
  exact decide_eq_decide.2 (by norm_cast)

theorem intBit_ediv (z : Int) (k j : Nat) : intBit (z / ((2 ^ k : Nat) : Int)) j = intBit z (k + j) := by
  unfold intBit
  rw [Int.ediv_ediv_of_nonneg (by positivity), pow_add, Nat.cast_mul]

/-- A multiple of 2^w does not reach the bits below w. -/
theorem intBit_add_mul {j w : Nat} (h : j < w) (z c : Int) : intBit (z + c * ((2 ^ w : Nat) : Int)) j = intBit z j := by
  have e : c * ((2 ^ w : Nat) : Int) = 2 * (c * 2 ^ (w - j - 1)) * ((2 ^ j : Nat) : Int) := by
    have : w = w - j - 1 + 1 + j := by omega
    conv_lhs => rw [this]
    push_cast [pow_add]
    ring
  unfold intBit
  rw [e, Int.add_mul_ediv_right _ _ (by positivity), Int.add_mul_emod_self_left]

theorem intBit_emod {j w : Nat} (h : j < w) (z : Int) : intBit (z % ((2 ^ w : Nat) : Int)) j = intBit z j := by
  have e : z % ((2 ^ w : Nat) : Int) = z + -(z / ((2 ^ w : Nat) : Int)) * ((2 ^ w : Nat) : Int) := by
    rw [Int.emod_def]; ring
  rw [e, intBit_add_mul h]

theorem testBit_wrap {k w : Nat} (h : k < w) (z : Int) : (wrap w z).testBit k = intBit z k := by
  rw [← intBit_natCast, wrap_cast, intBit_emod h]

/-- Shifted by its width or more, a number leaves its sign. -/
theorem ediv_pow_beyond {w n : Nat} {z : Int} (h : w ≤ n) (h0 : -((2 ^ w : Nat) : Int) ≤ z) (h1 : z < ((2 ^ w : Nat) : Int)) :
    z / ((2 ^ n : Nat) : Int) = if z < 0 then -1 else 0 := by
  have hp : (2 ^ w : Nat) ≤ 2 ^ n := Nat.pow_le_pow_right (by decide) h
  split
  · rw [Int.ediv_eq_iff_of_pos (by positivity)]; omega
  · exact Int.ediv_eq_zero_of_lt (by omega) (by omega)

theorem testBit_top {w : Nat} (hw : 0 < w) (n : Nat) : n.testBit (w - 1) = decide (¬ 2 * (n % 2 ^ w) < 2 ^ w) := by
  have h2 : 2 ^ w = 2 * 2 ^ (w - 1) := (mul_pow_sub_one hw.ne' 2).symm
  have e : n.testBit (w - 1) = (n % 2 ^ w).testBit (w - 1) := by simp [Nat.testBit_mod_two_pow, hw]
  rw [e, Nat.testBit_eq_decide_div_mod_eq]
  have hm : n % 2 ^ w < 2 ^ w := Nat.mod_lt _ (by positivity)
  rw [h2] at hm ⊢
  generalize n % (2 * 2 ^ (w - 1)) = m at *
  have hp : 0 < 2 ^ (w - 1) := by positivity
  refine decide_eq_decide.2 ?_
  rcases Nat.lt_or_ge m (2 ^ (w - 1)) with h | h
  · rw [Nat.div_eq_of_lt h]; omega
  · rw [Nat.div_eq_of_lt_le (k := 1) (by omega) (by omega)]; omega

theorem toSigned_neg_iff (w n : Nat) : toSigned w n < 0 ↔ ¬ 2 * (n % 2 ^ w) < 2 ^ w := by
  have hm : n % 2 ^ w < 2 ^ w := Nat.mod_lt _ (by positivity)
  simp only [toSigned]
  split <;> omega

theorem intBit_toSigned {w : Nat} (hw : 0 < w) (n j : Nat) :
    intBit (toSigned w n) j = if j < w then n.testBit j else n.testBit (w - 1) := by
  split
  · next h =>
    have hn : intBit ((n % 2 ^ w : Nat) : Int) j = n.testBit j := by rw [intBit_natCast, Nat.testBit_mod_two_pow]; simp [h]
    simp only [toSigned]
    split
    · exact hn
    · rw [← hn, ← intBit_add_mul h ((n % 2 ^ w : Nat) : Int) (-1), neg_one_mul, ← sub_eq_add_neg]
  · next h =>
    have h2 : 2 ^ w = 2 * 2 ^ (w - 1) := (mul_pow_sub_one hw.ne' 2).symm
    obtain ⟨h0, h1⟩ := toSigned_range hw n
    rw [intBit, ediv_pow_beyond (Nat.le_of_not_lt h) (by omega) (by omega), testBit_top hw]
    by_cases hs : toSigned w n < 0
    · rw [if_pos hs, decide_eq_true ((toSigned_neg_iff w n).1 hs)]; rfl
    · rw [if_neg hs, decide_eq_false (mt (toSigned_neg_iff w n).2 hs)]; rfl

/-- The bits of the integer of a type: those of the pattern, and beyond them its sign (R254). -/
theorem intBit_intOf (t : Ty) (n j : Nat) : intBit (intOf t n) j = bitBeyond t n j := by
  unfold intOf bitBeyond
  by_cases ht : tySigned t = true
  · rw [if_pos ht, intBit_toSigned (tyWidth_pos t)]; simp [ht]
  · rw [if_neg ht, intBit_natCast, Nat.testBit_mod_two_pow]; simp [ht]

/-- A shift to the right stays within any range around 0. -/
theorem ediv_pow_range {lo hi z : Int} (n : Nat) (h0 : lo ≤ 0) (h1 : 0 ≤ hi) (hl : lo ≤ z) (hh : z ≤ hi) :
    lo ≤ z / ((2 ^ n : Nat) : Int) ∧ z / ((2 ^ n : Nat) : Int) ≤ hi := by
  have hp : (1 : Int) ≤ ((2 ^ n : Nat) : Int) := by exact_mod_cast Nat.one_le_two_pow
  constructor
  · rw [Int.le_ediv_iff_mul_le (by omega)]; nlinarith
  · exact Int.ediv_le_of_le_mul (by omega) (by nlinarith)

/-! ## Numbers given bit by bit -/

theorem ofBits_succ (w : Nat) (p : Nat → Bool) : ofBits (w + 1) p = if p w then ofBits w p + 2 ^ w else ofBits w p := by
  simp [ofBits, List.range_succ]

theorem ofBits_lt (w : Nat) (p : Nat → Bool) : ofBits w p < 2 ^ w := by
  induction w with
  | zero => simp [ofBits]
  | succ w ih => rw [ofBits_succ, pow_succ]; split <;> omega

theorem testBit_ofBits (w : Nat) (p : Nat → Bool) (k : Nat) : (ofBits w p).testBit k = (decide (k < w) && p k) := by
  induction w with
  | zero => simp [ofBits]
  | succ w ih =>
    have top : (ofBits w p).testBit w = false := Nat.testBit_lt_two_pow (ofBits_lt w p)
    rw [ofBits_succ]
    rcases Nat.lt_trichotomy k w with h | rfl | h
    · have : (if p w then ofBits w p + 2 ^ w else ofBits w p).testBit k = (ofBits w p).testBit k := by
        split
        · rw [Nat.add_comm, Nat.testBit_two_pow_add_gt h]
        · rfl
      rw [this, ih]; simp [h, Nat.lt_succ_of_lt h]
    · cases hp : p k <;> simp [top, Nat.add_comm (ofBits k p), Nat.testBit_two_pow_add_eq]
    · have : (if p w then ofBits w p + 2 ^ w else ofBits w p) < 2 ^ k := by
        refine Nat.lt_of_lt_of_le (ofBits_succ w p ▸ ofBits_lt (w + 1) p) (Nat.pow_le_pow_right (by decide) h)
      rw [Nat.testBit_lt_two_pow this]; simp; omega

theorem getLsbD_maskOf (p : Nat → Bool) {i : Nat} (h : i < 32) : (maskOf p).getLsbD i = p i := by
  have e : maskOf p = BitVec.ofNat 32 (ofBits 32 p) := rfl
  rw [e, BitVec.getLsbD_ofNat, testBit_ofBits]; simp [h]

/-- The sum of the powers of the lanes of a mask that satisfy a test is the number with those bits. -/
theorem foldl_lanes_eq_ofBits (m : LaneMask) (p : Nat → Bool) :
    ((lanesOf m).filter p).foldl (fun v i => v + 2 ^ i) 0 = ofBits 32 fun i => m.getLsbD i && p i := by
  simp only [lanesOf, List.filter_filter, List.foldl_filter, ofBits, Bool.and_comm]

/-! ## Source operands -/

theorem negCode_lt (t : Ty) (nc n : Nat) : negCode t nc n < 2 ^ tyWidth t := by
  have hm : n % 2 ^ tyWidth t < 2 ^ tyWidth t := Nat.mod_lt _ (by positivity)
  unfold negCode
  by_cases hb : t = .b8
  · subst hb
    have hc : n % 256 < 256 := Nat.mod_lt _ (by decide)
    have hx : n % 256 ^^^ 128 < 2 ^ 8 := Nat.xor_lt_two_pow hc (by decide)
    simp only [tyWidth, if_true]
    split <;> split <;> omega
  · simp only [if_neg hb]
    split
    · exact Nat.xor_lt_two_pow hm (Nat.pow_lt_pow_right (by decide) (Nat.sub_lt (tyWidth_pos t) one_pos))
    · split
      · omega
      · exact wrap_lt _ _

theorem absCode_lt (t : Ty) (nc n : Nat) : absCode t nc n < 2 ^ tyWidth t := by
  unfold absCode
  by_cases hb : t = .b8
  · subst hb
    simp only [tyWidth, if_true]
    split
    · split <;> omega
    · omega
  · simp only [if_neg hb]
    split
    · have := two_pow_tyWidth t
      have : n % 2 ^ (tyWidth t - 1) < 2 ^ (tyWidth t - 1) := Nat.mod_lt _ (by positivity)
      omega
    · split
      · exact wrap_lt _ _
      · exact Nat.mod_lt _ (by positivity)

theorem applyMods_lt (t : Ty) (nc : Nat) (neg abs : Bool) (n : Nat) : applyMods t nc neg abs n < 2 ^ tyWidth t := by
  unfold applyMods
  cases neg
  · cases abs
    · exact Nat.mod_lt _ (by positivity)
    · exact absCode_lt t nc n
  · exact negCode_lt t nc _

/-- A source is a bit pattern of its type; a code of 8 bits is one too, but of a predicate. -/
theorem srcVal_lt_tyWidth {t : Ty} (ht : t ≠ .pred) (s : State) (nc : Nat) (o : Opnd) (l : Nat) : srcVal s t nc o l < 2 ^ tyWidth t := by
  cases o with
  | none => exact Nat.two_pow_pos _
  | reg r neg abs => exact applyMods_lt ..
  | code c =>
    have h8 : 8 ≤ tyWidth t := by cases t <;> simp_all [tyWidth]
    exact Nat.lt_of_lt_of_le c.isLt (Nat.pow_le_pow_right (by decide) h8)

/-- A source fits the register or pair its type asks for. -/
theorem srcVal_lt (s : State) (t : Ty) (nc : Nat) (o : Opnd) (l : Nat) : srcVal s t nc o l < 2 ^ (if tyIs64 t then 64 else 32) := by
  by_cases ht : t = .pred
  · subst ht
    cases o with
    | none => exact Nat.two_pow_pos _
    | reg r neg abs => exact Nat.lt_trans (applyMods_lt ..) (by decide)
    | code c => exact Nat.lt_trans c.isLt (by decide)
  · exact Nat.lt_of_lt_of_le (srcVal_lt_tyWidth ht ..) (Nat.pow_le_pow_right (by decide) (tyWidth_le t))

theorem lt_of_lt_tyWidth {t : Ty} {v : Nat} (h : v < 2 ^ tyWidth t) : v < 2 ^ (if tyIs64 t then 64 else 32) :=
  Nat.lt_of_lt_of_le h (Nat.pow_le_pow_right (by decide) (tyWidth_le t))

end Sys2Proof.Proofs
end

section
/-! SUPPORT. What an instruction that writes one result or one predicate bit per lane does, in the words of the statements. -/

namespace Sys2Proof.Proofs
open Sys2Proof.Machine Sys2Proof.Claims Sys2Proof.Laws

/-! ## Shapes of statements -/

theorem le_valueBits (wide : Bool) (r : Reg) : (if wide then 64 else 32) ≤ valueBits wide r := by
  unfold valueBits
  cases wide
  · simp only [Bool.false_eq_true, if_false]; split <;> omega
  · simp

/-- One result per lane, kept to at least the width the instruction writes. -/
theorem computes_of_execMap {i : Args → Instr} {wide : Args → Bool} {val : Args → State → Nat → Nat} {P : Args → State → Nat → Nat → Prop}
    (hx : ∀ a s, exec (i a) s = execMap a (wide a) (val a s) s)
    (hP : ∀ a s l n, (if wide a then 64 else 32) ≤ n → P a s l (val a s l % 2 ^ n)) : Computes i wide P := by
  intro a s r neg abs h hd
  rw [hx]
  exact execMap_spec h hd fun l _ _ => hP a s l _ (le_valueBits _ r)

theorem mod_pow_eq {v m n : Nat} (h : v < 2 ^ m) (hn : m ≤ n) : v % 2 ^ n = v :=
  Nat.mod_eq_of_lt (Nat.lt_of_lt_of_le h (Nat.pow_le_pow_right (by decide) hn))

/-- One result per lane that fits the width the instruction writes. -/
theorem computes_of_lt {i : Args → Instr} {wide : Args → Bool} {val : Args → State → Nat → Nat} {P : Args → State → Nat → Nat → Prop}
    (hx : ∀ a s, exec (i a) s = execMap a (wide a) (val a s) s) (hb : ∀ a s l, val a s l < 2 ^ (if wide a then 64 else 32))
    (hP : ∀ a s l, P a s l (val a s l)) : Computes i wide P :=
  computes_of_execMap hx fun a s l _ hn => by rw [mod_pow_eq (hb a s l) hn]; exact hP a s l

/-- One result per lane that is a bit pattern of the type. -/
theorem computes_of_lt_tyWidth {i : Args → Instr} {val : Args → State → Nat → Nat} {P : Args → State → Nat → Nat → Prop}
    (hx : ∀ a s, exec (i a) s = execMap a (tyIs64 a.ty) (val a s) s) (hb : ∀ a s l, val a s l < 2 ^ tyWidth a.ty)
    (hP : ∀ a s l, P a s l (val a s l)) : Computes i wideTy P :=
  computes_of_lt hx (fun a s l => lt_of_lt_tyWidth (hb a s l)) hP

/-- One predicate bit per lane. -/
theorem decides_of_execPred {i : Args → Instr} {val : Args → State → Nat → Bool} (hx : ∀ a s, exec (i a) s = execPred a (val a s) s) :
    Decides i val := by
  intro a s r neg abs h hd
  rw [hx]
  exact execPred_spec h hd

/-! ## Writes one after the other -/

/-- A write changes nothing of the issue itself. -/
theorem wrote_issue {s t : State} {m : LaneMask} {r : Reg} {wide counts : Bool} {P : Nat → Nat → Prop} (w : Wrote s t m r wide counts P) :
    t.cur = s.cur ∧ t.grp = s.grp ∧ t.ipc = s.ipc := by
  rw [w.rest]; exact ⟨rfl, rfl, rfl⟩

theorem wrotePred_issue {s t : State} {m : LaneMask} {r : Reg} {P : Nat → Bool} (w : WrotePred s t m r P) :
    t.cur = s.cur ∧ t.grp = s.grp ∧ t.ipc = s.ipc := by
  rw [w.rest]; exact ⟨rfl, rfl, rfl⟩

/-- After a write the lanes of the issue group go on. -/
theorem wrote_wentOn {s t : State} {m : LaneMask} {r : Reg} {wide counts : Bool} {P : Nat → Nat → Prop} (w : Wrote s t m r wide counts P)
    (h : hasFib s s.cur = true) : WentOn s t (goOn t) := by
  obtain ⟨hc, hg, hp⟩ := wrote_issue w
  exact goOn_wentOn hc hg hp (Wrote.hasFib w h)

theorem wrotePred_wentOn {s t : State} {m : LaneMask} {r : Reg} {P : Nat → Bool} (w : WrotePred s t m r P) (h : hasFib s s.cur = true) :
    WentOn s t (goOn t) := by
  obtain ⟨hc, hg, hp⟩ := wrotePred_issue w
  exact goOn_wentOn hc hg hp (WrotePred.hasFib w h)

/-- Going on is the same seen from a state with the same issue. -/
theorem WentOn.of_issue {s u w t : State} (hi : u.cur = s.cur ∧ u.grp = s.grp ∧ u.ipc = s.ipc) (h : WentOn u w t) : WentOn s w t := by
  obtain ⟨hc, hg, hp⟩ := hi
  unfold WentOn at h ⊢
  rwa [← hc, ← hg, ← hp]

end Sys2Proof.Proofs
end

section
/-! SUPPORT. Integer arithmetic (R249, R250). -/

namespace Sys2Proof.Proofs
open Sys2Proof.Machine Sys2Proof.Claims Sys2Proof.Laws

/-- An instruction whose meaning is `execInt` writes the exact result through D. -/
theorem computesInt_of_execInt {i : Args → Instr} {x : Ty → Int → Int → Int → Int} (hx : ∀ a s, exec (i a) s = execInt a (x a.ty) s) :
    ComputesInt i x :=
  computes_of_lt_tyWidth hx (fun _ _ _ => wrap_lt _ _) fun _ _ _ => intResult_throughD _ _ _

theorem imulhi_fdiv (t : Ty) (x y : Int) : x * y / ((2 ^ tyWidth t : Nat) : Int) = (x * y).fdiv ((2 ^ tyWidth t : Nat) : Int) :=
  (Int.fdiv_eq_ediv_of_nonneg _ (Int.natCast_nonneg _)).symm

theorem integerResults : IntegerResults := by
  refine ⟨computesInt_of_execInt fun _ _ => rfl, computesInt_of_execInt fun _ _ => rfl, computesInt_of_execInt fun _ _ => rfl,
    computesInt_of_execInt fun _ _ => rfl, computesInt_of_execInt fun a s => ?_, computesInt_of_execInt fun a s => ?_,
    computesInt_of_execInt fun a s => ?_, computesInt_of_execInt fun a s => ?_⟩
  · change execImulhi a s = _
    simp only [execImulhi, imulhi_fdiv]
  · change execImin a s = _
    simp only [execImin, min_def]
  · change execImax a s = _
    simp only [execImax, max_def]
  · change execIabs a s = _
    simp only [execIabs, Int.natCast_natAbs]

/-- The one quotient out of range, −2^(w−1) by −1, is 2^(w−1): D clamps it to the largest value or wraps it to the least (R250). -/
theorem minValue_neg_throughD {t : Ty} (ht : tySigned t = true) (clamp : Bool) :
    IntThroughD t clamp (-minValue t) (wrap (tyWidth t) (if clamp then maxValue t else minValue t)) := by
  have h2 := two_pow_tyWidth t
  have hp : 0 < 2 ^ (tyWidth t - 1) := by positivity
  refine throughD_wrap (fun h => ?_) (fun h => ?_)
  · rw [if_pos h, clampInt_eq, minValue, maxValue, if_pos ht, if_pos ht]; omega
  · have e : minValue t = -minValue t - ((2 ^ tyWidth t : Nat) : Int) := by rw [minValue, if_pos ht]; omega
    rw [if_neg (by simp [h])]
    conv_lhs => rw [e]
    exact Int.sub_emod_right ..

theorem idivResult_quotient (t : Ty) (clamp : Bool) (x y : Int) :
    if y = 0 then (idivResult t clamp x y).1 = 2 ^ tyWidth t - 1 else IntThroughD t clamp (x.tdiv y) (idivResult t clamp x y).1 := by
  unfold idivResult
  split
  · rfl
  · split
    · next hc =>
      obtain ⟨ht, rfl, rfl⟩ := hc
      rw [Int.tdiv_neg, Int.tdiv_one]
      exact minValue_neg_throughD ht clamp
    · exact intResult_throughD _ _ _

theorem idivResult_remainder (t : Ty) (clamp : Bool) (x y : Int) :
    IntThroughD t false (x - x.tdiv y * y) (idivResult t clamp x y).2 := by
  have low {z : Int} (hz : z = x - x.tdiv y * y) : IntThroughD t false (x - x.tdiv y * y) (wrap (tyWidth t) z) :=
    throughD_wrap (fun h => absurd h (by decide)) (fun _ => by rw [hz])
  unfold idivResult
  split
  · next hy => exact low (by simp [hy])
  · split
    · next hc =>
      obtain ⟨-, -, rfl⟩ := hc
      have h0 := low (z := 0) (by simp)
      rwa [wrap_zero] at h0
    · exact low (by rw [Int.tmod_def, mul_comm])

theorem idivResult_lt (t : Ty) (clamp : Bool) (x y : Int) :
    (idivResult t clamp x y).1 < 2 ^ tyWidth t ∧ (idivResult t clamp x y).2 < 2 ^ tyWidth t := by
  refine ⟨?_, (idivResult_remainder t clamp x y).1⟩
  have h := idivResult_quotient t clamp x y
  split at h
  · rw [h]; exact Nat.sub_lt (by positivity) one_pos
  · exact h.1

/-- A result through D and, in the state it leaves, one that the latches do not see; then the lanes go on. -/
theorem writeOpnd_writeQuiet_spec {s : State} {m : LaneMask} {r q : Reg} {wide n b n' b' : Bool} {val val' : Nat → Nat}
    {P Q : Nat → Nat → Prop} (h : hasFib s s.cur = true)
    (hP : ∀ i ∈ dstLanes m r, holds r = true → P i (val i % 2 ^ valueBits wide r))
    (hQ : ∀ i ∈ dstLanes m q, holds q = true → Q i (val' i % 2 ^ valueBits wide q)) :
    ∃ u w t, (.next (goOn (writeQuiet (writeOpnd s m (.reg r n b) wide val) m (.reg q n' b') wide val')) : Result) = .next t
      ∧ Wrote s u m r wide true P ∧ Wrote u w m q wide false Q ∧ WentOn s w t := by
  have hu := writeOpnd_wrote (neg := n) (abs := b) h hP
  have h1 := Wrote.hasFib hu h
  have hw := writeQuiet_wrote (neg := n') (abs := b') h1 hQ
  exact ⟨_, _, _, rfl, hu, hw, WentOn.of_issue (wrote_issue hu) (wrote_wentOn hw h1)⟩

/-- IDIV's two writes, with the integers of the statements. -/
theorem execIdiv_eq (a : Args) (s : State) : exec (.idiv a) s =
    .next (goOn (writeQuiet
      (writeOpnd s (active s a) a.d.opnd (tyIs64 a.ty) fun i => (idivResult a.ty a.d.clamp (int0 a s i) (int1 a s i)).1)
      (active s a) a.s3 (tyIs64 a.ty) fun i => (idivResult a.ty a.d.clamp (int0 a s i) (int1 a s i)).2)) := rfl

theorem integerDivide : IntegerDivide := by
  intro a s r q n b n' b' h hd hs3
  rw [execIdiv_eq, hd, hs3]
  refine writeOpnd_writeQuiet_spec h (fun l _ _ => ?_) (fun l _ _ => ?_)
  · rw [mod_pow_eq (lt_of_lt_tyWidth (idivResult_lt ..).1) (le_valueBits _ r)]
    exact idivResult_quotient ..
  · rw [mod_pow_eq (lt_of_lt_tyWidth (idivResult_lt ..).2) (le_valueBits _ q)]
    exact idivResult_remainder ..

/-- Settles O1: each exact result goes through D (`intResult_throughD`), and IDIV's two corners are the quotient and the remainder of
`idivResult`. -/
theorem integerArithmetic : Obligations.IntegerArithmetic := ⟨integerResults, integerDivide⟩

end Sys2Proof.Proofs
end

section
/-! SUPPORT. Logic, shifts and bit fields (R251 to R255). -/

namespace Sys2Proof.Proofs
open Sys2Proof.Machine Sys2Proof.Claims Sys2Proof.Laws

/-! ## Logic (R251) -/

/-- An instruction whose meaning is `execBits` with an operation that acts bit by bit. -/
theorem computesBits_of_execBits {i : Args → Instr} {x : Nat → Nat → Nat} {b : Bool → Bool → Bool}
    (hx : ∀ a s, exec (i a) s = execBits a x s) (hb : ∀ m n k, (x m n).testBit k = b (m.testBit k) (n.testBit k)) : ComputesBits i b :=
  computes_of_execMap hx fun a s l n hn k hk => by
    rw [Nat.testBit_mod_two_pow, decide_eq_true (Nat.lt_of_lt_of_le hk hn), Bool.true_and, hb]; rfl

theorem lutBit_eq (lut : Nat) (x y z : Bool) : lutBit lut x y z = lut.testBit (x.toNat + 2 * y.toNat + 4 * z.toNat) := by
  cases x <;> cases y <;> cases z <;> rfl

theorem bitwiseLogic : BitwiseLogic := by
  refine ⟨computesBits_of_execBits (fun _ _ => rfl) Nat.testBit_and, computesBits_of_execBits (fun _ _ => rfl) Nat.testBit_or,
    computesBits_of_execBits (fun _ _ => rfl) Nat.testBit_xor,
    computes_of_lt_tyWidth (fun _ _ => rfl) (fun _ _ _ => ofBits_lt _ _) fun a s l => ⟨ofBits_lt _ _, fun k hk => ?_⟩⟩
  rw [testBit_ofBits, decide_eq_true hk, Bool.true_and, lutBit_eq]; rfl

/-! ## Shifts (R252, R253) -/

/-- Beyond the width of a type the clamp answers the end of the range on that side. -/
theorem clampInt_beyond {t : Ty} {z : Int} (h : ((2 ^ tyWidth t : Nat) : Int) ≤ |z|) :
    clampInt t z = if z < 0 then minValue t else maxValue t := by
  have h2 := two_pow_tyWidth t
  have hp : 0 < 2 ^ (tyWidth t - 1) := by positivity
  have hmin : -((2 ^ tyWidth t : Nat) : Int) ≤ minValue t := by unfold minValue; split <;> omega
  have hmax : maxValue t < ((2 ^ tyWidth t : Nat) : Int) := by unfold maxValue; split <;> omega
  have h0 := minValue_nonpos t
  have h1 := maxValue_nonneg t
  rw [clampInt_eq]
  rcases abs_cases z with ⟨hz, -⟩ | ⟨hz, -⟩ <;> split <;> omega

/-- A number other than 0 shifted by the width or more is beyond it. -/
theorem le_abs_mul_pow {w n : Nat} {z : Int} (hz : z ≠ 0) (h : w ≤ n) : ((2 ^ w : Nat) : Int) ≤ |z * 2 ^ n| := by
  have h1 : (1 : Int) ≤ |z| := Int.one_le_abs hz
  have hp : (2 : Int) ^ w ≤ 2 ^ n := pow_le_pow_right₀ (by decide) h
  have hn : (0 : Int) < 2 ^ n := by positivity
  rw [abs_mul, abs_of_pos hn]
  push_cast
  nlinarith

theorem mul_pow_emod_beyond {w n : Nat} (z : Int) (h : w ≤ n) : z * 2 ^ n % ((2 ^ w : Nat) : Int) = 0 := by
  push_cast
  exact Int.emod_eq_zero_of_dvd (Dvd.dvd.mul_left (pow_dvd_pow 2 h) z)

theorem shlResult_logical {t : Ty} (ht : tyIsLogical t = true) (clamp : Bool) (x n : Nat) :
    shlResult t clamp x n = x * 2 ^ n % 2 ^ tyWidth t := by
  simp only [shlResult, if_pos ht]
  split
  · rfl
  · next h => exact (Nat.mod_eq_zero_of_dvd (Dvd.dvd.mul_left (pow_dvd_pow 2 (Nat.le_of_not_lt h)) x)).symm

theorem shlResult_throughD {t : Ty} (ht : ¬ tyIsLogical t = true) (clamp : Bool) (x n : Nat) :
    IntThroughD t clamp (intOf t x * 2 ^ n) (shlResult t clamp x n) := by
  simp only [shlResult, if_neg ht]
  split
  · have h := intResult_throughD t clamp (intOf t x * ((2 ^ n : Nat) : Int))
    rwa [Nat.cast_pow, Nat.cast_ofNat] at h ⊢
  · next hn =>
    have hn := Nat.le_of_not_lt hn
    split
    · next hc =>
      obtain ⟨rfl, hx⟩ := hc
      have hs : intOf t x * 2 ^ n < 0 ↔ intOf t x < 0 := lt_iff_lt_of_le_iff_le (mul_nonneg_iff_of_pos_right (by positivity))
      refine throughD_wrap (fun _ => ?_) (fun h => absurd h (by decide))
      rw [clampInt_beyond (le_abs_mul_pow hx hn)]; simp only [hs]
    · next hc =>
      rw [← wrap_zero (tyWidth t)]
      refine throughD_wrap (fun h => ?_) (fun _ => by rw [mul_pow_emod_beyond _ hn, Int.zero_emod])
      have hx : intOf t x = 0 := by simpa [h] using hc
      have := minValue_nonpos t
      have := maxValue_nonneg t
      rw [hx, clampInt_eq]; omega

theorem shlResult_lt (t : Ty) (clamp : Bool) (x n : Nat) : shlResult t clamp x n < 2 ^ tyWidth t := by
  by_cases ht : tyIsLogical t = true
  · rw [shlResult_logical ht]; exact Nat.mod_lt _ (by positivity)
  · exact (shlResult_throughD ht clamp x n).1

/-- A shift to the right by the width or more is one by the width (R252). -/
theorem ediv_pow_min (t : Ty) (x n : Nat) : intOf t x / ((2 ^ min n (tyWidth t) : Nat) : Int) = intOf t x / ((2 ^ n : Nat) : Int) := by
  obtain ⟨h0, h1⟩ := intOf_range t x
  have h2 := two_pow_tyWidth t
  have hp : 0 < 2 ^ (tyWidth t - 1) := by positivity
  have hl : -((2 ^ tyWidth t : Nat) : Int) ≤ intOf t x := by unfold minValue at h0; split at h0 <;> omega
  have hu : intOf t x < ((2 ^ tyWidth t : Nat) : Int) := by unfold maxValue at h1; split at h1 <;> omega
  rcases Nat.le_total n (tyWidth t) with h | h
  · rw [Nat.min_eq_left h]
  · rw [Nat.min_eq_right h, ediv_pow_beyond h hl hu, ediv_pow_beyond le_rfl hl hu]

theorem intOf_sar (t : Ty) (x n : Nat) :
    intOf t (wrap (tyWidth t) (intOf t x / ((2 ^ min n (tyWidth t) : Nat) : Int))) = (intOf t x).fdiv (2 ^ n) := by
  obtain ⟨h0, h1⟩ := intOf_range t x
  obtain ⟨hl, hu⟩ := ediv_pow_range n (minValue_nonpos t) (maxValue_nonneg t) h0 h1
  rw [ediv_pow_min, intOf_wrap hl hu, Int.fdiv_eq_ediv_of_nonneg _ (by positivity), Nat.cast_pow, Nat.cast_ofNat]

/-- The high half of a shifted 64-bit value (R253). -/
theorem funnel_left (v n : Nat) : v * 2 ^ n % 2 ^ 64 / 2 ^ 32 = v * 2 ^ n / 2 ^ 32 % 2 ^ 32 :=
  Nat.mod_mul_right_div_self (v * 2 ^ n) (2 ^ 32) (2 ^ 32)

theorem shifts : Shifts := by
  refine ⟨?_, ?_, ?_, ?_⟩
  · refine computes_of_lt_tyWidth (fun _ _ => rfl) (fun _ _ _ => shlResult_lt _ _ _ _) fun a s l => ?_
    split
    · next h => exact shlResult_logical h ..
    · next h => exact shlResult_throughD h ..
  · refine computes_of_lt (fun _ _ => rfl) (fun a s l => ?_) fun a s l => rfl
    have hx := srcVal_lt s a.ty 0 a.s0 l
    show (if _ then _ else _) < _
    split
    · exact Nat.lt_of_le_of_lt (Nat.div_le_self ..) hx
    · exact Nat.two_pow_pos _
  · exact computes_of_lt_tyWidth (fun _ _ => rfl) (fun _ _ _ => wrap_lt _ _) fun a s l => ⟨wrap_lt _ _, intOf_sar a.ty (src0 a s l) _⟩
  · refine computes_of_lt (fun _ _ => rfl) (fun a s l => ?_) fun a s l hi lo n hhi hlo hn => ?_
    · show (if _ then _ else _) < 2 ^ 32
      split
      · rw [funnel_left]; exact Nat.mod_lt _ (by decide)
      · exact Nat.mod_lt _ (by decide)
    · subst hhi hlo hn
      split
      · exact funnel_left ..
      · rfl

/-! ## Bit fields and bit counts (R254, R255) -/

/-- Positions at or above the width all read the sign. -/
theorem bitBeyond_min (t : Ty) (x p k : Nat) : bitBeyond t x (min p (tyWidth t) + k) = bitBeyond t x (p + k) := by
  unfold bitBeyond
  rcases Nat.le_total p (tyWidth t) with h | h
  · rw [Nat.min_eq_left h]
  · rw [Nat.min_eq_right h, if_neg (by omega), if_neg (by omega)]

/-- The field of BFE before its extension. -/
def bfeField (t : Ty) (x p l : Nat) : Nat := wrap l (intOf t x / ((2 ^ min p (tyWidth t) : Nat) : Int))

theorem testBit_bfeField (t : Ty) (x p : Nat) {k l : Nat} (h : k < l) : (bfeField t x p l).testBit k = bitBeyond t x (p + k) := by
  rw [bfeField, testBit_wrap h, intBit_ediv, intBit_intOf, bitBeyond_min]

theorem bfeResult_eq (t : Ty) (x p len : Nat) : bfeResult t x p len =
    if min len (tyWidth t) = 0 then 0
    else if tySigned t then wrap (tyWidth t) (toSigned (min len (tyWidth t)) (bfeField t x p (min len (tyWidth t))))
    else bfeField t x p (min len (tyWidth t)) := rfl

theorem bfeResult_lt (t : Ty) (x p len : Nat) : bfeResult t x p len < 2 ^ tyWidth t := by
  rw [bfeResult_eq]
  split
  · positivity
  · split
    · exact wrap_lt _ _
    · exact Nat.lt_of_lt_of_le (wrap_lt _ _) (Nat.pow_le_pow_right (by decide) (Nat.min_le_right ..))

theorem testBit_bfeResult (t : Ty) (x p len : Nat) {k n : Nat} (hn : n = min len (tyWidth t)) (hk : k < tyWidth t) :
    (bfeResult t x p len).testBit k =
      if n = 0 then false else if k < n then bitBeyond t x (p + k) else tySigned t && bitBeyond t x (p + n - 1) := by
  rw [bfeResult_eq, ← hn]
  by_cases h0 : n = 0
  · rw [if_pos h0, if_pos h0, Nat.zero_testBit]
  have hpos : 0 < n := Nat.pos_of_ne_zero h0
  rw [if_neg h0, if_neg h0]
  by_cases ht : tySigned t = true
  · rw [if_pos ht, testBit_wrap hk, intBit_toSigned hpos, ht, Bool.true_and, testBit_bfeField t x p (Nat.sub_lt hpos one_pos),
      Nat.add_sub_assoc hpos]
    split
    · next h => exact testBit_bfeField t x p h
    · rfl
  · rw [if_neg ht]
    split
    · next h => exact testBit_bfeField t x p h
    · next h =>
      have hlt : bfeField t x p n < 2 ^ k := Nat.lt_of_lt_of_le (wrap_lt _ _) (Nat.pow_le_pow_right (by decide) (Nat.le_of_not_lt h))
      simp [ht, Nat.testBit_lt_two_pow hlt]

theorem popCount_le (w x : Nat) : popCount w x ≤ w := by
  have h := List.length_filter_le (fun k => x.testBit k) (List.range w)
  rwa [List.length_range] at h

theorem tyWidth_le_64 (t : Ty) : tyWidth t ≤ 64 := by cases t <;> decide

/-- The highest set bit below the width gives the count of the zeros above it. -/
theorem leadingZeros_of_highest {w x k : Nat} (hx : x < 2 ^ w) (h1 : x.testBit k = true)
    (h0 : ∀ j < w, k < j → x.testBit j = false) : leadingZeros w x = w - 1 - k := by
  have hne : x ≠ 0 := fun e => by simp [e] at h1
  have hlt : x < 2 ^ (k + 1) := Nat.lt_pow_two_of_testBit x fun j hj => by
    rcases Nat.lt_or_ge j w with h | h
    · exact h0 j h hj
    · exact Nat.testBit_lt_two_pow (Nat.lt_of_lt_of_le hx (Nat.pow_le_pow_right (by decide) h))
  have hlog : x.log2 = k := (Nat.log2_eq_iff hne).2 ⟨Nat.ge_two_pow_of_testBit h1, hlt⟩
  rw [leadingZeros, if_neg hne, hlog]

/-- A predicate other than 0 has no zero bit. -/
theorem leadingZeros_one {x : Nat} (h : x ≠ 0) : leadingZeros 1 x = 0 := by
  rw [leadingZeros, if_neg h, Nat.sub_self, Nat.zero_sub]

theorem bitFields : BitFields := by
  refine ⟨?_, ?_, ?_, ?_, ?_⟩
  · refine computes_of_lt_tyWidth (fun _ _ => rfl) (fun _ _ _ => bfeResult_lt _ _ _ _) fun a s l p n hp hn => ?_
    subst hp
    exact ⟨bfeResult_lt _ _ _ _, fun k hk => testBit_bfeResult _ _ _ _ hn hk⟩
  · refine computes_of_lt_tyWidth (fun _ _ => rfl) (fun _ _ _ => ofBits_lt _ _) fun a s l p n hp hn => ⟨ofBits_lt _ _, fun k hk => ?_⟩
    subst hp hn
    rw [bfiResult, testBit_ofBits, decide_eq_true hk, Bool.true_and]; rfl
  · refine computes_of_lt (fun _ _ => rfl) (fun a s l => ?_) fun a s l => List.countP_eq_length_filter.symm
    have := popCount_le (tyWidth a.ty) (srcVal s a.ty 0 a.s0 l)
    have := tyWidth_le_64 a.ty
    show popCount _ _ < 2 ^ 32
    omega
  · refine computes_of_lt (fun _ _ => rfl) (fun a s l => ?_) fun a s l => ⟨fun h => if_pos h, fun k hk h1 h0 => ?_⟩
    · have := tyWidth_le_64 a.ty
      show leadingZeros _ _ < 2 ^ 32
      unfold leadingZeros
      split <;> omega
    · by_cases ht : a.ty = .pred
      · have hw : tyWidth a.ty = 1 := by rw [ht]; rfl
        rw [hw] at hk ⊢
        exact (leadingZeros_one fun e => by simp [src0, e] at h1).trans (by omega)
      · exact leadingZeros_of_highest (srcVal_lt_tyWidth ht ..) h1 h0
  · refine computes_of_lt_tyWidth (fun _ _ => rfl) (fun _ _ _ => ofBits_lt _ _) fun a s l => ⟨ofBits_lt _ _, fun k hk => ?_⟩
    rw [testBit_ofBits, decide_eq_true (by omega), Bool.true_and, Nat.sub_sub_self (by omega)]; rfl

/-- Settles O2: bitwise through `testBit`, the shifts through the exact product or quotient, the fields through two's-complement bits. -/
theorem logicShiftsAndBits : Obligations.LogicShiftsAndBits := ⟨bitwiseLogic, shifts, bitFields⟩

end Sys2Proof.Proofs
end

section
/-! SUPPORT. Compare, select, move, address and predicate moves (R256 to R261). -/

namespace Sys2Proof.Proofs
open Sys2Proof.Machine Sys2Proof.Claims Sys2Proof.Laws

/-! ## Compare, select, move, address (R256 to R259) -/

theorem isetpRel_eq (t : Ty) (x y : Nat) :
    isetpRel t x y = if t = .b32 ∨ t = .b64 then x == y else decide (intOf t x < intOf t y) := by
  cases t <;> rfl

/-- A 32-bit immediate read as s64 keeps its signed value (R27). -/
theorem intOf_imm (x : BitVec 32) : intOf .s64 (wrap 64 (toSigned 32 x.toNat)) = x.toInt := by
  obtain ⟨h0, h1⟩ := toSigned_range (w := 32) (by decide) x.toNat
  have h : toSigned 32 x.toNat = x.toInt := by rw [BitVec.toInt_eq_toNat_cond, toSigned, Nat.mod_eq_of_lt x.isLt]
  rw [← h]
  exact toSigned_wrap (by decide) (by omega) (by omega)

/-- The immediate of MOVI, but for f64: sign-extended for s64, else as it stands (R27, R258). -/
theorem immVal_eq {a : Args} (hs : a.ty ≠ .s64) (hf : a.ty ≠ .f64) : immVal a = a.imm.toNat := by
  unfold immVal
  split
  · next h => exact absurd h hs
  · next h => exact absurd h hf
  · rfl

theorem compareSelect : CompareSelect := by
  refine ⟨decides_of_execPred fun a s => congrArg (execPred a · s) (funext fun l => isetpRel_eq ..), ?_, ?_, ?_, ?_⟩
  · refine computes_of_lt (fun _ _ => rfl) (fun a s l => ?_) fun a s l => ?_
    · show (if _ then _ else _) < _
      split <;> exact srcVal_lt ..
    · simp only [predSrc, beq_iff_eq]; rfl
  · exact computes_of_lt (fun _ _ => rfl) (fun a s l => srcVal_lt ..) fun a s l => rfl
  · refine computes_of_execMap (fun _ _ => rfl) fun a s l n hn hf => ?_
    split
    · next hs =>
      have hw : wrap 64 (toSigned 32 a.imm.toNat) < 2 ^ 64 := wrap_lt _ _
      have hv : immVal a = wrap 64 (toSigned 32 a.imm.toNat) := by simp only [immVal, hs]
      have h64 : 64 ≤ n := by simpa [wideTy, hs, tyIs64] using hn
      rw [hv, mod_pow_eq hw h64, intOf_imm]
    · next hs => rw [immVal_eq hs hf, mod_pow_eq a.imm.isLt (le_trans (by split <;> decide) hn)]
  · refine computes_of_lt (fun _ _ => rfl) (fun _ _ _ => wrap_lt _ _) fun a s l => ⟨?_, wrap_lt _ _⟩
    rw [wrap_cast, Nat.cast_pow, Nat.cast_ofNat]
    exact Int.emod_eq_zero_of_dvd Int.dvd_emod_sub_self

/-! ## Predicate moves (R260, R261) -/

/-- State `t` is state `s` after the predicates that `K` names were written in the lanes of a mask, and nothing else. -/
structure MovedPreds (s t : State) (m : LaneMask) (K : Nat → Bool) (val : Nat → Nat → Bool) : Prop where
  bits   : ∀ k < 7, ∀ l < 32, (SMap.get 0 (me t).preds k).getLsbD l =
    if K k = true ∧ m.getLsbD l = true then val k l else (SMap.get 0 (me s).preds k).getLsbD l
  fibre  : hasFib t s.cur = hasFib s s.cur ∧
    me t = { me s with preds := (me t).preds, poison := (me t).poison, dirty := (me t).dirty }
  others : OtherFibres s t s.cur
  rest   : OnlyFibres s t

theorem MovedPreds.refl (s : State) (m : LaneMask) (val : Nat → Nat → Bool) : MovedPreds s s m (fun _ => false) val where
  bits := by simp
  fibre := ⟨rfl, rfl⟩
  others := fun _ _ => rfl
  rest := OnlyFibres.refl s

theorem MovedPreds.hasFib {s t : State} {m : LaneMask} {K : Nat → Bool} {val : Nat → Nat → Bool} (w : MovedPreds s t m K val)
    (h : hasFib s s.cur = true) : hasFib t t.cur = true := by
  have hc : t.cur = s.cur := by rw [w.rest]
  rw [hc, w.fibre.1, h]

/-- One more predicate written. -/
theorem MovedPreds.snoc {s t u : State} {m : LaneMask} {K : Nat → Bool} {val : Nat → Nat → Bool} {n : Fin 7}
    (w : MovedPreds s t m K val) (p : WrotePred t u m (.p n) (val n.val)) :
    MovedPreds s u m (fun k => K k || decide (k = n.val)) val := by
  have hc : t.cur = s.cur := by rw [w.rest]
  refine { bits := fun k hk l hl => ?_, fibre := ⟨by rw [← w.fibre.1, ← hc]; exact p.fibre.1, by rw [p.fibre.2, w.fibre.2]⟩,
           others := OtherFibres.trans w.others (hc ▸ p.others), rest := OnlyFibres.trans w.rest p.rest }
  have hn : Reg.p n = Reg.p ⟨k, hk⟩ ↔ k = n.val := by rw [Reg.p.injEq, Fin.ext_iff]; exact eq_comm
  rw [p.bits ⟨k, hk⟩ l hl, w.bits k hk l hl]
  by_cases hkn : k = n.val
  · subst hkn; by_cases hm : m.getLsbD l = true <;> simp [hm]
  · simp [hn, hkn]

/-- What S2P writes of one predicate (R261). -/
def movePred (mask : Nat) (m : LaneMask) (val : Nat → Nat → Bool) (t : State) (k : Nat) : State :=
  if mask.testBit k then writePred t m (.reg (.p (Fin.ofNat 7 k)) false false) (val k) else t

/-- The predicates of a mask below `n + 1`: those below `n`, and `n` itself. -/
theorem below_succ (mask n : Nat) : (fun k => decide (k < n + 1) && mask.testBit k) =
    fun k => decide (k < n) && mask.testBit k || mask.testBit n && decide (k = n) := by
  funext k
  rcases Nat.lt_trichotomy k n with h | rfl | h
  · simp [h, Nat.lt_succ_of_lt h, Nat.ne_of_lt h]
  · simp
  · simp [Nat.not_lt_of_lt h, Nat.not_lt.2 h, Nat.ne_of_gt h]

/-- The first `n` predicates after their turn. -/
theorem movePred_fold (s : State) (mask : Nat) (m : LaneMask) (val : Nat → Nat → Bool) (h : hasFib s s.cur = true) :
    ∀ n ≤ 7, MovedPreds s ((List.range n).foldl (movePred mask m val) s) m (fun k => decide (k < n) && mask.testBit k) val := by
  intro n
  induction n with
  | zero => intro _; simpa using MovedPreds.refl s m val
  | succ n ih =>
    intro hn
    have w := ih (by omega)
    rw [List.range_succ, List.foldl_append, List.foldl_cons, List.foldl_nil, below_succ]
    generalize (List.range n).foldl (movePred mask m val) s = t at *
    unfold movePred
    split
    · next hb =>
      have e : (Fin.ofNat 7 n).val = n := Nat.mod_eq_of_lt hn
      have k := MovedPreds.snoc w (n := Fin.ofNat 7 n) (by rw [e]; exact writePred_wrote (neg := false) (abs := false) (MovedPreds.hasFib w h))
      simpa only [e, hb, Bool.true_and] using k
    · next hb => simpa [hb] using w

theorem execS2p_eq (a : Args) (s : State) : exec (.s2p a) s =
    .next (goOn ((List.range 7).foldl (movePred (codeOf a.s1) (active s a) fun k i => (srcVal s .b32 0 a.s0 i).testBit k) s)) := rfl

/-- The fibre of the issue after its lanes went on. -/
theorem wentOn_me {s u t : State} (hc : u.cur = s.cur) (w : WentOn s u t) : me t = { me u with lanes := (me t).lanes } := by
  have ht : t.cur = s.cur := by rw [w.rest]; exact hc
  unfold me
  rw [ht, hc]
  exact w.fibre.2

theorem predicateMoves : PredicateMoves := by
  refine ⟨?_, ?_, fun a s h => ?_⟩
  · exact decides_of_execPred fun a s => congrArg (execPred a · s) (funext fun l => lutBit_eq ..)
  · refine computes_of_lt (fun _ _ => rfl) (fun _ _ _ => Nat.lt_trans (ofBits_lt 7 _) (show 2 ^ 7 < 2 ^ 32 by decide))
      fun a s l => ⟨ofBits_lt _ _, fun k hk => ?_⟩
    rw [testBit_ofBits, decide_eq_true hk, Bool.true_and]
  · rw [execS2p_eq]
    have w := movePred_fold s (codeOf a.s1) (active s a) (fun k i => (srcVal s .b32 0 a.s0 i).testBit k) h 7 le_rfl
    generalize (List.range 7).foldl _ s = u at *
    have hc : u.cur = s.cur := by rw [w.rest]
    have o : WentOn s u (goOn u) := goOn_wentOn hc (by rw [w.rest]) (by rw [w.rest]) (MovedPreds.hasFib w h)
    have hm := wentOn_me hc o
    have ht : (goOn u).cur = s.cur := by rw [o.rest]; exact hc
    refine ⟨_, rfl, fun k hk l hl => ?_, fun l hl => ?_, ?_, OtherFibres.trans w.others o.others, OnlyFibres.trans w.rest o.rest⟩
    · rw [hm]; exact (w.bits k hk l hl).trans (by simp [hk])
    · have hl' := o.lanes l hl
      have hu : laneAt (me u) l = laneAt (me s) l := by rw [w.fibre.2]; rfl
      rw [← hu]
      unfold me
      rw [ht, hc]
      exact hl'
    · rw [hm, w.fibre.2]

/-- Settles O3: each rule is the instruction's own value, S2P by one predicate after the other. -/
theorem compareSelectMove : Obligations.CompareSelectMove := ⟨compareSelect, predicateMoves⟩

end Sys2Proof.Proofs
end

section
/-! SUPPORT. Cross-lane instructions (R262 to R266). -/

namespace Sys2Proof.Proofs
open Sys2Proof.Machine Sys2Proof.Claims Sys2Proof.Laws

/-! ## SHFL (R263) -/

theorem shflLane_nonneg (s : State) (a : Args) (i : Nat) (h : (shflControl a).1 ≠ 2) : 0 ≤ shflLane s a i := by
  simp only [shflLane, if_neg h]
  split <;> exact Int.natCast_nonneg _

/-- The model's source lane is the statement's, where that is valid (R263). -/
theorem shflSource_eq (mode wl i : Nat) (l : Int) (h : mode ≠ 2 → 0 ≤ l) :
    shflSource mode wl i l =
      let f := shuffleFrom mode (2 ^ wl) i l
      if (f.2 && decide (0 ≤ f.1)) = true then some f.1.toNat else none := by
  have hb : ((i - i % 2 ^ wl : Nat) : Int) = (i : Int) - (i : Int) % ((2 ^ wl : Nat) : Int) := by
    rw [Nat.cast_sub (Nat.mod_le ..), Int.natCast_mod]
  have valid (j : Nat) : (if (true && decide (0 ≤ (j : Int))) = true then some (j : Int).toNat else none) = some j := by simp
  match mode with
  | 0 =>
    obtain ⟨n, rfl⟩ := Int.eq_ofNat_of_zero_le (h (by decide))
    simp only [shflSource, shuffleFrom, ← hb, Int.toNat_natCast]
    exact_mod_cast (valid (i - i % 2 ^ wl + n % 2 ^ wl)).symm
  | 1 =>
    obtain ⟨n, rfl⟩ := Int.eq_ofNat_of_zero_le (h (by decide))
    have hi : (i : Int) - ((i - i % 2 ^ wl : Nat) : Int) = ((i - (i - i % 2 ^ wl) : Nat) : Int) := (Nat.cast_sub (Nat.sub_le ..)).symm
    simp only [shflSource, shuffleFrom, ← hb, hi, Int.toNat_natCast]
    exact_mod_cast (valid (i - i % 2 ^ wl + (i - (i - i % 2 ^ wl) + n) % 2 ^ wl)).symm
  | 2 =>
    simp only [shflSource, shuffleFrom, ← hb, Nat.cast_add, Bool.and_eq_true, decide_eq_true_eq]
    generalize i - i % 2 ^ wl = b
    generalize 2 ^ wl = w
    by_cases hj : (b : Int) ≤ i + l ∧ (i : Int) + l < b + w
    · rw [if_pos hj, if_pos ⟨hj, by omega⟩]
    · rw [if_neg hj, if_neg fun k => hj k.1]
  | n + 3 =>
    obtain ⟨n, rfl⟩ := Int.eq_ofNat_of_zero_le (h (by omega))
    simp only [shflSource, shuffleFrom, Int.toNat_natCast]
    have e : ((n : Int) % ((2 ^ wl : Nat) : Int)).toNat = n % 2 ^ wl := by rw [← Int.natCast_mod, Int.toNat_natCast]
    rw [e]
    exact (valid _).symm

/-- The lane SHFL reads for lane `i`: the active source, or `i` itself. -/
def shflReads (a : Args) (s : State) (i : Nat) : Nat :=
  if shuffleOk a s i then (shuffleFrom (shflControl a).1 (2 ^ (shflControl a).2) i (shflLane s a i)).1.toNat else i

theorem filter_guarded {c : Bool} {j : Nat} {p : Nat → Bool} :
    (if c = true then some j else none).filter p = if (c && p j) = true then some j else none := by
  cases c <;> cases hp : p j <;> simp [Option.filter, hp]

theorem shflSource_active (a : Args) (s : State) (i : Nat) :
    (shflSource (shflControl a).1 (shflControl a).2 i (shflLane s a i)).filter (fun j => (active s a).getLsbD j) =
      if shuffleOk a s i then some (shflReads a s i) else none := by
  rw [shflSource_eq _ _ _ _ (shflLane_nonneg s a i), filter_guarded]
  change (if shuffleOk a s i = true then _ else _) = _
  unfold shflReads
  split <;> rfl

theorem execShfl_eq (a : Args) (s : State) : exec (.shfl a) s =
    .next (goOn (writePred (writeOpnd s (active s a) a.d.opnd (tyIs64 a.ty) fun i => src0 a s (shflReads a s i)) (active s a) a.s3
      (shuffleOk a s))) := by
  change execShfl a s = _
  have hr : ∀ i, (if shuffleOk a s i then some (shflReads a s i) else none).getD i = shflReads a s i := by
    intro i; unfold shflReads; split <;> rfl
  have hp : ∀ i, (if shuffleOk a s i then some (shflReads a s i) else none).isSome = shuffleOk a s i := by
    intro i; cases shuffleOk a s i <;> rfl
  simp only [execShfl, shflSource_active, hr, hp]
  rfl

/-- A field that names no register takes no predicate. -/
theorem writePred_noReg {s : State} {m : LaneMask} {o : Opnd} {val : Nat → Bool} (h : ∀ r neg abs, o ≠ .reg r neg abs) :
    writePred s m o val = s := by
  cases o with
  | reg r neg abs => exact absurd rfl (h r neg abs)
  | _ => rfl

/-- After a predicate is written, or none, the lanes of the issue group go on. -/
theorem writePred_wentOn {s : State} (m : LaneMask) (o : Opnd) (val : Nat → Bool) (h : hasFib s s.cur = true) :
    WentOn s (writePred s m o val) (goOn (writePred s m o val)) := by
  cases o with
  | reg r neg abs => exact wrotePred_wentOn (writePred_wrote h) h
  | _ => exact goOn_wentOn rfl rfl rfl h

theorem shuffle : Shuffle := by
  intro a s r n b h hd
  have hu := writeOpnd_wrote (m := active s a) (r := r) (wide := tyIs64 a.ty) (neg := n) (abs := b)
    (val := fun i => src0 a s (shflReads a s i)) (P := fun i v => v = src0 a s (shflReads a s i)) h fun i _ _ =>
    mod_pow_eq (srcVal_lt ..) (le_valueBits _ r)
  rw [← hd] at hu
  have h1 := Wrote.hasFib hu h
  refine ⟨_, _, _, execShfl_eq a s, hu, fun q n' b' hq => ?_, writePred_noReg,
    WentOn.of_issue (wrote_issue hu) (writePred_wentOn _ _ _ h1)⟩
  rw [hq]
  exact writePred_wrote h1

/-! ## LANEWR (R264) -/

/-- The last of a rising list is its greatest. -/
theorem getLast?_of_greatest {L : List Nat} (hs : L.Pairwise (· < ·)) {i : Nat} (hi : i ∈ L) (hm : ∀ k ∈ L, k ≤ i) : L.getLast? = some i := by
  have hne : L ≠ [] := List.ne_nil_of_mem hi
  rw [List.getLast?_eq_some_getLast hne]
  have h1 : i ≤ L.getLast hne := List.Pairwise.rel_getLast (R := (· ≤ ·)) (hs.imp Nat.le_of_lt) hi
  exact congrArg some (Nat.le_antisymm (hm _ (List.getLast_mem hne)) h1)

/-- The lanes that name lane `j`, ascending. -/
def namers (a : Args) (s : State) (j : Nat) : List Nat := (lanesOf (active s a)).filter fun i => srcVal s .n32 0 a.s1 i % 32 == j

theorem mem_namers {a : Args} {s : State} {i j : Nat} : i ∈ namers a s j ↔ i ∈ lanesOf (active s a) ∧ srcVal s .n32 0 a.s1 i % 32 = j := by
  simp [namers]

theorem namers_rising (a : Args) (s : State) (j : Nat) : (namers a s j).Pairwise (· < ·) :=
  (List.pairwise_lt_range.filter _).filter _

/-- The active lanes that some active lane names. -/
def targeted (a : Args) (s : State) : LaneMask := maskOf fun j => (active s a).getLsbD j && (namers a s j).getLast?.isSome

theorem getLsbD_targeted (a : Args) (s : State) {j : Nat} (hj : j < 32) : (targeted a s).getLsbD j = true ↔
    (active s a).getLsbD j = true ∧ ∃ i ∈ lanesOf (active s a), srcVal s .n32 0 a.s1 i % 32 = j := by
  rw [targeted, getLsbD_maskOf _ hj, Bool.and_eq_true, List.getLast?_isSome, ← List.length_pos_iff, List.length_pos_iff_exists_mem]
  simp only [mem_namers]

theorem execLanewr_eq (a : Args) (s : State) : exec (.lanewr a) s =
    .next (goOn (writeQuiet s (targeted a s) a.d.opnd (tyIs64 a.ty) fun j => src0 a s ((namers a s j).getLast?.getD j))) := rfl

theorem laneWrite : LaneWrite := by
  intro a s r n b h hd
  have hu := writeQuiet_wrote (m := targeted a s) (r := r) (wide := tyIs64 a.ty) (neg := n) (abs := b)
    (val := fun j => src0 a s ((namers a s j).getLast?.getD j))
    (P := fun j v => ∀ i ∈ lanesOf (active s a), srcVal s .n32 0 a.s1 i % 32 = j →
          (∀ k ∈ lanesOf (active s a), srcVal s .n32 0 a.s1 k % 32 = j → k ≤ i) → v = src0 a s i) h fun j _ _ i hi hj hm => by
    have hl := getLast?_of_greatest (namers_rising a s j) (mem_namers.2 ⟨hi, hj⟩) fun k hk => hm k (mem_namers.1 hk).1 (mem_namers.1 hk).2
    rw [hl]
    exact mod_pow_eq (srcVal_lt ..) (le_valueBits _ r)
  rw [← hd] at hu
  exact ⟨_, _, _, execLanewr_eq a s, fun j hj => getLsbD_targeted a s hj, hu, wrote_wentOn hu h⟩

/-! ## VOTE (R265) -/

section
variable {a : Args} {s : State}

/-- A lane's vote: its predicate after the modifier. -/
def votes (a : Args) (s : State) (i : Nat) : Bool := srcVal s .pred 0 a.s0 i == 1

theorem length_votes_all : (((lanesOf (active s a)).filter (votes a s)).length == (lanesOf (active s a)).length) =
    (lanesOf (active s a)).all (votes a s) := by
  rw [Bool.eq_iff_iff, beq_iff_eq, List.length_filter_eq_length_iff, List.all_eq_true]

theorem length_votes_any : (((lanesOf (active s a)).filter (votes a s)).length != 0) = (lanesOf (active s a)).any (votes a s) := by
  rw [Bool.eq_iff_iff, bne_iff_ne, ← Nat.pos_iff_ne_zero, List.length_filter_pos_iff, List.any_eq_true]

theorem length_votes_none : (((lanesOf (active s a)).filter (votes a s)).length == 0) = (lanesOf (active s a)).all fun i => !(votes a s i) := by
  rw [← List.not_any_eq_all_not, ← length_votes_any, bne, Bool.not_not]

theorem execVote_all (h : codeOf a.s1 = 0) : exec (.vote a) s = execPred a (fun _ => (lanesOf (active s a)).all (votes a s)) s := by
  change execVote a s = _
  simp only [execVote, h]
  rw [← length_votes_all]; rfl

theorem execVote_any (h : codeOf a.s1 = 1) : exec (.vote a) s = execPred a (fun _ => (lanesOf (active s a)).any (votes a s)) s := by
  change execVote a s = _
  simp only [execVote, h]
  rw [← length_votes_any]; rfl

theorem execVote_cnt (h : codeOf a.s1 = 2) : exec (.vote a) s = execMap a false (fun _ => (lanesOf (active s a)).countP (votes a s)) s := by
  change execVote a s = _
  simp only [execVote, h]
  rw [List.countP_eq_length_filter]; rfl

theorem execVote_mask (h : codeOf a.s1 = 3) : exec (.vote a) s =
    execMap a false (fun _ => ofBits 32 fun i => (active s a).getLsbD i && votes a s i) s := by
  change execVote a s = _
  simp only [execVote, h]
  rw [← foldl_lanes_eq_ofBits]; rfl

theorem execVote_same (h : 4 ≤ codeOf a.s1) : exec (.vote a) s =
    execPred a (fun _ => (lanesOf (active s a)).all (votes a s) || (lanesOf (active s a)).all fun i => !(votes a s i)) s := by
  change execVote a s = _
  obtain ⟨n, hn⟩ := Nat.exists_eq_add_of_le' h
  simp only [execVote, hn]
  rw [← length_votes_all, ← length_votes_none]; rfl

end

theorem countP_lanesOf_le (m : LaneMask) (p : Nat → Bool) : (lanesOf m).countP p ≤ 32 :=
  List.countP_le_length.trans ((List.length_filter_le _ _).trans (List.length_range ▸ le_rfl))

theorem vote : Vote := by
  intro a s r n b h hd
  -- In each mode one clause is what was written; the code of the instruction rules out the others.
  obtain hc | hc | hc | hc | hc : codeOf a.s1 = 0 ∨ codeOf a.s1 = 1 ∨ codeOf a.s1 = 2 ∨ codeOf a.s1 = 3 ∨ 4 ≤ codeOf a.s1 := by omega
  · obtain ⟨u, t, he, hu, ho⟩ := execPred_spec (val := fun _ => (lanesOf (active s a)).all (votes a s)) h hd
    refine ⟨u, t, (execVote_all hc).trans he, ho, fun _ => hu, ?_, ?_, ?_, ?_⟩ <;> intro e <;> omega
  · obtain ⟨u, t, he, hu, ho⟩ := execPred_spec (val := fun _ => (lanesOf (active s a)).any (votes a s)) h hd
    refine ⟨u, t, (execVote_any hc).trans he, ho, ?_, fun _ => hu, ?_, ?_, ?_⟩ <;> intro e <;> omega
  · have hlt : (lanesOf (active s a)).countP (votes a s) < 2 ^ 32 := Nat.lt_of_le_of_lt (countP_lanesOf_le ..) (by decide)
    obtain ⟨u, t, he, hu, ho⟩ := execMap_spec (wide := false) (val := fun _ => (lanesOf (active s a)).countP (votes a s))
      (P := fun _ v => v = (lanesOf (active s a)).countP (votes a s)) h hd fun _ _ _ => mod_pow_eq hlt (le_valueBits false r)
    refine ⟨u, t, (execVote_cnt hc).trans he, ho, ?_, ?_, fun _ => hu, ?_, ?_⟩ <;> intro e <;> omega
  · obtain ⟨u, t, he, hu, ho⟩ := execMap_spec (wide := false) (val := fun _ => ofBits 32 fun i => (active s a).getLsbD i && votes a s i)
      (P := fun _ v => v < 2 ^ 32 ∧ ∀ i < 32, v.testBit i = ((active s a).getLsbD i && votes a s i)) h hd fun _ _ _ => by
        rw [mod_pow_eq (ofBits_lt 32 _) (le_valueBits false r)]
        exact ⟨ofBits_lt 32 _, fun i hi => by rw [testBit_ofBits, decide_eq_true hi, Bool.true_and]⟩
    refine ⟨u, t, (execVote_mask hc).trans he, ho, ?_, ?_, ?_, fun _ => hu, ?_⟩ <;> intro e <;> omega
  · obtain ⟨u, t, he, hu, ho⟩ := execPred_spec
      (val := fun _ => (lanesOf (active s a)).all (votes a s) || (lanesOf (active s a)).all fun i => !(votes a s i)) h hd
    refine ⟨u, t, (execVote_same hc).trans he, ho, ?_, ?_, ?_, ?_, fun _ => hu⟩ <;> intro e <;> omega

/-! ## REDUX (R266) -/

/-- A fold that keeps, of two values, one that `r` puts first: its result is first among all, and one of them. -/
theorem foldl_select {r : Int → Int → Prop} (hrefl : ∀ x, r x x) (htrans : ∀ x y z, r x y → r y z → r x z) {op : Int → Int → Int}
    (hl : ∀ x y, r (op x y) x) (hr : ∀ x y, r (op x y) y) (hs : ∀ x y, op x y = x ∨ op x y = y) (f : Nat → Int) (L : List Nat) (x : Int) :
    r (L.foldl (fun x v => op x (f v)) x) x ∧ (∀ v ∈ L, r (L.foldl (fun x v => op x (f v)) x) (f v)) ∧
      (L.foldl (fun x v => op x (f v)) x = x ∨ ∃ v ∈ L, L.foldl (fun x v => op x (f v)) x = f v) := by
  induction L generalizing x with
  | nil => exact ⟨hrefl x, by simp, .inl rfl⟩
  | cons v L ih =>
    rw [List.foldl_cons]
    obtain ⟨h0, hv, he⟩ := ih (op x (f v))
    refine ⟨htrans _ _ _ h0 (hl ..), fun w hw => ?_, ?_⟩
    · rcases List.mem_cons.1 hw with rfl | hw
      · exact htrans _ _ _ h0 (hr ..)
      · exact hv w hw
    · rcases he with he | ⟨w, hw, he⟩
      · rcases hs x (f v) with h | h
        · exact .inl (he.trans h)
        · exact .inr ⟨v, List.mem_cons_self, he.trans h⟩
      · exact .inr ⟨w, List.mem_cons_of_mem _ hw, he⟩

/-- From a start that `r` puts last, the fold is first among the values and one of them, if there is any. -/
theorem foldl_select_last {r : Int → Int → Prop} (hrefl : ∀ x, r x x) (htrans : ∀ x y z, r x y → r y z → r x z)
    (hanti : ∀ x y, r x y → r y x → x = y) {op : Int → Int → Int} (hl : ∀ x y, r (op x y) x) (hr : ∀ x y, r (op x y) y)
    (hs : ∀ x y, op x y = x ∨ op x y = y) {f : Nat → Int} {x : Int} (hx : ∀ v, r (f v) x) (L : List Nat) :
    (∀ v ∈ L, r (L.foldl (fun x v => op x (f v)) x) (f v)) ∧
      ((∃ v ∈ L, L.foldl (fun x v => op x (f v)) x = f v) ∨ L = [] ∧ L.foldl (fun x v => op x (f v)) x = x) := by
  obtain ⟨-, hv, he⟩ := foldl_select hrefl htrans hl hr hs f L x
  refine ⟨hv, ?_⟩
  rcases he with he | he
  · cases L with
    | nil => exact .inr ⟨rfl, rfl⟩
    | cons v L => exact .inl ⟨v, List.mem_cons_self, hanti _ _ (hv v List.mem_cons_self) (he.symm ▸ hx v)⟩
  · exact .inl he

theorem testBit_foldl_and (L : List Nat) (x k : Nat) :
    (L.foldl (fun x v => x &&& v) x).testBit k = (x.testBit k && L.all fun v => v.testBit k) := by
  induction L generalizing x with
  | nil => simp
  | cons v L ih => rw [List.foldl_cons, ih, Nat.testBit_and, List.all_cons, Bool.and_assoc]

theorem testBit_foldl_or (L : List Nat) (x k : Nat) :
    (L.foldl (fun x v => x ||| v) x).testBit k = (x.testBit k || L.any fun v => v.testBit k) := by
  induction L generalizing x with
  | nil => simp
  | cons v L ih => rw [List.foldl_cons, ih, Nat.testBit_or, List.any_cons, Bool.or_assoc]

theorem testBit_foldl_xor (L : List Nat) (x k : Nat) :
    (L.foldl (fun x v => x ^^^ v) x).testBit k = (x.testBit k ^^ decide ((L.countP fun v => v.testBit k) % 2 = 1)) := by
  induction L generalizing x with
  | nil => simp
  | cons v L ih =>
    rw [List.foldl_cons, ih, Nat.testBit_xor, Bool.xor_assoc, List.countP_cons]
    congr 1
    cases v.testBit k
    · simp
    · rcases Nat.mod_two_eq_zero_or_one (L.countP fun v => v.testBit k) with h | h <;> simp [h, Nat.add_mod]

theorem reduxResult_lt (t : Ty) (clamp : Bool) (op : Nat) (L : List Nat) : reduxResult t clamp op L < 2 ^ tyWidth t := by
  unfold reduxResult; split <;> exact wrap_lt _ _

theorem reduxResult_add (t : Ty) (clamp : Bool) (L : List Nat) : IntThroughD t clamp (L.map (intOf t)).sum (reduxResult t clamp 0 L) := by
  have e : reduxFold t 0 L = (L.map (intOf t)).sum := by rw [List.sum_eq_foldl, List.foldl_map]; rfl
  rw [← e]
  exact intResult_throughD ..

/-- The least of the values, which for none is the largest the type holds. -/
theorem reduxFold_min (t : Ty) (L : List Nat) : (∀ v ∈ L, reduxFold t 1 L ≤ intOf t v) ∧
    ((∃ v ∈ L, reduxFold t 1 L = intOf t v) ∨ L = [] ∧ reduxFold t 1 L = maxValue t) :=
  foldl_select_last (r := (· ≤ ·)) le_refl (fun _ _ _ => le_trans) (fun _ _ => le_antisymm) min_le_left min_le_right min_choice
    (fun v => (intOf_range t v).2) L

/-- The greatest of the values, which for none is the least the type holds. -/
theorem reduxFold_max (t : Ty) (L : List Nat) : (∀ v ∈ L, intOf t v ≤ reduxFold t 2 L) ∧
    ((∃ v ∈ L, reduxFold t 2 L = intOf t v) ∨ L = [] ∧ reduxFold t 2 L = minValue t) :=
  foldl_select_last (r := (· ≥ ·)) le_refl (fun _ _ _ => ge_trans) (fun _ _ => ge_antisymm) le_max_left le_max_right max_choice
    (fun v => (intOf_range t v).1) L

/-- An operation whose result is one of the values, or an end of the range, is exact. -/
theorem intOf_reduxResult {t : Ty} (clamp : Bool) {op : Nat} {L : List Nat} (h : op ≠ 0)
    (hr : minValue t ≤ reduxFold t op L ∧ reduxFold t op L ≤ maxValue t) : intOf t (reduxResult t clamp op L) = reduxFold t op L := by
  rw [reduxResult, if_neg h, intOf_wrap hr.1 hr.2]

theorem reduxFold_min_range (t : Ty) (L : List Nat) : minValue t ≤ reduxFold t 1 L ∧ reduxFold t 1 L ≤ maxValue t := by
  rcases (reduxFold_min t L).2 with ⟨v, -, h⟩ | ⟨-, h⟩
  · rw [h]; exact intOf_range t v
  · rw [h]; exact ⟨(minValue_nonpos t).trans (maxValue_nonneg t), le_rfl⟩

theorem reduxFold_max_range (t : Ty) (L : List Nat) : minValue t ≤ reduxFold t 2 L ∧ reduxFold t 2 L ≤ maxValue t := by
  rcases (reduxFold_max t L).2 with ⟨v, -, h⟩ | ⟨-, h⟩
  · rw [h]; exact intOf_range t v
  · rw [h]; exact ⟨le_rfl, (minValue_nonpos t).trans (maxValue_nonneg t)⟩

/-- The bits of an operation on bit patterns. -/
theorem testBit_reduxResult {t : Ty} (clamp : Bool) {op n k : Nat} {L : List Nat} (h : op ≠ 0) (hn : reduxFold t op L = (n : Int))
    (hk : k < tyWidth t) : (reduxResult t clamp op L).testBit k = n.testBit k := by
  rw [reduxResult, if_neg h, testBit_wrap hk, hn, intBit_natCast]

theorem testBit_redux_and (t : Ty) (clamp : Bool) (L : List Nat) {k : Nat} (hk : k < tyWidth t) :
    (reduxResult t clamp 3 L).testBit k = L.all fun v => v.testBit k := by
  rw [testBit_reduxResult clamp (by decide) rfl hk, testBit_foldl_and, Nat.testBit_two_pow_sub_one, decide_eq_true hk, Bool.true_and]

theorem testBit_redux_or (t : Ty) (clamp : Bool) (L : List Nat) {k : Nat} (hk : k < tyWidth t) :
    (reduxResult t clamp 4 L).testBit k = L.any fun v => v.testBit k := by
  rw [testBit_reduxResult clamp (by decide) rfl hk, testBit_foldl_or, Nat.zero_testBit, Bool.false_or]

theorem testBit_redux_xor (t : Ty) (clamp : Bool) (L : List Nat) {op k : Nat} (h : 5 ≤ op) (hk : k < tyWidth t) :
    (reduxResult t clamp op L).testBit k = decide ((L.countP fun v => v.testBit k) % 2 = 1) := by
  obtain ⟨n, rfl⟩ := Nat.exists_eq_add_of_le' h
  rw [testBit_reduxResult clamp (by omega) rfl hk, testBit_foldl_xor, Nat.zero_testBit, Bool.false_xor]

theorem execRedux_eq (a : Args) (s : State) : exec (.redux a) s = execMap a (tyIs64 a.ty)
    (fun i => reduxResult a.ty a.d.clamp (codeOf a.s1 % 8) ((reduxLanes a s i).map (src0 a s))) s := rfl

theorem reduxOf_reduxResult (a : Args) (s : State) (i : Nat) :
    ReduxOf a s i (reduxResult a.ty a.d.clamp (codeOf a.s1 % 8) ((reduxLanes a s i).map (src0 a s))) := by
  refine ⟨reduxResult_lt .., ?_⟩
  generalize reduxLanes a s i = L
  split
  · next h => 
    have e : L.map (int0 a s) = (L.map (src0 a s)).map (intOf a.ty) := List.map_map.symm
    rw [h, e]; exact reduxResult_add ..
  · next h =>
    rw [h, intOf_reduxResult _ (by decide) (reduxFold_min_range ..)]
    simpa [int0] using reduxFold_min a.ty (L.map (src0 a s))
  · next h =>
    rw [h, intOf_reduxResult _ (by decide) (reduxFold_max_range ..)]
    simpa [int0] using reduxFold_max a.ty (L.map (src0 a s))
  · next h => intro k hk; rw [h, testBit_redux_and _ _ _ hk, List.all_map]; rfl
  · next h => intro k hk; rw [h, testBit_redux_or _ _ _ hk, List.any_map]; rfl
  · next h0 h1 h2 h3 h4 =>
    simp only [imp_false] at h0 h1 h2 h3 h4
    intro k hk
    rw [testBit_redux_xor _ _ _ (by omega) hk, List.countP_map]; rfl

theorem reduce : Reduce :=
  computes_of_lt_tyWidth execRedux_eq (fun _ _ _ => reduxResult_lt ..) reduxOf_reduxResult

/-- Settles O4: SHFL by the source lane of its mode, LANEWR by the greatest lane that names another, VOTE by mode, REDUX by operation. -/
theorem crossLane : Obligations.CrossLane := ⟨shuffle, laneWrite, vote, reduce⟩

end Sys2Proof.Proofs
end

section
/-! SUPPORT. The codes that rounding gives, and their widths (spec/11). -/

namespace Sys2Proof.Proofs
open Sys2Proof.Machine Sys2Proof.Claims Sys2Proof.Laws

/-! ## The codes of results (R269, R277) -/

/-- A code that rounding to a format can give: its NaN, or the magnitude of a finite value or an infinity, with a sign. -/
def IsResult (f : FloatFmt) (c : Nat) : Prop :=
  c = f.nan ∨ ∃ neg m, (m ≤ f.maxCode ∨ f.inf = some m) ∧ c = withSign f neg m

theorem isResult_nan (f : FloatFmt) : IsResult f f.nan := .inl rfl

theorem isResult_finite {f : FloatFmt} {m : Nat} (neg : Bool) (h : m ≤ f.maxCode) : IsResult f (withSign f neg m) :=
  .inr ⟨neg, m, .inl h, rfl⟩

theorem isResult_inf {f : FloatFmt} {i : Nat} (neg : Bool) (h : f.inf = some i) : IsResult f (withSign f neg i) :=
  .inr ⟨neg, i, .inr h, rfl⟩

@[simp] theorem withSign_false (f : FloatFmt) (m : Nat) : withSign f false m = m := by unfold withSign; split <;> rfl

theorem withSign_unsigned {f : FloatFmt} (h : f.sign = none) (neg : Bool) (m : Nat) : withSign f neg m = m := by simp only [withSign, h]

theorem isResult_zero (f : FloatFmt) : IsResult f 0 := by simpa using isResult_finite (f := f) false (Nat.zero_le _)

theorem overflowCode_isResult (f : FloatFmt) (mode : RMode) (clamp exact neg : Bool) : IsResult f (overflowCode f mode clamp exact neg) := by
  have hmax : IsResult f (withSign f neg f.maxCode) := isResult_finite neg le_rfl
  have hbeyond : IsResult f (match f.inf with | some i => withSign f neg i | none => f.nan) := by
    split
    · next i hi => exact isResult_inf neg hi
    · exact isResult_nan f
  unfold overflowCode
  refine iteInduction (motive := IsResult f) (fun _ => ?_) fun _ => ?_
  · exact iteInduction (fun _ => isResult_zero f) fun _ => isResult_nan f
  · exact iteInduction (fun _ => hmax) fun _ => iteInduction (fun _ => hmax) fun _ => hbeyond

theorem roundTo_isResult (f : FloatFmt) (rd : Rounding) (clamp : Bool) (x : Machine.Num) : IsResult f (roundTo f rd clamp x) := by
  cases x with
  | nan => exact isResult_nan f
  | inf neg => exact overflowCode_isResult ..
  | fin neg m e =>
    simp only [roundTo]
    generalize (if m = 0 then 0 else magCode f rd neg m e) = c
    split
    · exact overflowCode_isResult ..
    · next hc =>
      have hfin : IsResult f (withSign f neg c) := isResult_finite neg (Nat.le_of_not_lt hc)
      split
      · next hs =>
        split
        · split
          · exact isResult_zero f
          · exact isResult_nan f
        · rwa [withSign_unsigned hs] at hfin
      · split
        · exact isResult_zero f
        · exact hfin

/-- The results of a format stay below a power of two that its NaN and its negative codes stay below. -/
theorem isResult_lt_of {f : FloatFmt} {c n : Nat} (hn : f.nan < n) (hm : withSign f true f.maxCode < n)
    (hi : ∀ i ∈ f.inf, withSign f true i < n) (h : IsResult f c) : c < n := by
  have sign (neg : Bool) (m : Nat) : withSign f neg m ≤ withSign f true m := by
    cases neg
    · unfold withSign; split <;> simp
    · exact le_rfl
  have mono {m k : Nat} (h : m ≤ k) : withSign f true m ≤ withSign f true k := by
    unfold withSign; split <;> simp [h]
  rcases h with rfl | ⟨neg, m, hm' | hi', rfl⟩
  · exact hn
  · exact ((sign neg m).trans (mono hm')).trans_lt hm
  · exact (sign neg m).trans_lt (hi m hi')

theorem isResult_fmtNarrow_lt {nc c : Nat} (h : IsResult (fmtNarrow nc) c) : c < 2 ^ 8 := by
  unfold fmtNarrow at h
  by_cases hi : (nc / 16 % 2 == 1) = true <;> simp only [hi] at h <;> split at h
  all_goals exact isResult_lt_of (by simp) (by simp [withSign]) (by simp [withSign]) h

theorem fmtOf_of_ne_b8 {t : Ty} (ht : t ≠ .b8) (nc : Nat) : fmtOf t nc = fmtOf t 0 := by
  cases t with
  | b8 => exact absurd rfl ht
  | _ => rfl

theorem fmtOf_of_not_float {t : Ty} (ht : ¬ tyIsFloat t = true) (nc : Nat) : fmtOf t nc = fmtOf .f32 0 := by
  cases t with
  | f64 | f32 | f16 | bf16 | b8 => exact absurd rfl ht
  | _ => rfl

/-- A result of a floating type is a bit pattern of the type. -/
theorem isResult_lt_tyWidth {t : Ty} (ht : tyIsFloat t = true) {nc c : Nat} (h : IsResult (fmtOf t nc) c) : c < 2 ^ tyWidth t := by
  cases t with
  | b8 => exact isResult_fmtNarrow_lt h
  | f64 => exact isResult_lt_of (f := fmtF64) (by decide) (by decide) (by decide) h
  | f32 => exact isResult_lt_of (f := fmtF32) (by decide) (by decide) (by decide) h
  | f16 => exact isResult_lt_of (f := fmtF16) (by decide) (by decide) (by decide) h
  | bf16 => exact isResult_lt_of (f := fmtBF16) (by decide) (by decide) (by decide) h
  | _ => exact absurd ht (by decide)

/-- A result fits the register or the pair that the type asks for; a type that is no float has the format f32. -/
theorem isResult_lt {t : Ty} {nc c : Nat} (h : IsResult (fmtOf t nc) c) : c < 2 ^ (if tyIs64 t then 64 else 32) := by
  by_cases ht : tyIsFloat t = true
  · exact lt_of_lt_tyWidth (isResult_lt_tyWidth ht h)
  · rw [fmtOf_of_not_float ht] at h
    exact Nat.lt_of_lt_of_le (isResult_lt_tyWidth rfl h) (Nat.pow_le_pow_right (by decide) (by split <;> decide))

/-- Source 1 fits the register or the pair that TY asks for, the immediate too (R27). -/
theorem srcB_lt (a : Args) (s : State) (i : Nat) : srcB a s i < 2 ^ (if tyIs64 a.ty then 64 else 32) := by
  unfold srcB src1
  split
  · by_cases hs : a.ty = .s64
    · have hv : immVal a = wrap 64 (toSigned 32 a.imm.toNat) := by simp only [immVal, hs]
      rw [hv, hs]; exact wrap_lt _ _
    · by_cases hf : a.ty = .f64
      · have hv : immVal a = roundTo fmtF64 (.mode .rne) false (decodeFloat .f32 0 a.imm.toNat) := by simp only [immVal, hf]
        rw [hv, hf]; exact isResult_lt_tyWidth (t := .f64) (nc := 0) rfl (roundTo_isResult ..)
      · rw [immVal_eq hs hf]
        exact Nat.lt_of_lt_of_le a.imm.isLt (Nat.pow_le_pow_right (by decide) (by split <;> decide))
  · exact srcVal_lt ..

end Sys2Proof.Proofs
end

section
/-! SUPPORT. Minimum, maximum, compare and classify (R279, R292, R293, R297). -/

namespace Sys2Proof.Proofs
open Sys2Proof.Machine Sys2Proof.Claims Sys2Proof.Laws

/-! ## Minimum and maximum (R279, R292) -/

theorem cmpMag_swap (m : Nat) (e : Int) (n : Nat) (f : Int) : (cmpMag m e n f).swap = cmpMag n f m e := by
  simp only [cmpMag, min_comm e f, Nat.compare_swap]

theorem numLt_asymm {x y : Machine.Num} (h : numLt x y = true) : numLt y x = false := by
  cases x with
  | nan => exact absurd h (by simp [numLt])
  | inf s =>
    cases y with
    | nan => rfl
    | inf t => cases s <;> cases t <;> simp_all [numLt]
    | fin t n f => simpa [numLt] using h
  | fin s m e =>
    cases y with
    | nan => rfl
    | inf t => simpa [numLt] using h
    | fin t n f =>
      have hs := cmpMag_swap m e n f
      cases s <;> cases t <;> simp only [numLt, Bool.false_eq_true, beq_iff_eq] at h ⊢
      · rw [← hs, h]; rfl
      · rw [← hs, h]; rfl

theorem numLt_irrefl (x : Machine.Num) : numLt x x = false := by
  by_contra h
  rw [Bool.not_eq_false] at h
  exact Bool.noConfusion (h.symm.trans (numLt_asymm h))

/-- Of two numbers, one is chosen by the order. -/
theorem floatMinMax_of_numbers {t : Ty} {nc x y : Nat} (isMax : Bool) (hx : decodeFloat t nc x ≠ .nan) (hy : decodeFloat t nc y ≠ .nan) :
    floatMinMax t nc isMax x y = if isMax then (if numLt (decodeFloat t nc x) (decodeFloat t nc y) then y else x)
      else (if numLt (decodeFloat t nc y) (decodeFloat t nc x) then y else x) := by
  simp only [floatMinMax]
  split
  · exact absurd ‹_› hx
  · exact absurd ‹_› hx
  · exact absurd ‹_› hy
  · rfl

/-- The chosen code is an operand, and neither operand lies beyond it. -/
theorem floatMinMax_extreme {t : Ty} {nc x y c : Nat} {isMax : Bool} (hx : decodeFloat t nc x ≠ .nan) (hy : decodeFloat t nc y ≠ .nan)
    (hc : floatMinMax t nc isMax x y = c) : (c = x ∨ c = y) ∧
      if isMax then numLt (decodeFloat t nc c) (decodeFloat t nc x) = false ∧ numLt (decodeFloat t nc c) (decodeFloat t nc y) = false
      else numLt (decodeFloat t nc x) (decodeFloat t nc c) = false ∧ numLt (decodeFloat t nc y) (decodeFloat t nc c) = false := by
  subst hc
  rw [floatMinMax_of_numbers isMax hx hy]
  cases isMax
  · simp only [Bool.false_eq_true, if_false]
    split
    · next h => exact ⟨.inr rfl, numLt_asymm h, numLt_irrefl _⟩
    · next h => exact ⟨.inl rfl, numLt_irrefl _, Bool.eq_false_of_not_eq_true h⟩
  · simp only [if_true]
    split
    · next h => exact ⟨.inr rfl, numLt_asymm h, numLt_irrefl _⟩
    · next h => exact ⟨.inl rfl, numLt_irrefl _, Bool.eq_false_of_not_eq_true h⟩

theorem clampInf_infinity {t : Ty} {c : Nat} {neg : Bool} (h : decodeFloat t 0 c = .inf neg) :
    clampInf t c = withSign (fmtOf t 0) neg (fmtOf t 0).maxCode := by simp only [clampInf, h]

theorem clampInf_other {t : Ty} {c : Nat} (h : ∀ neg, decodeFloat t 0 c ≠ .inf neg) : clampInf t c = c := by
  unfold clampInf
  split
  · next neg hc => exact absurd hc (h neg)
  · rfl

theorem fMinMax_spec (isMax : Bool) (s : State) (a : Args) (x y z : Nat) : MinMaxOf isMax a x y (fMinMax isMax s a x y z) := by
  refine ⟨floatMinMax a.ty 0 isMax x y, ?_, ?_, fun hc => ?_⟩
  · split
    · next hx hy => simp only [floatMinMax, hx, hy]
    · next hx _ => simp only [floatMinMax, hx]
    · next hy _ => simp only [floatMinMax, hy]
    · exact floatMinMax_extreme ‹_› ‹_› rfl
  · unfold fMinMax
    split
    · next hc => exact .inr hc
    · exact .inl rfl
  · have hv : fMinMax isMax s a x y z = clampInf a.ty (floatMinMax a.ty 0 isMax x y) := by simp only [fMinMax, hc, if_true]
    rw [hv]
    split
    · next neg h => exact clampInf_infinity h
    · next h => exact clampInf_other h

/-- What FMIN and FMAX write fits wherever the operands and the format's results fit. -/
theorem minMaxOf_lt {isMax : Bool} {a : Args} {x y v n : Nat} (hf : ∀ c, IsResult (fmtOf a.ty 0) c → c < n) (hx : x < n) (hy : y < n)
    (h : MinMaxOf isMax a x y v) : v < n := by
  obtain ⟨c, hc, hv, hclamp⟩ := h
  have hcn : c < n := by
    split at hc
    · exact hc ▸ hf _ (isResult_nan _)
    · exact hc ▸ hy
    · exact hc ▸ hx
    · rcases hc.1 with rfl | rfl
      · exact hx
      · exact hy
  rcases hv with rfl | hd
  · exact hcn
  · replace hclamp := hclamp hd
    split at hclamp
    · next neg _ => exact hclamp ▸ hf _ (isResult_finite neg le_rfl)
    · exact hclamp ▸ hcn

theorem computes_fMinMax {i : Args → Instr} (isMax : Bool) (hx : ∀ a s, exec (i a) s = execFloat (fMinMax isMax) a s) :
    Computes i wideTy fun a s l v => MinMaxOf isMax a (src0 a s l) (srcB a s l) v :=
  computes_of_lt hx (fun a s l => minMaxOf_lt (fun _ => isResult_lt) (srcVal_lt ..) (srcB_lt a s l) (fMinMax_spec ..))
    fun _ _ _ => fMinMax_spec ..

/-! ## Packed halves (R39, R289) -/

theorem halfOf_lt {t : Ty} (ht : tyWidth t = 16) (s : State) (o : Opnd) (i h : Nat) : halfOf s t o i h < 2 ^ 16 := by
  cases o with
  | reg r neg abs => exact ht ▸ applyMods_lt ..
  | code c => exact Nat.two_pow_pos _
  | none => exact Nat.two_pow_pos _

/-- Each half of a register that two 16-bit results were put together in. -/
theorem half_of_pair {p : Nat → Nat} (hp : ∀ h, p h < 2 ^ 16) {n h : Nat} (hn : 32 ≤ n) (hh : h < 2) :
    (p 0 + 2 ^ 16 * p 1) % 2 ^ n / 2 ^ (16 * h) % 2 ^ 16 = p h := by
  have h0 := hp 0
  have h1 := hp 1
  rw [mod_pow_eq (m := 32) (by omega) hn]
  rcases (by omega : h = 0 ∨ h = 1) with rfl | rfl
  · simp only [mul_zero, pow_zero]; omega
  · simp only [mul_one]; omega

/-- A packed instruction whose operation gives 16-bit results on each pair of halves. -/
theorem computesPacked_of_execPacked {i : Args → Instr} {op : State → Args → Nat → Nat → Nat → Nat}
    {x : Args → State → Nat → Nat → Nat → Nat → Prop} (hx : ∀ a s, exec (i a) s = execPacked op a s)
    (hb : ∀ a s p q r, a.ty = .f16 ∨ a.ty = .bf16 → p < 2 ^ 16 → q < 2 ^ 16 → op s a p q r < 2 ^ 16)
    (hop : ∀ a s p q r, x a s p q r (op s a p q r)) : ComputesPacked i x := by
  refine computes_of_execMap hx fun a s l n hn h hh ht => ?_
  have hw : tyWidth a.ty = 16 := by rcases ht with ht | ht <;> rw [ht] <;> rfl
  have half (k : Nat) : op s a (halfOf s a.ty a.s0 l k) (halfOf s a.ty a.s1 l k) (halfOf s a.ty a.s2 l k) < 2 ^ 16 :=
    hb a s _ _ _ ht (halfOf_lt hw ..) (halfOf_lt hw ..)
  have e := half_of_pair half (n := n) hn hh
  exact e ▸ hop ..

theorem computesPacked_fMinMax {i : Args → Instr} (isMax : Bool) (hx : ∀ a s, exec (i a) s = execPacked (fMinMax isMax) a s) :
    ComputesPacked i fun a _ x y _ v => MinMaxOf isMax a x y v := by
  refine computesPacked_of_execPacked hx (fun a s p q r ht hp hq => ?_) fun _ _ _ _ _ => fMinMax_spec ..
  refine minMaxOf_lt (fun c hc => ?_) hp hq (fMinMax_spec isMax s a p q r)
  rcases ht with ht | ht <;> rw [ht] at hc <;> exact isResult_lt_tyWidth rfl hc

theorem fminFmax : FloatMinMax :=
  ⟨computes_fMinMax false fun _ _ => rfl, computes_fMinMax true fun _ _ => rfl,
    computesPacked_fMinMax false fun _ _ => rfl, computesPacked_fMinMax true fun _ _ => rfl⟩

/-! ## Compare (R293) -/

theorem fsetpRel_ordered (x y : Machine.Num) : fsetpRel 6 x y = (x != .nan && y != .nan) := by
  simp only [fsetpRel, Bool.not_or, bne]

theorem fsetpRel_unordered {x y : Machine.Num} (h : x = .nan ∨ y = .nan) {c : Nat} (hc : c ≠ 6) :
    fsetpRel c x y = (c == 5 || decide (c ≥ 7)) := by
  have hu : (x == .nan || y == .nan) = true := by simpa using h
  simp only [fsetpRel, hu]
  match c, hc with
  | 0, _ | 1, _ | 2, _ | 3, _ | 4, _ | 5, _ => rfl
  | 6, hc => exact absurd rfl hc
  | c + 7, _ => simp

/-! ## Classify (R297) -/

/-- A value in the form a code gives it: a finite one lies in the least binade, or has a full significand (R268, R272). -/
def Normalised (f : FloatFmt) (x : Machine.Num) : Prop :=
  match x with
  | .fin _ m e => e = f.qmin ∨ 2 ^ (f.prec - 1) ≤ m
  | _ => True

theorem codeValue_normalised (f : FloatFmt) (neg : Bool) (c : Nat) : Normalised f (codeValue f neg c) :=
  iteInduction (motive := Normalised f) (fun _ => .inl rfl) fun _ => .inr (Nat.le_add_right _ _)

theorem decodeWide_normalised (f : FloatFmt) (c : Nat) : Normalised f (decodeWide f c) := by
  simp only [decodeWide]
  split
  · refine iteInduction (motive := Normalised f) (fun _ => codeValue_normalised ..) fun _ => ?_
    exact iteInduction (motive := Normalised f) (fun _ => trivial) fun _ => trivial
  · exact codeValue_normalised ..

theorem decodeNarrow_normalised (f : FloatFmt) (c : Nat) : Normalised f (decodeNarrow f c) := by
  unfold decodeNarrow
  split <;> refine iteInduction (motive := Normalised f) (fun _ => trivial) fun _ => ?_ <;>
    exact iteInduction (motive := Normalised f) (fun _ => trivial) fun _ => codeValue_normalised ..

theorem decodeFloat_normalised (t : Ty) (nc c : Nat) : Normalised (fmtOf t nc) (decodeFloat t nc c) := by
  unfold decodeFloat
  split
  · next ht => subst ht; exact decodeNarrow_normalised ..
  · next ht => rw [fmtOf_of_ne_b8 ht]; exact decodeWide_normalised ..

theorem classMask_eq_classOf {f : FloatFmt} {x : Machine.Num} (h : Normalised f x) : classMask f x = classOf f x := by
  cases x with
  | nan => rfl
  | inf neg => rfl
  | fin neg m e =>
    have hs : (e = f.qmin ∧ m < 2 ^ (f.prec - 1)) ↔ m * 2 ^ (e - f.qmin).toNat < 2 ^ (f.prec - 1) := by
      rcases h with rfl | hm
      · simp
      · refine ⟨fun k => absurd k.2 (Nat.not_lt.2 hm), fun k => absurd k (Nat.not_lt.2 (hm.trans ?_))⟩
        exact Nat.le_mul_of_pos_right _ (Nat.two_pow_pos _)
    simp only [classMask, classOf, hs]
    rfl

theorem classMask_lt (f : FloatFmt) (x : Machine.Num) : classMask f x < 2 ^ 32 := by
  unfold classMask
  split
  · decide
  · split <;> decide
  · split
    · split <;> decide
    · split <;> split <;> decide

theorem floatCompareClassify : FloatCompareClassify := by
  refine ⟨decides_of_execPred fun a s => congrArg (execPred a · s) (funext fun l => ?_), ?_⟩
  · dsimp only
    split
    · next h => rw [h]; exact fsetpRel_ordered ..
    · next h =>
      split
      · next hn => exact fsetpRel_unordered hn h
      · next hn =>
        have hu : (decodeFloat a.ty 0 (src0 a s l) == .nan || decodeFloat a.ty 0 (srcVal s a.ty 0 a.s1 l) == .nan) = false := by
          simpa using hn
        show fsetpRel _ (decodeFloat a.ty 0 (src0 a s l)) _ = _
        simp only [fsetpRel, hu, Bool.not_false, Bool.true_and, Bool.false_or]
        match codeOf a.s2, h with
        | 0, _ | 1, _ | 2, _ | 3, _ | 4, _ | 5, _ => rfl
        | 6, h => exact absurd rfl h
        | c + 7, _ => rfl
  · exact computes_of_lt (fun _ _ => rfl) (fun _ _ _ => classMask_lt ..)
      fun a s l => classMask_eq_classOf (decodeFloat_normalised ..)

/-- Settles O6: the chosen operand is extreme (`floatMinMax_extreme`), a relation with NaN is its unordered one, and a code's value is
normalised, so that its significand tells a subnormal. -/
theorem floatSelection : Obligations.FloatSelection := ⟨fminFmax, floatCompareClassify⟩

end Sys2Proof.Proofs
end
